-- ==== Sys2Proof/Word.lean ====
section
/-! DEFINITION. The words of the LX40: bytes, 16-bit and 32-bit fields, and the set of spectrum slots. -/

namespace Sys2Proof

/-- One byte of a frame (chapter 9, section 9.1). -/
abbrev Byte := BitVec 8

/-- A two-byte field: a tag, a local link id, an SRLG half (section 9.1.2). -/
abbrev Word16 := BitVec 16

/-- A four-byte field: an address, a node id, a sequence, an SRLG id (section 9.1.2). -/
abbrev Word32 := BitVec 32

/-- A 32-bit node id (00_scope.md section 4). -/
abbrev NodeId := Word32

/-- A 32-bit frame address (section 9.1.1). -/
abbrev Address := Word32

/-- The number of spectrum slots of a fibre: 0..319 (00_scope.md section 4). -/
abbrev slotCount : Nat := 320

/-- A set of slot indices within 0..319, or of start slots; bit `i` stands for slot `i`
(section 1.3 and R71; on the wire one bit per slot, section 9.1.2). -/
abbrev SlotSet := BitVec 320

end Sys2Proof
end

