-- ==== Sys2Proof/Syntax.lean ====
section
/-! DEFINITION. The steps of the LX40: one constructor of `Instr` per row of spec/opcode_table.json.
A management command's parameters stand in the COMMAND frame at the head of the intake queue
(R159, R160), so the rows of the management commands carry no operand: each row is the event
"the head command is taken, and it is this command". -/

namespace Sys2Proof

/-- The nine ports: line ports LP0..LP7 and the node port NP (00_scope.md section 1.2). -/
inductive Port where
  | lp (i : Fin 8)
  | np
deriving DecidableEq, Repr

/-- The two path search engines PSE-A and PSE-B (section 2 of 00_scope.md). -/
inductive EngineId where
  | a
  | b
deriving DecidableEq, Repr

/-- The part's steps, one constructor per row of spec/opcode_table.json, in the table's order. -/
inductive Instr where
  /-- COLD_RESET (R172), with the strap pins ADDR3..ADDR0 as they stand at the release. -/
  | coldReset (straps : BitVec 4)
  /-- FRAME_ARRIVAL (R156): a frame's bytes, from the destination address to the end of the frame
  check; on NP the node-port tag comes before them, outside the frame (section 9.1.1). -/
  | frameArrival (port : Port) (tag : Option Byte) (bytes : List Byte)
  /-- READ_STATUS (R175). -/
  | readStatus
  /-- READ_CONFIG (R174). -/
  | readConfig
  /-- SET_CONFIG (R174). -/
  | setConfig
  /-- SET_STATE (R169). -/
  | setState
  /-- RESTART_WARM (R173). -/
  | restartWarm
  /-- READ_COUNTERS (R176). -/
  | readCounters
  /-- WRITE_SOURCE_ENTRY (R177). -/
  | writeSourceEntry
  /-- READ_SOURCE_ENTRY (R177). -/
  | readSourceEntry
  /-- QUERY_NODE (R25). -/
  | queryNode
  /-- QUERY_LINK (R26). -/
  | queryLink
  /-- LIST_NODES (R27). -/
  | listNodes
  /-- CLEAR_CROSSINGS (R58). -/
  | clearCrossings
  /-- SUBMIT (R100). -/
  | submit
  /-- CANCEL (R112). -/
  | cancel
  /-- RELEASE_WATCH (R135). -/
  | releaseWatch
  /-- QUERY_WATCH (R137). -/
  | queryWatch
  /-- WRITE_DIALECT_ENTRY (R141). -/
  | writeDialectEntry
  /-- CLEAR_DIALECT (R142). -/
  | clearDialect
  /-- WRITE_CLASS (R143). -/
  | writeClass
  /-- READ_TABLE (R144). -/
  | readTable
  /-- COMMIT (R145). -/
  | commit
  /-- DISCARD_STAGED (R146). -/
  | discardStaged
  /-- ACK_EVENTS (R182). -/
  | ackEvents
  /-- TIMEBASE_INTERVAL (R167): a 100 ms interval ends. -/
  | timebaseInterval
  /-- AGE_TICK (R167): an age tick is taken and the blocks act on it. -/
  | ageTick
  /-- NODE_AGE_EXPIRY (R16): the store acts on a tick at which a LIVE node ages out. -/
  | nodeAgeExpiry
  /-- HOLD_DOWN_EXPIRY (R17): the store acts on a tick at which a WITHDRAWN node is freed. -/
  | holdDownExpiry
  /-- RESERVATION_EXPIRY (R126): the watch list acts on a tick at which a reservation expires. -/
  | reservationExpiry
  /-- EPOCH_TIMER_EXPIRY (R149): Epoch Control acts on a tick at which its timer reaches 0. -/
  | epochTimerExpiry
  /-- SETTLE_TIMER_EXPIRY (R170): State Control acts on a tick at which the settle timer reaches 0. -/
  | settleTimerExpiry
  /-- TRANSLATION_EVENT (R30). -/
  | translationEvent
  /-- RECORD_APPLICATION (R5). -/
  | recordApplication
  /-- EXPANSION (R79), at the engine named. -/
  | expansion (engine : EngineId)
  /-- ENGINE_END_ORDER (R87), taken by the engine named. -/
  | engineEndOrder (engine : EngineId)
  /-- EGRESS_TAKE (R163), at the port named. -/
  | egressTake (port : Port)
  /-- TRANSMISSION_END (R163), at the port named. -/
  | transmissionEnd (port : Port)
  /-- HELD_RESPONSE_ENTERS (R161). -/
  | heldResponseEnters
  /-- COMPLETING_RESULT_ENTERS (R111), for the engine named. -/
  | completingResultEnters (engine : EngineId)
  /-- NOTICE_SEND (R180). -/
  | noticeSend
  /-- UNKNOWN_OR_MALFORMED_COMMAND (R160). -/
  | unknownOrMalformedCommand
deriving DecidableEq, Repr

end Sys2Proof
end

