-- ==== Sys2Proof/Decode.lean ====
section
/-! DEFINITION. The step that a word of spec/opcode_table.json's bits spells. -/

namespace Sys2Proof

/-- No row of the table gives bits: its rows are events of the part (log entry 16), so no word spells
one. -/
def decodeTableWord (_nbits _w : Nat) : Option Instr := none

end Sys2Proof
end

