-- ==== Sys2Proof/Machine/Bytes.lean ====
section
/-! DEFINITION. Byte order (multi-byte fields are sent most significant byte first, section 9.1), the
frame check, and the one-bit-per-slot form of a slot set. -/

namespace Sys2Proof.Machine

/-- The low `n` bytes of `v`, most significant first. -/
def encodeNat : Nat → Nat → List Byte
  | 0, _ => []
  | n + 1, v => BitVec.ofNat 8 (v / 256 ^ n) :: encodeNat n v

/-- The value of a list of bytes, most significant first. -/
def decodeNat (bs : List Byte) : Nat :=
  bs.foldl (fun acc b => acc * 256 + b.toNat) 0

/-- `n` bytes from offset `off`, as a number; bytes beyond the end are not counted. -/
def fieldNat (bs : List Byte) (off n : Nat) : Nat :=
  decodeNat ((bs.drop off).take n)

/-- The byte at an offset, 0 beyond the end. -/
def fieldByte (bs : List Byte) (off : Nat) : Byte :=
  bs.getD off 0

/-- The two-byte field at an offset. -/
def field16 (bs : List Byte) (off : Nat) : Word16 :=
  BitVec.ofNat 16 (fieldNat bs off 2)

/-- The four-byte field at an offset. -/
def field32 (bs : List Byte) (off : Nat) : Word32 :=
  BitVec.ofNat 32 (fieldNat bs off 4)

/-- One bit of the frame check's division by 04C11DB7h (section 9.1.1). -/
def crcBit (r : Word32) : Word32 :=
  if r.msb then (r <<< 1) ^^^ 0x04C11DB7#32 else r <<< 1

/-- One byte enters the frame check, most significant bit first (section 9.1.1). -/
def crcByte (r : Word32) (b : Byte) : Word32 :=
  crcBit (crcBit (crcBit (crcBit (crcBit (crcBit (crcBit (crcBit
    (r ^^^ (b.setWidth 32 <<< 24)))))))))

/-- The frame check of a header and payload: the register starts at FFFFFFFFh and the remainder is
complemented (section 9.1.1). -/
def crc32 (bs : List Byte) : Word32 :=
  ~~~(bs.foldl crcByte 0xFFFFFFFF#32)

/-- The slots `start` to `start + n − 1` that lie within 0..319 (00_scope.md section 4). -/
def slotRange (start n : Nat) : SlotSet :=
  (BitVec.allOnes 320 >>> (320 - n)) <<< start

/-- Every slot of `x` is in `y`. -/
def slotsWithin (x y : SlotSet) : Bool :=
  x &&& y == x

/-- No slot is in both. -/
def slotsApart (x y : SlotSet) : Bool :=
  x &&& y == 0#320

/-- The lowest slot of a set, if it has one. -/
def lowestSlot (x : SlotSet) : Option Nat :=
  (List.range slotCount).find? (fun i => x.getLsbD i)

/-- A slot set on the wire: 40 bytes, one bit per slot, slot 0 the most significant bit of the first
byte (section 9.1.2). -/
def encodeSlots (x : SlotSet) : List Byte :=
  encodeNat 40 x.reverse.toNat

end Sys2Proof.Machine
end

