-- ==== Sys2Proof/Config.lean ====
section
/-! DEFINITION. The fixed capacities and limits of the part, each with the rule that gives it.
The spec leaves no value of this part to the implementation, so there is no free value here. -/

namespace Sys2Proof.Config

/-- Node table entries, 0..255 (R1). -/
def nodeEntries : Nat := 256
/-- Link table entries (R3). -/
def linkEntries : Nat := 2048
/-- Links in one node's list (R4), and link items kept from one advertisement (R45). -/
def linksPerNode : Nat := 32
/-- SRLG ids of one link (R3). -/
def srlgPerLink : Nat := 4
/-- Advertisement copies in the translator input queue (R29). -/
def translatorQueue : Nat := 32
/-- Commands in the intake queue (R159). -/
def intakeQueue : Nat := 8
/-- Frames in a port's transit FIFO (R157). -/
def transitFifo : Nat := 64
/-- Frames in a port's local egress queue (R162). -/
def localQueue : Nat := 16
/-- Waiting requests (R103). -/
def requestQueue : Nat := 64
/-- Labels in an engine's pool (R76). -/
def labelPool : Nat := 2048
/-- Elements of a touched set (R22). -/
def touchedSet : Nat := 512
/-- Watch entries, ids 0..127 (R119). -/
def watchEntries : Nat := 128
/-- Items of one LIST NODES page (R27). -/
def listPage : Nat := 16
/-- The top of a 32-bit saturating counter (R24, R49, R118, R153, R165). -/
def counterMax : Nat := 4294967295
/-- The top of an event class's count (R178). -/
def eventCountMax : Nat := 255
/-- The top of an accumulated noise, 2^30 − 1 (R64). -/
def noiseMax : Nat := 1073741823
/-- The top of a route's cost (R67). -/
def costMax : Nat := 16777215
/-- The largest q value (00_scope.md section 4). -/
def qMax : Nat := 400
/-- The largest payload length (section 9.1.1). -/
def payloadMax : Nat := 1500
/-- Bytes of header and frame check (R154). -/
def frameOverhead : Nat := 20

end Sys2Proof.Config
end

