-- ==== Sys2Proof/Machine/State.lean ====
section
/-! DEFINITION. Every piece of state the spec gives the LX40, as plain data, block by block
(00_scope.md section 2), and the state after a cold reset (R172). -/

namespace Sys2Proof.Machine

/-- The machine stops with no fault: the spec names no event that stops the part. A bad frame, a
refused command and a full queue are all answered, counted or discarded (R154, R160, R162), so the
type has no constructor. -/
inductive Fault where
deriving DecidableEq, Repr

/-- Why a step has no meaning. -/
inductive Refusal where
  /-- Raised by an arm of `exec` whose row is not modelled (none is left). Safe: the run stops. -/
  | notModelled (mnemonic : String)
deriving DecidableEq, Repr

/-! ## Names and small enumerations -/

/-- A link ref `origin:local` (00_scope.md section 4). -/
structure LinkRef where
  origin : NodeId
  lid    : Word16
deriving DecidableEq, Repr

/-- A link's administrative state (section 1.3). -/
inductive Admin where
  | up
  | down
deriving DecidableEq, Repr

/-- A link's condition (R50). -/
inductive Condition where
  | normal
  | degraded
deriving DecidableEq, Repr

/-- The nine targets of a dialect entry (R32). -/
inductive Target where
  | nodeLifetime
  | nodeRegens
  | nodeTransitQ
  | linkCost
  | linkQ
  | linkRemoteId
  | linkOccupancy
  | linkSrlg
  | linkAdmin
deriving DecidableEq, Repr

/-- The order of a request's frontier (R77). -/
inductive Order where
  | cost
  | hops
deriving DecidableEq, Repr

/-- A request's treatment of DEGRADED links (section 3.4.1). -/
inductive Policy where
  | avoid
  | allow
  | penalize
deriving DecidableEq, Repr

/-- The separation a request asks of its protection route (section 5.7). -/
inductive Diversity where
  | none
  | link
  | node
  | srlg
deriving DecidableEq, Repr

/-- What a watch entry does when its route is violated (R129). -/
inductive RerouteAction where
  | notice
  | recompute
deriving DecidableEq, Repr

/-- The primary and protection statuses of a result (R114). -/
inductive Status where
  | notRequested
  | found
  | noPath
  | exhausted
  | unknownEndpoint
  | badClass
  | cancelled
  | aborted
  | stale
  | notAttempted
deriving DecidableEq, Repr

/-- The outcome of a result (R115). -/
inductive ResultOutcome where
  | complete
  | partialPath
  | failed
deriving DecidableEq, Repr

/-- The part states (R168). -/
inductive PartState where
  | standby
  | settling
  | operate
deriving DecidableEq, Repr

/-- The epoch modes (R152). -/
inductive EpochMode where
  | internal
  | lead
  | follow
deriving DecidableEq, Repr

/-- Which crossings raise an event class (R56). -/
inductive CrossNotice where
  | falling
  | rising
  | both
deriving DecidableEq, Repr

/-! ## Topology Store (chapter 1) with the Link Condition Monitor's fields (chapter 3) -/

/-- The four condition fields of a link (R50). -/
structure CondFields where
  condition : Condition
  count     : Nat
  below     : Bool
  crossed   : Bool
deriving DecidableEq, Repr

/-- A link entry in use (section 1.3). Its origin is the node entry whose list holds it. -/
structure Link where
  lid       : Word16
  remote    : NodeId
  remoteLid : Option Word16
  cost      : Nat
  q         : Option Nat
  occupied  : SlotSet
  srlg      : List Word32
  admin     : Admin
  cond      : CondFields
deriving DecidableEq, Repr

/-- The state of a node entry that is not FREE, with the counter that state holds (section 1.2). -/
inductive NodeLife where
  | live (age : Nat)
  | withdrawn (holdDown : Nat)
deriving DecidableEq, Repr

/-- A node entry that is not FREE (section 1.1). A table index with no entry is FREE. -/
structure NodeEntry where
  index      : Nat
  id         : NodeId
  life       : NodeLife
  dialect    : Nat
  seq        : Word32
  regens     : Nat
  transitQ   : Option Nat
  incomplete : Bool
  links      : List Link
deriving DecidableEq, Repr

/-- The store counters, in the order of R24. -/
structure StoreCounters where
  recordsApplied   : Nat
  refreshesApplied : Nat
  recordsDiscarded : Nat
  recordsDropped   : Nat
  nodesAdded       : Nat
  nodesAged        : Nat
  nodesFlushed     : Nat
  nodesFreed       : Nat
  linksCreated     : Nat
  linksFreed       : Nat
  linksDropped     : Nat
  itemsInvalid     : Nat
deriving DecidableEq, Repr

/-- The Topology Store: the entries that are not FREE in ascending table index, and the counters. -/
structure Store where
  nodes    : List NodeEntry
  counters : StoreCounters
deriving DecidableEq, Repr

/-! ## Advertisement Translator (chapter 2) -/

/-- One link item of a FULL record (section 1.4). -/
structure LinkItem where
  lid       : Word16
  remote    : NodeId
  remoteLid : Option Word16
  cost      : Option Nat
  q         : Option Nat
  occupied  : Option SlotSet
  srlg      : Option (List Word32)
  admin     : Option Admin
deriving DecidableEq, Repr

/-- The content of a FULL record (section 1.4, R46). -/
structure FullRecord where
  origin     : NodeId
  dialect    : Nat
  seq        : Word32
  lifetime   : Nat
  regens     : Option Nat
  transitQ   : Option Nat
  incomplete : Bool
  items      : List LinkItem
deriving DecidableEq, Repr

/-- An update record (section 1.4): FULL, or REFRESH with origin, sequence and lifetime (R47). -/
inductive UpdateRecord where
  | full (rec : FullRecord)
  | refresh (origin : NodeId) (seq : Word32) (lifetime : Nat)
deriving DecidableEq, Repr

/-- The translator counters, in the order of R49. -/
structure TranslatorCounters where
  accepted       : Nat
  refreshed      : Nat
  stale          : Nat
  unknownDialect : Nat
  malformed      : Nat
  malformedAttr  : Nat
  unmapped       : Nat
  clamped        : Nat
  queueFull      : Nat
deriving DecidableEq, Repr

/-- The translator: its input queue of copies (payload bytes, head first), the record handed over and
not yet applied (R48), and its counters. -/
structure Translator where
  queue    : List (List Byte)
  handed   : Option UpdateRecord
  counters : TranslatorCounters
deriving DecidableEq, Repr

/-! ## Profile Banks and Epoch Control (chapter 8) -/

/-- A dialect entry (section 2.2, section 8.1). -/
structure DialectEntry where
  valid  : Bool
  code   : Byte
  target : Target
  mul    : Nat
  shift  : Nat
  offset : Int
deriving DecidableEq, Repr

/-- A transceiver class entry (section 4.2, section 8.1). -/
structure ClassEntry where
  valid     : Bool
  qReq      : Nat
  margin    : Nat
  regenCost : Nat
deriving DecidableEq, Repr

/-- One bank: the whole dialect table (dialect tag `d` at position `d − 1`) and the whole class table
(R140). -/
structure Bank where
  dialects : Vector (Vector DialectEntry 32) 8
  classes  : Vector ClassEntry 16
deriving DecidableEq, Repr

/-- The Profile Banks (R140). -/
structure ProfileBanks where
  active        : Bank
  staged        : Bank
  commitPending : Bool
deriving DecidableEq, Repr

/-- The Epoch Control counters, in the order of R153. -/
structure EpochCounters where
  sent     : Nat
  notSent  : Nat
  taken    : Nat
  repeated : Nat
  short    : Nat
deriving DecidableEq, Repr

/-- Epoch Control: epoch number (R147), epoch timer (R149), counters (R153). Its mode, port and
interval are configuration items. -/
structure EpochControl where
  number   : Nat
  timer    : Nat
  counters : EpochCounters
deriving DecidableEq, Repr

/-! ## Requests, results and engines (chapters 5 and 6) -/

/-- Who asked (section 6.1). -/
inductive Requester where
  | mgmt (address : Address)
  | watchList
deriving DecidableEq, Repr

/-- A spectrum window as submitted (R68). -/
structure Window where
  start : Nat
  width : Nat
deriving DecidableEq, Repr

/-- A request descriptor (section 6.1). -/
structure Descriptor where
  requester    : Requester
  ingress      : Option Port
  tag          : Word16
  priority     : Nat
  source       : NodeId
  dest         : NodeId
  width        : Nat
  cls          : Nat
  window       : Option Window
  order        : Order
  policy       : Policy
  diversity    : Diversity
  maxHops      : Nat
  maxRegens    : Nat
  limit        : Nat
  exNodes      : List NodeId
  exLinks      : List LinkRef
  retryLimit   : Nat
  retries      : Nat
  hold         : Bool
  action       : RerouteAction
  rerouteLimit : Nat
deriving DecidableEq, Repr

/-- The RQ counters, in the order of R118. -/
structure RequestCounters where
  accepted         : Nat
  requeued         : Nat
  requeuesRefused  : Nat
  resultsDiscarded : Nat
deriving DecidableEq, Repr

/-- The Request Queue, head first (R103), and its counters. -/
structure RequestQueue where
  queue    : List Descriptor
  counters : RequestCounters
deriving DecidableEq, Repr

/-- One hop of a path: the link ref, the node it reaches, and whether the channel is regenerated at
the hop's start node (R91, section 7.1). -/
structure Hop where
  ref     : LinkRef
  reached : NodeId
  regen   : Bool
deriving DecidableEq, Repr

/-- A segment as a watch entry keeps it: start slot, width and the hops it covers (section 7.1). -/
structure HeldSegment where
  start : Nat
  width : Nat
  hops  : List Hop
deriving DecidableEq, Repr

/-- A path as a watch entry keeps it: its segments in path order; its hops are theirs in order. -/
abbrev HeldPath := List HeldSegment

/-- A segment as a result reports it (R92). -/
structure FoundSegment where
  held   : HeldSegment
  q      : Nat
  qclamp : Bool
deriving DecidableEq, Repr

/-- A found path (R91, R92). -/
structure FoundPath where
  cost     : Nat
  hopCount : Nat
  segments : List FoundSegment
deriving DecidableEq, Repr

/-- The facts captured of one primary hop (R93); the link's origin is in its ref. -/
structure LinkFact where
  ref       : LinkRef
  remote    : NodeId
  remoteLid : Option Word16
  srlg      : List Word32
deriving DecidableEq, Repr

/-- What a phase reports: expansions, the five tallies and the TRUNCATED mark (R98). -/
structure PhaseCounts where
  expansions : Nat
  spectrum   : Nat
  noise      : Nat
  hops       : Nat
  excluded   : Nat
  dominated  : Nat
  truncated  : Bool
deriving DecidableEq, Repr

/-- The primary path record kept through the protection phase (R93), with the primary phase's
outcome. Its status is FOUND, for only then does a protection phase run (R94). -/
structure PrimaryRecord where
  path          : FoundPath
  facts         : List LinkFact
  intermediates : List NodeId
  counts        : PhaseCounts
deriving DecidableEq, Repr

/-- A label (R75). `closed` is its state (OPEN when false); `pred` is the insertion number of its
predecessor. -/
structure Label where
  node        : NodeId
  pred        : Option Nat
  via         : Option LinkRef
  cost        : Nat
  noise       : Nat
  hops        : Nat
  regens      : Nat
  regenerated : Bool
  starts      : SlotSet
  closed      : Bool
  number      : Nat
deriving DecidableEq, Repr

/-- An element of the map: a link ref or a node id (R22). -/
inductive Element where
  | link (ref : LinkRef)
  | node (id : NodeId)
deriving DecidableEq, Repr

/-- The result record built at completion (R110). -/
structure ResultRecord where
  tag              : Word16
  outcome          : ResultOutcome
  primary          : Status
  protection       : Status
  truncated        : Bool
  provisional      : Bool
  windowAdjusted   : Bool
  holdRefused      : Bool
  watchId          : Option Nat
  primaryPhase     : Option PhaseCounts
  protectionPhase  : Option PhaseCounts
  primaryPath      : Option FoundPath
  protectionPath   : Option FoundPath
deriving DecidableEq, Repr

/-- The engine states (R104). -/
inductive EngineMode where
  | idle
  | primary
  | protection
  | completing
deriving DecidableEq, Repr

/-- An order from outside that the engine takes before its next expansion (R87): a CANCEL (R112), the
entry into STANDBY (R116), or the watch list's own cancel, which makes no result (R113). -/
inductive EndOrder where
  | none
  | cancel
  | standby
  | release
deriving DecidableEq, Repr

/-- What an engine holds (R74, R104). -/
structure Engine where
  mode           : EngineMode
  request        : Option Descriptor
  budget         : Nat
  regenCost      : Nat
  windowStart    : Nat
  windowEnd      : Nat
  windowAdjusted : Bool
  starts         : SlotSet
  limit          : Nat
  counts         : PhaseCounts
  nextNumber     : Nat
  pool           : List Label
  touched        : List Element
  overflow       : Bool
  primary        : Option PrimaryRecord
  endOrder       : EndOrder
  result         : Option ResultRecord
deriving DecidableEq, Repr

/-! ## Path Watch List (chapter 7) -/

/-- The states of a watch entry in use (section 7.1.1). -/
inductive WatchState where
  | reserved
  | active
  | violated
  | rerouting
  | stalled
deriving DecidableEq, Repr

/-- The reasons of a violation (R128). -/
inductive ViolationReason where
  | linkGone
  | linkDown
  | linkDegraded
  | nodeGone
  | budget
deriving DecidableEq, Repr

/-- A watch entry in use (R119). A watch id with no entry is free. -/
structure WatchEntry where
  id            : Nat
  requester     : Address
  tag           : Word16
  desc          : Descriptor
  budget        : Nat
  regenCost     : Nat
  primary       : HeldPath
  protection    : Option HeldPath
  state         : WatchState
  reason        : Option ViolationReason
  timer         : Nat
  rerouteLeft   : Nat
  submitPending : Bool
deriving DecidableEq, Repr

/-- Slots reserved on one link by one watch entry (R120). -/
structure SlotClaim where
  ref   : LinkRef
  owner : Nat
  slots : SlotSet
deriving DecidableEq, Repr

/-- One regenerator reserved at a node by one watch entry (R120). -/
structure RegenClaim where
  node  : NodeId
  owner : Nat
deriving DecidableEq, Repr

/-- The reservation overlay (R120): the reserved slots of a link and the reserved regenerator count
of a node are read from these claims. -/
structure Overlay where
  slots  : List SlotClaim
  regens : List RegenClaim
deriving DecidableEq, Repr

/-- The Path Watch List: the entries in use in ascending watch id, and the overlay. -/
structure WatchList where
  entries : List WatchEntry
  overlay : Overlay
deriving DecidableEq, Repr

/-! ## Event Unit (chapter 11) -/

/-- The twelve event classes, in the order of R178. -/
inductive EventClass where
  | nodeAdded
  | nodeExpired
  | tableFull
  | linkDegraded
  | linkRecovered
  | advertDropped
  | watchViolated
  | watchRerouted
  | watchStalled
  | reservationExpired
  | epochApplied
  | settled
deriving DecidableEq, Repr

/-- The subject of a raise (R178). -/
inductive Subject where
  | none
  | node (id : NodeId)
  | link (ref : LinkRef)
  | watch (id : Nat) (tag : Word16)
  | epoch (number : Nat)
deriving DecidableEq, Repr

/-- The reason of a raise (R178, section 9.1.7). -/
inductive Reason where
  | none
  | aged
  | flushed
  | nodes
  | links
  | queue
  | dialect
  | malformed
deriving DecidableEq, Repr

/-- The state of one event class (R178). -/
structure EventClassState where
  pending : Bool
  count   : Nat
  subject : Subject
  reason  : Reason
deriving DecidableEq, Repr

/-- An entry of the notice queue (R180). -/
structure NoticeEntry where
  cls     : EventClass
  count   : Nat
  subject : Subject
  reason  : Reason
deriving DecidableEq, Repr

/-- The Event Unit: the twelve classes and the notice queue, head first. -/
structure EventUnit where
  classes : Vector EventClassState 12
  notices : List NoticeEntry
deriving DecidableEq, Repr

/-! ## Supervisory Port Unit (chapter 9) -/

/-- A frame (section 9.1.1), field by field; its payload length is its payload's. -/
structure Frame where
  dest     : Address
  src      : Address
  cls      : Byte
  flags    : Byte
  reserved : Word32
  payload  : List Byte
  check    : Word32
deriving DecidableEq, Repr

/-- A frame waiting to leave a port, with its node-port tag when the port is NP (R155). -/
structure OutFrame where
  tag   : Option Byte
  frame : Frame
deriving DecidableEq, Repr

/-- The two queues of a port's egress arbiter (R163). -/
inductive Served where
  | transit
  | localQueue
deriving DecidableEq, Repr

/-- A transmission in progress (R163). -/
structure Transmission where
  kind  : Served
  frame : OutFrame
deriving DecidableEq, Repr

/-- A port's counters, in the order of R165. -/
structure PortCounters where
  framesReceived    : Nat
  lengthErrors      : Nat
  badCheck          : Nat
  badTag            : Nat
  receivedDisabled  : Nat
  commandsTakenIn   : Nat
  commandsDropped   : Nat
  transitDropped    : Nat
  transitToDisabled : Nat
  localDiscarded    : Nat
  sentTransit       : Nat
  sentLocal         : Nat
deriving DecidableEq, Repr

/-- A port: its transit FIFO and local egress queue, head first, its arbiter's record, the
transmission in progress if there is one, and its counters. -/
structure PortState where
  transit      : List OutFrame
  localQueue   : List OutFrame
  lastServed   : Served
  transmitting : Option Transmission
  counters     : PortCounters
deriving DecidableEq, Repr

/-- A COMMAND frame in the intake queue with its ingress port (section 9.3). -/
structure IntakeFrame where
  port  : Port
  frame : Frame
deriving DecidableEq, Repr

/-- A response in the response hold, with the port it waits for (R161). -/
structure HeldResponse where
  port  : Port
  frame : OutFrame
deriving DecidableEq, Repr

/-- A set of rights (R177). -/
structure Rights where
  query     : Bool
  request   : Bool
  configure : Bool
deriving DecidableEq, Repr

/-- An entry of the management source list (R160, R177). -/
structure SourceEntry where
  valid   : Bool
  address : Address
  rights  : Rights
deriving DecidableEq, Repr

/-- The Supervisory Port Unit. Ports stand at positions 0..7 for LP0..LP7 and 8 for NP. -/
structure PortUnit where
  ports   : Vector PortState 9
  intake  : List IntakeFrame
  hold    : Option HeldResponse
  sources : Vector SourceEntry 8
deriving DecidableEq, Repr

/-! ## State Control and the configuration (chapter 10) -/

/-- Which blocks have still to act on the age tick that was taken last (R167: each block's action is
its own event). The model's own field; DEDUCED, log entry 3. -/
structure TickOffer where
  store  : Bool
  watch  : Bool
  epoch  : Bool
  settle : Bool
deriving DecidableEq, Repr

/-- State Control: part state (R168), settle timer (R170), timebase count (R167), the tick offered to
the blocks, and the sampled strap value (R172). -/
structure StateControl where
  part        : PartState
  settleTimer : Nat
  timebase    : Nat
  offered     : TickOffer
  straps      : BitVec 4
deriving DecidableEq, Repr

/-- The configuration items, in the order of section 10.5. -/
structure Settings where
  engineAddress   : Address
  portEnable      : BitVec 9
  epochMode       : EpochMode
  epochPort       : Port
  epochInterval   : Nat
  ageDiv          : Nat
  settleTime      : Nat
  defaultLifetime : Nat
  holdDown        : Nat
  defaultLinkQ    : Nat
  degradeLow      : Nat
  degradeHigh     : Nat
  filterDepth     : Nat
  crossNotice     : CrossNotice
  degradePenalty  : Nat
  twoWay          : Bool
  expansionLimit  : Nat
  reserveHold     : Nat
  noticeAddress   : Address
  noticePort      : Port
  eventEnable     : BitVec 12
deriving DecidableEq, Repr

/-! ## The whole part -/

/-- The whole part, block by block, and the queue of steps that wait (`pending`, first in first
out: the model's own field). -/
structure State where
  pending : List Instr
  cfg     : Settings
  stc     : StateControl
  spu     : PortUnit
  atr     : Translator
  prb     : ProfileBanks
  epc     : EpochControl
  tst     : Store
  rq      : RequestQueue
  engA    : Engine
  engB    : Engine
  pwl     : WatchList
  evu     : EventUnit
deriving DecidableEq, Repr

/-! ## Reset values -/

/-- The store counters at 0 (R28). -/
def StoreCounters.zero : StoreCounters := ⟨0, 0, 0, 0, 0, 0, 0, 0, 0, 0, 0, 0⟩

/-- The translator counters at 0 (R31). -/
def TranslatorCounters.zero : TranslatorCounters := ⟨0, 0, 0, 0, 0, 0, 0, 0, 0⟩

/-- The Epoch Control counters at 0 (R153). -/
def EpochCounters.zero : EpochCounters := ⟨0, 0, 0, 0, 0⟩

/-- The RQ counters at 0 (R117, R118). -/
def RequestCounters.zero : RequestCounters := ⟨0, 0, 0, 0⟩

/-- A port's counters at 0 (R165). -/
def PortCounters.zero : PortCounters := ⟨0, 0, 0, 0, 0, 0, 0, 0, 0, 0, 0, 0⟩

/-- A phase's counts at its start (R78). -/
def PhaseCounts.zero : PhaseCounts := ⟨0, 0, 0, 0, 0, 0, false⟩

/-- A dialect entry after a cold reset (R140). -/
def DialectEntry.cold : DialectEntry :=
  { valid := false, code := 0, target := .nodeLifetime, mul := 1, shift := 0, offset := 0 }

/-- A class entry after a cold reset (R140). -/
def ClassEntry.cold : ClassEntry := { valid := false, qReq := 0, margin := 0, regenCost := 0 }

/-- A bank after a cold reset (R140). -/
def Bank.cold : Bank :=
  { dialects := Vector.replicate 8 (Vector.replicate 32 DialectEntry.cold)
    classes := Vector.replicate 16 ClassEntry.cold }

/-- An IDLE engine: no request, pool and touched set empty (R74). DESIGN CHOICE, log entry 38: the
items R74 gives only to an engine at work hold 0, nothing or no mark. -/
def Engine.idle : Engine where
  mode := .idle
  request := none
  budget := 0
  regenCost := 0
  windowStart := 0
  windowEnd := 0
  windowAdjusted := false
  starts := 0
  limit := 0
  counts := PhaseCounts.zero
  nextNumber := 0
  pool := []
  touched := []
  overflow := false
  primary := none
  endOrder := .none
  result := none

/-- An event class after a reset or an acknowledgement (R178, R182). -/
def EventClassState.clear : EventClassState :=
  { pending := false, count := 0, subject := .none, reason := .none }

/-- The Event Unit after a reset (R178, R180). -/
def EventUnit.clear : EventUnit :=
  { classes := Vector.replicate 12 EventClassState.clear, notices := [] }

/-- A port after a cold reset: queues empty, the arbiter's record LOCAL (R163, R164, R165). -/
def PortState.cold : PortState where
  transit := []
  localQueue := []
  lastServed := .localQueue
  transmitting := none
  counters := PortCounters.zero

/-- An empty source entry (R160). DESIGN CHOICE, log entry 1: its address and rights, which an empty
entry does not use and R177 lets be read, are 0 after a cold reset. -/
def SourceEntry.empty : SourceEntry :=
  { valid := false, address := 0, rights := ⟨false, false, false⟩ }

/-- No block owes an action on an age tick. -/
def TickOffer.none : TickOffer := ⟨false, false, false, false⟩

/-- The configuration after a cold reset with these straps (section 10.5, R172). -/
def Settings.cold (straps : BitVec 4) : Settings where
  engineAddress := 0x7F000000#32 + straps.setWidth 32
  portEnable := 0x1FF#9
  epochMode := .internal
  epochPort := .lp 0
  epochInterval := 10
  ageDiv := 9
  settleTime := 8
  defaultLifetime := 60
  holdDown := 16
  defaultLinkQ := 200
  degradeLow := 180
  degradeHigh := 200
  filterDepth := 2
  crossNotice := .both
  degradePenalty := 1000
  twoWay := true
  expansionLimit := 16384
  reserveHold := 30
  noticeAddress := 0
  noticePort := .np
  eventEnable := 0

/-- The part right after a cold reset released with these straps (R172). -/
def State.cold (straps : BitVec 4) : State where
  pending := []
  cfg := Settings.cold straps
  stc := { part := .standby, settleTimer := 0, timebase := 0, offered := TickOffer.none, straps := straps }
  spu := { ports := Vector.replicate 9 PortState.cold, intake := [], hold := none
           sources := Vector.replicate 8 SourceEntry.empty }
  atr := { queue := [], handed := none, counters := TranslatorCounters.zero }
  prb := { active := Bank.cold, staged := Bank.cold, commitPending := false }
  epc := { number := 0, timer := 10, counters := EpochCounters.zero }
  tst := { nodes := [], counters := StoreCounters.zero }
  rq := { queue := [], counters := RequestCounters.zero }
  engA := Engine.idle
  engB := Engine.idle
  pwl := { entries := [], overlay := { slots := [], regens := [] } }
  evu := EventUnit.clear

/-- The part right after reset. DESIGN CHOICE, log entry 2: the strap pins, which the board fixes,
read 0; `Instr.coldReset` resets the part with any straps. -/
def State.reset : State := State.cold 0

end Sys2Proof.Machine
end

