-- ==== Sys2Proof/Machine/Frames.lean ====
section
/-! DEFINITION. Frames as bytes (section 9.1.1), the length check (R154) and the frames the part
originates (R162). -/

namespace Sys2Proof.Machine

/-- Frame class ADVERTISEMENT. -/
def classAdvertisement : Byte := 0x41
/-- Frame class COMMAND. -/
def classCommand : Byte := 0x50
/-- Frame class RESPONSE. -/
def classResponse : Byte := 0x51
/-- Frame class RESULT. -/
def classResult : Byte := 0x52
/-- Frame class NOTICE. -/
def classNotice : Byte := 0x53
/-- Frame class EPOCH MARK. -/
def classEpochMark : Byte := 0x5E
/-- The node-port tag of a frame the part originated. -/
def tagOriginated : Byte := 0xF0
/-- The node-port tag of a frame for every enabled line port. -/
def tagAllPorts : Byte := 0xFF

/-- The header and payload of a frame as bytes: what the frame check covers. -/
def Frame.body (f : Frame) : List Byte :=
  encodeNat 4 f.dest.toNat ++ encodeNat 4 f.src.toNat ++ [f.cls, f.flags]
    ++ encodeNat 2 f.payload.length ++ encodeNat 4 f.reserved.toNat ++ f.payload

/-- A frame as it stands on the wire, without a node-port tag. -/
def Frame.wire (f : Frame) : List Byte :=
  f.body ++ encodeNat 4 f.check.toNat

/-- The frame check of the bytes received is the one they carry. -/
def Frame.goodCheck (f : Frame) : Bool :=
  crc32 f.body == f.check

/-- The frame that received bytes make up, or none for a length error (R154). -/
def Frame.ofWire (bs : List Byte) : Option Frame :=
  if bs.length < Config.frameOverhead || decide (fieldNat bs 10 2 > Config.payloadMax)
      || bs.length != Config.frameOverhead + fieldNat bs 10 2 then none
  else some
    { dest := field32 bs 0
      src := field32 bs 4
      cls := fieldByte bs 8
      flags := fieldByte bs 9
      reserved := field32 bs 12
      payload := (bs.drop 16).take (fieldNat bs 10 2)
      check := field32 bs (16 + fieldNat bs 10 2) }

/-- A frame the part originates: flags 0, reserved 0 and a frame check (R162). -/
def originated (src dest : Address) (cls : Byte) (payload : List Byte) : Frame :=
  let f : Frame := { dest, src, cls, flags := 0, reserved := 0, payload, check := 0 }
  { f with check := crc32 f.body }

/-- A frame the part originates as it waits at a port: tag F0h on NP, none on a line port (R155). -/
def outgoing (p : Port) (f : Frame) : OutFrame :=
  match p with
  | .np => { tag := some tagOriginated, frame := f }
  | .lp _ => { tag := none, frame := f }

end Sys2Proof.Machine
end

