-- ==== Sys2Proof/Machine/Ops.lean ====
section
/-! DEFINITION. The named operations over the part's registers and queues that every block uses:
ports, engines, saturating counters, local egress queues and the response hold. -/

namespace Sys2Proof.Machine

/-! ## Counters -/

/-- A 32-bit counter increments by `n`, stopping at the top (00_scope.md section 4). -/
def addSat (c n : Nat) : Nat := min (c + n) Config.counterMax

/-- A 32-bit counter increments by one. -/
def bump (c : Nat) : Nat := addSat c 1

/-! ## Ports -/

/-- A port's number: 0..7 for LP0..LP7 and 8 for NP (section 10.5). -/
def portIndex : Port → Fin 9
  | .lp i => i.castSucc
  | .np => 8

/-- The port of a number (section 10.5). -/
def portOfCode (n : Nat) : Option Port :=
  if h : n < 8 then some (.lp ⟨n, h⟩) else if n = 8 then some .np else none

/-- The nine ports in the order of their numbers. -/
def allPorts : List Port :=
  [.lp 0, .lp 1, .lp 2, .lp 3, .lp 4, .lp 5, .lp 6, .lp 7, .np]

/-- The eight line ports. -/
def linePorts : List Port :=
  [.lp 0, .lp 1, .lp 2, .lp 3, .lp 4, .lp 5, .lp 6, .lp 7]

/-- The state of a port. -/
def State.port (s : State) (p : Port) : PortState := s.spu.ports[portIndex p]

/-- Replace the state of a port. -/
def State.setPort (s : State) (p : Port) (x : PortState) : State :=
  { s with spu := { s.spu with ports := s.spu.ports.set (portIndex p) x } }

/-- Change a port's counters. -/
def State.countPort (s : State) (p : Port) (f : PortCounters → PortCounters) : State :=
  s.setPort p { s.port p with counters := f (s.port p).counters }

/-- The port is in a PORT_ENABLE set (R164). -/
def portIn (set : BitVec 9) (p : Port) : Bool := set.getLsbD (portIndex p)

/-- The port is in PORT_ENABLE (R164). -/
def State.enabled (s : State) (p : Port) : Bool := portIn s.cfg.portEnable p

/-! ## Engines -/

/-- The other engine. -/
def otherEngine : EngineId → EngineId
  | .a => .b
  | .b => .a

/-- The state of an engine. -/
def State.engine (s : State) : EngineId → Engine
  | .a => s.engA
  | .b => s.engB

/-- Replace the state of an engine. -/
def State.setEngine (s : State) : EngineId → Engine → State
  | .a, x => { s with engA := x }
  | .b, x => { s with engB := x }

/-- The port an engine in COMPLETING waits for (R104, R111). -/
def Engine.waitsFor (x : Engine) : Option Port :=
  match x.mode, x.request with
  | .completing, some d => d.ingress
  | _, _ => none

/-! ## Part state -/

/-- The part is in STANDBY (R168). -/
def State.standby (s : State) : Bool := s.stc.part == .standby

/-! ## Local egress queues and the response hold (R161, R162) -/

/-- The frames that wait for a place on a port: the held response and the results of engines in
COMPLETING (R162). DEDUCED, log entry 4: the notice queue's head, which stands last in R162's order,
owns no freed place; a frame offered before NOTICE_SEND is taken enters ahead of it. -/
def State.waiters (s : State) (p : Port) : Nat :=
  (if (s.spu.hold.map (·.port)) = some p then 1 else 0)
    + (if s.engA.waitsFor = some p then 1 else 0)
    + (if s.engB.waitsFor = some p then 1 else 0)

/-- A frame offered now finds a place in the port's local egress queue. DEDUCED, log entry 4: a place
that has freed is left to the frames that wait on the port. A response offered before one of them has
entered joins them through the hold, and is then the first of them in R162's order. -/
def State.hasPlace (s : State) (p : Port) : Bool :=
  decide ((s.port p).localQueue.length + s.waiters p < Config.localQueue)

/-- The port's local egress queue has a place and no frame waits for one there, so that a result or a
notice that enters overtakes neither the held response nor a result that waits (R101, R112, R162). -/
def State.wayFree (s : State) (p : Port) : Bool :=
  decide ((s.port p).localQueue.length < Config.localQueue) && s.waiters p == 0

/-- Append a frame to a port's local egress queue. -/
def State.enterLocal (s : State) (p : Port) (f : OutFrame) : State :=
  s.setPort p { s.port p with localQueue := (s.port p).localQueue ++ [f] }

/-- Count a discarded originated frame (R165). -/
def State.countLocalDiscard (s : State) (p : Port) : State :=
  s.countPort p (fun c => { c with localDiscarded := bump c.localDiscarded })

/-- Count a discarded result (R118). -/
def State.countResultDiscard (s : State) : State :=
  { s with rq := { s.rq with counters :=
      { s.rq.counters with resultsDiscarded := bump s.rq.counters.resultsDiscarded } } }

/-- Offer a response to its port: discarded when the port is disabled, entered when a place is free,
held otherwise (R161). -/
def State.offerResponse (s : State) (p : Port) (f : Frame) : State :=
  if s.enabled p then
    if s.hasPlace p then s.enterLocal p (outgoing p f)
    else { s with spu := { s.spu with hold := some { port := p, frame := outgoing p f } } }
  else s.countLocalDiscard p

/-! ## The node table -/

/-- The entry that holds a node id (R1). -/
def findNode (nodes : List NodeEntry) (id : NodeId) : Option NodeEntry :=
  nodes.find? (fun n => n.id == id)

/-- The link of a node entry with a local id (R4). -/
def findLid (links : List Link) (lid : Word16) : Option Link :=
  links.find? (fun l => l.lid == lid)

/-- The link the store holds under a link ref (R3). -/
def findLink (nodes : List NodeEntry) (ref : LinkRef) : Option Link :=
  (findNode nodes ref.origin).bind (fun n => findLid n.links ref.lid)

/-- The node entry is LIVE. -/
def NodeEntry.isLive (n : NodeEntry) : Bool :=
  match n.life with
  | .live _ => true
  | .withdrawn _ => false

/-- The node id is held by a LIVE entry (R106, R19). -/
def liveNode (nodes : List NodeEntry) (id : NodeId) : Bool :=
  match findNode nodes id with
  | some n => n.isLive
  | none => false

/-- The two 32-bit values that are not node ids (00_scope.md section 4). -/
def reservedId (id : Word32) : Bool := id == 0x00000000#32 || id == 0xFFFFFFFF#32

/-- The number of link entries in use (R3). -/
def linksInUse (nodes : List NodeEntry) : Nat := (nodes.map (fun n => n.links.length)).sum

/-! ## The reservation overlay (R120) -/

/-- The slots reserved on a link. -/
def Overlay.reservedSlots (o : Overlay) (ref : LinkRef) : SlotSet :=
  ((o.slots.filter (fun c => c.ref == ref)).map (·.slots)).foldl (· ||| ·) 0#320

/-- The regenerators reserved at a node. -/
def Overlay.reservedRegens (o : Overlay) (node : NodeId) : Nat :=
  (o.regens.filter (fun c => c.node == node)).length

end Sys2Proof.Machine
end

