-- ==== Sys2Proof/Machine/Arithmetic.lean ====
section
/-! DEFINITION. Impairment and spectrum arithmetic (chapter 4). -/

namespace Sys2Proof.Machine

/-! ## Noise -/

/-- `m ≤ 2^24 × 10^(−q/100) + 1/2`, without fractions: `(2m − 1)^100 × 10^q ≤ 2^2500` (R60). -/
def noiseFits (q m : Nat) : Bool := decide ((2 * m - 1) ^ 100 * 10 ^ q ≤ 2 ^ 2500)

/-- The noise term `n(q) = floor(2^24 × 10^(−q/100) + 0.5)`: the greatest `m` that fits, found bit by
bit from bit 24 (R60). -/
def noiseTerm (q : Nat) : Nat :=
  (List.range 25).foldr (fun b m => if noiseFits q (m + 2 ^ b) then m + 2 ^ b else m) 0

/-- The budget of a class (R61). -/
def classBudget (c : ClassEntry) : Nat := noiseTerm (min Config.qMax (c.qReq + c.margin))

/-- The noise term of a link, at DEFAULT_LINK_Q when its q is ABSENT (R62). -/
def linkTerm (cfg : Settings) (l : Link) : Nat := noiseTerm (l.q.getD cfg.defaultLinkQ)

/-- The transit term of a node entry: 0 when it has no transit q (R63). -/
def transitTerm (n : NodeEntry) : Nat :=
  match n.transitQ with
  | some t => noiseTerm t
  | none => 0

/-- An addition of noise, saturating at 2^30 − 1 (R64). -/
def addNoise (a b : Nat) : Nat := min (a + b) Config.noiseMax

/-- The q value reported for a segment's noise (R66). -/
def reportedQ (noise : Nat) : Nat :=
  ((List.range 401).reverse.find? (fun q => decide (noiseTerm q ≥ noise))).getD 0

/-- A reported q at an end of the scale carries QCLAMP (R66). -/
def qClamped (q : Nat) : Bool := q == 0 || q == Config.qMax

/-- An addition of cost, saturating at 16,777,215 (R67). -/
def addCost (a b : Nat) : Nat := min (a + b) Config.costMax

/-- What an extension over a link adds before any regen cost: the link's cost, and the penalty of a
DEGRADED link under PENALIZE (R67). -/
def linkCost (cfg : Settings) (policy : Policy) (l : Link) : Nat :=
  if l.cond.condition = .degraded ∧ policy = .penalize then addCost l.cost cfg.degradePenalty
  else l.cost

/-! ## Spectrum -/

/-- A window after its adjustment: start, end, and whether a step changed a value (R68). -/
structure AdjustedWindow where
  start    : Nat
  stop     : Nat
  adjusted : Bool
deriving DecidableEq, Repr

/-- The adjustment of a request's window (R68). -/
def adjustWindow : Option Window → AdjustedWindow
  | none => { start := 0, stop := slotCount, adjusted := false }
  | some w =>
    let start := w.start - w.start % 2
    let width := w.width - w.width % 4
    let stop := min (start + width) slotCount
    { start, stop
      adjusted := start != w.start || width != w.width || stop != start + width }

/-- The window starts for a width: every `s` with `start ≤ s` and `s + width ≤ stop` (R69). -/
def windowStarts (a : AdjustedWindow) (width : Nat) : SlotSet :=
  if a.start + width ≤ a.stop then slotRange a.start (a.stop - a.start - width + 1) else 0#320

/-- The starts at which `width` slots lie within 0..319 and clear of `blocked` (R70). -/
def freeStarts (blocked : SlotSet) (width : Nat) : SlotSet :=
  (List.range width).foldl (fun acc k => acc &&& (~~~blocked >>> k)) (BitVec.allOnes 320)

/-- First fit: the lowest start of a candidate set (R72). Every label's set is non-empty (R75), so
the default stands for no case the search reaches. -/
def firstFit (starts : SlotSet) : Nat := (lowestSlot starts).getD 0

/-- How an extension fails (R65). -/
inductive Failure where
  | spectrum
  | noise
deriving DecidableEq, Repr

/-- The feasibility test of an extension: none when it is feasible (R65). -/
def failureOf (budget : Nat) (starts : SlotSet) (noise : Nat) : Option Failure :=
  if starts = 0#320 then some .spectrum
  else if noise ≤ budget then none
  else some .noise

end Sys2Proof.Machine
end

