-- ==== Sys2Proof/Machine/Flags.lean ====
section
/-! DEFINITION. The event flags: raising a class (R179), the notice queue's changes (R181) and
acknowledgement (R182). -/

namespace Sys2Proof.Machine

/-- A class's position: its number in R178 less one. -/
def eventIndex : EventClass → Fin 12
  | .nodeAdded => 0
  | .nodeExpired => 1
  | .tableFull => 2
  | .linkDegraded => 3
  | .linkRecovered => 4
  | .advertDropped => 5
  | .watchViolated => 6
  | .watchRerouted => 7
  | .watchStalled => 8
  | .reservationExpired => 9
  | .epochApplied => 10
  | .settled => 11

/-- The twelve classes in ascending class number. -/
def allEvents : List EventClass :=
  [.nodeAdded, .nodeExpired, .tableFull, .linkDegraded, .linkRecovered, .advertDropped,
   .watchViolated, .watchRerouted, .watchStalled, .reservationExpired, .epochApplied, .settled]

/-- The class is in a set of classes, bit `k − 1` for class `k` (section 10.5). -/
def eventIn (set : BitVec 12) (c : EventClass) : Bool := set.getLsbD (eventIndex c)

/-- The state of a class. -/
def EventUnit.get (u : EventUnit) (c : EventClass) : EventClassState := u.classes[eventIndex c]

/-- Replace the state of a class. -/
def EventUnit.put (u : EventUnit) (c : EventClass) (x : EventClassState) : EventUnit :=
  { u with classes := u.classes.set (eventIndex c) x }

/-- The notice queue holds an entry for the class. -/
def EventUnit.queued (u : EventUnit) (c : EventClass) : Bool := u.notices.any (fun n => n.cls == c)

/-- The notice queue without the class's entry. -/
def EventUnit.unqueue (u : EventUnit) (c : EventClass) : EventUnit :=
  { u with notices := u.notices.filter (fun n => n.cls != c) }

/-- The notice entry a class's present state makes. -/
def EventUnit.entryOf (u : EventUnit) (c : EventClass) : NoticeEntry :=
  { cls := c, count := (u.get c).count, subject := (u.get c).subject, reason := (u.get c).reason }

/-- A class is raised (R179). `wanted` says that the class is in EVENT_ENABLE and NOTICE_ADDRESS is
not 0. -/
def EventUnit.raise (u : EventUnit) (wanted : Bool) (c : EventClass) (subject : Subject)
    (reason : Reason) : EventUnit :=
  let was := u.get c
  let u' := u.put c { pending := true, count := min (was.count + 1) Config.eventCountMax
                      subject := subject, reason := reason }
  if u.queued c then
    { u' with notices := u.notices.map (fun n => if n.cls = c then u'.entryOf c else n) }
  else if !was.pending && wanted then
    { u' with notices := u.notices ++ [u'.entryOf c] }
  else u'

/-- A class is in EVENT_ENABLE and NOTICE_ADDRESS is not 0 (R179). -/
def Settings.wantsNotice (cfg : Settings) (c : EventClass) : Bool :=
  eventIn cfg.eventEnable c && cfg.noticeAddress != 0#32

/-- A block raises a class with a subject and a reason (R179). -/
def State.raise (s : State) (c : EventClass) (subject : Subject) (reason : Reason) : State :=
  { s with evu := s.evu.raise (s.cfg.wantsNotice c) c subject reason }

/-- One raise that a block's event makes. -/
structure Raise where
  cls     : EventClass
  subject : Subject
  reason  : Reason
deriving DecidableEq, Repr

/-- The raises of one event, taken in the order the raising rules give (R179). -/
def State.raiseAll (s : State) (rs : List Raise) : State :=
  rs.foldl (fun s r => s.raise r.cls r.subject r.reason) s

/-- Append an entry for each class listed that is pending and not queued, in the list's order
(R181). -/
def EventUnit.queuePending (u : EventUnit) (cs : List EventClass) : EventUnit :=
  cs.foldl (fun u c =>
    if (u.get c).pending && !u.queued c then { u with notices := u.notices ++ [u.entryOf c] } else u) u

/-- Remove the entries of the classes listed (R181). -/
def EventUnit.unqueueAll (u : EventUnit) (cs : List EventClass) : EventUnit :=
  cs.foldl (fun u c => u.unqueue c) u

/-- Clear a class's flag, count and subject and remove its queued entry (R182). -/
def EventUnit.acknowledge (u : EventUnit) (c : EventClass) : EventUnit :=
  (u.put c EventClassState.clear).unqueue c

/-- Acknowledge each class listed (R182). -/
def EventUnit.acknowledgeAll (u : EventUnit) (cs : List EventClass) : EventUnit :=
  cs.foldl (fun u c => u.acknowledge c) u

end Sys2Proof.Machine
end

