-- ==== Sys2Proof/Machine/Operands.lean ====
section
/-! DEFINITION. The operand forms of commands and the encodings of frames the part sends: the codes
of section 9.1.2, 9.1.5 to 9.1.7 and 10.5, and the field encodings of section 9.1.2. -/

namespace Sys2Proof.Machine

/-! ## Codes -/

/-- Dialect target codes (section 9.1.2); none for a code that names no target (R141). -/
def targetOfCode : Nat → Option Target
  | 0 => some .nodeLifetime
  | 1 => some .nodeRegens
  | 2 => some .nodeTransitQ
  | 3 => some .linkCost
  | 4 => some .linkQ
  | 5 => some .linkRemoteId
  | 6 => some .linkOccupancy
  | 7 => some .linkSrlg
  | 8 => some .linkAdmin
  | _ => none

/-- Dialect target codes (section 9.1.2). -/
def targetCode : Target → Nat
  | .nodeLifetime => 0
  | .nodeRegens => 1
  | .nodeTransitQ => 2
  | .linkCost => 3
  | .linkQ => 4
  | .linkRemoteId => 5
  | .linkOccupancy => 6
  | .linkSrlg => 7
  | .linkAdmin => 8

/-- Order codes (section 9.1.5). -/
def orderOfCode : Nat → Option Order
  | 0 => some .cost
  | 1 => some .hops
  | _ => none

/-- Order codes (section 9.1.5). -/
def orderCode : Order → Nat
  | .cost => 0
  | .hops => 1

/-- Degraded policy codes (section 9.1.5). -/
def policyOfCode : Nat → Option Policy
  | 0 => some .avoid
  | 1 => some .allow
  | 2 => some .penalize
  | _ => none

/-- Degraded policy codes (section 9.1.5). -/
def policyCode : Policy → Nat
  | .avoid => 0
  | .allow => 1
  | .penalize => 2

/-- Diversity codes (section 9.1.5). -/
def diversityOfCode : Nat → Option Diversity
  | 0 => some .none
  | 1 => some .link
  | 2 => some .node
  | 3 => some .srlg
  | _ => none

/-- Diversity codes (section 9.1.5). -/
def diversityCode : Diversity → Nat
  | .none => 0
  | .link => 1
  | .node => 2
  | .srlg => 3

/-- Reroute action codes (section 9.1.5). -/
def actionOfCode : Nat → Option RerouteAction
  | 0 => some .notice
  | 1 => some .recompute
  | _ => none

/-- Reroute action codes (section 9.1.5). -/
def actionCode : RerouteAction → Nat
  | .notice => 0
  | .recompute => 1

/-- Epoch mode codes (section 10.5). -/
def epochModeOfCode : Nat → Option EpochMode
  | 0 => some .internal
  | 1 => some .lead
  | 2 => some .follow
  | _ => none

/-- Epoch mode codes (section 10.5). -/
def epochModeCode : EpochMode → Nat
  | .internal => 0
  | .lead => 1
  | .follow => 2

/-- CROSS_NOTICE codes (section 10.5). -/
def crossNoticeOfCode : Nat → Option CrossNotice
  | 0 => some .falling
  | 1 => some .rising
  | 2 => some .both
  | _ => none

/-- CROSS_NOTICE codes (section 10.5). -/
def crossNoticeCode : CrossNotice → Nat
  | .falling => 0
  | .rising => 1
  | .both => 2

/-- Part state codes (section 9.1.2). -/
def partCode : PartState → Nat
  | .standby => 0
  | .operate => 1
  | .settling => 2

/-- Engine state codes (section 9.1.2). -/
def engineModeCode : EngineMode → Nat
  | .idle => 0
  | .primary => 1
  | .protection => 2
  | .completing => 3

/-- Watch state codes (section 9.1.2). -/
def watchStateCode : WatchState → Nat
  | .reserved => 0
  | .active => 1
  | .violated => 2
  | .rerouting => 3
  | .stalled => 4

/-- Violation reason codes (section 9.1.2). -/
def violationCode : ViolationReason → Nat
  | .linkGone => 0
  | .linkDown => 1
  | .linkDegraded => 2
  | .nodeGone => 3
  | .budget => 4

/-- Status codes (section 9.1.6). -/
def statusCode : Status → Nat
  | .notRequested => 0
  | .found => 1
  | .noPath => 2
  | .exhausted => 3
  | .unknownEndpoint => 4
  | .badClass => 5
  | .cancelled => 6
  | .aborted => 7
  | .stale => 8
  | .notAttempted => 9

/-- Outcome codes (section 9.1.6). -/
def outcomeCode : ResultOutcome → Nat
  | .complete => 1
  | .partialPath => 2
  | .failed => 3

/-- Notice reason codes (section 9.1.7). -/
def reasonCode : Reason → Nat
  | .none => 0
  | .aged => 1
  | .flushed => 2
  | .nodes => 3
  | .links => 4
  | .queue => 5
  | .dialect => 6
  | .malformed => 7

/-- Admin codes (section 9.1.2). -/
def adminCode : Admin → Nat
  | .up => 0
  | .down => 1

/-- Link condition codes (section 9.1.2). -/
def conditionCode : Condition → Nat
  | .normal => 0
  | .degraded => 1

/-! ## Response codes (R166) -/

/-- The response codes. -/
inductive Response where
  | ok
  | clamped
  | notReady
  | notInStandby
  | badIndex
  | badValue
  | duplicate
  | queueFull
  | notFound
  | tooLate
  | denied
  | unknownCommand
  | malformed
deriving DecidableEq, Repr

/-- The value of a response code (section 10.1). -/
def responseCode : Response → Byte
  | .ok => 0x00
  | .clamped => 0x01
  | .notReady => 0x02
  | .notInStandby => 0x03
  | .badIndex => 0x04
  | .badValue => 0x05
  | .duplicate => 0x06
  | .queueFull => 0x07
  | .notFound => 0x08
  | .tooLate => 0x09
  | .denied => 0x0A
  | .unknownCommand => 0x0B
  | .malformed => 0x0C

/-- An owning block's answer to a command: the response code and the data. -/
structure Reply where
  code : Response
  data : List Byte
deriving DecidableEq, Repr

/-- An answer that carries no data (section 10.1: a refused command carries none). -/
def Reply.bare (c : Response) : Reply := { code := c, data := [] }

/-! ## Field encodings (section 9.1.2) -/

/-- A one-byte field: enumeration, index, small count. -/
def encByte (n : Nat) : List Byte := encodeNat 1 n

/-- A mark or a yes/no. -/
def encMark (b : Bool) : List Byte := [if b then 1 else 0]

/-- A two-byte field. -/
def enc2 (n : Nat) : List Byte := encodeNat 2 n

/-- A four-byte field. -/
def enc4 (n : Nat) : List Byte := encodeNat 4 n

/-- A link ref: origin node id, then local link id. -/
def encLinkRef (r : LinkRef) : List Byte := enc4 r.origin.toNat ++ enc2 r.lid.toNat

/-- A q value: FFFFh for ABSENT. -/
def encQ : Option Nat → List Byte
  | some q => enc2 q
  | none => [0xFF, 0xFF]

/-- An optional field: a presence byte, then the field; zeros, of the field's size, when absent. -/
def encOptional {α : Type} (size : Nat) (enc : α → List Byte) : Option α → List Byte
  | some x => 1 :: enc x
  | none => 0 :: List.replicate size 0

/-- A list: one count byte, then the items. -/
def encList {α : Type} (enc : α → List Byte) (xs : List α) : List Byte :=
  encByte xs.length ++ xs.flatMap enc

/-- A requester: kind byte, then the address, zeros for WATCH LIST. -/
def encRequester : Requester → List Byte
  | .mgmt a => 0 :: enc4 a.toNat
  | .watchList => 1 :: enc4 0

/-- A two's complement offset. -/
def encOffset (z : Int) : List Byte := enc2 (BitVec.ofInt 16 z).toNat

/-- A set of rights: bit 0 QUERY, bit 1 REQUEST, bit 2 CONFIGURE (R177). DESIGN CHOICE, log entry 36: the
set, whose size the spec does not give, takes one byte. -/
def encRights (r : Rights) : List Byte :=
  encByte ((if r.query then 1 else 0) + (if r.request then 2 else 0) + (if r.configure then 4 else 0))

/-- A dialect entry: its six fields in the order of section 8.1. DESIGN CHOICE, log entry 9: the shift
takes one byte. -/
def encDialectEntry (e : DialectEntry) : List Byte :=
  encMark e.valid ++ [e.code] ++ encByte (targetCode e.target) ++ enc2 e.mul ++ encByte e.shift
    ++ encOffset e.offset

/-- A class entry: its four fields in the order of section 8.1. DESIGN CHOICE, log entry 9: margin is
a q figure and takes two bytes. -/
def encClassEntry (e : ClassEntry) : List Byte :=
  encMark e.valid ++ enc2 e.qReq ++ enc2 e.margin ++ enc2 e.regenCost

/-- A hop as QUERY WATCH gives it: link ref, node reached, regeneration mark (R137). -/
def encHeldHop (h : Hop) : List Byte := encLinkRef h.ref ++ enc4 h.reached.toNat ++ encMark h.regen

/-- The hops of a held path in order. -/
def pathHops (p : HeldPath) : List Hop := p.flatMap (·.hops)

/-- A held path: its hops, then its segments (R137). -/
def encHeldPath (p : HeldPath) : List Byte :=
  encList encHeldHop (pathHops p) ++ encList (fun g => enc2 g.start ++ encByte g.width) p

/-! ## Result, notice and mark payloads (sections 9.1.6 and 9.1.7) -/

/-- A phase block (section 9.1.6). -/
def encPhase (phase : Nat) (c : PhaseCounts) : List Byte :=
  encByte phase ++ enc2 c.expansions ++ enc4 c.spectrum ++ enc4 c.noise ++ enc4 c.hops
    ++ enc4 c.excluded ++ enc4 c.dominated

/-- A path block (section 9.1.6). -/
def encFoundPath (path : Nat) (p : FoundPath) : List Byte :=
  encByte path ++ enc4 p.cost ++ encByte p.hopCount ++ encByte p.segments.length
    ++ (p.segments.flatMap (·.held.hops)).flatMap (fun h => encLinkRef h.ref ++ encMark h.regen)
    ++ p.segments.flatMap (fun g =>
        enc2 g.held.start ++ encByte g.held.width ++ enc2 g.q ++ encMark g.qclamp)

/-- The blocks of an optional record. -/
def encPresent {α : Type} (enc : α → List Byte) : Option α → List Byte
  | some x => enc x
  | none => []

/-- The flags byte of a result (section 9.1.6). -/
def resultFlags (r : ResultRecord) : Nat :=
  (if r.truncated then 1 else 0) + (if r.provisional then 2 else 0)
    + (if r.windowAdjusted then 4 else 0) + (if r.holdRefused then 8 else 0)

/-- The count of present records. -/
def countPresent {α : Type} (x y : Option α) : Nat := x.toList.length + y.toList.length

/-- A result payload (section 9.1.6). -/
def encResult (r : ResultRecord) : List Byte :=
  enc2 r.tag.toNat ++ encByte (outcomeCode r.outcome) ++ encByte (statusCode r.primary)
    ++ encByte (statusCode r.protection) ++ encByte (resultFlags r) ++ encByte (r.watchId.getD 255)
    ++ encByte (countPresent r.primaryPhase r.protectionPhase)
    ++ encByte (countPresent r.primaryPath r.protectionPath)
    ++ encPresent (encPhase 0) r.primaryPhase ++ encPresent (encPhase 1) r.protectionPhase
    ++ encPresent (encFoundPath 0) r.primaryPath ++ encPresent (encFoundPath 1) r.protectionPath

/-- A subject's kind (section 9.1.7). -/
def subjectKind : Subject → Nat
  | .none => 0
  | .node _ => 1
  | .link _ => 2
  | .watch _ _ => 3
  | .epoch _ => 4

/-- A subject's bytes, before padding (sections 9.1.2 and 9.1.7). -/
def subjectBytes : Subject → List Byte
  | .none => []
  | .node id => enc4 id.toNat
  | .link r => encLinkRef r
  | .watch id tag => encByte id ++ enc2 tag.toNat
  | .epoch n => enc2 n

/-- The subject field: 6 bytes, left-aligned and padded with zeros (section 9.1.7). -/
def encSubject (x : Subject) : List Byte :=
  (subjectBytes x ++ List.replicate 6 0).take 6

/-- A notice payload (section 9.1.7). -/
def encNotice (c : EventClass) (count : Nat) (reason : Reason) (subject : Subject) : List Byte :=
  encByte (eventIndex c + 1) ++ encByte count ++ encByte (reasonCode reason)
    ++ encByte (subjectKind subject) ++ encSubject subject

/-! ## Parameters -/

/-- A mark among a command's parameters. DESIGN CHOICE, log entry 8: any value but 0 is set. -/
def paramMark (ps : List Byte) (off : Nat) : Bool := fieldByte ps off != 0

/-- A one-byte parameter as a number. -/
def param1 (ps : List Byte) (off : Nat) : Nat := (fieldByte ps off).toNat

/-- A link ref among parameters (section 9.1.2). -/
def paramLinkRef (ps : List Byte) (off : Nat) : LinkRef :=
  { origin := field32 ps off, lid := field16 ps (off + 4) }

/-- A set of rights among parameters; other bits are ignored (R177). DESIGN CHOICE, log entry 36: the set
takes one byte. -/
def paramRights (ps : List Byte) (off : Nat) : Rights :=
  { query := (fieldByte ps off).getLsbD 0
    request := (fieldByte ps off).getLsbD 1
    configure := (fieldByte ps off).getLsbD 2 }

/-- Bring a number into a range (00_scope.md section 4). -/
def clampNat (lo hi v : Nat) : Nat := max lo (min hi v)

end Sys2Proof.Machine
end

