-- ==== Sys2Proof/Machine/Monitor.lean ====
section
/-! DEFINITION. The Link Condition Monitor (chapter 3). -/

namespace Sys2Proof.Machine

/-- The condition fields of a created link (R50). -/
def CondFields.fresh : CondFields :=
  { condition := .normal, count := 0, below := false, crossed := false }

/-- The below-threshold indicator for a q and a condition (R52). -/
def belowThreshold (cfg : Settings) (c : Condition) : Option Nat → Bool
  | none => false
  | some q =>
    match c with
    | .normal => decide (q < cfg.degradeLow)
    | .degraded => decide (q < cfg.degradeHigh)

/-- A q counts towards the other condition: below DEGRADE_LOW for a NORMAL link (R53), at or above
DEGRADE_HIGH for a DEGRADED one (R54), never when ABSENT (R55). -/
def countsTowards (cfg : Settings) (c : Condition) : Option Nat → Bool
  | none => false
  | some q =>
    match c with
    | .normal => decide (q < cfg.degradeLow)
    | .degraded => decide (q ≥ cfg.degradeHigh)

/-- The other condition. -/
def otherCondition : Condition → Condition
  | .normal => .degraded
  | .degraded => .normal

/-- One evaluation of a link (R51 to R55): the fields after it, and whether it made a crossing. -/
def evaluate (cfg : Settings) (f : CondFields) (q : Option Nat) : CondFields × Bool :=
  let below := belowThreshold cfg f.condition q
  if countsTowards cfg f.condition q then
    if f.count + 1 = cfg.filterDepth then
      ({ condition := otherCondition f.condition, count := 0, below, crossed := true }, true)
    else ({ f with count := f.count + 1, below }, false)
  else ({ f with count := 0, below }, false)

/-- The raise of a crossing to a condition, under CROSS_NOTICE (R56). -/
def crossingRaise (cfg : Settings) (now : Condition) (ref : LinkRef) : List Raise :=
  match now, cfg.crossNotice with
  | .degraded, .rising => []
  | .degraded, _ => [{ cls := .linkDegraded, subject := .link ref, reason := .none }]
  | .normal, .falling => []
  | .normal, _ => [{ cls := .linkRecovered, subject := .link ref, reason := .none }]

/-- A link after a change of DEGRADE_LOW, DEGRADE_HIGH or FILTER_DEPTH (R57). -/
def Link.rethreshold (cfg : Settings) (l : Link) : Link :=
  { l with cond := { l.cond with count := 0, below := belowThreshold cfg l.cond.condition l.q } }

/-- FILTER_DEPTH brought to one of 1, 2, 4 and 8 (R57). -/
def clampDepth (v : Nat) : Nat :=
  if v ≥ 8 then 8 else if v ≥ 4 then 4 else if v ≥ 2 then 2 else 1

end Sys2Proof.Machine
end

