-- ==== Sys2Proof/Machine/Store.lean ====
section
/-! DEFINITION. The Topology Store (chapter 1): what one store event makes of the tables, the classes
it raises and the changes it reports; link usability; touched marking. -/

namespace Sys2Proof.Machine

/-! ## Change reports (R21, R23) -/

/-- The report kinds of R21; FREED serves links and nodes. -/
inductive ReportKind where
  | created
  | freed
  | cost
  | q
  | occupancy
  | admin
  | endpoints
  | srlg
  | condition
  | usability
  | live
  | withdrawn
  | transitQ
  | regens
deriving DecidableEq, Repr

/-- One change report: the element and the kind (R23). -/
structure Report where
  element : Element
  kind    : ReportKind
deriving DecidableEq, Repr

/-- What one store event makes: the tables and counters after it, the classes raised in order, and
the reports in the order of R23, but for the USABILITY reports. -/
structure StoreOutcome where
  nodes    : List NodeEntry
  counters : StoreCounters
  raises   : List Raise
  reports  : List Report
deriving DecidableEq, Repr

/-! ## Link usability (R19, R20) -/

/-- The tests of R19, in the order they are made. -/
inductive UnusableReason where
  | origin
  | remote
  | admin
  | twoWay
deriving DecidableEq, Repr

/-- Unusable reason codes, 0 for a usable link (section 9.1.2). -/
def unusableCode : Option UnusableReason → Nat
  | none => 0
  | some .origin => 1
  | some .remote => 2
  | some .admin => 3
  | some .twoWay => 4

/-- The node's list holds a reverse partner of a link from `origin` (test 4 of R19). -/
def hasReverse (r : NodeEntry) (origin : NodeId) (l : Link) : Bool :=
  r.links.any (fun k => k.remote == origin &&
    (match l.remoteLid with
     | none => true
     | some x => k.lid == x))

/-- The first test of R19 that a link of `o` fails; none when the link is usable. -/
def unusableReason (twoWay : Bool) (nodes : List NodeEntry) (o : NodeEntry) (l : Link) :
    Option UnusableReason :=
  if !o.isLive then some .origin
  else match findNode nodes l.remote with
    | none => some .remote
    | some r =>
      if !r.isLive then some .remote
      else if l.admin = .down then some .admin
      else if twoWay && !hasReverse r o.id l then some .twoWay
      else none

/-- The link is usable (R19). -/
def usable (twoWay : Bool) (nodes : List NodeEntry) (o : NodeEntry) (l : Link) : Bool :=
  (unusableReason twoWay nodes o l).isNone

/-- Insert a node by ascending node id. -/
def insertById (n : NodeEntry) : List NodeEntry → List NodeEntry
  | [] => [n]
  | x :: xs => if n.id.toNat ≤ x.id.toNat then n :: x :: xs else x :: insertById n xs

/-- The nodes in ascending node id (item 4 of R23). -/
def sortById (nodes : List NodeEntry) : List NodeEntry := nodes.foldr insertById []

/-- The USABILITY reports of an event: the links held both before and after it whose usability
differs, in ascending origin and then ascending local id (R20, R23). -/
def usabilityReports (twoWay twoWay' : Bool) (nodes nodes' : List NodeEntry) : List Report :=
  (sortById nodes').flatMap (fun n' => n'.links.filterMap (fun l' =>
    match findNode nodes n'.id with
    | none => none
    | some n =>
      match findLid n.links l'.lid with
      | none => none
      | some l =>
        if usable twoWay nodes n l = usable twoWay' nodes' n' l' then none
        else some { element := .link ⟨n'.id, l'.lid⟩, kind := .usability }))

/-! ## Link set replacement (R12 to R15) -/

/-- A link item is valid (R14). -/
def validItem (origin : NodeId) (i : LinkItem) : Bool :=
  i.lid != 0#16 && !reservedId i.remote && i.remote != origin

/-- The link an item makes, with the defaults of section 1.3 for what it leaves absent (R13). -/
def itemLink (i : LinkItem) (cond : CondFields) : Link where
  lid := i.lid
  remote := i.remote
  remoteLid := i.remoteLid
  cost := i.cost.getD 1
  q := i.q
  occupied := i.occupied.getD 0#320
  srlg := i.srlg.getD []
  admin := i.admin.getD .up
  cond := cond

/-- Insert a link by ascending local link id (R4). -/
def insertLink (l : Link) : List Link → List Link
  | [] => [l]
  | x :: xs => if l.lid.toNat < x.lid.toNat then l :: x :: xs else x :: insertLink l xs

/-- Replace the link that has this local link id. -/
def replaceLink (l : Link) (links : List Link) : List Link :=
  links.map (fun x => if x.lid = l.lid then l else x)

/-- A report of `kind` when the condition holds. -/
def reportIf (b : Bool) (x : Element) (kind : ReportKind) : List Report :=
  if b then [{ element := x, kind := kind }] else []

/-- The field reports of an updated link, in the order of R21. -/
def fieldReports (ref : LinkRef) (old new : Link) : List Report :=
  reportIf (old.cost != new.cost) (.link ref) .cost
    ++ reportIf (old.q != new.q) (.link ref) .q
    ++ reportIf (old.occupied != new.occupied) (.link ref) .occupancy
    ++ reportIf (old.admin != new.admin) (.link ref) .admin
    ++ reportIf (old.remote != new.remote || old.remoteLid != new.remoteLid) (.link ref) .endpoints
    ++ reportIf (old.srlg != new.srlg) (.link ref) .srlg

/-- Link set replacement as it goes: the node's list, the counters, the raises and reports so far,
and whether an item was dropped (R15). -/
structure LinkWork where
  links    : List Link
  counters : StoreCounters
  raises   : List Raise
  reports  : List Report
  dropped  : Bool
deriving DecidableEq, Repr

/-- A link after its fields were set: evaluated by the monitor (R13, R51). -/
def evaluated (cfg : Settings) (l : Link) : Link × Bool :=
  let r := evaluate cfg l.cond l.q
  ({ l with cond := r.1 }, r.2)

/-- The raises and the CONDITION report of an evaluation that crossed (R56). -/
def crossingRaises (cfg : Settings) (ref : LinkRef) (l : Link) (crossed : Bool) : List Raise :=
  if crossed then crossingRaise cfg l.cond.condition ref else []

/-- One valid link item is applied: it updates the link of its local id, creates a link, or is dropped
for want of space (R12 step 2, R13, R15). `others` counts the links of all other nodes. -/
def applyItem (cfg : Settings) (origin : NodeId) (others : Nat) (w : LinkWork) (i : LinkItem) : LinkWork :=
  let ref : LinkRef := ⟨origin, i.lid⟩
  match findLid w.links i.lid with
  | some old =>
    let r := evaluated cfg (itemLink i old.cond)
    { w with
      links := replaceLink r.1 w.links
      raises := w.raises ++ crossingRaises cfg ref r.1 r.2
      reports := w.reports ++ fieldReports ref old r.1 ++ reportIf r.2 (.link ref) .condition }
  | none =>
    if w.links.length < Config.linksPerNode ∧ others + w.links.length < Config.linkEntries then
      let r := evaluated cfg (itemLink i CondFields.fresh)
      { w with
        links := insertLink r.1 w.links
        counters := { w.counters with linksCreated := bump w.counters.linksCreated }
        raises := w.raises ++ crossingRaises cfg ref r.1 r.2
        reports := w.reports ++ reportIf true (.link ref) .created ++ reportIf r.2 (.link ref) .condition }
    else
      { w with
        counters := { w.counters with linksDropped := bump w.counters.linksDropped }
        dropped := true }

/-- Step 1 of R12: the stored links that no valid item names are freed, in ascending local id; invalid
items are counted (R14). -/
def freeUnnamed (origin : NodeId) (stored : List Link) (items : List LinkItem) (c : StoreCounters) :
    LinkWork :=
  let named := fun (l : Link) => (items.filter (validItem origin)).any (fun i => i.lid == l.lid)
  let freed := stored.filter (fun l => !named l)
  { links := stored.filter named
    counters := { c with
      linksFreed := addSat c.linksFreed freed.length
      itemsInvalid := addSat c.itemsInvalid (items.filter (fun i => !validItem origin i)).length }
    raises := []
    reports := freed.map (fun l => { element := .link ⟨origin, l.lid⟩, kind := .freed })
    dropped := false }

/-- Link set replacement, steps 1 and 2 of R12. -/
def replaceLinks (cfg : Settings) (origin : NodeId) (others : Nat) (stored : List Link)
    (items : List LinkItem) (c : StoreCounters) : LinkWork :=
  (items.filter (validItem origin)).foldl (applyItem cfg origin others) (freeUnnamed origin stored items c)

/-! ## Update records (R5 to R11) -/

/-- Insert a node entry by ascending table index. -/
def insertNode (n : NodeEntry) : List NodeEntry → List NodeEntry
  | [] => [n]
  | x :: xs => if n.index < x.index then n :: x :: xs else x :: insertNode n xs

/-- Replace the entry that holds this node id. -/
def replaceNode (n : NodeEntry) (nodes : List NodeEntry) : List NodeEntry :=
  nodes.map (fun x => if x.id = n.id then n else x)

/-- The FREE entry with the lowest table index (R1). -/
def lowestFree (nodes : List NodeEntry) : Option Nat :=
  (List.range Config.nodeEntries).find? (fun i => !nodes.any (fun n => n.index == i))

/-- An event that changes nothing at the store. -/
def StoreOutcome.unchanged (t : Store) : StoreOutcome :=
  { nodes := t.nodes, counters := t.counters, raises := [], reports := [] }

/-- A record is discarded without effect (R7, R11). -/
def discardRecord (t : Store) : StoreOutcome :=
  { nodes := t.nodes
    counters := { t.counters with recordsDiscarded := bump t.counters.recordsDiscarded }
    raises := [], reports := [] }

/-- The TABLE_FULL raise of an application that dropped items (R15). -/
def linksFullRaise (origin : NodeId) (dropped : Bool) : List Raise :=
  if dropped then [{ cls := .tableFull, subject := .node origin, reason := .links }] else []

/-- The incomplete mark after link set replacement: the record's, set further by an item that is
invalid (R14) or dropped (R15). -/
def incompleteAfter (r : FullRecord) (w : LinkWork) : Bool :=
  r.incomplete || r.items.any (fun i => !validItem r.origin i) || w.dropped

/-- A LIVE entry with a FULL record's fields and this link list (R6, R8, R9). -/
def recordNode (index : Nat) (r : FullRecord) (w : LinkWork) : NodeEntry where
  index := index
  id := r.origin
  life := .live r.lifetime
  dialect := r.dialect
  seq := r.seq
  regens := r.regens.getD 0
  transitQ := r.transitQ
  incomplete := incompleteAfter r w
  links := w.links

/-- A FULL record adds a node (R6). -/
def addNode (cfg : Settings) (t : Store) (r : FullRecord) : StoreOutcome :=
  match lowestFree t.nodes with
  | none =>
    { nodes := t.nodes
      counters := { t.counters with recordsDropped := bump t.counters.recordsDropped }
      raises := [{ cls := .tableFull, subject := .node r.origin, reason := .nodes }]
      reports := [] }
  | some index =>
    let w := replaceLinks cfg r.origin (linksInUse t.nodes) [] r.items t.counters
    { nodes := insertNode (recordNode index r w) t.nodes
      counters := { w.counters with nodesAdded := bump w.counters.nodesAdded }
      raises := [{ cls := .nodeAdded, subject := .node r.origin, reason := .none }]
        ++ w.raises ++ linksFullRaise r.origin w.dropped
      reports := { element := .node r.origin, kind := .live } :: w.reports }

/-- The node's reports of an update: LIVE when it was WITHDRAWN, TRANSIT_Q, REGENS (R8, R9, R23). -/
def nodeReports (n : NodeEntry) (r : FullRecord) : List Report :=
  reportIf (!n.isLive) (.node n.id) .live
    ++ reportIf (n.transitQ != r.transitQ) (.node n.id) .transitQ
    ++ reportIf (n.regens != r.regens.getD 0) (.node n.id) .regens

/-- A FULL record with a lifetime updates a LIVE node (R8) or returns a WITHDRAWN one to LIVE (R9). -/
def updateNode (cfg : Settings) (t : Store) (n : NodeEntry) (r : FullRecord) : StoreOutcome :=
  let w := replaceLinks cfg n.id (linksInUse t.nodes - n.links.length) n.links r.items t.counters
  { nodes := replaceNode (recordNode n.index r w) t.nodes
    counters := { w.counters with
      recordsApplied := bump w.counters.recordsApplied
      nodesAdded := if n.isLive then w.counters.nodesAdded else bump w.counters.nodesAdded }
    raises := (if n.isLive then [] else [{ cls := .nodeAdded, subject := .node n.id, reason := .none }])
      ++ w.raises ++ linksFullRaise n.id w.dropped
    reports := nodeReports n r ++ w.reports }

/-- A flush of a LIVE node, or of a WITHDRAWN one (R10). -/
def flushNode (cfg : Settings) (t : Store) (n : NodeEntry) (r : FullRecord) : StoreOutcome :=
  match n.life with
  | .live _ =>
    { nodes := replaceNode { n with life := .withdrawn cfg.holdDown, dialect := r.dialect, seq := r.seq } t.nodes
      counters := { t.counters with
        recordsApplied := bump t.counters.recordsApplied
        nodesFlushed := bump t.counters.nodesFlushed }
      raises := [{ cls := .nodeExpired, subject := .node n.id, reason := .flushed }]
      reports := [{ element := .node n.id, kind := .withdrawn }] }
  | .withdrawn h =>
    { nodes := replaceNode { n with life := .withdrawn h, dialect := r.dialect, seq := r.seq } t.nodes
      counters := { t.counters with recordsApplied := bump t.counters.recordsApplied }
      raises := [], reports := [] }

/-- A FULL record is applied by the origin's state as the store finds it (R5). -/
def applyFull (cfg : Settings) (t : Store) (r : FullRecord) : StoreOutcome :=
  if reservedId r.origin then discardRecord t
  else match findNode t.nodes r.origin with
    | none => if r.lifetime = 0 then discardRecord t else addNode cfg t r
    | some n => if r.lifetime = 0 then flushNode cfg t n r else updateNode cfg t n r

/-- A REFRESH record is applied (R5, R7, R11). -/
def applyRefresh (t : Store) (origin : NodeId) (lifetime : Nat) : StoreOutcome :=
  match findNode t.nodes origin with
  | none => discardRecord t
  | some n =>
    if reservedId origin || lifetime == 0 || !n.isLive then discardRecord t
    else
      { nodes := replaceNode { n with life := .live lifetime } t.nodes
        counters := { t.counters with refreshesApplied := bump t.counters.refreshesApplied }
        raises := [], reports := [] }

/-- One update record is applied (R5). -/
def applyRecord (cfg : Settings) (t : Store) : UpdateRecord → StoreOutcome
  | .full r => applyFull cfg t r
  | .refresh origin _ lifetime => applyRefresh t origin lifetime

/-! ## Aging (R16, R17) -/

/-- The store's action on an age tick at one node entry: LIVE and WITHDRAWN counters decrement, and
the node is withdrawn (R16) or freed (R17) when its counter reaches 0. DESIGN CHOICE, log entry 42: R23 puts a
freed node's report together with those of its links; the model's order is the node's, then its links'. -/
def tickNode (cfg : Settings) (o : StoreOutcome) (n : NodeEntry) : StoreOutcome :=
  match n.life with
  | .live age =>
    if age ≤ 1 then
      { nodes := o.nodes ++ [{ n with life := .withdrawn cfg.holdDown }]
        counters := { o.counters with nodesAged := bump o.counters.nodesAged }
        raises := o.raises ++ [{ cls := .nodeExpired, subject := .node n.id, reason := .aged }]
        reports := o.reports ++ [{ element := .node n.id, kind := .withdrawn }] }
    else { o with nodes := o.nodes ++ [{ n with life := .live (age - 1) }] }
  | .withdrawn h =>
    if h ≤ 1 then
      { nodes := o.nodes
        counters := { o.counters with
          nodesFreed := bump o.counters.nodesFreed
          linksFreed := addSat o.counters.linksFreed n.links.length }
        raises := o.raises
        reports := o.reports ++ { element := .node n.id, kind := .freed }
          :: n.links.map (fun l => { element := .link ⟨n.id, l.lid⟩, kind := .freed }) }
    else { o with nodes := o.nodes ++ [{ n with life := .withdrawn (h - 1) }] }

/-- The store's action on an age tick: one event over the node table in ascending table index. -/
def tickStore (cfg : Settings) (t : Store) : StoreOutcome :=
  t.nodes.foldl (tickNode cfg) { nodes := [], counters := t.counters, raises := [], reports := [] }

/-- A node's counter stands at its last tick before the node is withdrawn (R16). -/
def agingOut (n : NodeEntry) : Bool :=
  match n.life with
  | .live age => decide (age ≤ 1)
  | .withdrawn _ => false

/-- A node's counter stands at its last tick before the entry is freed (R17). -/
def holdDownEnding (n : NodeEntry) : Bool :=
  match n.life with
  | .live _ => false
  | .withdrawn h => decide (h ≤ 1)

/-! ## Touched marking (R22) -/

/-- An element is marked in an engine that is not IDLE (R22). -/
def Engine.touch (x : Engine) (el : Element) : Engine :=
  if x.mode = .idle then x
  else if el ∈ x.touched then x
  else if x.touched.length < Config.touchedSet then { x with touched := x.touched ++ [el] }
  else { x with overflow := true }

/-- Each element listed is marked in an engine. -/
def Engine.touchAll (x : Engine) (els : List Element) : Engine := els.foldl Engine.touch x

/-- The elements of an event's reports are marked in both engines (R22). -/
def State.touchReports (s : State) (rs : List Report) : State :=
  { s with engA := s.engA.touchAll (rs.map (·.element)), engB := s.engB.touchAll (rs.map (·.element)) }

end Sys2Proof.Machine
end

