-- ==== Sys2Proof/Machine/Search.lean ====
section
/-! DEFINITION. Path search in one engine (chapter 5): labels, the frontier, one expansion,
dominance, the pool limit, reconstruction and the protection phase's exclusions. -/

namespace Sys2Proof.Machine

/-! ## The frontier (R77) -/

/-- A label's key, compared field by field (R77). -/
def labelKey (o : Order) (l : Label) : Nat × Nat × Nat :=
  match o with
  | .cost => (l.cost, l.hops, l.number)
  | .hops => (l.hops, l.cost, l.number)

/-- A key is smaller than another, field by field (R77). -/
def keyLt (x y : Nat × Nat × Nat) : Bool :=
  decide (x.1 < y.1) || (x.1 == y.1 && (decide (x.2.1 < y.2.1) || (x.2.1 == y.2.1 && decide (x.2.2 < y.2.2))))

/-- The first label of the frontier: the OPEN label with the smallest key (R77). -/
def firstOpen (o : Order) (pool : List Label) : Option Label :=
  pool.foldl (fun best l =>
    if l.closed then best
    else match best with
      | none => some l
      | some b => if keyLt (labelKey o l) (labelKey o b) then some l else some b) none

/-- The worst label of the frontier: the OPEN label with the largest key (R77). -/
def worstOpen (o : Order) (pool : List Label) : Option Label :=
  pool.foldl (fun worst l =>
    if l.closed then worst
    else match worst with
      | none => some l
      | some w => if keyLt (labelKey o w) (labelKey o l) then some l else some w) none

/-! ## The predecessor chain -/

/-- The label of the pool with an insertion number. -/
def findLabel (pool : List Label) (number : Nat) : Option Label :=
  pool.find? (fun l => l.number == number)

/-- The labels from a label back to the root; hops fall by one at each predecessor (R75), so `hops`
steps reach the root. -/
def chainBack (pool : List Label) : Nat → Label → List Label
  | 0, l => [l]
  | k + 1, l =>
    l :: (match l.pred.bind (findLabel pool) with
      | none => []
      | some p => chainBack pool k p)

/-- The predecessor chain of a label, the label first. -/
def labelChain (pool : List Label) (l : Label) : List Label := chainBack pool l.hops l

/-! ## Dominance and insertion (R88 to R90) -/

/-- A label dominates another at the same node (R88). -/
def dominates (o : Order) (p q : Label) : Bool :=
  decide (p.cost ≤ q.cost) && decide (p.noise ≤ q.noise) && decide (p.regens ≤ q.regens)
    && slotsWithin q.starts p.starts && (o == .cost || decide (p.hops ≤ q.hops))

/-- A candidate enters a full pool by eviction, or is discarded; the phase is TRUNCATED either way
(R90). -/
def Engine.evictFor (o : Order) (e : Engine) (c : Label) : Engine :=
  let cut : PhaseCounts := { e.counts with truncated := true }
  match worstOpen o e.pool with
  | none => { e with counts := cut }
  | some w =>
    if keyLt (labelKey o c) (labelKey o w) then
      { e with pool := e.pool.filter (fun l => l.number != w.number) ++ [c]
               nextNumber := e.nextNumber + 1, counts := cut }
    else { e with counts := cut }

/-- A feasible candidate is judged against the labels at its node and inserted (R89, R90). -/
def Engine.insertLabel (o : Order) (e : Engine) (c : Label) : Engine :=
  if e.pool.any (fun p => p.node == c.node && dominates o p c) then
    { e with counts := { e.counts with dominated := e.counts.dominated + 1 } }
  else
    let e' := { e with pool := e.pool.filter (fun q => q.closed || q.node != c.node || !dominates o c q) }
    let c' := { c with number := e.nextNumber }
    if e'.pool.length < Config.labelPool then
      { e' with pool := e'.pool ++ [c'], nextNumber := e.nextNumber + 1 }
    else e'.evictFor o c'

/-! ## Phases (R78, R94) -/

/-- The root label of a phase (R78). -/
def rootLabel (source : NodeId) (starts : SlotSet) : Label where
  node := source
  pred := none
  via := none
  cost := 0
  noise := 0
  hops := 0
  regens := 0
  regenerated := false
  starts := starts
  closed := false
  number := 0

/-- A phase starts: pool, counts and insertion counter as R78 sets them; the root is inserted, or, with
no window start, the phase has ended NO_PATH with a spectrum tally of 1 and holds no label. -/
def Engine.startPhase (e : Engine) (mode : EngineMode) (source : NodeId) : Engine :=
  if e.starts = 0#320 then
    { e with mode := mode, pool := [], nextNumber := 0
             counts := { PhaseCounts.zero with spectrum := 1 } }
  else
    { e with mode := mode, pool := [rootLabel source e.starts], nextNumber := 1
             counts := PhaseCounts.zero }

/-! ## Exclusions (R80, R95 to R97) -/

/-- A link is a reverse link of a primary hop (R95). -/
def reverseOf (ref : LinkRef) (l : Link) (f : LinkFact) : Bool :=
  ref.origin == f.remote && l.remote == f.ref.origin &&
    (match f.remoteLid with
     | none => true
     | some x => l.lid == x)

/-- The LINK test of R95. -/
def failsLinkTest (facts : List LinkFact) (ref : LinkRef) (l : Link) : Bool :=
  facts.any (fun f => f.ref == ref || reverseOf ref l f)

/-- The SRLG test of R97: the link shares an id with a primary hop. -/
def sharesSrlg (facts : List LinkFact) (l : Link) : Bool :=
  facts.any (fun f => l.srlg.any (fun x => x ∈ f.srlg))

/-- The derived exclusions of the protection phase (R95 to R97); none in the primary phase. -/
def derivedExcluded (e : Engine) (d : Descriptor) (ref : LinkRef) (l : Link) : Bool :=
  match e.mode, e.primary with
  | .protection, some p =>
    match d.diversity with
    | .none => false
    | .link => failsLinkTest p.facts ref l
    | .node => l.remote ∈ p.intermediates
    | .srlg => failsLinkTest p.facts ref l || sharesSrlg p.facts l
  | _, _ => false

/-- A link is excluded by the request or by the protection phase (step 2 of R80). -/
def excludedLink (e : Engine) (d : Descriptor) (ref : LinkRef) (l : Link) : Bool :=
  ref ∈ d.exLinks || l.remote ∈ d.exNodes || derivedExcluded e d ref l

/-! ## Extensions (R82, R83) -/

/-- The slots of a link that are occupied or reserved (R70). -/
def blockedSlots (s : State) (ref : LinkRef) (l : Link) : SlotSet :=
  l.occupied ||| s.pwl.overlay.reservedSlots ref

/-- The plain extension of a label over a link (R82). -/
def plainExtension (s : State) (d : Descriptor) (x : Label) (xn : NodeEntry) (l : Link) : Label where
  node := l.remote
  pred := some x.number
  via := some ⟨xn.id, l.lid⟩
  cost := addCost x.cost (linkCost s.cfg d.policy l)
  noise := addNoise (addNoise x.noise (if x.node = d.source then 0 else transitTerm xn)) (linkTerm s.cfg l)
  hops := x.hops + 1
  regens := x.regens
  regenerated := false
  starts := x.starts &&& freeStarts (blockedSlots s ⟨xn.id, l.lid⟩ l) d.width
  closed := false
  number := 0

/-- The regenerated extension of a label over a link (R83). -/
def regenExtension (s : State) (e : Engine) (d : Descriptor) (x : Label) (xn : NodeEntry) (l : Link) :
    Label where
  node := l.remote
  pred := some x.number
  via := some ⟨xn.id, l.lid⟩
  cost := addCost (addCost x.cost (linkCost s.cfg d.policy l)) e.regenCost
  noise := linkTerm s.cfg l
  hops := x.hops + 1
  regens := x.regens + 1
  regenerated := true
  starts := e.starts &&& freeStarts (blockedSlots s ⟨xn.id, l.lid⟩ l) d.width
  closed := false
  number := 0

/-- A regenerated extension may be tried at a label's node (R83). -/
def regenAllowed (s : State) (d : Descriptor) (x : Label) (xn : NodeEntry) : Bool :=
  decide (x.regens < d.maxRegens) && x.node != d.source
    && decide (s.pwl.overlay.reservedRegens xn.id + 1 ≤ xn.regens)

/-- The tally of a link at which no feasible extension was made (R84). -/
def tallyFailure (c : PhaseCounts) : Failure → PhaseCounts
  | .spectrum => { c with spectrum := c.spectrum + 1 }
  | .noise => { c with noise := c.noise + 1 }

/-- A link that passed R80 and R81 is extended plainly, or with regeneration, or tallied (R82 to
R84). -/
def Engine.extendOver (s : State) (d : Descriptor) (x : Label) (xn : NodeEntry) (e : Engine) (l : Link) :
    Engine :=
  let p := plainExtension s d x xn l
  match failureOf e.budget p.starts p.noise with
  | none => e.insertLabel d.order p
  | some f =>
    let r := regenExtension s e d x xn l
    if regenAllowed s d x xn && (failureOf e.budget r.starts r.noise).isNone then e.insertLabel d.order r
    else { e with counts := tallyFailure e.counts f }

/-- One outgoing link is examined (R80, R81, then R82 to R84). `visited` are the nodes on the label's
chain. -/
def Engine.examineLink (s : State) (d : Descriptor) (x : Label) (xn : NodeEntry) (visited : List NodeId)
    (e : Engine) (l : Link) : Engine :=
  if !usable s.cfg.twoWay s.tst.nodes xn l || excludedLink e d ⟨xn.id, l.lid⟩ l || l.remote ∈ visited then e
  else if l.cond.condition = .degraded ∧ d.policy = .avoid then
    { e with counts := { e.counts with excluded := e.counts.excluded + 1 } }
  else if x.hops + 1 > d.maxHops then
    { e with counts := { e.counts with hops := e.counts.hops + 1 } }
  else e.extendOver s d x xn l

/-! ## One expansion (R79, R86) -/

/-- How an expansion ends (R79, R86). -/
inductive ExpansionEnd where
  | goesOn
  | found (destination : Label)
  | noPath
  | exhausted
deriving DecidableEq, Repr

/-- The first label is taken: CLOSED, and the expansion count increments (R79). -/
def Engine.takeLabel (e : Engine) (x : Label) : Engine :=
  { e with
    pool := e.pool.map (fun l => if l.number = x.number then { l with closed := true } else l)
    counts := { e.counts with expansions := e.counts.expansions + 1 } }

/-- The outgoing links of a label's node are examined in link list order; a node the store no longer
holds has none (R79). -/
def Engine.examineLinks (s : State) (d : Descriptor) (x : Label) (e : Engine) : Engine :=
  match findNode s.tst.nodes x.node with
  | none => e
  | some xn =>
    xn.links.foldl (Engine.examineLink s d x xn ((labelChain e.pool x).map (·.node))) e

/-- The end of an expansion after the last link was examined (R86). -/
def Engine.endOf (o : Order) (e : Engine) : ExpansionEnd :=
  if (firstOpen o e.pool).isNone then .noPath
  else if e.counts.expansions = e.limit then .exhausted
  else .goesOn

/-- One expansion at an engine (R79). A phase never waits with an empty frontier (R86); were it to, it
would end NO_PATH. -/
def Engine.expand (s : State) (d : Descriptor) (e : Engine) : Engine × ExpansionEnd :=
  match firstOpen d.order e.pool with
  | none => (e, .noPath)
  | some x =>
    let taken := e.takeLabel x
    if x.node = d.dest then (taken, .found x)
    else
      let e' := taken.examineLinks s d x
      (e', e'.endOf d.order)

/-! ## Reconstruction (R91 to R93) -/

/-- The labels after the root, divided at the regeneration marks (R92). -/
def splitSegments : List Label → List (List Label)
  | [] => []
  | l :: rest =>
    match splitSegments rest, rest with
    | g :: gs, r :: _ => if r.regenerated then [l] :: g :: gs else (l :: g) :: gs
    | _, _ => [[l]]

/-- The hop a label stands for; the root, which stands for none, has no via link (R91). -/
def labelHop (l : Label) : Option Hop :=
  l.via.map (fun ref => { ref := ref, reached := l.node, regen := l.regenerated })

/-- A segment from its labels, the last of which is its end label (R92). -/
def segmentOf (width : Nat) (g : List Label) : Option FoundSegment :=
  g.getLast?.map (fun endLabel =>
    let q := reportedQ endLabel.noise
    { held := { start := firstFit endLabel.starts, width := width, hops := g.filterMap labelHop }
      q := q, qclamp := qClamped q })

/-- The path of a destination label (R91, R92). -/
def reconstruct (pool : List Label) (width : Nat) (dest : Label) : FoundPath where
  cost := dest.cost
  hopCount := dest.hops
  segments := (splitSegments ((labelChain pool dest).reverse.drop 1)).filterMap (segmentOf width)

/-- The held segments of a found path. -/
def FoundPath.held (p : FoundPath) : HeldPath := p.segments.map (·.held)

/-- The hops of a found path in order. -/
def FoundPath.hops (p : FoundPath) : List Hop := pathHops p.held

/-- The facts captured of a primary hop (R93). -/
def captureFact (nodes : List NodeEntry) (h : Hop) : LinkFact :=
  match findLink nodes h.ref with
  | some l => { ref := h.ref, remote := h.reached, remoteLid := l.remoteLid, srlg := l.srlg }
  | none => { ref := h.ref, remote := h.reached, remoteLid := none, srlg := [] }

/-- The primary path record (R93). -/
def primaryRecord (nodes : List NodeEntry) (p : FoundPath) (c : PhaseCounts) : PrimaryRecord where
  path := p
  facts := p.hops.map (captureFact nodes)
  intermediates := (p.hops.drop 1).map (fun h => h.ref.origin)
  counts := c

/-- The elements of a found path: its links and its nodes, source and destination included (R107). -/
def pathElements (source : NodeId) (hops : List Hop) : List Element :=
  .node source :: hops.flatMap (fun h => [.link h.ref, .node h.reached])

end Sys2Proof.Machine
end

