-- ==== Sys2Proof/Machine/Reservations.lean ====
section
/-! DEFINITION. Watch entries' claims and the reservation overlay, hold offers (R119 to R124) and the
results of reroute requests (R132 to R134). -/

namespace Sys2Proof.Machine

/-! ## Claims and the overlay (R119, R120) -/

/-- The slots a path claims: on every link of every segment, the segment's slots (R119). -/
def pathClaims (owner : Nat) (p : HeldPath) : List SlotClaim :=
  p.flatMap (fun g => g.hops.map (fun h => { ref := h.ref, owner := owner, slots := slotRange g.start g.width }))

/-- The nodes at which a path's hops carry a regeneration mark, one per mark (R119). -/
def pathRegens (p : HeldPath) : List NodeId :=
  ((pathHops p).filter (·.regen)).map (fun h => h.ref.origin)

/-- The paths an entry holds, primary first. -/
def WatchEntry.paths (w : WatchEntry) : List HeldPath := w.primary :: w.protection.toList

/-- The slots an entry claims (R119). -/
def WatchEntry.slotClaims (w : WatchEntry) : List SlotClaim := w.paths.flatMap (pathClaims w.id)

/-- The regenerators an entry claims (R119). -/
def WatchEntry.regenClaims (w : WatchEntry) : List RegenClaim :=
  (w.paths.flatMap pathRegens).map (fun n => { node := n, owner := w.id })

/-- An entry's claims enter the overlay (R123, R124). -/
def Overlay.claim (o : Overlay) (w : WatchEntry) : Overlay :=
  { slots := o.slots ++ w.slotClaims, regens := o.regens ++ w.regenClaims }

/-- An entry's claims leave the overlay (R125, R126, R129, R135). -/
def Overlay.release (o : Overlay) (id : Nat) : Overlay :=
  { slots := o.slots.filter (fun c => c.owner != id), regens := o.regens.filter (fun c => c.owner != id) }

/-! ## The entries -/

/-- The entry in use with a watch id (R119). -/
def findWatch (entries : List WatchEntry) (id : Nat) : Option WatchEntry :=
  entries.find? (fun w => w.id == id)

/-- Replace the entry that has this watch id. -/
def replaceWatch (w : WatchEntry) (entries : List WatchEntry) : List WatchEntry :=
  entries.map (fun x => if x.id = w.id then w else x)

/-- Insert an entry by ascending watch id. -/
def insertWatch (w : WatchEntry) : List WatchEntry → List WatchEntry
  | [] => [w]
  | x :: xs => if w.id < x.id then w :: x :: xs else x :: insertWatch w xs

/-- The lowest free watch id (R119). -/
def lowestFreeId (entries : List WatchEntry) : Option Nat :=
  (List.range Config.watchEntries).find? (fun i => !entries.any (fun w => w.id == i))

/-- Replace a watch entry. -/
def State.setWatch (s : State) (w : WatchEntry) : State :=
  { s with pwl := { s.pwl with entries := replaceWatch w s.pwl.entries } }

/-- An entry's claims leave the overlay. -/
def State.releaseClaims (s : State) (id : Nat) : State :=
  { s with pwl := { s.pwl with overlay := s.pwl.overlay.release id } }

/-- A RESERVED entry is about to leave that state: its claims leave the overlay (R120). -/
def State.leaveReserved (s : State) (w : WatchEntry) : State :=
  if w.state = .reserved then s.releaseClaims w.id else s

/-- The entry is removed: its claims leave the overlay and its id becomes free (R126, R135). -/
def State.removeWatch (s : State) (id : Nat) : State :=
  { s with pwl :=
      { entries := s.pwl.entries.filter (fun w => w.id != id), overlay := s.pwl.overlay.release id } }

/-- A class is raised with a watch entry's id and tag as its subject (R178). -/
def State.raiseWatch (s : State) (c : EventClass) (w : WatchEntry) : State :=
  s.raise c (.watch w.id w.tag) .none

/-! ## The reservation check (R122) -/

/-- The links of the offered paths are tested in order, each against the store, the overlay, and the
claims checked earlier in the offer. -/
def checkClaims (s : State) (earlier : List SlotClaim) : List SlotClaim → Bool
  | [] => true
  | c :: rest =>
    match findLink s.tst.nodes c.ref with
    | none => false
    | some l =>
      slotsApart c.slots l.occupied && slotsApart c.slots (s.pwl.overlay.reservedSlots c.ref)
        && earlier.all (fun e => e.ref != c.ref || slotsApart c.slots e.slots)
        && checkClaims s (earlier ++ [c]) rest

/-- The regenerators stored at a node, 0 for a node held by no entry (R122). -/
def storedRegens (nodes : List NodeEntry) (id : NodeId) : Nat :=
  match findNode nodes id with
  | some n => n.regens
  | none => 0

/-- Each node has as many free regenerators as the offered paths place marks there (R122). -/
def checkRegens (s : State) (marks : List NodeId) : Bool :=
  marks.all (fun n =>
    decide (s.pwl.overlay.reservedRegens n + (marks.filter (· == n)).length ≤ storedRegens s.tst.nodes n))

/-- The reservation check of the offered paths, primary first (R122). -/
def reservationCheck (s : State) (paths : List HeldPath) : Bool :=
  checkClaims s [] (paths.flatMap (pathClaims 0)) && checkRegens s (paths.flatMap pathRegens)

/-! ## Hold offers (R108, R121, R123, R124) -/

/-- The watch list's answer to an offer (R108). -/
inductive HoldAnswer where
  | held (id : Nat)
  | conflict
  | full
deriving DecidableEq, Repr

/-- The elements an engine is marked with when the other's route is reserved: the links with reserved
slots, then the nodes with reserved regenerators (R123). DESIGN CHOICE, log entry 42: this order, and that of
the claims in each part, which R123 leaves open. -/
def reservedElements (w : WatchEntry) : List Element :=
  w.slotClaims.map (fun c => Element.link c.ref) ++ w.regenClaims.map (fun c => Element.node c.node)

/-- An entry becomes RESERVED: its claims enter the overlay and the other engine is marked (R123,
R124). `entries` already hold the entry. -/
def State.reserve (s : State) (e : EngineId) (w : WatchEntry) (entries : List WatchEntry) : State :=
  let s' := { s with pwl := { entries := entries, overlay := s.pwl.overlay.claim w } }
  s'.setEngine (otherEngine e) ((s'.engine (otherEngine e)).touchAll (reservedElements w))

/-- The entry that an offer of a management source's request makes (R123). -/
def newWatch (s : State) (x : Engine) (d : Descriptor) (requester : Address) (id : Nat)
    (primary : HeldPath) (protection : Option HeldPath) : WatchEntry where
  id := id
  requester := requester
  tag := d.tag
  desc := d
  budget := x.budget
  regenCost := x.regenCost
  primary := primary
  protection := protection
  state := .reserved
  reason := none
  timer := s.cfg.reserveHold
  rerouteLeft := d.rerouteLimit
  submitPending := false

/-- An offer for a new entry (R121). -/
def State.offerNew (s : State) (e : EngineId) (d : Descriptor) (requester : Address)
    (primary : HeldPath) (protection : Option HeldPath) : HoldAnswer × State :=
  match lowestFreeId s.pwl.entries with
  | none => (.full, s)
  | some id =>
    if reservationCheck s (primary :: protection.toList) then
      let w := newWatch s (s.engine e) d requester id primary protection
      (.held id, s.reserve e w (insertWatch w s.pwl.entries))
    else (.conflict, s)

/-- An entry on its replacement route (R124). -/
def rerouted (s : State) (x : Engine) (w : WatchEntry) (primary : HeldPath)
    (protection : Option HeldPath) : WatchEntry :=
  { w with primary := primary, protection := protection, budget := x.budget, regenCost := x.regenCost
           state := .reserved, timer := s.cfg.reserveHold }

/-- An offer for a reroute, for the entry that raised it (R124). A release cancels the request (R135),
so no offer arrives without its REROUTING entry; one would conflict. -/
def State.offerReroute (s : State) (e : EngineId) (id : Nat) (primary : HeldPath)
    (protection : Option HeldPath) : HoldAnswer × State :=
  match findWatch s.pwl.entries id with
  | none => (.conflict, s)
  | some w =>
    if w.state = .rerouting ∧ reservationCheck s (primary :: protection.toList) = true then
      let w' := rerouted s (s.engine e) w primary protection
      (.held id, s.reserve e w' (replaceWatch w' s.pwl.entries))
    else (.conflict, s)

/-- An offer of an engine's route (R108). -/
def State.offerHold (s : State) (e : EngineId) (d : Descriptor) (primary : HeldPath)
    (protection : Option HeldPath) : HoldAnswer × State :=
  match d.requester with
  | .mgmt a => s.offerNew e d a primary protection
  | .watchList => s.offerReroute e d.tag.toNat primary protection

/-! ## Reroute results (R132 to R134) -/

/-- A failed reroute is counted against the reroute limit (R133). Its entry is in REROUTING and has no claim
in the overlay; an entry that became STALLED out of RESERVED would give its claims up (R120). -/
def State.rerouteFailed (s : State) (w : WatchEntry) : State :=
  if w.desc.rerouteLimit = 0 then s.setWatch { w with submitPending := true }
  else if w.rerouteLeft ≤ 1 then
    ((s.leaveReserved w).setWatch { w with rerouteLeft := 0, state := .stalled }).raiseWatch .watchStalled w
  else s.setWatch { w with rerouteLeft := w.rerouteLeft - 1, submitPending := true }

/-- A reroute request's result reaches the watch list (R132 to R134). -/
def State.rerouteResult (s : State) (id : Nat) (primary : Status) : State :=
  match findWatch s.pwl.entries id with
  | none => s
  | some w =>
    match primary with
    | .found => s.raiseWatch .watchRerouted w
    | .aborted => s.setWatch { w with submitPending := true }
    | .noPath | .exhausted | .unknownEndpoint | .badClass | .stale => s.rerouteFailed w
    | .cancelled | .notRequested | .notAttempted => s

end Sys2Proof.Machine
end

