-- ==== Sys2Proof/Machine/Requests.lean ====
section
/-! DEFINITION. The Request Queue, the arbiter, dispatch, completion and delivery (chapter 6). -/

namespace Sys2Proof.Machine

/-! ## Queue order (R103) -/

/-- An accepted submission takes its place: after every descriptor of its own or higher priority. -/
def placeNew (d : Descriptor) : List Descriptor → List Descriptor
  | [] => [d]
  | x :: xs => if x.priority ≥ d.priority then x :: placeNew d xs else d :: x :: xs

/-- A stale re-queue takes its place: ahead of its own priority, after every higher one. -/
def placeBack (d : Descriptor) : List Descriptor → List Descriptor
  | [] => [d]
  | x :: xs => if x.priority > d.priority then x :: placeBack d xs else d :: x :: xs

/-- Replace the queue. -/
def State.setQueue (s : State) (q : List Descriptor) : State := { s with rq := { s.rq with queue := q } }

/-- Change the RQ counters (R118). -/
def State.countRq (s : State) (f : RequestCounters → RequestCounters) : State :=
  { s with rq := { s.rq with counters := f s.rq.counters } }

/-! ## Statuses, outcome and the result record (R110, R114, R115) -/

/-- The protection status of a request whose protection phase did not start (R106, R112, R116). -/
def protectionUnrun (d : Descriptor) : Status :=
  if d.diversity = .none then .notRequested else .notAttempted

/-- The outcome of two statuses (R115). -/
def outcomeOf (primary protection : Status) : ResultOutcome :=
  if primary = .found ∧ (protection = .found ∨ protection = .notRequested) then .complete
  else if primary = .found ∧ (protection = .noPath ∨ protection = .exhausted) then .partialPath
  else .failed

/-- The TRUNCATED mark of an optional phase. -/
def phaseTruncated : Option PhaseCounts → Bool
  | some c => c.truncated
  | none => false

/-- The result record of statuses, phases and paths, with the flags of R110. -/
def buildResult (s : State) (d : Descriptor) (adjusted : Bool) (primary protection : Status)
    (phase1 phase2 : Option PhaseCounts) (path1 path2 : Option FoundPath) : ResultRecord where
  tag := d.tag
  outcome := outcomeOf primary protection
  primary := primary
  protection := protection
  truncated := phaseTruncated phase1 || phaseTruncated phase2
  provisional := s.stc.part == .settling
  windowAdjusted := adjusted
  holdRefused := false
  watchId := none
  primaryPhase := phase1
  protectionPhase := phase2
  primaryPath := path1
  protectionPath := path2

/-- The result of a request that ran no phase (R106, R112, R116). DEDUCED, log entry 40: WINDOW_ADJUSTED is
clear, also where an earlier dispatch, before the request was re-queued, had adjusted the window. -/
def unrunResult (s : State) (d : Descriptor) (primary : Status) : ResultRecord :=
  buildResult s d false primary (protectionUnrun d) none none none none

/-- The RESULT frame of a record, addressed to its requester (R111). -/
def resultFrame (s : State) (to' : Address) (r : ResultRecord) : Frame :=
  originated s.cfg.engineAddress to' classResult (encResult r)

/-! ## Delivery (R111) -/

/-- The result of a queued request is offered to its ingress port: entered when there is a place,
otherwise discarded and counted (R116, R162). `aborted` tells the abort at STANDBY entry, whose
discard RQ counts too, from the cancel. -/
def State.offerQueuedResult (s : State) (to' : Address) (p : Port) (r : ResultRecord) (aborted : Bool) :
    State :=
  if s.enabled p then
    if s.hasPlace p then s.enterLocal p (outgoing p (resultFrame s to' r))
    else if aborted then s.countResultDiscard.countLocalDiscard p
    else s.countLocalDiscard p
  else s.countResultDiscard.countLocalDiscard p

/-- An engine delivers a finished result (R111): to the watch list, or as a RESULT frame on the
request's ingress port; it becomes IDLE, or COMPLETING when the port's queue has no place, or has one
that another frame waits for: a result never overtakes the held response to its own SUBMIT or CANCEL
(R101, R112; log entry 4). DESIGN CHOICE, log entry 6: a result for a disabled port is discarded and
counted by RQ and by the port. DEDUCED, log entry 41: an engine that becomes IDLE drops the labels and the
touched set of its last request here, not at the next dispatch. -/
def State.deliver (s : State) (e : EngineId) (d : Descriptor) (r : ResultRecord) : State :=
  match d.requester, d.ingress with
  | .watchList, _ => (s.setEngine e Engine.idle).rerouteResult d.tag.toNat r.primary
  | .mgmt a, some p =>
    if s.enabled p then
      if s.wayFree p then (s.setEngine e Engine.idle).enterLocal p (outgoing p (resultFrame s a r))
      else s.setEngine e
        { s.engine e with mode := .completing, request := some d, endOrder := .none, result := some r }
    else (s.setEngine e Engine.idle).countResultDiscard.countLocalDiscard p
  | .mgmt _, none => s.setEngine e Engine.idle

/-! ## Dispatch (R105, R106) -/

/-- The entry of a class number in a bank (R61). -/
def Bank.classEntry (b : Bank) (n : Nat) : ClassEntry := (b.classes[n]?).getD ClassEntry.cold

/-- The engine as dispatch fills it, before its primary phase starts (R74, R106). -/
def loadEngine (cfg : Settings) (d : Descriptor) (c : ClassEntry) : Engine :=
  let w := adjustWindow d.window
  { Engine.idle with
    request := some d
    budget := classBudget c
    regenCost := c.regenCost
    windowStart := w.start
    windowEnd := w.stop
    windowAdjusted := w.adjusted
    starts := windowStarts w d.width
    limit := if d.limit = 0 then cfg.expansionLimit else d.limit }

/-- A descriptor that has left the queue is dispatched to an engine (R106): it completes at once when
its class or an endpoint will not do, or when no window start exists (R78). DESIGN CHOICE, log entry 39: an
engine left COMPLETING by step 3 or 4 of R106 holds 0 or nothing for the items that steps 5 to 7 copy. -/
def State.dispatch (s : State) (e : EngineId) (d : Descriptor) : State :=
  let c := s.prb.active.classEntry d.cls
  if !c.valid then s.deliver e d (unrunResult s d .badClass)
  else if !(liveNode s.tst.nodes d.source && liveNode s.tst.nodes d.dest) then
    s.deliver e d (unrunResult s d .unknownEndpoint)
  else
    let x := (loadEngine s.cfg d c).startPhase .primary d.source
    let s' := s.setEngine e x
    if x.starts = 0#320 then
      s'.deliver e d
        (buildResult s d x.windowAdjusted .noPath (protectionUnrun d) (some x.counts) none none none)
    else s'

/-- The IDLE engine that takes the head: engine A when both are IDLE (R105). -/
def State.idleEngine (s : State) : Option EngineId :=
  if s.engA.mode = .idle then some .a
  else if s.engB.mode = .idle then some .b
  else none

/-- The arbiter hands the head to an IDLE engine while there are both (R105). Each dispatch takes one
descriptor from the queue, so `fuel` of the queue's length is enough. -/
def State.arbitrate (s : State) : Nat → State
  | 0 => s
  | fuel + 1 =>
    if s.standby then s
    else match s.rq.queue, s.idleEngine with
      | d :: rest, some e => ((s.setQueue rest).dispatch e d).arbitrate fuel
      | _, _ => s

/-- The arbiter acts after an event (R105). -/
def State.runArbiter (s : State) : State := s.arbitrate s.rq.queue.length

/-- A descriptor is accepted: counted, placed, and dispatched when an engine is IDLE (R100, R102,
R105). -/
def State.accept (s : State) (d : Descriptor) : State :=
  ((s.setQueue (placeNew d s.rq.queue)).countRq
    (fun c => { c with accepted := bump c.accepted })).runArbiter

/-! ## Completion (R107 to R109) -/

/-- A found result is stale: an element of its paths is in the touched set, or the set overflowed
(R107). -/
def staleResult (x : Engine) (d : Descriptor) (r : ResultRecord) : Bool :=
  x.overflow || (r.primaryPath.toList ++ r.protectionPath.toList).any (fun p =>
    (pathElements d.source p.hops).any (fun el => el ∈ x.touched))

/-- The result of a stale or conflicting search that is not re-queued (R109). -/
def staleRecord (r : ResultRecord) : ResultRecord :=
  { r with primary := .stale, outcome := outcomeOf .stale r.protection }

/-- A stale result, or one whose hold was answered CONFLICT, is re-queued under its retries or
delivered STALE (R109). -/
def State.retry (s : State) (e : EngineId) (d : Descriptor) (r : ResultRecord) : State :=
  if d.retryLimit ≠ 0 ∧ d.retries = 0 then s.deliver e d (staleRecord r)
  else if s.rq.queue.length ≥ Config.requestQueue then
    (s.countRq (fun c => { c with requeuesRefused := bump c.requeuesRefused })).deliver e d (staleRecord r)
  else
    let d' := { d with retries := if d.retryLimit = 0 then d.retries else d.retries - 1 }
    ((s.setQueue (placeBack d' s.rq.queue)).countRq
      (fun c => { c with requeued := bump c.requeued })).setEngine e Engine.idle

/-- The hold of a result that is not stale (R108). -/
def State.offerAndDeliver (s : State) (e : EngineId) (d : Descriptor) (r : ResultRecord)
    (p : FoundPath) : State :=
  match s.offerHold e d p.held (r.protectionPath.map (·.held)) with
  | (.held id, s') => s'.deliver e d { r with watchId := some id }
  | (.conflict, s') => s'.retry e d r
  | (.full, s') => s'.deliver e d { r with holdRefused := true }

/-- Completion after the last phase ended by its own expansion (R107 to R109), and the arbiter after
it (R105). -/
def State.complete (s : State) (e : EngineId) (d : Descriptor) (r : ResultRecord) : State :=
  (match r.primaryPath with
   | none => s.deliver e d r
   | some p =>
     if staleResult (s.engine e) d r then s.retry e d r
     else if d.hold then s.offerAndDeliver e d r p
     else s.deliver e d r).runArbiter

/-- The result of a search whose last phase ended with a status and, when FOUND, a path (R107,
R110). -/
def searchResult (s : State) (x : Engine) (d : Descriptor) (status : Status) (path : Option FoundPath) :
    ResultRecord :=
  match x.mode, x.primary with
  | .protection, some p =>
    buildResult s d x.windowAdjusted .found status (some p.counts) (some x.counts) (some p.path) path
  | _, _ => buildResult s d x.windowAdjusted status (protectionUnrun d) (some x.counts) none path none

/-- A phase ended FOUND at a destination label: the protection phase starts when it is asked for
(R94), otherwise the request completes. -/
def State.phaseFound (s : State) (e : EngineId) (x : Engine) (d : Descriptor) (dest : Label) : State :=
  let path := reconstruct x.pool d.width dest
  if x.mode = .primary ∧ d.diversity ≠ .none then
    let x' := { x with primary := some (primaryRecord s.tst.nodes path x.counts) }.startPhase
      .protection d.source
    if x'.starts = 0#320 then (s.setEngine e x').complete e d (searchResult s x' d .noPath none)
    else s.setEngine e x'
  else (s.setEngine e x).complete e d (searchResult s x d .found (some path))

/-- An engine in PRIMARY or PROTECTION. -/
def Engine.searching (x : Engine) : Bool := x.mode == .primary || x.mode == .protection

/-- One expansion at an engine and what its end brings (R79, R86, R94, R107). The engine takes an
expansion only while it searches and has no order to end (R87). -/
def State.expand (s : State) (e : EngineId) : State :=
  match (s.engine e).request with
  | none => s
  | some d =>
    if (s.engine e).searching && (s.engine e).endOrder == .none then
      match (s.engine e).expand s d with
      | (x, .goesOn) => s.setEngine e x
      | (x, .found dest) => s.phaseFound e x d dest
      | (x, .noPath) => (s.setEngine e x).complete e d (searchResult s x d .noPath none)
      | (x, .exhausted) => (s.setEngine e x).complete e d (searchResult s x d .exhausted none)
    else s

/-! ## Ending a search from outside (R87, R112, R113, R116) -/

/-- The result of a search ended by CANCEL or STANDBY: its phases' counts and no path (R110, R112,
R116). -/
def endedResult (s : State) (x : Engine) (d : Descriptor) (status : Status) : ResultRecord :=
  match x.mode, x.primary with
  | .protection, some p =>
    buildResult s d x.windowAdjusted status status (some p.counts) (some x.counts) none none
  | _, _ => buildResult s d x.windowAdjusted status (protectionUnrun d) (some x.counts) none none none

/-- An engine takes the order that waits for it before its next expansion (R87): CANCELLED (R112),
ABORTED (R116), or no result for the watch list's own cancel (R113). -/
def State.takeOrder (s : State) (e : EngineId) : State :=
  match (s.engine e).request with
  | none => s
  | some d =>
    if (s.engine e).searching then
      match (s.engine e).endOrder with
      | .none => s
      | .cancel => (s.deliver e d (endedResult s (s.engine e) d .cancelled)).runArbiter
      | .standby => (s.deliver e d (endedResult s (s.engine e) d .aborted)).runArbiter
      | .release => (s.setEngine e Engine.idle).runArbiter
    else s

/-- A COMPLETING engine's RESULT takes a free place of its port (R111, R162): after the held response,
and engine B's after engine A's. DEDUCED, log entry 4: the order is that of the entering, whichever of
them was waiting when the place freed. -/
def State.completingEnters (s : State) (e : EngineId) : State :=
  match (s.engine e).waitsFor, (s.engine e).request, (s.engine e).result with
  | some p, some d, some r =>
    match d.requester with
    | .watchList => s
    | .mgmt a =>
      if (s.spu.hold.map (·.port)) = some p ∨ (e = .b ∧ s.engA.waitsFor = some p)
          ∨ (s.port p).localQueue.length ≥ Config.localQueue then s
      else ((s.setEngine e Engine.idle).enterLocal p (outgoing p (resultFrame s a r))).runArbiter
  | _, _, _ => s

/-! ## Live requests (R99, R112) -/

/-- Where a live request stands (R112). -/
inductive Standing where
  | queued
  | searching (e : EngineId)
  | completing (e : EngineId)
  | notLive
deriving DecidableEq, Repr

/-- A descriptor's requester and tag. -/
def Descriptor.named (d : Descriptor) (r : Requester) (tag : Word16) : Bool :=
  d.requester == r && d.tag == tag

/-- An engine holds this live request. A search that the watch list has cancelled is no longer live
(R99, R113). -/
def Engine.runs (x : Engine) (r : Requester) (tag : Word16) : Bool :=
  x.mode != .idle && x.endOrder != .release &&
    (match x.request with
     | some d => d.named r tag
     | none => false)

/-- Where the live request of a requester and tag stands (R112). -/
def State.standing (s : State) (r : Requester) (tag : Word16) : Standing :=
  if s.rq.queue.any (fun d => d.named r tag) then .queued
  else if s.engA.runs r tag then (if s.engA.searching then .searching .a else .completing .a)
  else if s.engB.runs r tag then (if s.engB.searching then .searching .b else .completing .b)
  else .notLive

/-- Take a request out of the queue. -/
def State.unqueueRequest (s : State) (r : Requester) (tag : Word16) : State :=
  s.setQueue (s.rq.queue.filter (fun d => !d.named r tag))

/-- Give an engine an order to end its search (R87). -/
def State.orderEnd (s : State) (e : EngineId) (o : EndOrder) : State :=
  s.setEngine e { s.engine e with endOrder := o }

/-- The watch list's cancel of its own request, with no result made (R113, R135). -/
def State.cancelReroute (s : State) (id : Nat) : State :=
  match s.standing .watchList (BitVec.ofNat 16 id) with
  | .queued => s.unqueueRequest .watchList (BitVec.ofNat 16 id)
  | .searching e => s.orderEnd e .release
  | .completing _ => s
  | .notLive => s

end Sys2Proof.Machine
end

