-- ==== Sys2Proof/Machine/Banks.lean ====
section
/-! DEFINITION. Profile Banks and Epoch Control (chapter 8): the staged bank's writes, the epoch event
and the marks sent and taken. -/

namespace Sys2Proof.Machine

/-! ## Bank entries -/

/-- The entry of a dialect at an index, none when either is out of its range (R141, R144). -/
def Bank.dialectEntry (b : Bank) (dialect index : Nat) : Option DialectEntry :=
  if dialect = 0 then none else (b.dialects[dialect - 1]?).bind (fun d => d[index]?)

/-- Write the entry of a dialect at an index. -/
def Bank.putDialectEntry (b : Bank) (dialect index : Nat) (e : DialectEntry) : Bank :=
  match b.dialects[dialect - 1]? with
  | none => b
  | some d => { b with dialects := b.dialects.setIfInBounds (dialect - 1) (d.setIfInBounds index e) }

/-- Clear the valid marks of a dialect's entries; their other fields stay (R142). -/
def Bank.clearDialect (b : Bank) (dialect : Nat) : Bank :=
  match b.dialects[dialect - 1]? with
  | none => b
  | some d =>
    { b with dialects := b.dialects.setIfInBounds (dialect - 1) (d.map (fun e => { e with valid := false })) }

/-- The bank holds a valid entry at another index of the dialect with this attribute code (R141). -/
def Bank.codeTaken (b : Bank) (dialect index : Nat) (code : Byte) : Bool :=
  match b.dialects[dialect - 1]? with
  | none => false
  | some d => (List.finRange 32).any (fun j => j.val != index && (d[j]).valid && (d[j]).code == code)

/-- Write a class entry (R143). -/
def Bank.putClass (b : Bank) (n : Nat) (c : ClassEntry) : Bank :=
  { b with classes := b.classes.setIfInBounds n c }

/-- Replace the staged bank. -/
def State.setStaged (s : State) (b : Bank) : State := { s with prb := { s.prb with staged := b } }

/-! ## Epoch events (R147, R150) -/

/-- Change the Epoch Control counters (R153). -/
def State.countEpc (s : State) (f : EpochCounters → EpochCounters) : State :=
  { s with epc := { s.epc with counters := f s.epc.counters } }

/-- The epoch number after an INTERNAL or LEAD epoch event (R147). -/
def nextEpoch (n : Nat) : Nat := if n ≥ 65535 then 0 else n + 1

/-- The EPOCH MARK of an epoch number (R150). -/
def markFrame (s : State) (number : Nat) : Frame :=
  originated s.cfg.engineAddress 0xFFFFFFFF#32 classEpochMark (enc2 number)

/-- An EPOCH MARK enters EPOCH_PORT's local egress queue, or is counted as not sent (R150). -/
def State.sendMark (s : State) (number : Nat) : State :=
  if s.enabled s.cfg.epochPort && s.hasPlace s.cfg.epochPort then
    (s.enterLocal s.cfg.epochPort (outgoing s.cfg.epochPort (markFrame s number))).countEpc
      (fun c => { c with sent := bump c.sent })
  else (s.countEpc (fun c => { c with notSent := bump c.notSent })).countLocalDiscard s.cfg.epochPort

/-- The epoch number is set, and the staged bank becomes active when a commit is pending (steps 1 and
2 of R147). -/
def State.applyEpoch (s : State) (number : Nat) : State :=
  let s' := { s with epc := { s.epc with number := number } }
  if s.prb.commitPending then
    ({ s' with prb := { s.prb with active := s.prb.staged, commitPending := false } }).raise
      .epochApplied (.epoch number) .none
  else s'

/-- An epoch event (R147). -/
def State.epochEvent (s : State) (number : Nat) : State :=
  let s' := s.applyEpoch number
  if s.cfg.epochMode = .lead then s'.sendMark number else s'

/-- A mark handed to Epoch Control in FOLLOW, from EPOCH_PORT and with a good frame check (R151). -/
def State.takeMark (s : State) (payload : List Byte) : State :=
  if s.standby then s
  else if payload.length < 2 then s.countEpc (fun c => { c with short := bump c.short })
  else if fieldNat payload 0 2 = s.epc.number then
    s.countEpc (fun c => { c with repeated := bump c.repeated })
  else (s.epochEvent (fieldNat payload 0 2)).countEpc (fun c => { c with taken := bump c.taken })

/-- Epoch Control's action on an age tick (R149). -/
def State.tickEpoch (s : State) : State :=
  if s.cfg.epochMode = .follow then s
  else if s.epc.timer ≤ 1 then
    ({ s with epc := { s.epc with timer := s.cfg.epochInterval } }).epochEvent (nextEpoch s.epc.number)
  else { s with epc := { s.epc with timer := s.epc.timer - 1 } }

end Sys2Proof.Machine
end

