-- ==== Sys2Proof/Machine/Watch.lean ====
section
/-! DEFINITION. The Path Watch List's handling of change reports, ticks and rerouting (chapter 7), and
the whole of a store event: tables, raises, usability, touched marks and the watch list's batch. -/

namespace Sys2Proof.Machine

/-! ## Rerouting (R102, R130, R131) -/

/-- The reroute request of an entry (R102). -/
def rerouteRequest (w : WatchEntry) : Descriptor :=
  { w.desc with requester := .watchList, ingress := none, tag := BitVec.ofNat 16 w.id, hold := true
                retries := w.desc.retryLimit }

/-- The watch list submits a reroute request for an entry: refused in STANDBY or by a full queue, which
sets the submit-pending mark, accepted otherwise, which clears it (R102, R130, R131). -/
def State.submitReroute (s : State) (w : WatchEntry) : State :=
  if s.standby || decide (s.rq.queue.length ≥ Config.requestQueue) then
    s.setWatch { w with submitPending := true }
  else (s.setWatch { w with submitPending := false }).accept (rerouteRequest w)

/-! ## Violation (R128 to R130) -/

/-- The violation reason of an unusable link (test 3 of R128). -/
def violationOf : UnusableReason → ViolationReason
  | .origin => .nodeGone
  | .remote => .nodeGone
  | .admin => .linkDown
  | .twoWay => .linkGone

/-- The tests of R128 at one hop: the reason of the first that fails. -/
def hopViolation (s : State) (d : Descriptor) (h : Hop) : Option ViolationReason :=
  match findNode s.tst.nodes h.ref.origin with
  | none => some .linkGone
  | some o =>
    match findLid o.links h.ref.lid with
    | none => some .linkGone
    | some l =>
      if l.remote ≠ h.reached then some .linkGone
      else match unusableReason s.cfg.twoWay s.tst.nodes o l with
        | some r => some (violationOf r)
        | none =>
          if l.cond.condition = .degraded ∧ d.policy = .avoid then some .linkDegraded else none

/-- The stored transit term of a node (R63, R73). -/
def nodeTerm (nodes : List NodeEntry) (id : NodeId) : Nat :=
  match findNode nodes id with
  | some n => transitTerm n
  | none => 0

/-- The noise of a hop's link as it is stored now (R73). -/
def hopTerm (s : State) (h : Hop) : Nat :=
  match findLink s.tst.nodes h.ref with
  | some l => linkTerm s.cfg l
  | none => 0

/-- The recomputed noise of a segment: its link terms, and the transit terms of its interior nodes, the
start nodes of every hop but its first (R63, R64, R73). -/
def segmentNoise (s : State) (hops : List Hop) : Nat :=
  match hops with
  | [] => 0
  | h :: rest =>
    rest.foldl (fun acc k => addNoise (addNoise acc (nodeTerm s.tst.nodes k.ref.origin)) (hopTerm s k))
      (addNoise 0 (hopTerm s h))

/-- The violation check of an entry: the hops of its paths, then the noise of their segments (R128). -/
def violationCheck (s : State) (w : WatchEntry) : Option ViolationReason :=
  match (w.paths.flatMap pathHops).findSome? (hopViolation s w.desc) with
  | some r => some r
  | none =>
    if w.paths.any (fun p => p.any (fun g => decide (segmentNoise s g.hops > w.budget))) then some .budget
    else none

/-- An entry is violated (R129, R130). -/
def State.violate (s : State) (w : WatchEntry) (r : ViolationReason) : State :=
  match w.desc.action with
  | .notice =>
    ((s.leaveReserved w).setWatch { w with reason := some r, state := .violated }).raiseWatch
      .watchViolated w
  | .recompute => (s.leaveReserved w).submitReroute { w with reason := some r, state := .rerouting }

/-! ## Confirmation (R125) -/

/-- The advertised occupancy of a link contains slots. -/
def occupies (nodes : List NodeEntry) (c : SlotClaim) : Bool :=
  match findLink nodes c.ref with
  | some l => slotsWithin c.slots l.occupied
  | none => false

/-- Every claim of an entry is advertised as occupied (R125). -/
def confirmed (s : State) (w : WatchEntry) : Bool := w.slotClaims.all (occupies s.tst.nodes)

/-- An entry is confirmed (R125). -/
def State.confirm (s : State) (w : WatchEntry) : State :=
  (s.releaseClaims w.id).setWatch { w with state := .active, rerouteLeft := w.desc.rerouteLimit }

/-! ## The batch of one store event (R127) -/

/-- The elements of an entry's paths: hops' links and every node of the paths (R127). -/
def WatchEntry.elements (w : WatchEntry) : List Element :=
  .node w.desc.dest :: pathElements w.desc.source (w.paths.flatMap pathHops)

/-- A report of the batch names an element of the entry (R127). -/
def concerns (rs : List Report) (w : WatchEntry) : Bool :=
  rs.any (fun r => r.element ∈ w.elements)

/-- The batch holds an OCCUPANCY report for a link of the entry's paths (R125). -/
def occupancyReported (rs : List Report) (w : WatchEntry) : Bool :=
  rs.any (fun r => r.kind == .occupancy &&
    (w.paths.flatMap pathHops).any (fun h => r.element == .link h.ref))

/-- The batch is applied to one watch id (R127). -/
def State.batchEntry (rs : List Report) (s : State) (id : Nat) : State :=
  match findWatch s.pwl.entries id with
  | none => s
  | some w =>
    if (w.state = .reserved ∨ w.state = .active) ∧ concerns rs w = true then
      match violationCheck s w with
      | some r => s.violate w r
      | none =>
        if w.state = .reserved ∧ occupancyReported rs w = true ∧ confirmed s w = true then s.confirm w
        else s
    else s

/-- The batch is applied to the entries in ascending watch id (R127). -/
def State.batch (s : State) (rs : List Report) : State :=
  (s.pwl.entries.map (·.id)).foldl (State.batchEntry rs) s

/-! ## A store event, whole (R5, R20, R22, R23, R127) -/

/-- The end of a store event: the reports mark the engines and are handled by the watch list. -/
def State.reportChanges (s : State) (rs : List Report) : State := (s.touchReports rs).batch rs

/-- A store event takes effect: tables and counters, raises, then the reports, USABILITY last. DEDUCED, log
entry 37: R5 names the raises after the reports and gives no order of the two, and section 11.5 shows
LINK_DEGRADED before WATCH_VIOLATED of the same record; the model makes every raise of the store, those of
NODE_EXPIRED, NODE_ADDED and TABLE_FULL too, before the watch list handles the reports and makes its own. -/
def State.storeEvent (s : State) (o : StoreOutcome) : State :=
  (({ s with tst := { nodes := o.nodes, counters := o.counters } }).raiseAll o.raises).reportChanges
    (o.reports ++ usabilityReports s.cfg.twoWay s.cfg.twoWay s.tst.nodes o.nodes)

/-! ## The watch list's action on an age tick (R126, R131) -/

/-- A RESERVED entry's timer decrements; at 0 the entry is removed and RESERVATION_EXPIRED raised
(R126). -/
def State.tickReservation (s : State) (id : Nat) : State :=
  match findWatch s.pwl.entries id with
  | none => s
  | some w =>
    if w.state = .reserved then
      if w.timer ≤ 1 then (s.removeWatch id).raiseWatch .reservationExpired w
      else s.setWatch { w with timer := w.timer - 1 }
    else s

/-- The entries that owe the queue a reroute request, in ascending watch id (R131). -/
def owedReroutes (entries : List WatchEntry) : List Nat :=
  (entries.filter (fun w => w.state == .rerouting && w.submitPending)).map (·.id)

/-- The request an entry owes is submitted (R131). -/
def State.submitOwed (s : State) (id : Nat) : State :=
  match findWatch s.pwl.entries id with
  | none => s
  | some w => s.submitReroute w

/-- The watch list's action on an age tick: timers and expiries (R126), then the requests owed at that
point (R131). -/
def State.tickWatch (s : State) : State :=
  let s' := (s.pwl.entries.map (·.id)).foldl State.tickReservation s
  (owedReroutes s'.pwl.entries).foldl State.submitOwed s'

end Sys2Proof.Machine
end

