-- ==== Sys2Proof/Machine/Ticks.lean ====
section
/-! DEFINITION. The timebase, the age tick and the four blocks' actions on it (R167, R16, R17, R126,
R131, R149, R170). DEDUCED, log entry 3: a tick is offered to the blocks when it is taken and each
block's action is its own event; a block whose action is still owed when the next tick comes acts
first. -/

namespace Sys2Proof.Machine

/-- Replace what the blocks still owe. -/
def State.setOffered (s : State) (o : TickOffer) : State := { s with stc := { s.stc with offered := o } }

/-- Some block has still to act on the last tick. -/
def TickOffer.any (o : TickOffer) : Bool := o.store || o.watch || o.epoch || o.settle

/-- An age tick is taken: the timebase count returns to 0, and outside STANDBY the tick is offered to
the four blocks (R167). -/
def State.takeTick (s : State) : State :=
  { s with stc := { s.stc with
      timebase := 0
      offered := if s.standby then TickOffer.none else ⟨true, true, true, true⟩ } }

/-- The next interval's end would take the count past AGE_DIV (R167). -/
def State.tickDue (s : State) : Bool := decide (s.stc.timebase + 1 > s.cfg.ageDiv)

/-- The store acts on the tick offered to it (R16, R17). -/
def State.actStore (s : State) : State :=
  if s.stc.offered.store && !s.standby then
    (s.setOffered { s.stc.offered with store := false }).storeEvent (tickStore s.cfg s.tst)
  else s

/-- The watch list acts on the tick offered to it (R126, R131). -/
def State.actWatch (s : State) : State :=
  if s.stc.offered.watch && !s.standby then
    (s.setOffered { s.stc.offered with watch := false }).tickWatch
  else s

/-- Epoch Control acts on the tick offered to it (R149). -/
def State.actEpoch (s : State) : State :=
  if s.stc.offered.epoch && !s.standby then
    (s.setOffered { s.stc.offered with epoch := false }).tickEpoch
  else s

/-- The settle timer's tick: it decrements in SETTLING, and at 0 the part enters OPERATE (R170). -/
def State.tickSettle (s : State) : State :=
  if s.stc.part = .settling then
    if s.stc.settleTimer ≤ 1 then
      ({ s with stc := { s.stc with part := .operate, settleTimer := 0 } }).raise .settled .none .none
    else { s with stc := { s.stc with settleTimer := s.stc.settleTimer - 1 } }
  else s

/-- State Control acts on the tick offered to it (R170). -/
def State.actSettle (s : State) : State :=
  if s.stc.offered.settle && !s.standby then
    (s.setOffered { s.stc.offered with settle := false }).tickSettle
  else s

/-- The blocks that have still to act on the tick do so, in the order R167 names them. -/
def State.finishTick (s : State) : State := s.actStore.actWatch.actEpoch.actSettle

/-- A 100 ms interval ends (R167). -/
def State.timebaseInterval (s : State) : State :=
  let s' := s.finishTick
  if s'.tickDue then s'.takeTick
  else { s' with stc := { s'.stc with timebase := s'.stc.timebase + 1 } }

/-- An age tick: the blocks act on the tick that was taken, or, when none is owed and the count is due
to pass AGE_DIV, the tick is taken and they act on it (R167). -/
def State.ageTick (s : State) : State :=
  if s.stc.offered.any then s.finishTick
  else if s.tickDue then s.takeTick.finishTick
  else s

/-- The store's action on a tick at which a LIVE node's age counter reaches 0 (R16). -/
def State.nodeAgeExpiry (s : State) : State :=
  if s.tst.nodes.any agingOut then s.actStore else s

/-- The store's action on a tick at which a WITHDRAWN node's hold-down counter reaches 0 (R17). -/
def State.holdDownExpiry (s : State) : State :=
  if s.tst.nodes.any holdDownEnding then s.actStore else s

/-- A RESERVED entry's timer stands at its last tick (R126). -/
def expiring (w : WatchEntry) : Bool := w.state == .reserved && decide (w.timer ≤ 1)

/-- The watch list's action on a tick at which a reservation's timer reaches 0 (R126). -/
def State.reservationExpiry (s : State) : State :=
  if s.pwl.entries.any expiring then s.actWatch else s

/-- Epoch Control's action on a tick at which its timer reaches 0, in INTERNAL or LEAD (R149). -/
def State.epochTimerExpiry (s : State) : State :=
  if s.cfg.epochMode ≠ .follow ∧ s.epc.timer ≤ 1 then s.actEpoch else s

/-- State Control's action on a tick at which the settle timer reaches 0 (R170). -/
def State.settleTimerExpiry (s : State) : State :=
  if s.stc.part = .settling ∧ s.stc.settleTimer ≤ 1 then s.actSettle else s

end Sys2Proof.Machine
end

