-- ==== Sys2Proof/Machine/PartStates.lean ====
section
/-! DEFINITION. The part states and the restarts: SET STATE's moves (R169, R171, R116) and the warm
restart (R173, R117, R139, R31). -/

namespace Sys2Proof.Machine

/-- SET STATE OPERATE in STANDBY: into SETTLING, or, with SETTLE_TIME 0, into OPERATE with SETTLED
raised (R169). -/
def State.leaveStandby (s : State) : State :=
  if s.cfg.settleTime = 0 then
    ({ s with stc := { s.stc with part := .operate, settleTimer := 0 } }).raise .settled .none .none
  else { s with stc := { s.stc with part := .settling, settleTimer := s.cfg.settleTime } }

/-- A searching engine is given the order of the entry into STANDBY, unless it has an order already
(R87, R116). -/
def Engine.orderStandby (x : Engine) : Engine :=
  if x.searching && x.endOrder == .none then { x with endOrder := .standby } else x

/-- The ABORTED result of a request that was queued at the entry into STANDBY (R116). -/
def State.abortQueued (s : State) (d : Descriptor) : State :=
  match d.requester, d.ingress with
  | .watchList, _ => s.rerouteResult d.tag.toNat .aborted
  | .mgmt a, some p => s.offerQueuedResult a p (unrunResult s d .aborted) true
  | .mgmt _, none => s

/-- The part is in STANDBY: ticks reach no block, the translator's input queue and the request queue
are empty and the engines have their order (R171). -/
def State.intoStandby (s : State) : State :=
  { s with
    stc := { s.stc with part := .standby, offered := TickOffer.none }
    atr := { s.atr with queue := [] }
    rq := { s.rq with queue := [] }
    engA := s.engA.orderStandby
    engB := s.engB.orderStandby }

/-- Entry into STANDBY by SET STATE: the queued requests end ABORTED, in queue order (R116, R171). -/
def State.enterStandby (s : State) : State := s.rq.queue.foldl State.abortQueued s.intoStandby

/-- A record handed over and not yet applied is applied to the store (R5). -/
def State.applyHanded (s : State) : State :=
  match s.atr.handed with
  | none => s
  | some r => ({ s with atr := { s.atr with handed := none } }).storeEvent (applyRecord s.cfg s.tst r)

/-- A watch entry after a warm restart: REROUTING entries owe their request again (R139). -/
def WatchEntry.restarted (w : WatchEntry) : WatchEntry :=
  if w.state = .rerouting then { w with submitPending := true } else w

/-- What a warm restart clears and keeps (R173). -/
def State.clearWarm (s : State) : State where
  pending := s.pending
  cfg := s.cfg
  stc := { s.stc with part := .standby, settleTimer := 0, offered := TickOffer.none }
  spu := { s.spu with
    ports := s.spu.ports.map (fun x => { x with counters := PortCounters.zero })
    intake := [] }
  atr := { queue := [], handed := none, counters := TranslatorCounters.zero }
  prb := s.prb
  epc := { s.epc with counters := EpochCounters.zero }
  tst := s.tst
  rq := { queue := [], counters := RequestCounters.zero }
  engA := Engine.idle
  engB := Engine.idle
  pwl := { s.pwl with entries := s.pwl.entries.map WatchEntry.restarted }
  evu := EventUnit.clear

/-- The warm restart: a record already handed over is applied first (R173, R28). -/
def State.warmRestart (s : State) : State := s.applyHanded.clearWarm

end Sys2Proof.Machine
end

