-- ==== Sys2Proof/Machine/Translate.lean ====
section
/-! DEFINITION. Advertisement translation (chapter 2): the structural walk, sequence comparison,
attribute mapping and the update record of one translation event. -/

namespace Sys2Proof.Machine

/-! ## The walk (R34, section 9.1.3) -/

/-- One attribute as it stands in a copy. -/
structure Attribute where
  code  : Byte
  value : List Byte
deriving DecidableEq, Repr

/-- One link as it stands in a copy. -/
structure AdvLink where
  lid    : Word16
  remote : NodeId
  attrs  : List Attribute
deriving DecidableEq, Repr

/-- A well-formed copy, walked to the end of its last link (R34). -/
structure Advertisement where
  dialect   : Nat
  origin    : NodeId
  seq       : Word32
  nodeAttrs : List Attribute
  links     : List AdvLink
deriving DecidableEq, Repr

/-- Walk a count of attributes; none when one would extend past the payload (R34). -/
def walkAttrs : Nat → List Byte → Option (List Attribute × List Byte)
  | 0, bs => some ([], bs)
  | k + 1, code :: len :: bs =>
    if bs.length < len.toNat then none
    else match walkAttrs k (bs.drop len.toNat) with
      | none => none
      | some (attrs, rest) => some ({ code := code, value := bs.take len.toNat } :: attrs, rest)
  | _ + 1, _ => none

/-- Walk a count of links (R34). -/
def walkLinks : Nat → List Byte → Option (List AdvLink)
  | 0, _ => some []
  | k + 1, bs =>
    if bs.length < 7 then none
    else match walkAttrs (fieldByte bs 6).toNat (bs.drop 7) with
      | none => none
      | some (attrs, rest) =>
        match walkLinks k rest with
        | none => none
        | some links => some ({ lid := field16 bs 0, remote := field32 bs 2, attrs := attrs } :: links)

/-- The structural check: the copy walked, or none when it is malformed (R34). Bytes after the last
link are not read. -/
def walkCopy (bs : List Byte) : Option Advertisement :=
  if bs.length < 10 then none
  else match walkAttrs (fieldByte bs 9).toNat (bs.drop 10) with
    | none => none
    | some (attrs, rest) =>
      match rest with
      | [] => none
      | count :: rest' =>
        match walkLinks count.toNat rest' with
        | none => none
        | some links =>
          some { dialect := (fieldByte bs 0).toNat, origin := field32 bs 1, seq := field32 bs 5
                 nodeAttrs := attrs, links := links }

/-! ## Sequence comparison (R35, R36) -/

/-- A received sequence against a stored one (R35). -/
inductive SeqOrder where
  | newer
  | equal
  | older
deriving DecidableEq, Repr

/-- The comparison by the distance around the 32-bit circle (R35). -/
def compareSeq (a b : Word32) : SeqOrder :=
  let d := (a - b).toNat
  if d = 0 then .equal else if d < 2 ^ 31 then .newer else .older

/-- What a well-formed copy becomes (R36). -/
inductive Fate where
  | full
  | refresh
  | stale
deriving DecidableEq, Repr

/-- The copy's fate by its origin's entry (R36). -/
def copyFate (nodes : List NodeEntry) (origin : NodeId) (seq : Word32) : Fate :=
  match findNode nodes origin with
  | none => .full
  | some n =>
    match compareSeq seq n.seq with
    | .newer => .full
    | .equal => if n.isLive then .refresh else .stale
    | .older => .stale

/-! ## Value conversion (R39 to R43) -/

/-- The converted value of a scalar (R39). -/
def convertScalar (e : DialectEntry) (raw : Nat) : Int :=
  let half := if e.shift = 0 then 0 else 2 ^ (e.shift - 1)
  ((raw * e.mul + half) / 2 ^ e.shift : Nat) + e.offset

/-- A converted value brought into a range, with whether it was clamped (R40). -/
def clampInt (lo hi : Nat) (v : Int) : Nat × Bool :=
  if v < lo then (lo, true) else if v > hi then (hi, true) else (v.toNat, false)

/-- The result range of a scalar target (R32). -/
def scalarRange : Target → Nat × Nat
  | .nodeLifetime => (0, 255)
  | .nodeRegens => (0, 15)
  | .nodeTransitQ => (0, 400)
  | .linkCost => (1, 65535)
  | .linkQ => (0, 400)
  | .linkRemoteId => (0, 65535)
  | .linkOccupancy => (0, 0)
  | .linkSrlg => (0, 0)
  | .linkAdmin => (0, 0)

/-- The value of a scalar target, clamped (R39, R40). -/
def scalarValue (e : DialectEntry) (value : List Byte) : Nat × Bool :=
  clampInt (scalarRange e.target).1 (scalarRange e.target).2 (convertScalar e (decodeNat value))

/-- The slots of one occupancy pair and whether some fell outside 0..319 (R41). -/
def occupancyPair (e : DialectEntry) (rawStart rawWidth : Nat) : SlotSet × Bool :=
  if rawWidth = 0 then (0#320, false)
  else
    let start : Int := ((rawStart * e.mul) / 2 ^ e.shift : Nat) + e.offset
    let stop : Int := (((rawStart + rawWidth) * e.mul + (2 ^ e.shift - 1)) / 2 ^ e.shift : Nat) + e.offset
    let lo := (max start 0).toNat
    let hi := (min (max stop 0) slotCount).toNat
    (if lo < hi then slotRange lo (hi - lo) else 0#320, decide (start < 0) || decide (stop > slotCount))

/-- A list value cut into 4-byte items (R41, R42). -/
def quads : List Byte → List (List Byte)
  | a :: b :: c :: d :: rest => [a, b, c, d] :: quads rest
  | _ => []

/-- The value of LINK_OCCUPANCY: the union of its pairs' slots, and whether any clamped (R41). -/
def occupancyValue (e : DialectEntry) (value : List Byte) : SlotSet × Bool :=
  (quads value).foldl (fun acc p =>
    let r := occupancyPair e (fieldNat p 0 2) (fieldNat p 2 2)
    (acc.1 ||| r.1, acc.2 || r.2)) (0#320, false)

/-- The value of LINK_SRLG: distinct ids in order, at most 4, and whether one was dropped (R42). -/
def srlgValue (value : List Byte) : List Word32 × Bool :=
  (quads value).foldl (fun acc p =>
    let id := field32 p 0
    if id ∈ acc.1 then acc
    else if acc.1.length < Config.srlgPerLink then (acc.1 ++ [id], acc.2)
    else (acc.1, true)) ([], false)

/-- The value of LINK_ADMIN under the entry's sense (R43). -/
def adminValue (e : DialectEntry) (value : List Byte) : Admin :=
  if (decide (decodeNat value ≠ 0)) == (e.offset == 0) then .up else .down

/-! ## Mapping (R37, R38) -/

/-- What one translation event counts while mapping, and its CLAMPED mark (R37, R38, R40). -/
structure MapTally where
  unmapped  : Nat
  badLength : Nat
  clamped   : Bool
deriving DecidableEq, Repr

/-- The values that the node section sets. -/
structure NodeValues where
  lifetime : Option Nat
  regens   : Option Nat
  transitQ : Option Nat
deriving DecidableEq, Repr

/-- The values that one link's section sets. -/
structure LinkValues where
  cost     : Option Nat
  q        : Option Nat
  remoteId : Option Nat
  occupied : Option SlotSet
  srlg     : Option (List Word32)
  admin    : Option Admin
deriving DecidableEq, Repr

/-- The valid entry of a dialect that holds a code (R37). -/
def findCode (entries : List DialectEntry) (code : Byte) : Option DialectEntry :=
  entries.find? (fun e => e.valid && e.code == code)

/-- The target belongs to the node section (R32). -/
def isNodeTarget : Target → Bool
  | .nodeLifetime => true
  | .nodeRegens => true
  | .nodeTransitQ => true
  | .linkCost => false
  | .linkQ => false
  | .linkRemoteId => false
  | .linkOccupancy => false
  | .linkSrlg => false
  | .linkAdmin => false

/-- A value length suits a target's kind (R38). -/
def lengthSuits (t : Target) (n : Nat) : Bool :=
  match t with
  | .linkOccupancy | .linkSrlg => n % 4 == 0
  | _ => n == 1 || n == 2 || n == 4

/-- The mark is set further by one value. -/
def MapTally.mark (t : MapTally) (clamped : Bool) : MapTally := { t with clamped := t.clamped || clamped }

/-- The entry an attribute of a section is mapped by, or the tally when it is skipped: unmapped, or of a
bad length (R37, R38). -/
def mapEntry (entries : List DialectEntry) (nodeSection : Bool) (a : Attribute) (t : MapTally) :
    Except MapTally DialectEntry :=
  match findCode entries a.code with
  | none => .error { t with unmapped := t.unmapped + 1 }
  | some e =>
    if isNodeTarget e.target != nodeSection then .error { t with unmapped := t.unmapped + 1 }
    else if lengthSuits e.target a.value.length then .ok e
    else .error { t with badLength := t.badLength + 1 }

/-- One attribute of the node section is mapped (R37). -/
def mapNodeAttr (entries : List DialectEntry) (acc : NodeValues × MapTally) (a : Attribute) :
    NodeValues × MapTally :=
  match mapEntry entries true a acc.2 with
  | .error t => (acc.1, t)
  | .ok e =>
    let v := scalarValue e a.value
    match e.target with
    | .nodeLifetime => ({ acc.1 with lifetime := some v.1 }, acc.2.mark v.2)
    | .nodeRegens => ({ acc.1 with regens := some v.1 }, acc.2.mark v.2)
    | .nodeTransitQ => ({ acc.1 with transitQ := some v.1 }, acc.2.mark v.2)
    | _ => acc

/-- One attribute of a link's section is mapped (R37). -/
def mapLinkAttr (entries : List DialectEntry) (acc : LinkValues × MapTally) (a : Attribute) :
    LinkValues × MapTally :=
  match mapEntry entries false a acc.2 with
  | .error t => (acc.1, t)
  | .ok e =>
    match e.target with
    | .linkCost =>
      ({ acc.1 with cost := some (scalarValue e a.value).1 }, acc.2.mark (scalarValue e a.value).2)
    | .linkQ => ({ acc.1 with q := some (scalarValue e a.value).1 }, acc.2.mark (scalarValue e a.value).2)
    | .linkRemoteId =>
      ({ acc.1 with remoteId := some (scalarValue e a.value).1 }, acc.2.mark (scalarValue e a.value).2)
    | .linkOccupancy =>
      ({ acc.1 with occupied := some (occupancyValue e a.value).1 }, acc.2.mark (occupancyValue e a.value).2)
    | .linkSrlg =>
      ({ acc.1 with srlg := some (srlgValue a.value).1 }, acc.2.mark (srlgValue a.value).2)
    | .linkAdmin => ({ acc.1 with admin := some (adminValue e a.value) }, acc.2)
    | _ => acc

/-- The node section mapped in order (R37). -/
def mapNode (entries : List DialectEntry) (attrs : List Attribute) (t : MapTally) : NodeValues × MapTally :=
  attrs.foldl (mapNodeAttr entries) (⟨none, none, none⟩, t)

/-- A converted remote link id, 0 of which means none (R40, R46). -/
def remoteLink : Option Nat → Option Word16
  | none => none
  | some v => if v = 0 then none else some (BitVec.ofNat 16 v)

/-- One link mapped into its item (R37, R46). -/
def mapLink (entries : List DialectEntry) (l : AdvLink) (t : MapTally) : LinkItem × MapTally :=
  let r := l.attrs.foldl (mapLinkAttr entries) (⟨none, none, none, none, none, none⟩, t)
  ({ lid := l.lid, remote := l.remote, remoteLid := remoteLink r.1.remoteId, cost := r.1.cost, q := r.1.q
     occupied := r.1.occupied, srlg := r.1.srlg, admin := r.1.admin }, r.2)

/-- The links mapped in order (R45, R46). -/
def mapLinks (entries : List DialectEntry) (links : List AdvLink) (t : MapTally) : List LinkItem × MapTally :=
  links.foldl (fun acc l =>
    let r := mapLink entries l acc.2
    (acc.1 ++ [r.1], r.2)) ([], t)

/-! ## The translation event (R30, R33, R46, R47) -/

/-- The 32 entries of a dialect of a bank, none for a tag outside 1..8 (R33). -/
def Bank.dialect (b : Bank) (tag : Nat) : Option (List DialectEntry) :=
  if tag = 0 then none else (b.dialects[tag - 1]?).map (·.toList)

/-- How a translation event ends (R30). -/
inductive Translated where
  | unknownDialect
  | malformed
  | stale
  | record (r : UpdateRecord) (t : MapTally)
deriving DecidableEq, Repr

/-- The record of a copy judged FULL (R44 to R46). -/
def fullRecord (defaultLifetime : Nat) (entries : List DialectEntry) (a : Advertisement) : Translated :=
  let node := mapNode entries a.nodeAttrs ⟨0, 0, false⟩
  let links := mapLinks entries (a.links.take Config.linksPerNode) node.2
  .record (.full
    { origin := a.origin, dialect := a.dialect, seq := a.seq
      lifetime := node.1.lifetime.getD defaultLifetime
      regens := node.1.regens, transitQ := node.1.transitQ
      incomplete := decide (a.links.length > Config.linksPerNode)
      items := links.1 }) links.2

/-- The record of a copy judged REFRESH (R44, R47). -/
def refreshRecord (defaultLifetime : Nat) (entries : List DialectEntry) (a : Advertisement) : Translated :=
  let node := mapNode entries a.nodeAttrs ⟨0, 0, false⟩
  .record (.refresh a.origin a.seq (node.1.lifetime.getD defaultLifetime)) node.2

/-- A copy is translated: dialect check (R33), structural check (R34), sequence check (R36), mapping
and the record. A payload of length 0 has no dialect tag and is malformed (R33). -/
def translate (s : State) (copy : List Byte) : Translated :=
  match copy with
  | [] => .malformed
  | tag :: _ =>
    match s.prb.active.dialect tag.toNat with
    | none => .unknownDialect
    | some entries =>
      if !entries.any (·.valid) then .unknownDialect
      else match walkCopy copy with
        | none => .malformed
        | some a =>
          match copyFate s.tst.nodes a.origin a.seq with
          | .full => fullRecord s.cfg.defaultLifetime entries a
          | .refresh => refreshRecord s.cfg.defaultLifetime entries a
          | .stale => .stale

/-- Change the translator counters (R49). -/
def State.countAtr (s : State) (f : TranslatorCounters → TranslatorCounters) : State :=
  { s with atr := { s.atr with counters := f s.atr.counters } }

/-- ADVERT_DROPPED is raised with a reason and no subject (R29, R33, R34). -/
def State.raiseDropped (s : State) (r : Reason) : State := s.raise .advertDropped .none r

/-- The counters of a record handed over (R46, R47, R49). -/
def countHandedOver (r : UpdateRecord) (t : MapTally) (c : TranslatorCounters) : TranslatorCounters :=
  { c with
    accepted := (match r with
      | .full _ => bump c.accepted
      | .refresh _ _ _ => c.accepted)
    refreshed := (match r with
      | .full _ => c.refreshed
      | .refresh _ _ _ => bump c.refreshed)
    malformedAttr := addSat c.malformedAttr t.badLength
    unmapped := addSat c.unmapped t.unmapped
    clamped := if t.clamped then bump c.clamped else c.clamped }

/-- A translation event ends: the copy is discarded and counted, or its record is handed over (R30). -/
def State.finishTranslation (s : State) : Translated → State
  | .unknownDialect =>
    (s.countAtr (fun c => { c with unknownDialect := bump c.unknownDialect })).raiseDropped .dialect
  | .malformed => (s.countAtr (fun c => { c with malformed := bump c.malformed })).raiseDropped .malformed
  | .stale => s.countAtr (fun c => { c with stale := bump c.stale })
  | .record r t =>
    let s' := s.countAtr (countHandedOver r t)
    { s' with atr := { s'.atr with handed := some r } }

/-- The translator takes the head copy when the conditions of R30 hold. -/
def State.translationEvent (s : State) : State :=
  match s.atr.queue with
  | [] => s
  | copy :: rest =>
    if s.standby || s.atr.handed.isSome then s
    else ({ s with atr := { s.atr with queue := rest } }).finishTranslation (translate s copy)

/-- A copy is offered to the input queue: appended, dropped at 32, or discarded in STANDBY (R29). -/
def State.offerCopy (s : State) (copy : List Byte) : State :=
  if s.standby then s
  else if s.atr.queue.length < Config.translatorQueue then
    { s with atr := { s.atr with queue := s.atr.queue ++ [copy] } }
  else (s.countAtr (fun c => { c with queueFull := bump c.queueFull })).raiseDropped .queue

end Sys2Proof.Machine
end

