-- ==== Sys2Proof/Machine/Ports.lean ====
section
/-! DEFINITION. Ingress, transit and egress at the ports (chapter 9). -/

namespace Sys2Proof.Machine

/-! ## Ingress (R154 to R159) -/

/-- A node-port tag that is valid into the part (R155). A frame on NP with no tag has none that is. -/
def validTag : Option Byte → Bool
  | some t => decide (t.toNat < 8) || t == tagAllPorts
  | none => false

/-- The egress ports a passed frame would enter, with the tag it leaves by (R155, R157). -/
def passPorts (s : State) (port : Port) (tag : Option Byte) : List (Port × Option Byte) :=
  match port with
  | .lp i => [(.np, some (BitVec.ofNat 8 i.val))]
  | .np =>
    match tag with
    | none => []
    | some t =>
      if t = tagAllPorts then (linePorts.filter s.enabled).map (fun p => (p, none))
      else if h : t.toNat < 8 then [(.lp ⟨t.toNat, h⟩, none)] else []

/-- A passed frame enters one egress port's transit FIFO, or is counted there (R157). -/
def State.enterTransit (s : State) (f : Frame) (to' : Port × Option Byte) : State :=
  if s.enabled to'.1 then
    if (s.port to'.1).transit.length < Config.transitFifo then
      s.setPort to'.1
        { s.port to'.1 with transit := (s.port to'.1).transit ++ [{ tag := to'.2, frame := f }] }
    else s.countPort to'.1 (fun c => { c with transitDropped := bump c.transitDropped })
  else s.countPort to'.1 (fun c => { c with transitToDisabled := bump c.transitToDisabled })

/-- A frame is passed (R157). -/
def State.passFrame (s : State) (port : Port) (tag : Option Byte) (f : Frame) : State :=
  (passPorts s port tag).foldl (fun s p => s.enterTransit f p) s

/-- A command is consumed into the intake queue, or dropped when it holds 8 (R159). -/
def State.consume (s : State) (port : Port) (f : Frame) : State :=
  if s.spu.intake.length < Config.intakeQueue then
    ({ s with spu := { s.spu with intake := s.spu.intake ++ [(⟨port, f⟩ : IntakeFrame)] } }).countPort
      port (fun c => { c with commandsTakenIn := bump c.commandsTakenIn })
  else s.countPort port (fun c => { c with commandsDropped := bump c.commandsDropped })

/-- A frame with a good frame check: rows 4 to 7 of R156. -/
def State.classify (s : State) (port : Port) (tag : Option Byte) (f : Frame) : State :=
  if f.dest = s.cfg.engineAddress ∧ f.cls = classCommand then s.consume port f
  else if f.cls = classEpochMark ∧ port = s.cfg.epochPort ∧ s.cfg.epochMode = .follow then
    (s.takeMark f.payload).passFrame port tag f
  else if f.cls = classAdvertisement then (s.offerCopy f.payload).passFrame port tag f
  else s.passFrame port tag f

/-- A frame without a length error: row 3 of R156, then the others. -/
def State.receive (s : State) (port : Port) (tag : Option Byte) (f : Frame) : State :=
  let s' := s.countPort port (fun c => { c with framesReceived := bump c.framesReceived })
  if f.goodCheck then s'.classify port tag f
  else (s'.countPort port (fun c => { c with badCheck := bump c.badCheck })).passFrame port tag f

/-- A frame arrives on a port (R154 to R156, R164). -/
def State.frameArrival (s : State) (port : Port) (tag : Option Byte) (bytes : List Byte) : State :=
  if !s.enabled port then
    s.countPort port (fun c => { c with receivedDisabled := bump c.receivedDisabled })
  else if port = .np ∧ validTag tag = false then
    s.countPort port (fun c => { c with badTag := bump c.badTag })
  else match Frame.ofWire bytes with
    | none => s.countPort port (fun c => { c with lengthErrors := bump c.lengthErrors })
    | some f => s.receive port tag f

/-! ## Egress (R161 to R163) -/

/-- A transmission of a queue's head begins: the frame leaves its queue and the arbiter records the
queue it served (R163). -/
def PortState.begin (x : PortState) (kind : Served) (f : OutFrame) : PortState :=
  { x with
    transit := (match kind with
      | .transit => x.transit.drop 1
      | .localQueue => x.transit)
    localQueue := (match kind with
      | .transit => x.localQueue
      | .localQueue => x.localQueue.drop 1)
    lastServed := kind
    transmitting := some { kind := kind, frame := f } }

/-- The arbiter's choice between a port's two queues (R163). -/
def arbiterChoice (x : PortState) : Option (Served × OutFrame) :=
  match x.transit, x.localQueue with
  | [], [] => none
  | f :: _, [] => some (.transit, f)
  | [], f :: _ => some (.localQueue, f)
  | f :: _, g :: _ =>
    match x.lastServed with
    | .localQueue => some (.transit, f)
    | .transit => some (.localQueue, g)

/-- The egress arbiter takes a frame when its port is enabled and no transmission is in progress
(R163). -/
def State.egressTake (s : State) (p : Port) : State :=
  if s.enabled p && (s.port p).transmitting.isNone then
    match arbiterChoice (s.port p) with
    | none => s
    | some (kind, f) => s.setPort p ((s.port p).begin kind f)
  else s

/-- A sent frame is counted by the queue it came from (R163). -/
def countSent (kind : Served) (c : PortCounters) : PortCounters :=
  match kind with
  | .transit => { c with sentTransit := bump c.sentTransit }
  | .localQueue => { c with sentLocal := bump c.sentLocal }

/-- A transmission ends (R163). -/
def State.transmissionEnd (s : State) (p : Port) : State :=
  match (s.port p).transmitting with
  | none => s
  | some t =>
    s.setPort p { s.port p with transmitting := none, counters := countSent t.kind (s.port p).counters }

/-- The held response enters its port's local egress queue when a place is free there (R161, R162).
DEDUCED, log entry 4: R162's order is that of the entering, so a response that came to the hold after the
place freed still enters ahead of a result that was in COMPLETING when it freed. -/
def State.heldEnters (s : State) : State :=
  match s.spu.hold with
  | none => s
  | some r =>
    if (s.port r.port).localQueue.length < Config.localQueue then
      ({ s with spu := { s.spu with hold := none } }).enterLocal r.port r.frame
    else s

/-- The NOTICE frame of a notice entry (R180). -/
def noticeFrame (s : State) (n : NoticeEntry) : Frame :=
  originated s.cfg.engineAddress s.cfg.noticeAddress classNotice
    (encNotice n.cls n.count n.reason n.subject)

/-- The notice queue's head enters NOTICE_PORT's local egress queue when a place is free there and no
held response or engine's result waits for it (R162, R180). -/
def State.noticeSend (s : State) : State :=
  match s.evu.notices with
  | [] => s
  | n :: rest =>
    if s.enabled s.cfg.noticePort && s.wayFree s.cfg.noticePort then
      ({ s with evu := { s.evu with notices := rest } }).enterLocal s.cfg.noticePort
        (outgoing s.cfg.noticePort (noticeFrame s n))
    else s

/-! ## Disabling a port (R164) -/

/-- An engine in COMPLETING for a port that is disabled discards its record and becomes IDLE (R111,
R164). -/
def State.discardRecord (s : State) (e : EngineId) (p : Port) : State :=
  if (s.engine e).waitsFor = some p then (s.setEngine e Engine.idle).countResultDiscard else s

/-- A response in the hold for a port that is disabled is discarded and counted (R164). -/
def State.discardHeld (s : State) (p : Port) : State :=
  if (s.spu.hold.map (·.port)) = some p then
    ({ s with spu := { s.spu with hold := none } }).countLocalDiscard p
  else s

/-- A port's queues are emptied and their frames counted (R164). -/
def PortState.emptied (x : PortState) : PortState :=
  { x with
    transit := []
    localQueue := []
    counters := { x.counters with
      transitDropped := addSat x.counters.transitDropped x.transit.length
      localDiscarded := addSat x.counters.localDiscarded x.localQueue.length } }

/-- A port leaves PORT_ENABLE (R164). -/
def State.disablePort (s : State) (p : Port) : State :=
  ((((s.setPort p (s.port p).emptied).discardHeld p).discardRecord .a p).discardRecord .b p)

end Sys2Proof.Machine
end

