-- ==== Sys2Proof/Machine/Events.lean ====
section
/-! DEFINITION. The rows that no command asks for: a frame's arrival, the timebase and the age tick,
the translator, the store, the engines, and the ports' egress. -/

namespace Sys2Proof.Machine

/-- FRAME_ARRIVAL (R154 to R159, R164). -/
def execFrameArrival (port : Port) (tag : Option Byte) (bytes : List Byte) (s : State) :
    Host.Outcome State Fault Refusal :=
  .next (s.frameArrival port tag bytes)

/-- TIMEBASE_INTERVAL (R167). -/
def execTimebaseInterval (s : State) : Host.Outcome State Fault Refusal := .next s.timebaseInterval

/-- AGE_TICK (R167). -/
def execAgeTick (s : State) : Host.Outcome State Fault Refusal := .next s.ageTick

/-- NODE_AGE_EXPIRY (R16). -/
def execNodeAgeExpiry (s : State) : Host.Outcome State Fault Refusal := .next s.nodeAgeExpiry

/-- HOLD_DOWN_EXPIRY (R17). -/
def execHoldDownExpiry (s : State) : Host.Outcome State Fault Refusal := .next s.holdDownExpiry

/-- RESERVATION_EXPIRY (R126). -/
def execReservationExpiry (s : State) : Host.Outcome State Fault Refusal := .next s.reservationExpiry

/-- EPOCH_TIMER_EXPIRY (R149). -/
def execEpochTimerExpiry (s : State) : Host.Outcome State Fault Refusal := .next s.epochTimerExpiry

/-- SETTLE_TIMER_EXPIRY (R170). -/
def execSettleTimerExpiry (s : State) : Host.Outcome State Fault Refusal := .next s.settleTimerExpiry

/-- TRANSLATION_EVENT (R30). -/
def execTranslationEvent (s : State) : Host.Outcome State Fault Refusal := .next s.translationEvent

/-- RECORD_APPLICATION (R5): the record handed over is applied to the store. -/
def execRecordApplication (s : State) : Host.Outcome State Fault Refusal := .next s.applyHanded

/-- EXPANSION (R79). -/
def execExpansion (engine : EngineId) (s : State) : Host.Outcome State Fault Refusal := .next (s.expand engine)

/-- ENGINE_END_ORDER (R87). -/
def execEngineEndOrder (engine : EngineId) (s : State) : Host.Outcome State Fault Refusal :=
  .next (s.takeOrder engine)

/-- EGRESS_TAKE (R163). -/
def execEgressTake (port : Port) (s : State) : Host.Outcome State Fault Refusal := .next (s.egressTake port)

/-- TRANSMISSION_END (R163). -/
def execTransmissionEnd (port : Port) (s : State) : Host.Outcome State Fault Refusal :=
  .next (s.transmissionEnd port)

/-- HELD_RESPONSE_ENTERS (R161, R162). -/
def execHeldResponseEnters (s : State) : Host.Outcome State Fault Refusal := .next s.heldEnters

/-- COMPLETING_RESULT_ENTERS (R111, R162). -/
def execCompletingResultEnters (engine : EngineId) (s : State) : Host.Outcome State Fault Refusal :=
  .next (s.completingEnters engine)

/-- NOTICE_SEND (R180). -/
def execNoticeSend (s : State) : Host.Outcome State Fault Refusal := .next s.noticeSend

end Sys2Proof.Machine
end

