-- ==== Sys2Proof/Machine/Commands.lean ====
section
/-! DEFINITION. How a management command is taken, judged and answered (R159 to R161, R166): the one
shared operation behind every command row. -/

namespace Sys2Proof.Machine

/-! ## The command list (R166) -/

/-- Command code READ STATUS. -/
def codeReadStatus : Byte := 0x01
/-- Command code READ CONFIG. -/
def codeReadConfig : Byte := 0x02
/-- Command code SET CONFIG. -/
def codeSetConfig : Byte := 0x03
/-- Command code SET STATE. -/
def codeSetState : Byte := 0x04
/-- Command code RESTART WARM. -/
def codeRestartWarm : Byte := 0x05
/-- Command code READ COUNTERS. -/
def codeReadCounters : Byte := 0x06
/-- Command code WRITE SOURCE ENTRY. -/
def codeWriteSource : Byte := 0x07
/-- Command code READ SOURCE ENTRY. -/
def codeReadSource : Byte := 0x08
/-- Command code QUERY NODE. -/
def codeQueryNode : Byte := 0x10
/-- Command code QUERY LINK. -/
def codeQueryLink : Byte := 0x11
/-- Command code LIST NODES. -/
def codeListNodes : Byte := 0x12
/-- Command code CLEAR CROSSINGS. -/
def codeClearCrossings : Byte := 0x13
/-- Command code SUBMIT. -/
def codeSubmit : Byte := 0x20
/-- Command code CANCEL. -/
def codeCancel : Byte := 0x21
/-- Command code RELEASE WATCH. -/
def codeReleaseWatch : Byte := 0x22
/-- Command code QUERY WATCH. -/
def codeQueryWatch : Byte := 0x23
/-- Command code WRITE DIALECT ENTRY. -/
def codeWriteDialect : Byte := 0x30
/-- Command code CLEAR DIALECT. -/
def codeClearDialect : Byte := 0x31
/-- Command code WRITE CLASS. -/
def codeWriteClass : Byte := 0x32
/-- Command code READ TABLE. -/
def codeReadTable : Byte := 0x33
/-- Command code COMMIT. -/
def codeCommit : Byte := 0x34
/-- Command code DISCARD STAGED. -/
def codeDiscardStaged : Byte := 0x35
/-- Command code ACK EVENTS. -/
def codeAckEvents : Byte := 0x40

/-- The rights of the management source list (R160). -/
inductive Right where
  | query
  | request
  | configure
deriving DecidableEq, Repr

/-- The right a command code requires, or none for a code not in the list (R166). READ COUNTERS needs
CONFIGURE when its clear option, the third parameter byte, is there and set. -/
def requiredRight (code : Byte) (params : List Byte) : Option Right :=
  if code = codeReadCounters then
    some (if params.length ≥ 3 ∧ paramMark params 2 = true then .configure else .query)
  else if code ∈ [codeReadStatus, codeReadConfig, codeReadSource, codeQueryNode, codeQueryLink,
      codeListNodes, codeQueryWatch, codeReadTable] then some .query
  else if code ∈ [codeSubmit, codeCancel, codeReleaseWatch] then some .request
  else if code ∈ [codeSetConfig, codeSetState, codeRestartWarm, codeWriteSource, codeClearCrossings,
      codeWriteDialect, codeClearDialect, codeWriteClass, codeCommit, codeDiscardStaged,
      codeAckEvents] then some .configure
  else none

/-! ## Senders (R160) -/

/-- A set of rights holds a right. -/
def Rights.has (r : Rights) : Right → Bool
  | .query => r.query
  | .request => r.request
  | .configure => r.configure

/-- The lowest-indexed valid entry of the management source list with this address (R160). -/
def lookupSource (sources : Vector SourceEntry 8) (a : Address) : Option SourceEntry :=
  sources.toList.find? (fun e => e.valid && e.address == a)

/-- A sender on a port holds a right: every right on NP, its entry's rights on a line port (R160,
R166). -/
def State.senderHas (s : State) (port : Port) (a : Address) (r : Right) : Bool :=
  match port with
  | .np => true
  | .lp _ =>
    match lookupSource s.spu.sources a with
    | some e => e.rights.has r
    | none => false

/-! ## Taking a command (R159 to R161) -/

/-- A taken command: where it came from and its envelope (section 9.1.4). A byte the payload lacks
reads as zero (R160). -/
structure Taken where
  port   : Port
  source : Address
  code   : Byte
  tag    : Word16
  params : List Byte
deriving DecidableEq, Repr

/-- The command that an intake frame carries. -/
def commandOf (f : IntakeFrame) : Taken where
  port := f.port
  source := f.frame.src
  code := fieldByte f.frame.payload 0
  tag := fieldByte f.frame.payload 2 ++ fieldByte f.frame.payload 3
  params := f.frame.payload.drop 4

/-- The frame at the head of the intake queue, when a command may be taken: the response hold is empty
(R159, R161). -/
def State.intakeHead (s : State) : Option IntakeFrame :=
  match s.spu.hold with
  | some _ => none
  | none => s.spu.intake.head?

/-- The head command, when it may be taken and is the one of this code. DEDUCED, log entry 5: a row of
the table is the event "this command is taken", which does not arise while another command, or none,
is at the head. -/
def State.headCommand (s : State) (code : Byte) : Option Taken :=
  match s.intakeHead with
  | none => none
  | some f =>
    if f.frame.payload.length ≥ 4 ∧ (commandOf f).code = code then some (commandOf f) else none

/-- The head command leaves the intake queue (R159). -/
def State.popIntake (s : State) : State :=
  { s with spu := { s.spu with intake := s.spu.intake.tail } }

/-- The RESPONSE frame of a reply to a command (R161, section 9.1.4). -/
def responseFrame (s : State) (t : Taken) (r : Reply) : Frame :=
  originated s.cfg.engineAddress t.source classResponse
    ([t.code, responseCode r.code] ++ enc2 t.tag.toNat ++ r.data)

/-- A command is answered on its ingress port (R161). -/
def State.respond (s : State) (t : Taken) (r : Reply) : State :=
  s.offerResponse t.port (responseFrame s t r)

/-- What the owning block makes of a command: its reply, the state after it carried the command out,
and what it still does once the response has been offered (R101, R112, R169, R173). -/
structure Answer where
  reply : Reply
  state : State
  later : State → State

/-- The sender holds the right that the command requires (step 3 of R160). -/
def State.authorised (s : State) (t : Taken) : Bool :=
  match requiredRight t.code t.params with
  | some r => s.senderHas t.port t.source r
  | none => false

/-- One command is taken, judged, carried out and answered, all in one event (R159 to R161). -/
def State.takeCommand (s : State) (code : Byte) (body : Taken → State → Answer) : State :=
  match s.headCommand code with
  | none => s
  | some t =>
    if s.authorised t then
      let a := body t s.popIntake
      a.later (a.state.respond t a.reply)
    else s.popIntake.respond t (Reply.bare .denied)

/-- An answer that leaves nothing to do after the response. -/
def Answer.done (reply : Reply) (s : State) : Answer := { reply := reply, state := s, later := id }

/-- A refusal: nothing changes and no data is carried (section 10.1). -/
def Answer.refuse (c : Response) (s : State) : Answer := Answer.done (Reply.bare c) s

/-- A command whose code is not in the list, or whose payload is shorter than 4 bytes, is answered by
the port unit (steps 1 and 2 of R160). -/
def State.takeUnknown (s : State) : State :=
  match s.intakeHead with
  | none => s
  | some f =>
    if f.frame.payload.length < 4 then s.popIntake.respond (commandOf f) (Reply.bare .malformed)
    else if (requiredRight (commandOf f).code (commandOf f).params).isNone then
      s.popIntake.respond (commandOf f) (Reply.bare .unknownCommand)
    else s

end Sys2Proof.Machine
end

