-- ==== Sys2Proof/Machine/Settings.lean ====
section
/-! DEFINITION. The configuration items: their codes, the values in force, how a SET CONFIG is judged
and clamped, and the effect of a change (section 10.5, R174, R57, R181). -/

namespace Sys2Proof.Machine

/-- The configuration items, in the order of section 10.5. -/
inductive ConfigItem where
  | engineAddress
  | portEnable
  | epochMode
  | epochPort
  | epochInterval
  | ageDiv
  | settleTime
  | defaultLifetime
  | holdDown
  | defaultLinkQ
  | degradeLow
  | degradeHigh
  | filterDepth
  | crossNotice
  | degradePenalty
  | twoWay
  | expansionLimit
  | reserveHold
  | noticeAddress
  | noticePort
  | eventEnable
deriving DecidableEq, Repr

/-- The item of a code, 01h to 15h (section 10.5). -/
def itemOfCode : Nat → Option ConfigItem
  | 0x01 => some .engineAddress
  | 0x02 => some .portEnable
  | 0x03 => some .epochMode
  | 0x04 => some .epochPort
  | 0x05 => some .epochInterval
  | 0x06 => some .ageDiv
  | 0x07 => some .settleTime
  | 0x08 => some .defaultLifetime
  | 0x09 => some .holdDown
  | 0x0A => some .defaultLinkQ
  | 0x0B => some .degradeLow
  | 0x0C => some .degradeHigh
  | 0x0D => some .filterDepth
  | 0x0E => some .crossNotice
  | 0x0F => some .degradePenalty
  | 0x10 => some .twoWay
  | 0x11 => some .expansionLimit
  | 0x12 => some .reserveHold
  | 0x13 => some .noticeAddress
  | 0x14 => some .noticePort
  | 0x15 => some .eventEnable
  | _ => none

/-- The standby-only items (section 10.5). -/
def standbyOnly : ConfigItem → Bool
  | .engineAddress => true
  | .portEnable => true
  | .epochMode => true
  | .epochPort => true
  | .epochInterval => false
  | .ageDiv => false
  | .settleTime => false
  | .defaultLifetime => false
  | .holdDown => false
  | .defaultLinkQ => false
  | .degradeLow => false
  | .degradeHigh => false
  | .filterDepth => false
  | .crossNotice => false
  | .degradePenalty => false
  | .twoWay => false
  | .expansionLimit => false
  | .reserveHold => false
  | .noticeAddress => false
  | .noticePort => false
  | .eventEnable => false

/-- The value in force of an item, as its 4-byte value holds it (section 10.5). -/
def valueInForce (cfg : Settings) : ConfigItem → Nat
  | .engineAddress => cfg.engineAddress.toNat
  | .portEnable => cfg.portEnable.toNat
  | .epochMode => epochModeCode cfg.epochMode
  | .epochPort => portIndex cfg.epochPort
  | .epochInterval => cfg.epochInterval
  | .ageDiv => cfg.ageDiv
  | .settleTime => cfg.settleTime
  | .defaultLifetime => cfg.defaultLifetime
  | .holdDown => cfg.holdDown
  | .defaultLinkQ => cfg.defaultLinkQ
  | .degradeLow => cfg.degradeLow
  | .degradeHigh => cfg.degradeHigh
  | .filterDepth => cfg.filterDepth
  | .crossNotice => crossNoticeCode cfg.crossNotice
  | .degradePenalty => cfg.degradePenalty
  | .twoWay => if cfg.twoWay then 1 else 0
  | .expansionLimit => cfg.expansionLimit
  | .reserveHold => cfg.reserveHold
  | .noticeAddress => cfg.noticeAddress.toNat
  | .noticePort => portIndex cfg.noticePort
  | .eventEnable => cfg.eventEnable.toNat

/-- DEGRADE_LOW is set: above 400 it clamps, and DEGRADE_HIGH is raised to it when it stands below
(R57). -/
def setDegradeLow (cfg : Settings) (v : Nat) : Settings × Bool :=
  let low := min v Config.qMax
  ({ cfg with degradeLow := low, degradeHigh := max cfg.degradeHigh low },
    low != v || decide (low > cfg.degradeHigh))

/-- DEGRADE_HIGH is set within DEGRADE_LOW..400 (R57). -/
def setDegradeHigh (cfg : Settings) (v : Nat) : Settings × Bool :=
  let high := max cfg.degradeLow (min v Config.qMax)
  ({ cfg with degradeHigh := high }, high != v)

/-- Steps 3 and 4 of R174: none for BAD_VALUE; otherwise the configuration after the command, and
whether a clamp changed the value given. `arrived` is the port the command came by. -/
def judgeItem (cfg : Settings) (arrived : Port) (i : ConfigItem) (v : Nat) : Option (Settings × Bool) :=
  match i with
  | .engineAddress =>
    if reservedId (BitVec.ofNat 32 v) then none
    else some ({ cfg with engineAddress := BitVec.ofNat 32 v }, false)
  | .portEnable =>
    if portIn (BitVec.ofNat 9 v) arrived then some ({ cfg with portEnable := BitVec.ofNat 9 v }, false)
    else none
  | .epochMode => (epochModeOfCode v).map (fun m => ({ cfg with epochMode := m }, false))
  | .epochPort => (portOfCode v).map (fun p => ({ cfg with epochPort := p }, false))
  | .epochInterval => some ({ cfg with epochInterval := clampNat 1 255 v }, clampNat 1 255 v != v)
  | .ageDiv => some ({ cfg with ageDiv := clampNat 0 255 v }, clampNat 0 255 v != v)
  | .settleTime => some ({ cfg with settleTime := clampNat 0 255 v }, clampNat 0 255 v != v)
  | .defaultLifetime => some ({ cfg with defaultLifetime := clampNat 1 255 v }, clampNat 1 255 v != v)
  | .holdDown => some ({ cfg with holdDown := clampNat 1 255 v }, clampNat 1 255 v != v)
  | .defaultLinkQ => some ({ cfg with defaultLinkQ := clampNat 0 400 v }, clampNat 0 400 v != v)
  | .degradeLow => some (setDegradeLow cfg v)
  | .degradeHigh => some (setDegradeHigh cfg v)
  | .filterDepth => some ({ cfg with filterDepth := clampDepth v }, clampDepth v != v)
  | .crossNotice => (crossNoticeOfCode v).map (fun m => ({ cfg with crossNotice := m }, false))
  | .degradePenalty => some ({ cfg with degradePenalty := clampNat 0 65535 v }, clampNat 0 65535 v != v)
  | .twoWay => if v ≤ 1 then some ({ cfg with twoWay := v == 1 }, false) else none
  | .expansionLimit => some ({ cfg with expansionLimit := clampNat 1 65535 v }, clampNat 1 65535 v != v)
  | .reserveHold => some ({ cfg with reserveHold := clampNat 1 255 v }, clampNat 1 255 v != v)
  | .noticeAddress => some ({ cfg with noticeAddress := BitVec.ofNat 32 v }, false)
  | .noticePort => (portOfCode v).map (fun p => ({ cfg with noticePort := p }, false))
  | .eventEnable => some ({ cfg with eventEnable := BitVec.ofNat 12 v }, false)

/-! ## The effect of a change -/

/-- Every link entry in use after a change of DEGRADE_LOW, DEGRADE_HIGH or FILTER_DEPTH (R57). -/
def State.rethreshold (s : State) : State :=
  { s with tst := { s.tst with nodes := s.tst.nodes.map (fun n =>
      { n with links := n.links.map (Link.rethreshold s.cfg) }) } }

/-- The ports of a set that another set leaves out, in the order of their numbers (R164). -/
def portsRemoved (old new : BitVec 9) : List Port :=
  allPorts.filter (fun p => portIn old p && !portIn new p)

/-- The classes in a set that are not in another, in ascending class number (R181). -/
def classesOnlyIn (x y : BitVec 12) : List EventClass :=
  allEvents.filter (fun c => eventIn x c && !eventIn y c)

/-- The notice queue after a change of EVENT_ENABLE (R181). -/
def noticesAfterEnable (u : EventUnit) (old new : Settings) : EventUnit :=
  let u' := u.unqueueAll (classesOnlyIn old.eventEnable new.eventEnable)
  if new.noticeAddress = 0#32 then u' else u'.queuePending (classesOnlyIn new.eventEnable old.eventEnable)

/-- The notice queue after a change of NOTICE_ADDRESS (R181). -/
def noticesAfterAddress (u : EventUnit) (old new : Settings) : EventUnit :=
  if new.noticeAddress = 0#32 then u.unqueueAll allEvents
  else if old.noticeAddress = 0#32 then u.queuePending (allEvents.filter (eventIn new.eventEnable))
  else u

/-- The epoch timer after a change of EPOCH_MODE: loaded when the mode leaves FOLLOW (R149, R152). -/
def timerAfterMode (timer : Nat) (old new : Settings) : Nat :=
  if old.epochMode = .follow then new.epochInterval else timer

/-- What a change of an item does beyond the item itself; `old` is the configuration before it and `s`
holds the new one (the last column of section 10.5). DEDUCED, log entry 35: a change of EPOCH_INTERVAL
lowers an epoch timer above it in every mode, FOLLOW included, and in every part state. -/
def State.itemEffect (s : State) (old : Settings) : ConfigItem → State
  | .engineAddress => s
  | .portEnable => (portsRemoved old.portEnable s.cfg.portEnable).foldl State.disablePort s
  | .epochMode => { s with epc := { s.epc with timer := timerAfterMode s.epc.timer old s.cfg } }
  | .epochPort => s
  | .epochInterval => { s with epc := { s.epc with timer := min s.epc.timer s.cfg.epochInterval } }
  | .ageDiv => s
  | .settleTime => s
  | .defaultLifetime => s
  | .holdDown => s
  | .defaultLinkQ => s
  | .degradeLow => s.rethreshold
  | .degradeHigh => s.rethreshold
  | .filterDepth => s.rethreshold
  | .crossNotice => s
  | .degradePenalty => s
  | .twoWay =>
    s.reportChanges (usabilityReports old.twoWay s.cfg.twoWay s.tst.nodes s.tst.nodes)
  | .expansionLimit => s
  | .reserveHold => s
  | .noticeAddress => { s with evu := noticesAfterAddress s.evu old s.cfg }
  | .noticePort => s
  | .eventEnable => { s with evu := noticesAfterEnable s.evu old s.cfg }

/-- A configuration takes effect; one equal to that in force changes nothing and starts no effect
(R174). -/
def State.configure (s : State) (i : ConfigItem) (new : Settings) : State :=
  if new = s.cfg then s else ({ s with cfg := new }).itemEffect s.cfg i

end Sys2Proof.Machine
end

