-- ==== Sys2Proof/Machine/Management.lean ====
section
/-! DEFINITION. The commands of State Control and the Supervisory Port Unit (chapter 10): READ STATUS,
READ CONFIG, SET CONFIG, SET STATE, RESTART WARM, READ COUNTERS and the source entries. -/

namespace Sys2Proof.Machine

/-! ## READ STATUS (R175) -/

/-- An engine's state, with its request's requester and tag when it is not IDLE. -/
def encEngineStatus (x : Engine) : List Byte :=
  encByte (engineModeCode x.mode)
    ++ encOptional 7 (fun d => encRequester d.requester ++ enc2 d.tag.toNat)
      (if x.mode = .idle then none else x.request)

/-- The number of watch entries in a state. -/
def watchCount (entries : List WatchEntry) (w : WatchState) : Nat :=
  (entries.filter (fun x => x.state == w)).length

/-- The watch states in the order of section 9.1.2. -/
def allWatchStates : List WatchState := [.reserved, .active, .violated, .rerouting, .stalled]

/-- The data of READ STATUS, in the order of R175. DESIGN CHOICE, log entry 36: the settle timer, the strap
value and the epoch timer, kinds that section 9.1.2 does not name, take one byte each. -/
def statusData (s : State) : List Byte :=
  encByte (partCode s.stc.part) ++ encByte s.stc.settleTimer ++ enc4 s.cfg.engineAddress.toNat
    ++ encByte s.stc.straps.toNat
    ++ encByte (epochModeCode s.cfg.epochMode) ++ enc2 s.epc.number ++ encByte s.epc.timer
    ++ encMark s.prb.commitPending
    ++ encByte s.atr.queue.length ++ encByte s.spu.intake.length
    ++ encByte s.rq.queue.length
    ++ encEngineStatus s.engA ++ encEngineStatus s.engB
    ++ allWatchStates.flatMap (fun w => encByte (watchCount s.pwl.entries w))
    ++ encByte (Config.watchEntries - s.pwl.entries.length)
    ++ allEvents.flatMap (fun c => encMark (s.evu.get c).pending)
    ++ encByte s.evu.notices.length

/-- READ STATUS changes nothing (R175). -/
def readStatus (_ : Taken) (s : State) : Answer := Answer.done { code := .ok, data := statusData s } s

/-! ## READ CONFIG and SET CONFIG (R174) -/

/-- An item's code and the value in force. -/
def itemData (cfg : Settings) (i : ConfigItem) (code : Byte) : List Byte := code :: enc4 (valueInForce cfg i)

/-- READ CONFIG returns the item's value in force (R174). -/
def readConfig (t : Taken) (s : State) : Answer :=
  match t.params with
  | [] => Answer.refuse .malformed s
  | code :: _ =>
    match itemOfCode code.toNat with
    | none => Answer.refuse .badIndex s
    | some i => Answer.done { code := .ok, data := itemData s.cfg i code } s

/-- OK, or CLAMPED when a clamp changed a value. -/
def okOrClamped (clamped : Bool) : Response := if clamped then .clamped else .ok

/-- An item is judged past its code (steps 2 to 4 of R174) and takes effect. -/
def setItem (t : Taken) (s : State) (i : ConfigItem) : Answer :=
  if standbyOnly i && !s.standby then Answer.refuse .notInStandby s
  else match judgeItem s.cfg t.port i (fieldNat t.params 1 4) with
    | none => Answer.refuse .badValue s
    | some (new, clamped) =>
      Answer.done { code := okOrClamped clamped, data := itemData new i (fieldByte t.params 0) }
        (s.configure i new)

/-- SET CONFIG is judged in the order of R174. -/
def setConfig (t : Taken) (s : State) : Answer :=
  if t.params.length < 5 then Answer.refuse .malformed s
  else match itemOfCode (param1 t.params 0) with
    | none => Answer.refuse .badIndex s
    | some i => setItem t s i

/-! ## SET STATE and RESTART WARM (R169, R173) -/

/-- OK with the part state that results (R169). -/
def stateReply (p : PartState) : Reply := { code := .ok, data := encByte (partCode p) }

/-- SET STATE acts by its target and the state it finds; the ABORTED results of an entry into STANDBY
are offered after the response (R169). -/
def setState (t : Taken) (s : State) : Answer :=
  match t.params with
  | [] => Answer.refuse .malformed s
  | target :: _ =>
    if target = 1 then
      if s.standby then Answer.done (stateReply s.leaveStandby.stc.part) s.leaveStandby
      else Answer.done (stateReply s.stc.part) s
    else if target = 0 then
      if s.standby then Answer.done (stateReply .standby) s
      else { reply := stateReply .standby, state := s, later := State.enterStandby }
    else Answer.refuse .badValue s

/-- RESTART WARM is answered OK, and the restart follows the response (R173). -/
def restartWarm (_ : Taken) (s : State) : Answer :=
  { reply := Reply.bare .ok, state := s, later := State.warmRestart }

/-! ## READ COUNTERS (R176) -/

/-- The store counters in the order of R24. -/
def StoreCounters.values (c : StoreCounters) : List Nat :=
  [c.recordsApplied, c.refreshesApplied, c.recordsDiscarded, c.recordsDropped, c.nodesAdded, c.nodesAged,
   c.nodesFlushed, c.nodesFreed, c.linksCreated, c.linksFreed, c.linksDropped, c.itemsInvalid]

/-- The translator counters in the order of R49. -/
def TranslatorCounters.values (c : TranslatorCounters) : List Nat :=
  [c.accepted, c.refreshed, c.stale, c.unknownDialect, c.malformed, c.malformedAttr, c.unmapped,
   c.clamped, c.queueFull]

/-- The Request Queue counters in the order of R118. -/
def RequestCounters.values (c : RequestCounters) : List Nat :=
  [c.accepted, c.requeued, c.requeuesRefused, c.resultsDiscarded]

/-- The Epoch Control counters in the order of R153. -/
def EpochCounters.values (c : EpochCounters) : List Nat :=
  [c.sent, c.notSent, c.taken, c.repeated, c.short]

/-- A port's counters in the order of R165. -/
def PortCounters.values (c : PortCounters) : List Nat :=
  [c.framesReceived, c.lengthErrors, c.badCheck, c.badTag, c.receivedDisabled, c.commandsTakenIn,
   c.commandsDropped, c.transitDropped, c.transitToDisabled, c.localDiscarded, c.sentTransit, c.sentLocal]

/-- The counter groups (R176). -/
inductive CounterGroup where
  | store
  | translator
  | requestQueue
  | epochControl
  | port (p : Port)
deriving DecidableEq, Repr

/-- The group that a group code and a port name; the port is read for group 4 alone (R176). -/
def groupOfCode (group port : Nat) : Option CounterGroup :=
  match group with
  | 0 => some .store
  | 1 => some .translator
  | 2 => some .requestQueue
  | 3 => some .epochControl
  | 4 => (portOfCode port).map .port
  | _ => none

/-- The values of a group's counters in the order of its table. -/
def State.groupValues (s : State) : CounterGroup → List Nat
  | .store => s.tst.counters.values
  | .translator => s.atr.counters.values
  | .requestQueue => s.rq.counters.values
  | .epochControl => s.epc.counters.values
  | .port p => (s.port p).counters.values

/-- Each counter of a group is set to 0 (R176). -/
def State.clearGroup (s : State) : CounterGroup → State
  | .store => { s with tst := { s.tst with counters := StoreCounters.zero } }
  | .translator => { s with atr := { s.atr with counters := TranslatorCounters.zero } }
  | .requestQueue => { s with rq := { s.rq with counters := RequestCounters.zero } }
  | .epochControl => { s with epc := { s.epc with counters := EpochCounters.zero } }
  | .port p => s.countPort p (fun _ => PortCounters.zero)

/-- READ COUNTERS reads a group, and clears it after the reading under the clear option (R176). -/
def readCounters (t : Taken) (s : State) : Answer :=
  if t.params.length < 3 then Answer.refuse .malformed s
  else match groupOfCode (param1 t.params 0) (param1 t.params 1) with
    | none => Answer.refuse .badIndex s
    | some g =>
      Answer.done { code := .ok, data := (s.groupValues g).flatMap enc4 }
        (if paramMark t.params 2 then s.clearGroup g else s)

/-! ## The management source list (R177) -/

/-- The entry that a WRITE SOURCE ENTRY carries. -/
def sourceOfParams (ps : List Byte) : SourceEntry where
  valid := paramMark ps 1
  address := field32 ps 2
  rights := paramRights ps 6

/-- WRITE SOURCE ENTRY (R177). DESIGN CHOICE, log entry 36: with the rights set in one byte, it needs seven
parameter bytes. -/
def writeSource (t : Taken) (s : State) : Answer :=
  if t.params.length < 7 then Answer.refuse .malformed s
  else if param1 t.params 0 > 7 then Answer.refuse .badIndex s
  else if (sourceOfParams t.params).valid && reservedId (sourceOfParams t.params).address then
    Answer.refuse .badValue s
  else Answer.done (Reply.bare .ok)
    { s with spu := { s.spu with
        sources := s.spu.sources.setIfInBounds (param1 t.params 0) (sourceOfParams t.params) } }

/-- A source entry's valid mark, address and rights (R177). -/
def encSource (e : SourceEntry) : List Byte := encMark e.valid ++ enc4 e.address.toNat ++ encRights e.rights

/-- READ SOURCE ENTRY (R177). -/
def readSource (t : Taken) (s : State) : Answer :=
  match t.params with
  | [] => Answer.refuse .malformed s
  | index :: _ =>
    match s.spu.sources[index.toNat]? with
    | none => Answer.refuse .badIndex s
    | some e => Answer.done { code := .ok, data := encSource e } s

/-! ## The rows -/

/-- COLD_RESET (R172): every piece of state takes its cold-reset value, with the straps sampled. -/
def execColdReset (straps : BitVec 4) (s : State) : Host.Outcome State Fault Refusal :=
  .next { State.cold straps with pending := s.pending }

/-- READ_STATUS (R175). -/
def execReadStatus (s : State) : Host.Outcome State Fault Refusal :=
  .next (s.takeCommand codeReadStatus readStatus)

/-- READ_CONFIG (R174). -/
def execReadConfig (s : State) : Host.Outcome State Fault Refusal :=
  .next (s.takeCommand codeReadConfig readConfig)

/-- SET_CONFIG (R174). -/
def execSetConfig (s : State) : Host.Outcome State Fault Refusal :=
  .next (s.takeCommand codeSetConfig setConfig)

/-- SET_STATE (R169). -/
def execSetState (s : State) : Host.Outcome State Fault Refusal :=
  .next (s.takeCommand codeSetState setState)

/-- RESTART_WARM (R173). -/
def execRestartWarm (s : State) : Host.Outcome State Fault Refusal :=
  .next (s.takeCommand codeRestartWarm restartWarm)

/-- READ_COUNTERS (R176). -/
def execReadCounters (s : State) : Host.Outcome State Fault Refusal :=
  .next (s.takeCommand codeReadCounters readCounters)

/-- WRITE_SOURCE_ENTRY (R177). -/
def execWriteSourceEntry (s : State) : Host.Outcome State Fault Refusal :=
  .next (s.takeCommand codeWriteSource writeSource)

/-- READ_SOURCE_ENTRY (R177). -/
def execReadSourceEntry (s : State) : Host.Outcome State Fault Refusal :=
  .next (s.takeCommand codeReadSource readSource)

/-- UNKNOWN_OR_MALFORMED_COMMAND (R160). -/
def execUnknownOrMalformedCommand (s : State) : Host.Outcome State Fault Refusal :=
  .next s.takeUnknown

end Sys2Proof.Machine
end

