-- ==== Sys2Proof/Machine/Queries.lean ====
section
/-! DEFINITION. The store's queries (R25 to R27) and CLEAR CROSSINGS (R58). -/

namespace Sys2Proof.Machine

/-! ## QUERY NODE (R25) -/

/-- Node state codes (section 9.1.2). -/
def nodeStateCode : NodeLife → Nat
  | .live _ => 1
  | .withdrawn _ => 2

/-- The age counter of a LIVE node, the hold-down counter of a WITHDRAWN one. -/
def lifeCounter : NodeLife → Nat
  | .live age => age
  | .withdrawn h => h

/-- The data of QUERY NODE, in the order of R25. DESIGN CHOICE, log entry 10: the transit q is sent as an
optional field, a presence byte before it. DESIGN CHOICE, log entry 32: a local link id takes 2 bytes.
DESIGN CHOICE, log entry 36: the age counter or hold-down counter, a kind that section 9.1.2 does not name,
takes one byte. -/
def nodeData (o : Overlay) (n : NodeEntry) : List Byte :=
  encByte n.index ++ encByte (nodeStateCode n.life) ++ enc4 n.id.toNat ++ encByte n.dialect
    ++ enc4 n.seq.toNat ++ encByte (lifeCounter n.life)
    ++ encByte n.regens ++ encByte (o.reservedRegens n.id) ++ encOptional 2 enc2 n.transitQ ++ encMark n.incomplete
    ++ encByte n.links.length ++ encList (fun l => enc2 l.lid.toNat) n.links

/-- QUERY NODE (R25). -/
def queryNode (t : Taken) (s : State) : Answer :=
  if t.params.length < 4 then Answer.refuse .malformed s
  else if reservedId (field32 t.params 0) then Answer.refuse .notFound s
  else match findNode s.tst.nodes (field32 t.params 0) with
    | none => Answer.refuse .notFound s
    | some n => Answer.done { code := .ok, data := nodeData s.pwl.overlay n } s

/-! ## QUERY LINK (R26) -/

/-- The condition fields, in the order of R50. -/
def encCond (f : CondFields) : List Byte :=
  encByte (conditionCode f.condition) ++ encByte f.count ++ encMark f.below ++ encMark f.crossed

/-- The data of QUERY LINK, in the order of R26. DESIGN CHOICE, log entry 32: the remote link id, a bare
local link id whose size section 9.1.2 does not give, takes 2 bytes after its presence byte. -/
def linkData (s : State) (n : NodeEntry) (l : Link) : List Byte :=
  encLinkRef ⟨n.id, l.lid⟩ ++ enc4 l.remote.toNat ++ encOptional 2 (fun x : Word16 => enc2 x.toNat) l.remoteLid
    ++ enc4 l.cost ++ encQ l.q ++ encodeSlots l.occupied
    ++ encList (fun x : Word32 => enc4 x.toNat) l.srlg ++ encByte (adminCode l.admin) ++ encCond l.cond
    ++ encMark (usable s.cfg.twoWay s.tst.nodes n l)
    ++ encByte (unusableCode (unusableReason s.cfg.twoWay s.tst.nodes n l))
    ++ encodeSlots (s.pwl.overlay.reservedSlots ⟨n.id, l.lid⟩)

/-- QUERY LINK (R26). -/
def queryLink (t : Taken) (s : State) : Answer :=
  if t.params.length < 6 then Answer.refuse .malformed s
  else match findNode s.tst.nodes (field32 t.params 0) with
    | none => Answer.refuse .notFound s
    | some n =>
      match findLid n.links (field16 t.params 4) with
      | none => Answer.refuse .notFound s
      | some l => Answer.done { code := .ok, data := linkData s n l } s

/-! ## LIST NODES (R27) -/

/-- The entries of a page: the first 16 from a table index upward. -/
def listPage (nodes : List NodeEntry) (start : Nat) : List NodeEntry :=
  (nodes.filter (fun n => decide (start ≤ n.index))).take Config.listPage

/-- The next index: after the last of 16 entries, while it is not above 255 (R27). -/
def nextIndex (page : List NodeEntry) : Option Nat :=
  if page.length = Config.listPage then
    match page.getLast? with
    | none => none
    | some n => if n.index + 1 < Config.nodeEntries then some (n.index + 1) else none
  else none

/-- The data of LIST NODES. DESIGN CHOICE, log entry 11: the next index takes 1 byte, as an index does. -/
def listData (page : List NodeEntry) : List Byte :=
  encList (fun n : NodeEntry =>
      encByte n.index ++ enc4 n.id.toNat ++ encByte (nodeStateCode n.life)) page
    ++ encOptional 1 encByte (nextIndex page)

/-- LIST NODES (R27). -/
def listNodes (t : Taken) (s : State) : Answer :=
  if t.params.length < 2 then Answer.refuse .malformed s
  else if fieldNat t.params 0 2 > 255 then Answer.refuse .badIndex s
  else Answer.done { code := .ok, data := listData (listPage s.tst.nodes (fieldNat t.params 0 2)) } s

/-! ## CLEAR CROSSINGS (R58) -/

/-- A link with its crossing mark cleared. -/
def Link.uncross (l : Link) : Link := { l with cond := { l.cond with crossed := false } }

/-- The crossing marks set among the links of a node. -/
def crossingsOf (n : NodeEntry) : Nat := (n.links.filter (·.cond.crossed)).length

/-- OK with the count cleared. DESIGN CHOICE, log entry 12: the count, which may reach 2048, takes 2
bytes. -/
def clearedReply (n : Nat) : Reply := { code := .ok, data := enc2 n }

/-- Replace the node entries. -/
def State.setNodes (s : State) (nodes : List NodeEntry) : State := { s with tst := { s.tst with nodes := nodes } }

/-- A node entry with one link's crossing mark cleared. -/
def NodeEntry.uncross (n : NodeEntry) (lid : Word16) : NodeEntry :=
  { n with links := n.links.map (fun l => if l.lid = lid then l.uncross else l) }

/-- CLEAR CROSSINGS of one link ref. -/
def clearOne (s : State) (ref : LinkRef) : Answer :=
  match findLink s.tst.nodes ref with
  | none => Answer.refuse .notFound s
  | some l =>
    Answer.done (clearedReply (if l.cond.crossed then 1 else 0))
      (s.setNodes (s.tst.nodes.map (fun n => if n.id = ref.origin then n.uncross ref.lid else n)))

/-- CLEAR CROSSINGS of every link in use. -/
def clearAll (s : State) : Answer :=
  Answer.done (clearedReply (s.tst.nodes.map crossingsOf).sum)
    (s.setNodes (s.tst.nodes.map (fun n => { n with links := n.links.map Link.uncross })))

/-- CLEAR CROSSINGS names one link ref or, with the ref absent, all links (R58). -/
def clearCrossings (t : Taken) (s : State) : Answer :=
  if t.params.length < 7 then Answer.refuse .malformed s
  else if paramMark t.params 0 then clearOne s (paramLinkRef t.params 1)
  else clearAll s

/-! ## The rows -/

/-- QUERY_NODE (R25). -/
def execQueryNode (s : State) : Host.Outcome State Fault Refusal :=
  .next (s.takeCommand codeQueryNode queryNode)

/-- QUERY_LINK (R26). -/
def execQueryLink (s : State) : Host.Outcome State Fault Refusal :=
  .next (s.takeCommand codeQueryLink queryLink)

/-- LIST_NODES (R27). -/
def execListNodes (s : State) : Host.Outcome State Fault Refusal :=
  .next (s.takeCommand codeListNodes listNodes)

/-- CLEAR_CROSSINGS (R58). -/
def execClearCrossings (s : State) : Host.Outcome State Fault Refusal :=
  .next (s.takeCommand codeClearCrossings clearCrossings)

end Sys2Proof.Machine
end

