-- ==== Sys2Proof/Machine/Submissions.lean ====
section
/-! DEFINITION. The commands of the Request Queue and the Path Watch List: SUBMIT (R100, R101), CANCEL
(R112, R113), RELEASE WATCH (R135) and QUERY WATCH (R137). -/

namespace Sys2Proof.Machine

/-! ## SUBMIT (R100, R101) -/

/-- The bytes of SUBMIT's fixed part (section 9.1.5). -/
def submitFixed : Nat := 28

/-- The bytes a SUBMIT needs: the fixed part and both exclusion lists (section 9.1.5). -/
def submitLength (ps : List Byte) : Nat := submitFixed + 4 * param1 ps 26 + 6 * param1 ps 27

/-- The four enumerations of a SUBMIT. -/
structure SubmitCodes where
  order     : Order
  policy    : Policy
  diversity : Diversity
  action    : RerouteAction
deriving DecidableEq, Repr

/-- The enumerations that a SUBMIT's codes name; none when one is unknown (section 9.1.5). -/
def submitCodes (ps : List Byte) : Option SubmitCodes :=
  match orderOfCode (param1 ps 3), policyOfCode (param1 ps 4), diversityOfCode (param1 ps 5),
      actionOfCode (param1 ps 10) with
  | some order, some policy, some diversity, some action => some ⟨order, policy, diversity, action⟩
  | _, _, _, _ => none

/-- The window of a SUBMIT: read when bit 0 of the options is set. -/
def submitWindow (ps : List Byte) : Option Window :=
  if (fieldByte ps 8).getLsbD 0 then some { start := fieldNat ps 20 2, width := fieldNat ps 22 2 } else none

/-- The excluded nodes of a SUBMIT. -/
def submitExNodes (ps : List Byte) : List NodeId :=
  (List.range (param1 ps 26)).map (fun i => field32 ps (submitFixed + 4 * i))

/-- The excluded links of a SUBMIT. -/
def submitExLinks (ps : List Byte) : List LinkRef :=
  (List.range (param1 ps 27)).map (fun i => paramLinkRef ps (submitFixed + 4 * param1 ps 26 + 6 * i))

/-- Max hops of 0 or above 32 becomes 32 (R101). -/
def clampHops (v : Nat) : Nat := if v = 0 ∨ v > 32 then 32 else v

/-- The descriptor of a SUBMIT, its numeric fields clamped (R101, section 6.1). -/
def submitDescriptor (t : Taken) (c : SubmitCodes) : Descriptor where
  requester := .mgmt t.source
  ingress := some t.port
  tag := t.tag
  priority := min 7 (param1 t.params 0)
  source := field32 t.params 12
  dest := field32 t.params 16
  width := param1 t.params 1
  cls := param1 t.params 2
  window := submitWindow t.params
  order := c.order
  policy := c.policy
  diversity := c.diversity
  maxHops := clampHops (param1 t.params 6)
  maxRegens := min 3 (param1 t.params 7)
  limit := fieldNat t.params 24 2
  exNodes := submitExNodes t.params
  exLinks := submitExLinks t.params
  retryLimit := min 3 (param1 t.params 9)
  retries := min 3 (param1 t.params 9)
  hold := (fieldByte t.params 8).getLsbD 1
  action := c.action
  rerouteLimit := min 3 (param1 t.params 11)

/-- A clamp of R101 changed a value. -/
def submitClamped (ps : List Byte) : Bool :=
  decide (param1 ps 0 > 7) || clampHops (param1 ps 6) != param1 ps 6 || decide (param1 ps 7 > 3)
    || decide (param1 ps 9 > 3) || decide (param1 ps 11 > 3)

/-- A window within the limits of R100. -/
def windowGood : Option Window → Bool
  | none => true
  | some w => decide (w.start ≤ 319) && decide (1 ≤ w.width) && decide (w.width ≤ 320)

/-- Test 3 of R100 on the fields, past the codes. -/
def submitValuesGood (s : State) (d : Descriptor) : Bool :=
  !reservedId d.source && !reservedId d.dest && d.source != d.dest
    && decide (1 ≤ d.width) && decide (d.width ≤ 16)
    && decide (d.cls ≤ 15) && (s.prb.active.classEntry d.cls).valid
    && windowGood d.window
    && decide (d.exNodes.length ≤ 8) && decide (d.exLinks.length ≤ 8)
    && d.exNodes.all (fun n => !reservedId n) && d.exLinks.all (fun r => r.lid != 0#16)
    && decide (d.source ∉ d.exNodes) && decide (d.dest ∉ d.exNodes)

/-- The requester has a live request with this tag (test 4 of R100). -/
def State.hasLive (s : State) (r : Requester) (tag : Word16) : Bool :=
  match s.standing r tag with
  | .notLive => false
  | .queued => true
  | .searching _ => true
  | .completing _ => true

/-- SUBMIT: the tests of R100 in order. An accepted request is answered with the queue depth after its
acceptance and any dispatch, and the response is offered before the request goes on (R101). -/
def submit (t : Taken) (s : State) : Answer :=
  if s.standby then Answer.refuse .notReady s
  else if t.params.length < submitFixed ∨ t.params.length < submitLength t.params then
    Answer.refuse .malformed s
  else match submitCodes t.params with
    | none => Answer.refuse .badValue s
    | some c =>
      let d := submitDescriptor t c
      if !submitValuesGood s d then Answer.refuse .badValue s
      else if s.hasLive d.requester d.tag then Answer.refuse .duplicate s
      else if s.rq.queue.length ≥ Config.requestQueue then Answer.refuse .queueFull s
      else
        { reply := { code := if submitClamped t.params then .clamped else .ok
                     data := encByte (s.accept d).rq.queue.length }
          state := s
          later := fun s => s.accept d }

/-! ## CANCEL (R112, R113) -/

/-- A queued request leaves the queue with its CANCELLED result (R112). -/
def State.cancelQueued (s : State) (r : Requester) (tag : Word16) : State :=
  match s.rq.queue.find? (fun d => d.named r tag) with
  | none => s
  | some d =>
    match d.requester, d.ingress with
    | .mgmt a, some p => (s.unqueueRequest r tag).offerQueuedResult a p (unrunResult s d .cancelled) false
    | _, _ => s.unqueueRequest r tag

/-- A searching engine is told to end CANCELLED, unless it has an order already (R87, R112). DEDUCED,
log entry 13: the first order given stands. -/
def State.cancelSearch (s : State) (e : EngineId) : State :=
  if (s.engine e).endOrder = .none then s.orderEnd e .cancel else s

/-- CANCEL of the request of a requester and tag (R112). -/
def cancelNamed (s : State) (r : Requester) (tag : Word16) : Answer :=
  match s.standing r tag with
  | .queued => { reply := Reply.bare .ok, state := s, later := fun s => s.cancelQueued r tag }
  | .searching e => { reply := Reply.bare .ok, state := s, later := fun s => s.cancelSearch e }
  | .completing _ => Answer.refuse .tooLate s
  | .notLive => Answer.refuse .notFound s

/-- The address a CANCEL names: the parameter's, or the sender's own when it is absent (R112). -/
def cancelAddress (t : Taken) : Address :=
  if paramMark t.params 0 then field32 t.params 1 else t.source

/-- CANCEL: another requester's address needs CONFIGURE from a line port (R113). -/
def cancel (t : Taken) (s : State) : Answer :=
  if t.params.length < 5 then Answer.refuse .malformed s
  else if cancelAddress t ≠ t.source ∧ s.senderHas t.port t.source .configure = false then
    Answer.refuse .denied s
  else cancelNamed s (.mgmt (cancelAddress t)) t.tag

/-! ## RELEASE WATCH (R135) -/

/-- An entry is released: its claims, its reroute request and its mark go with it. -/
def State.releaseWatch (s : State) (w : WatchEntry) : State :=
  (if w.state = .rerouting then s.cancelReroute w.id else s).removeWatch w.id

/-- RELEASE WATCH (R135). -/
def releaseWatch (t : Taken) (s : State) : Answer :=
  match t.params with
  | [] => Answer.refuse .malformed s
  | id :: _ =>
    if id.toNat ≥ Config.watchEntries then Answer.refuse .badIndex s
    else match findWatch s.pwl.entries id.toNat with
      | none => Answer.refuse .notFound s
      | some w =>
        if t.port ≠ .np ∧ t.source ≠ w.requester ∧ s.senderHas t.port t.source .configure = false then
          Answer.refuse .denied s
        else Answer.done (Reply.bare .ok) (s.releaseWatch w)

/-! ## QUERY WATCH (R137) -/

/-- For each hop of a RESERVED entry's paths, whether its link's advertised occupancy contains the slots
the entry claims on it. DESIGN CHOICE, log entry 14: the spec asks for an item for each link and does
not say how a link on both paths counts; the model lists one item for each hop, so two. -/
def confirmations (nodes : List NodeEntry) (w : WatchEntry) : List Bool :=
  if w.state = .reserved then
    w.slotClaims.map (fun c => (w.slotClaims.filter (fun k => k.ref == c.ref)).all (occupies nodes))
  else []

/-- The data of QUERY WATCH, in the order of R137. DESIGN CHOICE, log entry 14: an absent protection
path is two zero counts, the timer is an optional field, and an entry that is not RESERVED has an
empty list of confirmations. -/
def watchData (s : State) (w : WatchEntry) : List Byte :=
  encByte w.id ++ encByte (watchStateCode w.state) ++ encRequester (.mgmt w.requester) ++ enc2 w.tag.toNat
    ++ enc4 w.desc.source.toNat ++ enc4 w.desc.dest.toNat ++ encByte w.desc.width ++ encByte w.desc.cls
    ++ encByte (orderCode w.desc.order) ++ encByte (policyCode w.desc.policy)
    ++ encByte (diversityCode w.desc.diversity) ++ encByte (actionCode w.desc.action)
    ++ encByte w.desc.rerouteLimit
    ++ enc4 w.budget ++ enc2 w.regenCost
    ++ encHeldPath w.primary ++ encOptional 2 encHeldPath w.protection
    ++ encOptional 1 (fun r => encByte (violationCode r)) w.reason
    ++ encOptional 1 encByte (if w.state = .reserved then some w.timer else none)
    ++ encByte w.rerouteLeft ++ encMark w.submitPending
    ++ encList encMark (confirmations s.tst.nodes w)

/-- QUERY WATCH changes nothing (R137). -/
def queryWatch (t : Taken) (s : State) : Answer :=
  match t.params with
  | [] => Answer.refuse .malformed s
  | id :: _ =>
    if id.toNat ≥ Config.watchEntries then Answer.refuse .badIndex s
    else match findWatch s.pwl.entries id.toNat with
      | none => Answer.refuse .notFound s
      | some w => Answer.done { code := .ok, data := watchData s w } s

/-! ## The rows -/

/-- SUBMIT (R100). -/
def execSubmit (s : State) : Host.Outcome State Fault Refusal :=
  .next (s.takeCommand codeSubmit submit)

/-- CANCEL (R112). -/
def execCancel (s : State) : Host.Outcome State Fault Refusal :=
  .next (s.takeCommand codeCancel cancel)

/-- RELEASE_WATCH (R135). -/
def execReleaseWatch (s : State) : Host.Outcome State Fault Refusal :=
  .next (s.takeCommand codeReleaseWatch releaseWatch)

/-- QUERY_WATCH (R137). -/
def execQueryWatch (s : State) : Host.Outcome State Fault Refusal :=
  .next (s.takeCommand codeQueryWatch queryWatch)

end Sys2Proof.Machine
end

