-- ==== Sys2Proof/Machine/Tables.lean ====
section
/-! DEFINITION. The commands of the Profile Banks (R141 to R146) and ACK EVENTS (R182). -/

namespace Sys2Proof.Machine

/-! ## The dialect table (R141, R142) -/

/-- A dialect within 1..8. -/
def dialectGood (dialect : Nat) : Bool := decide (1 ≤ dialect) && decide (dialect ≤ 8)

/-- A mul of 0 is written as 1 (R141). -/
def clampMul (v : Nat) : Nat := if v = 0 then 1 else v

/-- A shift above 15 is written as 15 (R141). -/
def clampShift (v : Nat) : Nat := min 15 v

/-- OK, or CLAMPED when a clamp changed a value. -/
def okUnlessClamped (clamped : Bool) : Reply := Reply.bare (if clamped then .clamped else .ok)

/-- The entry that a WRITE DIALECT ENTRY carries, clamped (R141). DESIGN CHOICE, log entry 9: the shift,
whose size section 9.1.2 does not give, takes 1 byte. -/
def dialectOfParams (ps : List Byte) (target : Target) : DialectEntry where
  valid := paramMark ps 2
  code := fieldByte ps 3
  target := target
  mul := clampMul (fieldNat ps 5 2)
  shift := clampShift (param1 ps 7)
  offset := (BitVec.ofNat 16 (fieldNat ps 8 2)).toInt

/-- A clamp of R141 changed a value. -/
def dialectClamped (ps : List Byte) : Bool :=
  fieldNat ps 5 2 == 0 || decide (param1 ps 7 > 15)

/-- WRITE DIALECT ENTRY (R141). -/
def writeDialect (t : Taken) (s : State) : Answer :=
  if t.params.length < 10 then Answer.refuse .malformed s
  else if !dialectGood (param1 t.params 0) || decide (param1 t.params 1 > 31) then
    Answer.refuse .badIndex s
  else match targetOfCode (param1 t.params 4) with
    | none => Answer.refuse .badIndex s
    | some target =>
      let e := dialectOfParams t.params target
      if e.valid && s.prb.staged.codeTaken (param1 t.params 0) (param1 t.params 1) e.code then
        Answer.refuse .duplicate s
      else Answer.done (okUnlessClamped (dialectClamped t.params))
        (s.setStaged (s.prb.staged.putDialectEntry (param1 t.params 0) (param1 t.params 1) e))

/-- CLEAR DIALECT (R142). -/
def clearDialect (t : Taken) (s : State) : Answer :=
  match t.params with
  | [] => Answer.refuse .malformed s
  | dialect :: _ =>
    if dialectGood dialect.toNat then
      Answer.done (Reply.bare .ok) (s.setStaged (s.prb.staged.clearDialect dialect.toNat))
    else Answer.refuse .badIndex s

/-! ## The class table (R143) -/

/-- The entry that a WRITE CLASS carries, clamped (R143). -/
def classOfParams (ps : List Byte) : ClassEntry where
  valid := paramMark ps 1
  qReq := min Config.qMax (fieldNat ps 2 2)
  margin := min 100 (fieldNat ps 4 2)
  regenCost := fieldNat ps 6 2

/-- A clamp of R143 changed a value. -/
def classClamped (ps : List Byte) : Bool :=
  decide (fieldNat ps 2 2 > Config.qMax) || decide (fieldNat ps 4 2 > 100)

/-- WRITE CLASS (R143). -/
def writeClass (t : Taken) (s : State) : Answer :=
  if t.params.length < 8 then Answer.refuse .malformed s
  else if param1 t.params 0 > 15 then Answer.refuse .badIndex s
  else Answer.done (okUnlessClamped (classClamped t.params))
    (s.setStaged (s.prb.staged.putClass (param1 t.params 0) (classOfParams t.params)))

/-! ## READ TABLE, COMMIT, DISCARD STAGED (R144 to R146) -/

/-- The bank of a code (section 9.1.2). -/
def bankOfCode (s : State) : Nat → Option Bank
  | 0 => some s.prb.active
  | 1 => some s.prb.staged
  | _ => none

/-- The entry of a dialect table, or BAD_INDEX. -/
def readDialectEntry (s : State) (b : Bank) (dialect index : Nat) : Answer :=
  match b.dialectEntry dialect index with
  | none => Answer.refuse .badIndex s
  | some e => Answer.done { code := .ok, data := encDialectEntry e } s

/-- The entry of a class table, or BAD_INDEX. -/
def readClassEntry (s : State) (b : Bank) (n : Nat) : Answer :=
  match b.classes[n]? with
  | none => Answer.refuse .badIndex s
  | some e => Answer.done { code := .ok, data := encClassEntry e } s

/-- READ TABLE (R144). DESIGN CHOICE, log entry 15: the dialect table needs 4 parameter bytes; the class
table, and a table code that names no table, need 3. -/
def readTable (t : Taken) (s : State) : Answer :=
  if t.params.length < 3 ∨ (param1 t.params 1 = 0 ∧ t.params.length < 4) then Answer.refuse .malformed s
  else match bankOfCode s (param1 t.params 0) with
    | none => Answer.refuse .badIndex s
    | some b =>
      match param1 t.params 1 with
      | 0 => readDialectEntry s b (param1 t.params 2) (param1 t.params 3)
      | 1 => readClassEntry s b (param1 t.params 2)
      | _ => Answer.refuse .badIndex s

/-- COMMIT sets the commit pending mark (R145). -/
def commit (_ : Taken) (s : State) : Answer :=
  Answer.done (Reply.bare .ok) { s with prb := { s.prb with commitPending := true } }

/-- DISCARD STAGED copies the active banks into the staged ones (R146). -/
def discardStaged (_ : Taken) (s : State) : Answer :=
  Answer.done (Reply.bare .ok)
    { s with prb := { s.prb with staged := s.prb.active, commitPending := false } }

/-! ## ACK EVENTS (R182) -/

/-- The classes of an ACK EVENTS, in ascending class number. -/
def ackClasses (ps : List Byte) : List EventClass := allEvents.filter (eventIn (BitVec.ofNat 12 (fieldNat ps 0 4)))

/-- A class as ACK EVENTS reads it: a pending byte, then a notice payload (R182). -/
def encAcked (u : EventUnit) (c : EventClass) : List Byte :=
  encMark (u.get c).pending ++ encNotice c (u.get c).count (u.get c).reason (u.get c).subject

/-- ACK EVENTS reads the listed classes, then clears them (R182). -/
def ackEvents (t : Taken) (s : State) : Answer :=
  if t.params.length < 4 then Answer.refuse .malformed s
  else Answer.done { code := .ok, data := encList (encAcked s.evu) (ackClasses t.params) }
    { s with evu := s.evu.acknowledgeAll (ackClasses t.params) }

/-! ## The rows -/

/-- WRITE_DIALECT_ENTRY (R141). -/
def execWriteDialectEntry (s : State) : Host.Outcome State Fault Refusal :=
  .next (s.takeCommand codeWriteDialect writeDialect)

/-- CLEAR_DIALECT (R142). -/
def execClearDialect (s : State) : Host.Outcome State Fault Refusal :=
  .next (s.takeCommand codeClearDialect clearDialect)

/-- WRITE_CLASS (R143). -/
def execWriteClass (s : State) : Host.Outcome State Fault Refusal :=
  .next (s.takeCommand codeWriteClass writeClass)

/-- READ_TABLE (R144). -/
def execReadTable (s : State) : Host.Outcome State Fault Refusal :=
  .next (s.takeCommand codeReadTable readTable)

/-- COMMIT (R145). -/
def execCommit (s : State) : Host.Outcome State Fault Refusal :=
  .next (s.takeCommand codeCommit commit)

/-- DISCARD_STAGED (R146). -/
def execDiscardStaged (s : State) : Host.Outcome State Fault Refusal :=
  .next (s.takeCommand codeDiscardStaged discardStaged)

/-- ACK_EVENTS (R182). -/
def execAckEvents (s : State) : Host.Outcome State Fault Refusal :=
  .next (s.takeCommand codeAckEvents ackEvents)

end Sys2Proof.Machine
end

