-- ==== Sys2Proof/Machine/Dispatch.lean ====
section
/-! DEFINITION. One arm per row of spec/opcode_table.json. -/

namespace Sys2Proof.Machine

def exec (i : Instr) (s : State) : Host.Outcome State Fault Refusal :=
  match i with
  | .coldReset straps => Sys2Proof.Machine.execColdReset straps s
  | .frameArrival port tag bytes => Sys2Proof.Machine.execFrameArrival port tag bytes s
  | .readStatus => Sys2Proof.Machine.execReadStatus s
  | .readConfig => Sys2Proof.Machine.execReadConfig s
  | .setConfig => Sys2Proof.Machine.execSetConfig s
  | .setState => Sys2Proof.Machine.execSetState s
  | .restartWarm => Sys2Proof.Machine.execRestartWarm s
  | .readCounters => Sys2Proof.Machine.execReadCounters s
  | .writeSourceEntry => Sys2Proof.Machine.execWriteSourceEntry s
  | .readSourceEntry => Sys2Proof.Machine.execReadSourceEntry s
  | .queryNode => Sys2Proof.Machine.execQueryNode s
  | .queryLink => Sys2Proof.Machine.execQueryLink s
  | .listNodes => Sys2Proof.Machine.execListNodes s
  | .clearCrossings => Sys2Proof.Machine.execClearCrossings s
  | .submit => Sys2Proof.Machine.execSubmit s
  | .cancel => Sys2Proof.Machine.execCancel s
  | .releaseWatch => Sys2Proof.Machine.execReleaseWatch s
  | .queryWatch => Sys2Proof.Machine.execQueryWatch s
  | .writeDialectEntry => Sys2Proof.Machine.execWriteDialectEntry s
  | .clearDialect => Sys2Proof.Machine.execClearDialect s
  | .writeClass => Sys2Proof.Machine.execWriteClass s
  | .readTable => Sys2Proof.Machine.execReadTable s
  | .commit => Sys2Proof.Machine.execCommit s
  | .discardStaged => Sys2Proof.Machine.execDiscardStaged s
  | .ackEvents => Sys2Proof.Machine.execAckEvents s
  | .timebaseInterval => Sys2Proof.Machine.execTimebaseInterval s
  | .ageTick => Sys2Proof.Machine.execAgeTick s
  | .nodeAgeExpiry => Sys2Proof.Machine.execNodeAgeExpiry s
  | .holdDownExpiry => Sys2Proof.Machine.execHoldDownExpiry s
  | .reservationExpiry => Sys2Proof.Machine.execReservationExpiry s
  | .epochTimerExpiry => Sys2Proof.Machine.execEpochTimerExpiry s
  | .settleTimerExpiry => Sys2Proof.Machine.execSettleTimerExpiry s
  | .translationEvent => Sys2Proof.Machine.execTranslationEvent s
  | .recordApplication => Sys2Proof.Machine.execRecordApplication s
  | .expansion engine => Sys2Proof.Machine.execExpansion engine s
  | .engineEndOrder engine => Sys2Proof.Machine.execEngineEndOrder engine s
  | .egressTake port => Sys2Proof.Machine.execEgressTake port s
  | .transmissionEnd port => Sys2Proof.Machine.execTransmissionEnd port s
  | .heldResponseEnters => Sys2Proof.Machine.execHeldResponseEnters s
  | .completingResultEnters engine => Sys2Proof.Machine.execCompletingResultEnters engine s
  | .noticeSend => Sys2Proof.Machine.execNoticeSend s
  | .unknownOrMalformedCommand => Sys2Proof.Machine.execUnknownOrMalformedCommand s

end Sys2Proof.Machine
end

