-- ==== Sys2Proof/Safety.lean ====
section
/-! DEFINITION. The terms claims are stated in: a command at the head of the intake queue, the state
with the head gone, what a store event changes, marks and reports, what an advertisement says, where a
passed frame goes, how a path is read from its labels, and the invariants of a sound state. -/

namespace Sys2Proof.Machine

/-! ## Commands at the head of the intake queue (R159, R160, section 9.1.4) -/

/-- The response hold is empty and the intake queue's head is a COMMAND frame whose payload is the
command `t`: its code, one ignored byte, its tag and its parameters; `rest` waits behind it. -/
def AtHead (s : State) (t : Taken) (rest : List IntakeFrame) : Prop :=
  s.spu.hold = none ∧ ∃ f : Frame, ∃ ignored : Byte,
    s.spu.intake = { port := t.port, frame := f } :: rest ∧ f.src = t.source ∧
      f.payload = t.code :: ignored :: (enc2 t.tag.toNat ++ t.params)

/-- The part with this intake queue and nothing else changed. -/
def State.withIntake (s : State) (rest : List IntakeFrame) : State :=
  { s with spu := { s.spu with intake := rest } }

/-- The sender of a command holds a right: any sender on NP, and on a line port the sender whose
lowest-indexed valid source entry holds it (R160, R166). -/
def Holds (s : State) (t : Taken) (r : Right) : Prop := s.senderHas t.port t.source r = true

/-- The row of spec/opcode_table.json that takes the commands of a code (R166). -/
def rowOfCode (code : Byte) : Option Instr :=
  match code.toNat with
  | 0x01 => some .readStatus
  | 0x02 => some .readConfig
  | 0x03 => some .setConfig
  | 0x04 => some .setState
  | 0x05 => some .restartWarm
  | 0x06 => some .readCounters
  | 0x07 => some .writeSourceEntry
  | 0x08 => some .readSourceEntry
  | 0x10 => some .queryNode
  | 0x11 => some .queryLink
  | 0x12 => some .listNodes
  | 0x13 => some .clearCrossings
  | 0x20 => some .submit
  | 0x21 => some .cancel
  | 0x22 => some .releaseWatch
  | 0x23 => some .queryWatch
  | 0x30 => some .writeDialectEntry
  | 0x31 => some .clearDialect
  | 0x32 => some .writeClass
  | 0x33 => some .readTable
  | 0x34 => some .commit
  | 0x35 => some .discardStaged
  | 0x40 => some .ackEvents
  | _ => none

/-- The part goes from `s` to `t` by one step of some row. -/
def Steps (s t : State) : Prop := ∃ c : Instr, exec c s = .next t

/-! ## The frame check (section 9.1.1) -/

/-- One bit enters the frame check's register: the register moves up by one place, and the polynomial
04C11DB7h is taken from it when the bit that leaves and the bit that enters differ. -/
def divideBit (r : Word32) (bit : Bool) : Word32 :=
  if r.msb = bit then r <<< 1 else (r <<< 1) ^^^ 0x04C11DB7#32

/-- The frame check of bytes: the register starts at FFFFFFFFh, each byte enters most significant bit first,
and the remainder is complemented. -/
def dividedBytes (bs : List Byte) : Word32 :=
  ~~~((bs.flatMap (fun b => (List.range 8).map b.getMsbD)).foldl divideBit 0xFFFFFFFF#32)

/-! ## Passed frames (R155, R157) -/

/-- A frame that arrives on port `p` with tag `tag` and is passed would enter port `q`, to leave it with
tag `out`. -/
def PassesTo (s : State) (p : Port) (tag : Option Byte) (q : Port) (out : Option Byte) : Prop :=
  (∃ i : Fin 8, p = .lp i ∧ q = .np ∧ out = some (BitVec.ofNat 8 i.val)) ∨
  (∃ (b : Byte) (i : Fin 8), p = .np ∧ tag = some b ∧ q = .lp i ∧ out = none ∧
    (b.toNat = i.val ∨ (b = 0xFF ∧ s.enabled (.lp i) = true)))

/-- From `s` to `t` a frame without a length error has arrived on `p` and was passed: `p` counts it, each
port it would enter takes it or counts it, and every other port stands (R154, R156, R157). -/
def Passed (s t : State) (p : Port) (tag : Option Byte) (f : Frame) : Prop :=
  t.port p = { s.port p with counters := { (s.port p).counters with
    framesReceived := min ((s.port p).counters.framesReceived + 1) 4294967295
    badCheck := if f.goodCheck then (s.port p).counters.badCheck
      else min ((s.port p).counters.badCheck + 1) 4294967295 } } ∧
  ∀ q, q ≠ p →
    ((∀ out, ¬PassesTo s p tag q out) → t.port q = s.port q) ∧
    ∀ out, PassesTo s p tag q out →
      (s.enabled q = true → (s.port q).transit.length < 64 →
        t.port q = { s.port q with transit := (s.port q).transit ++ [{ tag := out, frame := f }] }) ∧
      (s.enabled q = true → 64 ≤ (s.port q).transit.length →
        t.port q = { s.port q with counters := { (s.port q).counters with
          transitDropped := min ((s.port q).counters.transitDropped + 1) 4294967295 } }) ∧
      (s.enabled q = false →
        t.port q = { s.port q with counters := { (s.port q).counters with
          transitToDisabled := min ((s.port q).counters.transitToDisabled + 1) 4294967295 } })

/-! ## Store events (R12 to R23) -/

/-- Between the tables before an event and those after it, the report names a change of R21. The two
marks are TWO_WAY before and after. -/
def Changed (twoWay twoWay' : Bool) (before after : List NodeEntry) (r : Report) : Prop :=
  match r.element, r.kind with
  | .node id, .live => liveNode before id = false ∧ liveNode after id = true
  | .node id, .withdrawn => liveNode before id = true ∧ ∃ n, findNode after id = some n ∧ n.isLive = false
  | .node id, .freed => findNode before id ≠ none ∧ findNode after id = none
  | .node id, .transitQ =>
    ∃ m n, findNode before id = some m ∧ findNode after id = some n ∧ m.transitQ ≠ n.transitQ
  | .node id, .regens =>
    ∃ m n, findNode before id = some m ∧ findNode after id = some n ∧ m.regens ≠ n.regens
  | .link ref, .created => findLink before ref = none ∧ findLink after ref ≠ none
  | .link ref, .freed => findLink before ref ≠ none ∧ findLink after ref = none
  | .link ref, .cost => ∃ k l, findLink before ref = some k ∧ findLink after ref = some l ∧ k.cost ≠ l.cost
  | .link ref, .q => ∃ k l, findLink before ref = some k ∧ findLink after ref = some l ∧ k.q ≠ l.q
  | .link ref, .occupancy =>
    ∃ k l, findLink before ref = some k ∧ findLink after ref = some l ∧ k.occupied ≠ l.occupied
  | .link ref, .admin => ∃ k l, findLink before ref = some k ∧ findLink after ref = some l ∧ k.admin ≠ l.admin
  | .link ref, .endpoints =>
    ∃ k l, findLink before ref = some k ∧ findLink after ref = some l ∧
      (k.remote ≠ l.remote ∨ k.remoteLid ≠ l.remoteLid)
  | .link ref, .srlg => ∃ k l, findLink before ref = some k ∧ findLink after ref = some l ∧ k.srlg ≠ l.srlg
  | .link ref, .condition =>
    ∃ l, findLink after ref = some l ∧
      l.cond.condition ≠ ((findLink before ref).map (·.cond.condition)).getD .normal
  | .link ref, .usability =>
    ∃ m n k l, findNode before ref.origin = some m ∧ findNode after ref.origin = some n ∧
      findLid m.links ref.lid = some k ∧ findLid n.links ref.lid = some l ∧
      usable twoWay before m k ≠ usable twoWay' after n l
  | _, _ => False

/-- From `x` to `y` the elements of a set were marked in an engine: nothing in an IDLE one; otherwise each
is in the touched set once, or the set is full without it and the overflow mark is set (R22). -/
def Marked (x y : Engine) (touched : Element → Prop) : Prop :=
  (x.mode = .idle → y = x) ∧
  (x.mode ≠ .idle →
    y = { x with touched := y.touched, overflow := y.overflow } ∧
    (∀ el, el ∈ x.touched → el ∈ y.touched) ∧ (∀ el, el ∈ y.touched → el ∈ x.touched ∨ touched el) ∧
    (∀ el, touched el → el ∈ y.touched ∨ y.overflow = true) ∧
    (x.touched.Nodup → y.touched.Nodup) ∧ (x.touched.length ≤ 512 → y.touched.length ≤ 512) ∧
    (y.overflow = true ↔ x.overflow = true ∨ ∃ el, touched el ∧ el ∉ y.touched) ∧
    (∀ el, touched el → el ∉ y.touched → 512 ≤ y.touched.length))

/-- The values of a list, each once, in the order of their first places. -/
def firsts {α : Type} [DecidableEq α] (xs : List α) : List α :=
  xs.foldl (fun acc x => if x ∈ acc then acc else acc ++ [x]) []

/-- From `x` to `y` the elements of a list entered an engine's touched set one after another, each once, while
it held fewer than 512 (R22). -/
def EnteredInOrder (x y : Engine) (els : List Element) : Prop :=
  x.mode ≠ .idle → ∀ el, el ∈ y.touched ↔ el ∈ x.touched ∨
    el ∈ ((firsts els).filter (fun a => decide (a ∉ x.touched))).take (512 - x.touched.length)

/-- From `s` to `u` the store made one event with these reports, up to the watch list's batch: the tables,
the raises and the engines' marks alone have changed. The reports are the changes of R21, with those that
`steps` names: changes between two items of one record (R13, R23). The engines are marked in the reports' order
(R5). -/
def StoreEventBy (steps : Report → Prop) (s u : State) (rs : List Report) : Prop :=
  u = { s with tst := u.tst, evu := u.evu, engA := u.engA, engB := u.engB } ∧
  (∀ r, r ∈ rs ↔ Changed s.cfg.twoWay s.cfg.twoWay s.tst.nodes u.tst.nodes r ∨ steps r) ∧
  ∀ e, Marked (s.engine e) (u.engine e) (fun el => ∃ r ∈ rs, r.element = el) ∧
    EnteredInOrder (s.engine e) (u.engine e) (rs.map (·.element))

/-- A store event whose reports are the changes of R21 and no other. -/
def StoreEvent (s u : State) (rs : List Report) : Prop := StoreEventBy (fun _ => False) s u rs

/-- The part with the record that waited at the store gone. -/
def State.withoutRecord (s : State) : State := { s with atr := { s.atr with handed := none } }

/-- A link item that is not invalid under R14. -/
def goodItem (origin : NodeId) (i : LinkItem) : Bool :=
  i.lid != 0#16 && i.remote != 0x00000000#32 && i.remote != 0xFFFFFFFF#32 && i.remote != origin

/-- The valid link items of a record (R14). -/
def FullRecord.goodItems (x : FullRecord) : List LinkItem := x.items.filter (goodItem x.origin)

/-- The condition fields that a local link id's first evaluation starts from: the stored link's, or those of
a new link (R13, R50). -/
def condBefore (stored : List Link) (lid : Word16) : CondFields :=
  match findLid stored lid with
  | some l => l.cond
  | none => { condition := .normal, count := 0, below := false, crossed := false }

/-- The condition fields after the monitor has evaluated these items, one after another (R13, R51). -/
def condAfter (cfg : Settings) (c : CondFields) (items : List LinkItem) : CondFields :=
  items.foldl (fun f i => (evaluate cfg f i.q).1) c

/-- The link that an applied item makes, with these condition fields (R13). -/
def linkOfItem (i : LinkItem) (cond : CondFields) : Link where
  lid := i.lid
  remote := i.remote
  remoteLid := i.remoteLid
  cost := i.cost.getD 1
  q := i.q
  occupied := i.occupied.getD 0#320
  srlg := i.srlg.getD []
  admin := i.admin.getD .up
  cond := cond

/-- The link of a local id once these items were applied: the fields of the last item that names it, and the
conditions of every evaluation (R12: the later item's values stand; R13). -/
def linkAfter (cfg : Settings) (stored : List Link) (done : List LinkItem) (lid : Word16) : Option Link :=
  match (done.filter (fun i => i.lid == lid)).getLast? with
  | none => findLid stored lid
  | some i =>
    some (linkOfItem i (condAfter cfg (condBefore stored lid) (done.filter (fun i => i.lid == lid))))

/-- The raise of an applied item, after the items `done`: its link's crossing, where CROSS_NOTICE asks for
it (R56). -/
def raisesOfItem (cfg : Settings) (origin : NodeId) (stored : List Link) (done : List LinkItem)
    (i : LinkItem) : List Raise :=
  let was := condAfter cfg (condBefore stored i.lid) (done.filter (fun k => k.lid == i.lid))
  if (evaluate cfg was i.q).2 = false then []
  else if (evaluate cfg was i.q).1.condition = .degraded then
    (if cfg.crossNotice = .rising then [] else [⟨.linkDegraded, .link ⟨origin, i.lid⟩, .none⟩])
  else if cfg.crossNotice = .falling then [] else [⟨.linkRecovered, .link ⟨origin, i.lid⟩, .none⟩]

/-- The crossings of the items applied, in record order (R12, R56). -/
def crossingsOfItems (cfg : Settings) (origin : NodeId) (stored : List Link) :
    List LinkItem → List LinkItem → List Raise
  | _, [] => []
  | done, i :: rest =>
    raisesOfItem cfg origin stored done i ++ crossingsOfItems cfg origin stored (done ++ [i]) rest

/-- The local link ids that valid items name and the node's list does not hold, in the order of their first
items (R12). -/
def FullRecord.newLids (x : FullRecord) (stored : List Link) : List Word16 :=
  firsts ((x.goodItems.map (·.lid)).filter (fun lid => (findLid stored lid).isNone))

/-- The number of the node's links that the record's valid items name (step 1 of R12). -/
def FullRecord.kept (x : FullRecord) (stored : List Link) : Nat :=
  (stored.filter (fun l => x.goodItems.any (fun i => i.lid == l.lid))).length

/-- The links the record may create, beside those kept and the `others` of all other nodes (R3, R15). -/
def FullRecord.room (x : FullRecord) (stored : List Link) (others : Nat) : Nat :=
  min (32 - x.kept stored) (2048 - (others + x.kept stored))

/-- The local link ids the record creates (R12). -/
def FullRecord.createdLids (x : FullRecord) (stored : List Link) (others : Nat) : List Word16 :=
  (x.newLids stored).take (x.room stored others)

/-- The valid items that are dropped for want of room (R15). -/
def FullRecord.droppedItems (x : FullRecord) (stored : List Link) (others : Nat) : List LinkItem :=
  x.goodItems.filter (fun i => decide (i.lid ∈ (x.newLids stored).drop (x.room stored others)))

/-- The valid items that are applied, in record order (R12, R15). -/
def FullRecord.madeItems (x : FullRecord) (stored : List Link) (others : Nat) : List LinkItem :=
  x.goodItems.filter (fun i => !decide (i.lid ∈ (x.newLids stored).drop (x.room stored others)))

/-- The record made the node entry `m`, with this index, from a node whose list was `stored`, and took the
link counters from `c` to `c'` (R6, R8, R9, R12 to R15). Each link of `m` is that of its applied items, the
later item's values standing where two items name it. -/
def RecordMade (cfg : Settings) (x : FullRecord) (stored : List Link) (others index : Nat)
    (m : NodeEntry) (c c' : StoreCounters) : Prop :=
  (m.index = index ∧ m.id = x.origin ∧ m.life = .live x.lifetime ∧ m.dialect = x.dialect ∧ m.seq = x.seq ∧
    m.regens = x.regens.getD 0 ∧ m.transitQ = x.transitQ) ∧
  (m.incomplete = true ↔ x.incomplete = true ∨ x.goodItems ≠ x.items ∨ x.droppedItems stored others ≠ []) ∧
  m.links.Pairwise (fun k l => k.lid.toNat < l.lid.toNat) ∧
  (∀ l ∈ m.links, ∃ i ∈ x.madeItems stored others, i.lid = l.lid) ∧
  (∀ i ∈ x.madeItems stored others,
    findLid m.links i.lid = linkAfter cfg stored (x.madeItems stored others) i.lid) ∧
  m.links.length = x.kept stored + (x.createdLids stored others).length ∧
  c'.linksCreated = (if x.createdLids stored others = [] then c.linksCreated
    else min (c.linksCreated + (x.createdLids stored others).length) 4294967295) ∧
  c'.linksFreed = min (c.linksFreed + (stored.length - x.kept stored)) 4294967295 ∧
  c'.linksDropped = (if x.droppedItems stored others = [] then c.linksDropped
    else min (c.linksDropped + (x.droppedItems stored others).length) 4294967295) ∧
  c'.itemsInvalid = min (c.itemsInvalid + (x.items.length - x.goodItems.length)) 4294967295

/-- The raises of link set replacement: each applied item's crossing in item order, then TABLE_FULL once
when an item was dropped (R15, R56). -/
def raisesOfItems (cfg : Settings) (x : FullRecord) (stored : List Link) (others : Nat) : List Raise :=
  crossingsOfItems cfg x.origin stored [] (x.madeItems stored others) ++
    if x.droppedItems stored others = [] then [] else [⟨.tableFull, .node x.origin, .links⟩]

/-- A field of a link, or its condition, differs as a report kind of R21 names it. -/
def FieldChanged (kind : ReportKind) (k l : Link) : Prop :=
  match kind with
  | .cost => k.cost ≠ l.cost
  | .q => k.q ≠ l.q
  | .occupancy => k.occupied ≠ l.occupied
  | .admin => k.admin ≠ l.admin
  | .endpoints => k.remote ≠ l.remote ∨ k.remoteLid ≠ l.remoteLid
  | .srlg => k.srlg ≠ l.srlg
  | .condition => k.cond.condition ≠ l.cond.condition
  | .created | .freed | .usability | .live | .withdrawn | .transitQ | .regens => False

/-- The report names a change that one applied item of the record made to its link, seen from the link as
the items before it left it (R13; item 3 of R23). For an id that one item alone names, this is the change of
the whole event. -/
def ItemChanged (cfg : Settings) (x : FullRecord) (stored : List Link) (others : Nat) (r : Report) : Prop :=
  ∃ (before : List LinkItem) (i : LinkItem) (after : List LinkItem) (k l : Link),
    x.madeItems stored others = before ++ i :: after ∧ r.element = .link ⟨x.origin, i.lid⟩ ∧
    linkAfter cfg stored before i.lid = some k ∧ linkAfter cfg stored (before ++ [i]) i.lid = some l ∧
    FieldChanged r.kind k l

/-! ## The order of an event's reports (R23) -/

/-- The kinds of the reports of one element: a node's as item 1 of R23 lists them, a link's as R21 does. -/
def kindsInOrder : List ReportKind :=
  [.live, .transitQ, .regens, .withdrawn, .created, .freed, .cost, .q, .occupancy, .admin, .endpoints, .srlg,
    .condition, .usability]

/-- A report's kind stands before another's. -/
def KindBefore (a b : Report) : Prop := kindsInOrder.idxOf a.kind < kindsInOrder.idxOf b.kind

/-- Two reports of links, in ascending origin node id and then ascending local link id. -/
def RefBefore (a b : Report) : Prop :=
  ∃ j k, a.element = .link j ∧ b.element = .link k ∧
    (j.origin.toNat < k.origin.toNat ∨ j.origin = k.origin ∧ j.lid.toNat < k.lid.toNat)

/-- USABILITY reports in the order of item 4 of R23. -/
def UsabilityOrder (rs : List Report) : Prop := (∀ r ∈ rs, r.kind = .usability) ∧ rs.Pairwise RefBefore

/-- The reports of one applied item, after the items `done`: CREATED, with CONDITION for a link that starts
DEGRADED, or the changes of its link's fields, in R21's order, CONDITION last (item 3 of R23). -/
def ItemReports (cfg : Settings) (origin : NodeId) (stored : List Link) (done : List LinkItem) (i : LinkItem)
    (rs : List Report) : Prop :=
  rs.Pairwise KindBefore ∧
  ∀ r, r ∈ rs ↔ r.element = .link ⟨origin, i.lid⟩ ∧
    ∃ l, linkAfter cfg stored (done ++ [i]) i.lid = some l ∧
      match linkAfter cfg stored done i.lid with
      | none => r.kind = .created ∨ r.kind = .condition ∧ l.cond.condition ≠ .normal
      | some k => FieldChanged r.kind k l

/-- The reports of the items applied, in record order (item 3 of R23). -/
def ItemsReports (cfg : Settings) (origin : NodeId) (stored : List Link) :
    List LinkItem → List LinkItem → List Report → Prop
  | _, [], rs => rs = []
  | done, i :: rest, rs => ∃ a b, rs = a ++ b ∧ ItemReports cfg origin stored done i a ∧
      ItemsReports cfg origin stored (done ++ [i]) rest b

/-- The reports of a FULL record's application stand in R23's order: the node's, the FREED ones of step 1 of
R12, those of the items, USABILITY. -/
def RecordOrder (cfg : Settings) (x : FullRecord) (stored : List Link) (others : Nat) (rs : List Report) : Prop :=
  ∃ node freed items us, rs = node ++ freed ++ items ++ us ∧
    ((∀ r ∈ node, r.element = .node x.origin) ∧ node.Pairwise KindBefore) ∧
    ((∀ r ∈ freed, r.kind = .freed) ∧ freed.Pairwise RefBefore) ∧
    ItemsReports cfg x.origin stored [] (x.madeItems stored others) items ∧ UsabilityOrder us

/-- The reports of one node at an age tick: WITHDRAWN, or its FREED with those of its links (R23). That the
node's stands before its links' is the model's order, log entry 42. -/
def tickReports (n : NodeEntry) : List Report :=
  match n.life with
  | .live a => if a ≤ 1 then [⟨.node n.id, .withdrawn⟩] else []
  | .withdrawn h =>
    if h ≤ 1 then ⟨.node n.id, .freed⟩ :: n.links.map (fun l => ⟨.link ⟨n.id, l.lid⟩, .freed⟩) else []

/-! ## Translation (R34 to R47) -/

/-- The bytes of an attribute: code, value length, value (section 9.1.3). -/
def Attribute.bytes (a : Attribute) : List Byte := a.code :: BitVec.ofNat 8 a.value.length :: a.value

/-- The bytes of a link: local link id, remote node id, attribute count, attributes (section 9.1.3). -/
def AdvLink.bytes (l : AdvLink) : List Byte :=
  enc2 l.lid.toNat ++ enc4 l.remote.toNat ++ encByte l.attrs.length ++ l.attrs.flatMap Attribute.bytes

/-- The bytes of an advertisement, in the order of section 9.1.3. -/
def Advertisement.bytes (a : Advertisement) : List Byte :=
  encByte a.dialect ++ enc4 a.origin.toNat ++ enc4 a.seq.toNat
    ++ encByte a.nodeAttrs.length ++ a.nodeAttrs.flatMap Attribute.bytes
    ++ encByte a.links.length ++ a.links.flatMap AdvLink.bytes

/-- The dialect tag, every count and every length fits its byte (section 9.1.3). -/
def Advertisement.Fits (a : Advertisement) : Prop :=
  a.dialect < 256 ∧ a.nodeAttrs.length < 256 ∧ (∀ x ∈ a.nodeAttrs, x.value.length < 256) ∧
    a.links.length < 256 ∧ ∀ l ∈ a.links, l.attrs.length < 256 ∧ ∀ x ∈ l.attrs, x.value.length < 256

/-- The entries of a dialect that the bank knows: a tag in 1..8 with a valid entry (R33). -/
def KnownDialect (b : Bank) (tag : Nat) (entries : List DialectEntry) : Prop :=
  ∃ k : Fin 8, tag = k.val + 1 ∧ entries = b.dialects[k].toList ∧ ∃ e ∈ entries, e.valid = true

/-- The target belongs to the node section (R32). -/
def Target.ofNode (t : Target) : Bool := decide (t ∈ [Target.nodeLifetime, .nodeRegens, .nodeTransitQ])

/-- The lengths that suit a target's kind (R38). -/
def Target.suits (t : Target) (n : Nat) : Bool :=
  if t ∈ [Target.linkOccupancy, .linkSrlg] then n % 4 = 0 else n ∈ [1, 2, 4]

/-- The result range of a scalar target (R32). -/
def Target.low (t : Target) : Nat := if t = .linkCost then 1 else 0

/-- The result range of a scalar target (R32). -/
def Target.high (t : Target) : Nat :=
  if t = .nodeLifetime then 255 else if t = .nodeRegens then 15
  else if t = .nodeTransitQ ∨ t = .linkQ then 400 else 65535

/-- The converted value of a scalar, `floor((raw × mul + h) / 2^shift) + offset` (R39). -/
def DialectEntry.converted (e : DialectEntry) (value : List Byte) : Int :=
  (decodeNat value * e.mul + (if e.shift = 0 then 0 else 2 ^ (e.shift - 1))) / 2 ^ e.shift + e.offset

/-- The converted value lies outside its target's range (R40). -/
def DialectEntry.outside (e : DialectEntry) (value : List Byte) : Bool :=
  decide (e.converted value < e.target.low ∨ e.target.high < e.converted value)

/-- The converted value clamped into its target's range (R40). -/
def DialectEntry.scalar (e : DialectEntry) (value : List Byte) : Nat :=
  (max (e.target.low : Int) (min (e.target.high : Int) (e.converted value))).toNat

/-- The start of an occupancy pair, `floor(start × mul / 2^shift) + offset` (R41). -/
def DialectEntry.pairStart (e : DialectEntry) (value : List Byte) (j : Nat) : Int :=
  (fieldNat value (4 * j) 2 * e.mul : Int) / 2 ^ e.shift + e.offset

/-- The end of an occupancy pair, `ceil((start + width) × mul / 2^shift) + offset` (R41). -/
def DialectEntry.pairEnd (e : DialectEntry) (value : List Byte) (j : Nat) : Int :=
  -(-((fieldNat value (4 * j) 2 + fieldNat value (4 * j + 2) 2) * e.mul : Int) / 2 ^ e.shift) + e.offset

/-- A pair of an occupancy list with a raw width above 0 (R41). -/
def isPair (value : List Byte) (j : Nat) : Prop := 4 * j < value.length ∧ fieldNat value (4 * j + 2) 2 ≠ 0

/-- Some pair's slots fell outside the spectrum (R41). -/
def DialectEntry.spills (e : DialectEntry) (value : List Byte) : Bool :=
  (List.range (value.length / 4)).any (fun j =>
    fieldNat value (4 * j + 2) 2 != 0 && (decide (e.pairStart value j < 0) || decide (320 < e.pairEnd value j)))

/-- The distinct ids of an SRLG list, in order (R42). -/
def srlgIds (value : List Byte) : List Word32 :=
  firsts ((List.range (value.length / 4)).map (fun j => field32 value (4 * j)))

/-- The valid entry that maps an attribute of a section, with the value, where its length suits (R37,
R38). -/
def Attribute.mapped (entries : List DialectEntry) (a : Attribute) : Option DialectEntry :=
  entries.find? (fun e => e.valid && e.code == a.code)

/-- An attribute of a section that counts as unmapped: no valid entry of the dialect has its code, or the
entry's target belongs to the other section (R37). -/
def Attribute.isUnmapped (entries : List DialectEntry) (nodeSection : Bool) (a : Attribute) : Bool :=
  match a.mapped entries with
  | none => true
  | some e => e.target.ofNode != nodeSection

/-- A mapped attribute whose value length does not suit its target (R38). -/
def Attribute.isBadLength (entries : List DialectEntry) (nodeSection : Bool) (a : Attribute) : Bool :=
  match a.mapped entries with
  | none => false
  | some e => e.target.ofNode == nodeSection && !e.target.suits a.value.length

/-- A mapped attribute of a suiting length whose value was clamped (R40 to R43). -/
def Attribute.isClamped (entries : List DialectEntry) (nodeSection : Bool) (a : Attribute) : Bool :=
  match a.mapped entries with
  | none => false
  | some e =>
    e.target.ofNode == nodeSection && e.target.suits a.value.length &&
      (match e.target with
       | .linkOccupancy => e.spills a.value
       | .linkSrlg => decide (4 < (srlgIds a.value).length)
       | .linkAdmin => false
       | .nodeLifetime | .nodeRegens | .nodeTransitQ | .linkCost | .linkQ | .linkRemoteId => e.outside a.value)

/-- The last attribute of a section that sets a target, with the entry that maps it; none when no attribute
does (R37). -/
def lastSet (entries : List DialectEntry) (attrs : List Attribute) (t : Target) :
    Option (DialectEntry × List Byte) :=
  (attrs.filterMap (fun a => (a.mapped entries).bind (fun e =>
    if e.target = t ∧ t.suits a.value.length = true then some (e, a.value) else none))).getLast?

/-- The value of a scalar target of a section; none when no attribute sets it (R37, R39, R40). -/
def scalarSet (entries : List DialectEntry) (attrs : List Attribute) (t : Target) : Option Nat :=
  (lastSet entries attrs t).map (fun x => x.1.scalar x.2)

/-- The link item of a link of a copy (R41 to R43, R46). -/
def ItemOf (entries : List DialectEntry) (l : AdvLink) (i : LinkItem) : Prop :=
  i.lid = l.lid ∧ i.remote = l.remote ∧
  i.remoteLid = ((scalarSet entries l.attrs .linkRemoteId).filter (fun v => v != 0)).map (BitVec.ofNat 16) ∧
  i.cost = scalarSet entries l.attrs .linkCost ∧ i.q = scalarSet entries l.attrs .linkQ ∧
  (lastSet entries l.attrs .linkOccupancy = none → i.occupied = none) ∧
  (∀ e value, lastSet entries l.attrs .linkOccupancy = some (e, value) →
    ∃ slots : SlotSet, i.occupied = some slots ∧ ∀ k, slots.getLsbD k = true ↔
      k < 320 ∧ ∃ j, isPair value j ∧ e.pairStart value j ≤ k ∧ (k : Int) < e.pairEnd value j) ∧
  i.srlg = (lastSet entries l.attrs .linkSrlg).map (fun x => (srlgIds x.2).take 4) ∧
  i.admin = (lastSet entries l.attrs .linkAdmin).map (fun x =>
    if decodeNat x.2 ≠ 0 ↔ x.1.offset = 0 then Admin.up else Admin.down)

/-- The lifetime of a copy's record (R44). -/
def lifetimeOf (defaultLifetime : Nat) (entries : List DialectEntry) (a : Advertisement) : Nat :=
  (scalarSet entries a.nodeAttrs .nodeLifetime).getD defaultLifetime

/-- The FULL record of a copy (R44 to R46). -/
def FullOf (defaultLifetime : Nat) (entries : List DialectEntry) (a : Advertisement) (r : FullRecord) : Prop :=
  r.origin = a.origin ∧ r.dialect = a.dialect ∧ r.seq = a.seq ∧
  r.lifetime = lifetimeOf defaultLifetime entries a ∧
  r.regens = scalarSet entries a.nodeAttrs .nodeRegens ∧
  r.transitQ = scalarSet entries a.nodeAttrs .nodeTransitQ ∧
  (r.incomplete = true ↔ 32 < a.links.length) ∧
  r.items.length = min 32 a.links.length ∧
  ∀ (k : Nat) (l : AdvLink) (i : LinkItem), a.links[k]? = some l → r.items[k]? = some i → ItemOf entries l i

/-! ## The watch list (R119, R127) -/

/-- A report of the batch names a link or a node of the entry's paths (R127). -/
def Concerned (rs : List Report) (w : WatchEntry) : Prop :=
  ∃ r ∈ rs, r.element = .node w.desc.source ∨ r.element = .node w.desc.dest ∨
    ∃ h ∈ w.paths.flatMap pathHops, r.element = .link h.ref ∨ r.element = .node h.reached

/-- The elements an entry's claims are on: its links and its regeneration nodes (R123). -/
def ClaimedElement (w : WatchEntry) (el : Element) : Prop :=
  (∃ c ∈ w.slotClaims, el = .link c.ref) ∨ ∃ c ∈ w.regenClaims, el = .node c.node

/-- The overlay without the claims of one watch id. -/
def Overlay.without (o : Overlay) (id : Nat) : Overlay :=
  { slots := o.slots.filter (fun c => c.owner != id), regens := o.regens.filter (fun c => c.owner != id) }

/-- The part with these watch entries. -/
def State.withEntries (s : State) (entries : List WatchEntry) : State :=
  { s with pwl := { s.pwl with entries := entries } }

/-- The part with this overlay. -/
def State.withOverlay (s : State) (o : Overlay) : State := { s with pwl := { s.pwl with overlay := o } }

/-- The request that an entry raises for its reroute (R102). -/
def WatchEntry.request (w : WatchEntry) : Descriptor :=
  { w.desc with requester := .watchList, ingress := none, tag := BitVec.ofNat 16 w.id, hold := true
                retries := w.desc.retryLimit }

/-! ## A batch over the entries, one after another (R127 to R131) -/

/-- From `s` to `t` the watch list submits the request of the entry of this id (R130, R131): refused in
STANDBY or by a full queue, with submit-pending set; accepted otherwise, with the mark clear. -/
def Submits (s t : State) (id : Nat) : Prop :=
  ∃ pre post w, s.pwl.entries = pre ++ w :: post ∧ w.id = id ∧ (∀ x ∈ pre ++ post, x.id ≠ id) ∧
    (s.stc.part = .standby ∨ 64 ≤ s.rq.queue.length →
      t = s.withEntries (pre ++ { w with submitPending := true } :: post)) ∧
    (s.stc.part ≠ .standby → s.rq.queue.length < 64 →
      t = (s.withEntries (pre ++ { w with submitPending := false } :: post)).accept w.request)

/-- From `s` to `t` the watch list submits the requests of these entries, one after another. -/
def SubmitsAll : List Nat → State → State → Prop
  | [], s, t => t = s
  | id :: rest, s, t => ∃ u, Submits s u id ∧ SubmitsAll rest u t

/-- From `s` to `t` the batch acts on the entry of this id: nothing on one that is neither RESERVED nor ACTIVE
or that it does not concern; the violation, with the claims of a RESERVED entry gone, or the confirmation,
otherwise (R125, R127, R129, R130). -/
def BatchActs (rs : List Report) (s t : State) (id : Nat) : Prop :=
  ∃ pre post w, s.pwl.entries = pre ++ w :: post ∧ w.id = id ∧ (∀ x ∈ pre ++ post, x.id ≠ id) ∧
    ((w.state ≠ .reserved ∧ w.state ≠ .active) ∨ ¬Concerned rs w → t = s) ∧
    (w.state = .reserved ∨ w.state = .active → Concerned rs w →
      ∀ left, left = (if w.state = .reserved then s.pwl.overlay.without id else s.pwl.overlay) →
      (∀ r, violationCheck s w = some r →
        (w.desc.action = .notice →
          t = ((s.withEntries (pre ++ { w with reason := some r, state := .violated } :: post)).withOverlay
            left).raise .watchViolated (.watch id w.tag) .none) ∧
        (w.desc.action = .recompute →
          Submits ((s.withEntries
            (pre ++ { w with reason := some r, state := .rerouting } :: post)).withOverlay left) t id)) ∧
      (violationCheck s w = none → ∀ confirmed : Prop,
        confirmed = (w.state = .reserved ∧
          (∃ r ∈ rs, r.kind = .occupancy ∧ ∃ h ∈ w.paths.flatMap pathHops, r.element = .link h.ref) ∧
          ∀ c ∈ w.slotClaims, ∃ l, findLink s.tst.nodes c.ref = some l ∧ c.slots &&& l.occupied = c.slots) →
        (confirmed → t = (s.withEntries
          (pre ++ { w with state := .active, rerouteLeft := w.desc.rerouteLimit } :: post)).withOverlay
            (s.pwl.overlay.without id)) ∧
        (¬confirmed → t = s)))

/-- From `s` to `t` the batch acts on these entries, one after another. -/
def BatchActsAll (rs : List Report) : List Nat → State → State → Prop
  | [], s, t => t = s
  | id :: rest, s, t => ∃ u, BatchActs rs s u id ∧ BatchActsAll rs rest u t

/-! ## Results (R107 to R111) -/

/-- The engine is IDLE and its result has entered the port's local egress queue as a RESULT frame to the
requester (R111). -/
def State.delivered (s : State) (e : EngineId) (a : Address) (p : Port) (r : ResultRecord) : State :=
  (s.setEngine e Engine.idle).setPort p { s.port p with localQueue := (s.port p).localQueue ++
    [outgoing p (originated s.cfg.engineAddress a 0x52 (encResult r))] }

/-- From `v` to `t` the watch list takes the result, of this primary status, of the reroute request that the
entry of this id raised: WATCH_REROUTED, submit-pending without a failure, or a failure counted against the
reroute limit (R132 to R134). An entry that leaves RESERVED leaves its claims (R120). -/
def TakesReroute (v t : State) (id : Nat) (st : Status) : Prop :=
  ((∀ w ∈ v.pwl.entries, w.id ≠ id) → t = v) ∧
  ∀ (pre post : List WatchEntry) (w : WatchEntry), v.pwl.entries = pre ++ w :: post → w.id = id →
    (∀ x ∈ pre ++ post, x.id ≠ id) →
    (st = .found → t = v.raise .watchRerouted (.watch id w.tag) .none) ∧
    (st = .aborted → t = v.withEntries (pre ++ { w with submitPending := true } :: post)) ∧
    (st ∈ [.noPath, .exhausted, .unknownEndpoint, .badClass, .stale] →
      (w.desc.rerouteLimit = 0 → t = v.withEntries (pre ++ { w with submitPending := true } :: post)) ∧
      (w.desc.rerouteLimit ≠ 0 → w.rerouteLeft ≤ 1 →
        t = ((v.withEntries (pre ++ { w with rerouteLeft := 0, state := .stalled } :: post)).withOverlay
          (if w.state = .reserved then v.pwl.overlay.without id else v.pwl.overlay)).raise .watchStalled
            (.watch id w.tag) .none) ∧
      (w.desc.rerouteLimit ≠ 0 → 2 ≤ w.rerouteLeft →
        t = v.withEntries
          (pre ++ { w with rerouteLeft := w.rerouteLeft - 1, submitPending := true } :: post)))

/-- A frame waits for a place on the port: the held response, or an engine's result in COMPLETING (R104,
R161, R162). -/
def State.Waited (s : State) (p : Port) : Prop :=
  (∃ h, s.spu.hold = some h ∧ h.port = p) ∨
    ∃ e d, (s.engine e).mode = .completing ∧ (s.engine e).request = some d ∧ d.ingress = some p

/-- From `s` to `t` the engine hands its finished result on (R111): the watch list takes it, and the engine
is IDLE; or a RESULT frame enters the ingress port's queue, and the engine is IDLE; or, where that queue is
full or other frames wait for it, the engine is COMPLETING, with the request and the record kept and no
order to end; or, for a disabled port, the result is discarded and counted by the Request Queue and by the
port, and the engine is IDLE. Who goes first of those that wait is log entry 4, the counting log entry 6. -/
def Delivers (s t : State) (e : EngineId) (d : Descriptor) (r : ResultRecord) : Prop :=
  (d.requester = .watchList → TakesReroute (s.setEngine e Engine.idle) t d.tag.toNat r.primary) ∧
  ∀ a p, d.requester = .mgmt a → d.ingress = some p →
    (s.enabled p = true → (s.port p).localQueue.length < 16 → ¬s.Waited p → t = s.delivered e a p r) ∧
    (s.enabled p = true → 16 ≤ (s.port p).localQueue.length ∨ s.Waited p →
      t = s.setEngine e { s.engine e with
        mode := .completing, request := some d, endOrder := .none, result := some r }) ∧
    (s.enabled p = false →
      t = (State.setEngine { s with rq := { s.rq with counters := { s.rq.counters with
          resultsDiscarded := min (s.rq.counters.resultsDiscarded + 1) 4294967295 } } } e Engine.idle).setPort p
        { s.port p with counters := { (s.port p).counters with
          localDiscarded := min ((s.port p).counters.localDiscarded + 1) 4294967295 } })

/-- From `s` to `t` a completion with the paths found goes through the stale check, the hold and the retries
to its delivery (R107 to R109, R111): a result that is not stale is delivered, with the watch id or
HOLD_REFUSED that its hold was answered; one that is stale, or whose hold was answered CONFLICT, is
re-queued, or delivered STALE. -/
def Completes (s t : State) (e : EngineId) (d : Descriptor) (r : ResultRecord) (first : FoundPath)
    (second : Option FoundPath) : Prop :=
  ∀ stale conflict : Prop,
    stale = ((s.engine e).overflow = true ∨ ∃ el ∈ (s.engine e).touched, el = .node d.source ∨
      ∃ h ∈ first.hops ++ (second.map FoundPath.hops).getD [], el = .link h.ref ∨ el = .node h.reached) →
    conflict = (d.hold = true ∧
      ∃ v, s.offerHold e d first.held (second.map FoundPath.held) = (.conflict, v)) →
    (¬stale → d.hold = false → Delivers s t e d r) ∧
    (∀ id v, ¬stale → d.hold = true →
      s.offerHold e d first.held (second.map FoundPath.held) = (.held id, v) →
      Delivers v t e d { r with watchId := some id }) ∧
    (∀ v, ¬stale → d.hold = true → s.offerHold e d first.held (second.map FoundPath.held) = (.full, v) →
      Delivers v t e d { r with holdRefused := true }) ∧
    (stale ∨ conflict →
      (d.retryLimit ≠ 0 → d.retries = 0 →
        Delivers s t e d { r with primary := .stale, outcome := .failed }) ∧
      ((d.retryLimit = 0 ∨ d.retries ≠ 0) → 64 ≤ s.rq.queue.length →
        Delivers { s with rq := { s.rq with counters := { s.rq.counters with
          requeuesRefused := min (s.rq.counters.requeuesRefused + 1) 4294967295 } } } t e d
          { r with primary := .stale, outcome := .failed }) ∧
      ((d.retryLimit = 0 ∨ d.retries ≠ 0) → s.rq.queue.length < 64 →
        ∃ before after, s.rq.queue = before ++ after ∧ (∀ w ∈ before, d.priority < w.priority) ∧
          (∀ w, after.head? = some w → w.priority ≤ d.priority) ∧
          t = State.setEngine { s with rq :=
            { queue := before ++
                { d with retries := if d.retryLimit = 0 then d.retries else d.retries - 1 } :: after
              counters := { s.rq.counters with
                requeued := min (s.rq.counters.requeued + 1) 4294967295 } } } e Engine.idle))

/-- From `s` to `t` a request that was queued at the entry into STANDBY ends ABORTED (R116): a WATCH LIST
request leaves its entry with submit-pending set (R134), and a management source's result, FAILED with no
phase and no path, enters its ingress port's queue where it finds a place, or is discarded and counted. -/
def EndsAborted (s t : State) (d : Descriptor) : Prop :=
  (d.requester = .watchList →
    t = s.withEntries (s.pwl.entries.map (fun w =>
      if w.id = d.tag.toNat then { w with submitPending := true } else w))) ∧
  ∀ a, d.requester = .mgmt a →
    (d.ingress = none → t = s) ∧
    ∀ p, d.ingress = some p →
      (s.enabled p = true → (s.port p).localQueue.length + s.waiters p < 16 →
        t = s.setPort p { s.port p with localQueue := (s.port p).localQueue ++
          [outgoing p (originated s.cfg.engineAddress a 0x52 (encResult
            { tag := d.tag, outcome := .failed, primary := .aborted
              protection := if d.diversity = .none then .notRequested else .notAttempted
              truncated := false, provisional := s.stc.part == .settling, windowAdjusted := false
              holdRefused := false, watchId := none, primaryPhase := none, protectionPhase := none
              primaryPath := none, protectionPath := none }))] }) ∧
      (s.enabled p = false ∨ 16 ≤ (s.port p).localQueue.length + s.waiters p →
        t = ({ s with rq := { s.rq with counters := { s.rq.counters with
            resultsDiscarded := min (s.rq.counters.resultsDiscarded + 1) 4294967295 } } }).setPort p
          { s.port p with counters := { (s.port p).counters with
            localDiscarded := min ((s.port p).counters.localDiscarded + 1) 4294967295 } })

/-- From `s` to `t` these requests end ABORTED, one after another in queue order (R116). -/
def AllEndAborted : List Descriptor → State → State → Prop
  | [], s, t => t = s
  | d :: rest, s, t => ∃ u, EndsAborted s u d ∧ AllEndAborted rest u t

/-! ## The frontier (R77), paths (R91, R92) and dominance (R88) -/

/-- A label's key is smaller than another's: cost, hops and number, or hops, cost and number (R77). -/
def KeyBefore (o : Order) (x y : Label) : Prop :=
  match o with
  | .cost => x.cost < y.cost ∨ (x.cost = y.cost ∧ (x.hops < y.hops ∨ (x.hops = y.hops ∧ x.number < y.number)))
  | .hops => x.hops < y.hops ∨ (x.hops = y.hops ∧ (x.cost < y.cost ∨ (x.cost = y.cost ∧ x.number < y.number)))

/-- The predecessor chain of a label, the label first and the root last: each label's predecessor is the
label of the pool with that insertion number, and has one hop less (R75, R91). -/
def ChainOf (pool : List Label) (x : Label) (chain : List Label) : Prop :=
  chain.head? = some x ∧ chain.IsChain (fun l p => p ∈ pool ∧ l.pred = some p.number ∧ l.hops = p.hops + 1) ∧
    ∃ root, chain.getLast? = some root ∧ root.pred = none ∧ root.hops = 0

/-- The q value reported for a segment's noise: the greatest q of 0..400 with n(q) not below it, or 0 when
the noise is above n(0) (R66). -/
def ReportedQ (noise q : Nat) : Prop :=
  q ≤ 400 ∧ (noise ≤ noiseTerm q ∨ (q = 0 ∧ noiseTerm 0 < noise)) ∧
    ∀ r, q < r → r ≤ 400 → noiseTerm r < noise

/-- The segment that the labels of a group make: a hop for each, and the start, q and QCLAMP mark of the
last, its end label (R72, R91, R92). -/
def SegmentOf (width : Nat) (group : List Label) (g : FoundSegment) : Prop :=
  g.held.hops.map (fun h => (some h.ref, h.reached, h.regen)) =
    group.map (fun l => (l.via, l.node, l.regenerated)) ∧
  g.held.width = width ∧
  ∀ z, group.getLast? = some z →
    (z.starts ≠ 0#320 → z.starts.getLsbD g.held.start = true ∧
      ∀ k, k < g.held.start → z.starts.getLsbD k = false) ∧
    ReportedQ z.noise g.q ∧ (g.qclamp = true ↔ g.q = 0 ∨ g.q = 400)

/-- The path of a destination label whose chain past the root, in path order, is `labels`: it is divided at
the regeneration marks into groups, and each group makes one segment (R91, R92). -/
def PathOf (width : Nat) (dest : Label) (labels : List Label) (p : FoundPath) : Prop :=
  p.cost = dest.cost ∧ p.hopCount = dest.hops ∧
  ∃ groups : List (List Label), groups.flatten = labels ∧
    (∀ g ∈ groups, g ≠ [] ∧ ∀ l ∈ g.tail, l.regenerated = false) ∧
    (∀ g ∈ groups.tail, ∀ l, g.head? = some l → l.regenerated = true) ∧
    List.Forall₂ (SegmentOf width) groups p.segments

/-- A label dominates another (R88). -/
def Dominates (o : Order) (p q : Label) : Prop :=
  p.cost ≤ q.cost ∧ p.noise ≤ q.noise ∧ p.regens ≤ q.regens ∧
    (∀ k, q.starts.getLsbD k = true → p.starts.getLsbD k = true) ∧ (o = .hops → p.hops ≤ q.hops)

/-! ## Invariants -/

/-- The configuration items are in their ranges (section 10.5). -/
def ConfigSound (c : Settings) : Prop :=
  reservedId c.engineAddress = false ∧
  1 ≤ c.epochInterval ∧ c.epochInterval ≤ 255 ∧ c.ageDiv ≤ 255 ∧ c.settleTime ≤ 255 ∧
  1 ≤ c.defaultLifetime ∧ c.defaultLifetime ≤ 255 ∧ 1 ≤ c.holdDown ∧ c.holdDown ≤ 255 ∧
  c.defaultLinkQ ≤ 400 ∧ c.degradeLow ≤ c.degradeHigh ∧ c.degradeHigh ≤ 400 ∧
  c.filterDepth ∈ [1, 2, 4, 8] ∧ c.degradePenalty ≤ 65535 ∧
  1 ≤ c.expansionLimit ∧ c.expansionLimit ≤ 65535 ∧ 1 ≤ c.reserveHold ∧ c.reserveHold ≤ 255

/-- No dialect of a bank maps one attribute code by two valid entries (R141). -/
def CodesDistinct (b : Bank) : Prop :=
  ∀ (d : Fin 8) (i j : Fin 32), i ≠ j → b.dialects[d][i].valid = true → b.dialects[d][j].valid = true →
    b.dialects[d][i].code ≠ b.dialects[d][j].code

/-- Each queued notice's class is pending, the entry shows the class as it stands, and no class has
two entries (R179, R180). -/
def NoticesSound (u : EventUnit) : Prop :=
  (u.notices.map (·.cls)).Nodup ∧
    ∀ n ∈ u.notices, (u.get n.cls).pending = true ∧ n = u.entryOf n.cls

/-- The queues of the part hold no more than their capacities (R29, R103, R157, R159, R162). -/
def QueuesWithin (s : State) : Prop :=
  s.spu.intake.length ≤ 8 ∧ s.atr.queue.length ≤ 32 ∧ s.rq.queue.length ≤ 64 ∧
    ∀ p : Port, (s.port p).transit.length ≤ 64 ∧ (s.port p).localQueue.length ≤ 16

/-- The counter of a node entry's state is in 1..255 (R2). -/
def LifeSound : NodeLife → Prop
  | .live age => 1 ≤ age ∧ age ≤ 255
  | .withdrawn h => 1 ≤ h ∧ h ≤ 255

/-- The node table keeps its form: ascending table indices below 256, no id held twice, life counters
in range, and link lists of at most 32 links in ascending local link id (R1, R2, R4). -/
def TableSound (nodes : List NodeEntry) : Prop :=
  nodes.Pairwise (fun a b => a.index < b.index) ∧ (nodes.map (·.id)).Nodup ∧
    ∀ n ∈ nodes, n.index < 256 ∧ LifeSound n.life ∧ n.links.length ≤ 32 ∧
      n.links.Pairwise (fun a b => a.lid.toNat < b.lid.toNat)

/-- A q is 0..400, or ABSENT (section 1.1, section 1.3). -/
def QInRange (q : Option Nat) : Prop := ∀ v, q = some v → v ≤ 400

/-- At most 4 SRLG ids, no id twice (section 1.3). -/
def SrlgInRange (ids : List Word32) : Prop := ids.length ≤ 4 ∧ ids.Nodup

/-- A stored link of the node `origin` has its fields in the ranges of R3 and section 1.3, and its filter
count below FILTER_DEPTH (R50). -/
def LinkInRange (depth : Nat) (origin : NodeId) (l : Link) : Prop :=
  l.lid ≠ 0#16 ∧ reservedId l.remote = false ∧ l.remote ≠ origin ∧ l.remoteLid ≠ some 0#16 ∧
    1 ≤ l.cost ∧ l.cost ≤ 65535 ∧ QInRange l.q ∧ SrlgInRange l.srlg ∧ l.cond.count < depth

/-- A node entry in use has its fields in the ranges of section 1.1, and its links in theirs. -/
def NodeInRange (depth : Nat) (n : NodeEntry) : Prop :=
  reservedId n.id = false ∧ 1 ≤ n.dialect ∧ n.dialect ≤ 8 ∧ n.regens ≤ 15 ∧ QInRange n.transitQ ∧
    ∀ l ∈ n.links, LinkInRange depth n.id l

/-- The link table keeps its bounds: 2048 links in all, every field in its range (R3). -/
def LinkTableSound (depth : Nat) (nodes : List NodeEntry) : Prop :=
  (nodes.map (fun n => n.links.length)).sum ≤ 2048 ∧ ∀ n ∈ nodes, NodeInRange depth n

/-- The values a link item sets are converted and clamped into the ranges of section 1.3 (section 1.4). -/
def ItemInRange (i : LinkItem) : Prop :=
  i.remoteLid ≠ some 0#16 ∧ (∀ v, i.cost = some v → 1 ≤ v ∧ v ≤ 65535) ∧ QInRange i.q ∧
    ∀ ids, i.srlg = some ids → SrlgInRange ids

/-- A record handed over has its content in the ranges of section 1.4. -/
def RecordSound : UpdateRecord → Prop
  | .full r => r.lifetime ≤ 255 ∧ 1 ≤ r.dialect ∧ r.dialect ≤ 8 ∧ (∀ v, r.regens = some v → v ≤ 15) ∧
      QInRange r.transitQ ∧ r.items.length ≤ 32 ∧ ∀ i ∈ r.items, ItemInRange i
  | .refresh _ _ lifetime => lifetime ≤ 255

/-- The store is sound, with what it takes its counters and fields from. -/
def StoreSound (s : State) : Prop :=
  ConfigSound s.cfg ∧ TableSound s.tst.nodes ∧ LinkTableSound s.cfg.filterDepth s.tst.nodes ∧
    ∀ r, s.atr.handed = some r → RecordSound r

/-- The watch entries in use stand in ascending watch id, below 128 (R119). -/
def WatchIdsSound (w : WatchList) : Prop :=
  w.entries.Pairwise (fun a b => a.id < b.id) ∧ ∀ e ∈ w.entries, e.id < 128

/-- The overlay holds the claims of the RESERVED entries, each once, and nothing else, and no slot of a link
is reserved twice (R119, R120). -/
def OverlayExact (w : WatchList) : Prop :=
  w.overlay.slots.Perm ((w.entries.filter (fun e => e.state == .reserved)).flatMap (·.slotClaims)) ∧
  w.overlay.regens.Perm ((w.entries.filter (fun e => e.state == .reserved)).flatMap (·.regenClaims)) ∧
  w.overlay.slots.Pairwise (fun b c => b.ref = c.ref → c.slots &&& b.slots = 0#320)

/-- The claims of every RESERVED watch entry stand in the overlay (R120, R123, R124). -/
def ClaimsStand (w : WatchList) : Prop :=
  ∀ e ∈ w.entries, e.state = .reserved →
    (∀ c ∈ e.slotClaims, c ∈ w.overlay.slots) ∧ (∀ c ∈ e.regenClaims, c ∈ w.overlay.regens)

end Sys2Proof.Machine
end

