-- ==== Sys2Proof/Certificates/Slice0/Obligations.lean ====
section
/-! DEFINITION. The statements for the provers, from the numbered rules of spec/. -/

open Sys2Proof Sys2Proof.Machine

/-! ## The machine, reset and command handling -/

/-- The queue's front step runs with the queue's rest. The queue is the model's own field (log entry 16). -/
def Obligations.StepRunsTheFrontCommand : Prop :=
  ∀ (c : Instr) (rest : List Instr) (s : State),
    s.pending = c :: rest → step s = exec c { s with pending := rest }

/-- R172 and the cold-reset values of the chapters: a cold reset with any straps leaves the part in
STANDBY with every port enabled, every table, queue and counter empty, and the address of the straps. Every
entry of both banks is written out (R140), and every event class (R178). Both engines are IDLE with no
request, pool and touched set empty and overflow clear (R74); what R74 gives only to an engine that is not
IDLE is 0 or absent (the model's choice, log entry 38). The source entries' addresses and rights (log entry 1) and that no
transmission is in progress (log entry 19) are the model's choices; that no block owes an action on a tick
(log entry 3), that no record waits at the store (log entry 20) and that the rows queued for the model stand
(log entry 16) are its readings. -/
def Obligations.ColdResetTakesResetValues : Prop :=
  ∀ (straps : BitVec 4) (s : State), ∃ t, exec (.coldReset straps) s = .next t ∧
    t.pending = s.pending ∧
    t.stc.part = .standby ∧ t.stc.settleTimer = 0 ∧ t.stc.timebase = 0 ∧ t.stc.straps = straps ∧
    t.stc.offered = { store := false, watch := false, epoch := false, settle := false } ∧
    t.cfg.engineAddress = 0x7F000000#32 + straps.setWidth 32 ∧ (∀ p, t.enabled p = true) ∧
    t.cfg.epochMode = .internal ∧ t.cfg.epochPort = .lp 0 ∧ t.cfg.epochInterval = 10 ∧
    t.cfg.ageDiv = 9 ∧ t.cfg.settleTime = 8 ∧ t.cfg.defaultLifetime = 60 ∧ t.cfg.holdDown = 16 ∧
    t.cfg.defaultLinkQ = 200 ∧ t.cfg.degradeLow = 180 ∧ t.cfg.degradeHigh = 200 ∧
    t.cfg.filterDepth = 2 ∧ t.cfg.crossNotice = .both ∧ t.cfg.degradePenalty = 1000 ∧
    t.cfg.twoWay = true ∧ t.cfg.expansionLimit = 16384 ∧ t.cfg.reserveHold = 30 ∧
    t.cfg.noticeAddress = 0 ∧ t.cfg.noticePort = .np ∧ t.cfg.eventEnable = 0 ∧
    (∀ p, (t.port p).transit = [] ∧ (t.port p).localQueue = [] ∧
      (t.port p).lastServed = .localQueue ∧ (t.port p).transmitting = none ∧
      (t.port p).counters =
        { framesReceived := 0, lengthErrors := 0, badCheck := 0, badTag := 0, receivedDisabled := 0
          commandsTakenIn := 0, commandsDropped := 0, transitDropped := 0, transitToDisabled := 0
          localDiscarded := 0, sentTransit := 0, sentLocal := 0 }) ∧
    t.spu.intake = [] ∧ t.spu.hold = none ∧
    (∀ i : Fin 8, t.spu.sources[i] =
      { valid := false, address := 0, rights := { query := false, request := false, configure := false } }) ∧
    t.atr = { queue := [], handed := none, counters :=
      { accepted := 0, refreshed := 0, stale := 0, unknownDialect := 0, malformed := 0, malformedAttr := 0
        unmapped := 0, clamped := 0, queueFull := 0 } } ∧
    (∀ b ∈ [t.prb.active, t.prb.staged],
      (∀ (d : Fin 8) (i : Fin 32), b.dialects[d][i] =
        { valid := false, code := 0, target := .nodeLifetime, mul := 1, shift := 0, offset := 0 }) ∧
      ∀ k : Fin 16, b.classes[k] = { valid := false, qReq := 0, margin := 0, regenCost := 0 }) ∧
    t.prb.commitPending = false ∧
    t.epc = { number := 0, timer := 10, counters :=
      { sent := 0, notSent := 0, taken := 0, repeated := 0, short := 0 } } ∧
    t.tst = { nodes := [], counters :=
      { recordsApplied := 0, refreshesApplied := 0, recordsDiscarded := 0, recordsDropped := 0, nodesAdded := 0
        nodesAged := 0, nodesFlushed := 0, nodesFreed := 0, linksCreated := 0, linksFreed := 0
        linksDropped := 0, itemsInvalid := 0 } } ∧
    t.rq = { queue := [], counters :=
      { accepted := 0, requeued := 0, requeuesRefused := 0, resultsDiscarded := 0 } } ∧
    (∀ e, t.engine e =
      { mode := .idle, request := none, budget := 0, regenCost := 0, windowStart := 0, windowEnd := 0
        windowAdjusted := false, starts := 0, limit := 0
        counts := { expansions := 0, spectrum := 0, noise := 0, hops := 0, excluded := 0, dominated := 0
                    truncated := false }
        nextNumber := 0, pool := [], touched := [], overflow := false, primary := none, endOrder := .none
        result := none }) ∧
    t.pwl.entries = [] ∧ t.pwl.overlay = { slots := [], regens := [] } ∧
    (∀ c, t.evu.get c = { pending := false, count := 0, subject := .none, reason := .none }) ∧
    t.evu.notices = []

/-- R161: a response enters its port's queue, waits in the hold, or is discarded and counted. A place
counts as free when the waiting frames, the held response and the results in COMPLETING, leave one (the
model's reading, log entry 4). Section 9.1.4 and R166:
the answer to a command is offered so on its ingress port, its bytes as written out. -/
def Obligations.ResponseEntersIsHeldOrDiscarded : Prop :=
  (∀ (s : State) (p : Port) (f : Frame),
    (s.enabled p = true → (s.port p).localQueue.length + s.waiters p < 16 →
      s.offerResponse p f =
        s.setPort p { s.port p with localQueue := (s.port p).localQueue ++ [outgoing p f] }) ∧
    (s.enabled p = true → 16 ≤ (s.port p).localQueue.length + s.waiters p →
      s.offerResponse p f =
        { s with spu := { s.spu with hold := some { port := p, frame := outgoing p f } } }) ∧
    (s.enabled p = false →
      s.offerResponse p f = s.setPort p { s.port p with counters :=
        { (s.port p).counters with
          localDiscarded := min ((s.port p).counters.localDiscarded + 1) 4294967295 } })) ∧
  (∀ (s : State) (p : Port), s.waiters p =
    (s.spu.hold.any (fun h => h.port == p) :: [EngineId.a, EngineId.b].map (fun e =>
      (s.engine e).mode == .completing && (s.engine e).request.any (fun d => d.ingress == some p))).count true) ∧
  (∀ (s : State) (t : Taken) (r : Reply), ∃ b : Byte,
    (b.toNat, r.code) ∈ [(0, Response.ok), (1, .clamped), (2, .notReady), (3, .notInStandby), (4, .badIndex),
      (5, .badValue), (6, .duplicate), (7, .queueFull), (8, .notFound), (9, .tooLate), (10, .denied),
      (11, .unknownCommand), (12, .malformed)] ∧
    s.respond t r = s.offerResponse t.port (originated s.cfg.engineAddress t.source 0x51
      (t.code :: b :: (enc2 t.tag.toNat ++ r.data))))

/-- R161: while the response hold is occupied, no command is taken. That a row whose event cannot arise
changes nothing is the model's reading (log entry 5). -/
def Obligations.OccupiedHoldBlocksCommands : Prop :=
  ∀ (s : State) (r : HeldResponse) (code : Byte) (c : Instr), s.spu.hold = some r →
    (rowOfCode code = some c ∨ c = .unknownOrMalformedCommand) → exec c s = .next s

/-- Step 3 of R160 with R166: a listed command whose sender lacks its right leaves the queue, changes
nothing and is answered DENIED with no data. A sender on NP holds every right; on a line port the
lowest-indexed valid source entry of the sender's address decides, and without one no right is held. The
right of each command is R166's; any value but 0 sets READ COUNTERS' clear option (log entry 8). -/
def Obligations.SenderWithoutTheRightIsDenied : Prop :=
  (∀ (s : State) (t : Taken) (rest : List IntakeFrame) (c : Instr) (r : Right),
    AtHead s t rest → rowOfCode t.code = some c → requiredRight t.code t.params = some r →
    ¬ Holds s t r →
    exec c s = .next ((s.withIntake rest).respond t { code := .denied, data := [] })) ∧
  (∀ (s : State) (t : Taken) (r : Right), t.port = .np → Holds s t r) ∧
  (∀ (s : State) (t : Taken) (r : Right) (i : Fin 8), t.port = .lp i →
    (∀ k : Fin 8, s.spu.sources[k].valid = true → s.spu.sources[k].address ≠ t.source) →
    ¬ Holds s t r) ∧
  (∀ (s : State) (t : Taken) (r : Right) (i k : Fin 8), t.port = .lp i →
    s.spu.sources[k].valid = true → s.spu.sources[k].address = t.source →
    (∀ j : Fin 8, j < k → s.spu.sources[j].valid = true → s.spu.sources[j].address ≠ t.source) →
    (Holds s t r ↔ s.spu.sources[k].rights.has r = true)) ∧
  (∀ x : Rights, x.has .query = x.query ∧ x.has .request = x.request ∧ x.has .configure = x.configure) ∧
  (∀ (code : Byte) (params : List Byte) (r : Right), requiredRight code params = some r ↔
    (code.toNat, r) ∈ [(0x01, Right.query), (0x02, .query), (0x08, .query), (0x10, .query), (0x11, .query),
      (0x12, .query), (0x23, .query), (0x33, .query), (0x20, .request), (0x21, .request), (0x22, .request),
      (0x03, .configure), (0x04, .configure), (0x05, .configure), (0x07, .configure), (0x13, .configure),
      (0x30, .configure), (0x31, .configure), (0x32, .configure), (0x34, .configure), (0x35, .configure),
      (0x40, .configure)] ∨
    (code = 0x06 ∧ r = if 3 ≤ params.length ∧ params.getD 2 0 ≠ 0 then .configure else .query))

/-- Steps 1 and 2 of R160: a payload shorter than 4 bytes is answered MALFORMED, its missing bytes read
as 0, and a code that is not listed UNKNOWN_COMMAND. A listed command whose sender holds its right and
whose parameters are too short for it is answered MALFORMED by the owning block (R160); the sizes follow
R166's lists and section 9.1.2's encodings, with the model's readings of log entries 9, 15, 26 and 36.
Nothing else changes. -/
def Obligations.UnknownOrMalformedIsAnswered : Prop :=
  (∀ (s : State) (p : Port) (f : Frame) (rest : List IntakeFrame),
     s.spu.hold = none → s.spu.intake = { port := p, frame := f } :: rest →
     (f.payload.length < 4 →
       exec .unknownOrMalformedCommand s = .next ((s.withIntake rest).offerResponse p
         (originated s.cfg.engineAddress f.src classResponse
           [f.payload.getD 0 0, 0x0C, f.payload.getD 2 0, f.payload.getD 3 0]))) ∧
     (4 ≤ f.payload.length → rowOfCode (f.payload.getD 0 0) = none →
       exec .unknownOrMalformedCommand s = .next ((s.withIntake rest).offerResponse p
         (originated s.cfg.engineAddress f.src classResponse
           [f.payload.getD 0 0, 0x0B, f.payload.getD 2 0, f.payload.getD 3 0])))) ∧
  (∀ (s : State) (t : Taken) (rest : List IntakeFrame) (c : Instr) (n : Nat), AtHead s t rest →
    rowOfCode t.code = some c →
    (t.code.toNat, n) ∈ [(0x02, 1), (0x03, 5), (0x04, 1), (0x06, 3), (0x07, 7), (0x08, 1), (0x10, 4),
      (0x11, 6), (0x12, 2), (0x13, 7), (0x21, 5), (0x22, 1), (0x23, 1), (0x30, 10), (0x31, 1), (0x32, 8),
      (0x33, 3), (0x40, 4)] →
    t.params.length < n → (∀ r, requiredRight t.code t.params = some r → Holds s t r) →
    exec c s = .next ((s.withIntake rest).respond t { code := .malformed, data := [] })) ∧
  (∀ (s : State) (t : Taken) (rest : List IntakeFrame), AtHead s t rest → t.code = 0x33 →
    Holds s t .query → t.params.length = 3 → t.params.getD 1 0 = 0 →
    exec .readTable s = .next ((s.withIntake rest).respond t { code := .malformed, data := [] }))

/-! ## State Control's commands -/

/-- R175 and R174: READ STATUS is answered OK with the part as it stands, READ CONFIG with the item's
value in force or BAD_INDEX; both change nothing. The codes of section 9.1.2, the items' codes and values of
section 10.5 and an engine's bytes are written out. The intake depth, the engine block's form and the one byte
of the straps and of each timer are the model's choices (log entries 24, 25 and 36). -/
def Obligations.StatusAndConfigAreRead : Prop :=
  (∀ (s : State) (t : Taken) (rest : List IntakeFrame), AtHead s t rest → t.code = 0x01 → Holds s t .query →
    exec .readStatus s = .next ((s.withIntake rest).respond t
      { code := .ok
        data := encByte (partCode s.stc.part) ++ encByte s.stc.settleTimer
          ++ enc4 s.cfg.engineAddress.toNat ++ encByte s.stc.straps.toNat
          ++ encByte (epochModeCode s.cfg.epochMode) ++ enc2 s.epc.number ++ encByte s.epc.timer
          ++ encMark s.prb.commitPending ++ encByte s.atr.queue.length ++ encByte rest.length
          ++ encByte s.rq.queue.length ++ encEngineStatus s.engA ++ encEngineStatus s.engB
          ++ encByte (watchCount s.pwl.entries .reserved) ++ encByte (watchCount s.pwl.entries .active)
          ++ encByte (watchCount s.pwl.entries .violated)
          ++ encByte (watchCount s.pwl.entries .rerouting)
          ++ encByte (watchCount s.pwl.entries .stalled) ++ encByte (128 - s.pwl.entries.length)
          ++ allEvents.flatMap (fun c => encMark (s.evu.get c).pending)
          ++ encByte s.evu.notices.length })) ∧
  (∀ (s : State) (t : Taken) (rest : List IntakeFrame) (code : Byte) (more : List Byte),
    AtHead s t rest → t.code = 0x02 → Holds s t .query → t.params = code :: more →
    (∀ i, itemOfCode code.toNat = some i →
      exec .readConfig s = .next ((s.withIntake rest).respond t
        { code := .ok, data := code :: enc4 (valueInForce s.cfg i) })) ∧
    (itemOfCode code.toNat = none →
      exec .readConfig s = .next ((s.withIntake rest).respond t { code := .badIndex, data := [] }))) ∧
  (∀ (c : Settings) (n : Nat),
    (List.range 22).map (fun k => (itemOfCode k).map (fun i => (i, valueInForce c i))) =
      [none, some (.engineAddress, c.engineAddress.toNat), some (.portEnable, c.portEnable.toNat),
       some (.epochMode, epochModeCode c.epochMode), some (.epochPort, (portIndex c.epochPort).val),
       some (.epochInterval, c.epochInterval), some (.ageDiv, c.ageDiv), some (.settleTime, c.settleTime),
       some (.defaultLifetime, c.defaultLifetime), some (.holdDown, c.holdDown),
       some (.defaultLinkQ, c.defaultLinkQ), some (.degradeLow, c.degradeLow),
       some (.degradeHigh, c.degradeHigh), some (.filterDepth, c.filterDepth),
       some (.crossNotice, if c.crossNotice = .falling then 0 else if c.crossNotice = .rising then 1 else 2),
       some (.degradePenalty, c.degradePenalty), some (.twoWay, if c.twoWay then 1 else 0),
       some (.expansionLimit, c.expansionLimit), some (.reserveHold, c.reserveHold),
       some (.noticeAddress, c.noticeAddress.toNat), some (.noticePort, (portIndex c.noticePort).val),
       some (.eventEnable, c.eventEnable.toNat)] ∧
    (itemOfCode n = none ↔ n = 0 ∨ 22 ≤ n)) ∧
  ((portIndex .np).val = 8 ∧ ∀ i : Fin 8, (portIndex (.lp i)).val = i.val) ∧
  (epochModeCode .internal = 0 ∧ epochModeCode .lead = 1 ∧ epochModeCode .follow = 2 ∧
    partCode .standby = 0 ∧ partCode .operate = 1 ∧ partCode .settling = 2) ∧
  (∀ x : Engine, encEngineStatus x =
    encByte (match x.mode with
        | .idle => 0
        | .primary => 1
        | .protection => 2
        | .completing => 3)
      ++ (match if x.mode = .idle then none else x.request with
        | none => [0, 0, 0, 0, 0, 0, 0, 0]
        | some d => 1 :: (match d.requester with
            | .mgmt a => 0 :: enc4 a.toNat
            | .watchList => [1, 0, 0, 0, 0]) ++ enc2 d.tag.toNat)) ∧
  (∀ (entries : List WatchEntry) (w : WatchState), watchCount entries w = (entries.map (·.state)).count w)

/-- Steps 1 to 3 of R174: BAD_INDEX, then NOT_IN_STANDBY, then BAD_VALUE for the values listed there,
and nothing changes. -/
def Obligations.SetConfigRefusesInOrder : Prop :=
  (∀ (s : State) (t : Taken) (rest : List IntakeFrame), AtHead s t rest → t.code = 0x03 →
    Holds s t .configure → 5 ≤ t.params.length →
    (itemOfCode (t.params.getD 0 0).toNat = none →
      exec .setConfig s = .next ((s.withIntake rest).respond t { code := .badIndex, data := [] })) ∧
    (∀ i, itemOfCode (t.params.getD 0 0).toNat = some i →
      (standbyOnly i = true → s.stc.part ≠ .standby →
        exec .setConfig s = .next ((s.withIntake rest).respond t { code := .notInStandby, data := [] })) ∧
      ((standbyOnly i = false ∨ s.stc.part = .standby) →
        judgeItem s.cfg t.port i (fieldNat t.params 1 4) = none →
        exec .setConfig s = .next ((s.withIntake rest).respond t { code := .badValue, data := [] })))) ∧
  (∀ (cfg : Settings) (p : Port) (i : ConfigItem) (v : Nat), v < 4294967296 →
    (judgeItem cfg p i v = none ↔
      match i with
      | .engineAddress => v = 0 ∨ v = 0xFFFFFFFF
      | .portEnable => v.testBit (portIndex p) = false
      | .epochMode => 3 ≤ v
      | .epochPort => 9 ≤ v
      | .crossNotice => 3 ≤ v
      | .twoWay => 2 ≤ v
      | .noticePort => 9 ≤ v
      | _ => False)) ∧
  (∀ i : ConfigItem,
    standbyOnly i = true ↔ i ∈ [ConfigItem.engineAddress, .portEnable, .epochMode, .epochPort])

/-- Step 4 of R174. The numeric items: the value is clamped into the range of section 10.5, takes effect,
and is returned under OK or CLAMPED. ENGINE_ADDRESS, EPOCH_MODE, EPOCH_PORT, CROSS_NOTICE, NOTICE_PORT
and TWO_WAY take the value given: the response already carries a new ENGINE_ADDRESS (log entry 21), the
epoch timer is loaded when the mode leaves FOLLOW (R149, R152), and a change of TWO_WAY marks and reports
the links whose usability differs, in R23's order (R20, R22, R23). A lower EPOCH_INTERVAL lowers a timer above
it, in FOLLOW too (log entry 35). -/
def Obligations.NumericItemsClampAndTakeEffect : Prop :=
  (∀ (s : State) (t : Taken) (rest : List IntakeFrame) (i : ConfigItem) (lo hi : Nat)
     (put : Settings → Nat → Settings), AtHead s t rest → t.code = 0x03 → Holds s t .configure →
     5 ≤ t.params.length → itemOfCode (t.params.getD 0 0).toNat = some i →
     ((i = .ageDiv ∧ lo = 0 ∧ hi = 255 ∧ put = fun c v => { c with ageDiv := v }) ∨
      (i = .settleTime ∧ lo = 0 ∧ hi = 255 ∧ put = fun c v => { c with settleTime := v }) ∨
      (i = .defaultLifetime ∧ lo = 1 ∧ hi = 255 ∧ put = fun c v => { c with defaultLifetime := v }) ∨
      (i = .holdDown ∧ lo = 1 ∧ hi = 255 ∧ put = fun c v => { c with holdDown := v }) ∨
      (i = .defaultLinkQ ∧ lo = 0 ∧ hi = 400 ∧ put = fun c v => { c with defaultLinkQ := v }) ∨
      (i = .degradePenalty ∧ lo = 0 ∧ hi = 65535 ∧ put = fun c v => { c with degradePenalty := v }) ∨
      (i = .expansionLimit ∧ lo = 1 ∧ hi = 65535 ∧ put = fun c v => { c with expansionLimit := v }) ∨
      (i = .reserveHold ∧ lo = 1 ∧ hi = 255 ∧ put = fun c v => { c with reserveHold := v })) →
     exec .setConfig s = .next
       (({ s.withIntake rest with cfg := put s.cfg (max lo (min hi (fieldNat t.params 1 4))) }).respond t
         { code := if lo ≤ fieldNat t.params 1 4 ∧ fieldNat t.params 1 4 ≤ hi then .ok else .clamped
           data := t.params.getD 0 0 :: enc4 (max lo (min hi (fieldNat t.params 1 4))) })) ∧
  (∀ (s : State) (t : Taken) (rest : List IntakeFrame) (code : Byte) (v : Nat) (reply : Reply),
    AtHead s t rest → t.code = 0x03 → Holds s t .configure → 5 ≤ t.params.length →
    code = t.params.getD 0 0 → v = fieldNat t.params 1 4 →
    reply = { code := .ok, data := code :: enc4 v } →
    (s.stc.part = .standby →
      (code = 0x01 → v ≠ 0 → v ≠ 0xFFFFFFFF →
        exec .setConfig s = .next
          (({ s.withIntake rest with cfg := { s.cfg with engineAddress := BitVec.ofNat 32 v } }).respond t
            reply)) ∧
      (∀ (m : EpochMode) (timer : Nat), code = 0x03 → (v, m) ∈ [(0, .internal), (1, .lead), (2, .follow)] →
        timer = (if s.cfg.epochMode = .follow ∧ m ≠ .follow then s.cfg.epochInterval else s.epc.timer) →
        exec .setConfig s = .next
          (({ s.withIntake rest with
              cfg := { s.cfg with epochMode := m }
              epc := { s.epc with timer := timer } }).respond t reply)) ∧
      (∀ q : Port, code = 0x04 → v = (portIndex q).val →
        exec .setConfig s = .next
          (({ s.withIntake rest with cfg := { s.cfg with epochPort := q } }).respond t reply))) ∧
    (∀ w, code = 0x05 → w = max 1 (min 255 v) →
      exec .setConfig s = .next
        (({ s.withIntake rest with
            cfg := { s.cfg with epochInterval := w }
            epc := { s.epc with timer :=
              (if w = s.cfg.epochInterval then s.epc.timer else min s.epc.timer w) } }).respond t
          { code := if 1 ≤ v ∧ v ≤ 255 then .ok else .clamped, data := code :: enc4 w })) ∧
    (∀ m : CrossNotice, code = 0x0E → (v, m) ∈ [(0, .falling), (1, .rising), (2, .both)] →
      exec .setConfig s = .next
        (({ s.withIntake rest with cfg := { s.cfg with crossNotice := m } }).respond t reply)) ∧
    (∀ q : Port, code = 0x14 → v = (portIndex q).val →
      exec .setConfig s = .next
        (({ s.withIntake rest with cfg := { s.cfg with noticePort := q } }).respond t reply)) ∧
    (∀ b : Bool, code = 0x10 → v = (if b then 1 else 0) → TableSound s.tst.nodes →
      ∃ (u : State) (rs : List Report), exec .setConfig s = .next ((u.batch rs).respond t reply) ∧
        u = { s.withIntake rest with
              cfg := { s.cfg with twoWay := b }, engA := u.engA, engB := u.engB } ∧
        (∀ r, r ∈ rs ↔ Changed s.cfg.twoWay b s.tst.nodes s.tst.nodes r) ∧
        UsabilityOrder rs ∧
        ∀ e, Marked (s.engine e) (u.engine e) (fun el => ∃ r ∈ rs, r.element = el) ∧
          EnteredInOrder (s.engine e) (u.engine e) (rs.map (·.element))))

/-- R57: DEGRADE_LOW, DEGRADE_HIGH and FILTER_DEPTH clamp, DEGRADE_HIGH is raised to a DEGRADE_LOW above
it, and after a change every link keeps its condition and crossing mark, its filter count is 0 and
its indicator is set again by R52. -/
def Obligations.MonitorItemsClampAndResetFilters : Prop :=
  ∀ (s : State) (t : Taken) (rest : List IntakeFrame) (i : ConfigItem) (v low : Nat) (new : Settings)
    (clamped : Bool) (refilter : Link → Link), AtHead s t rest → t.code = 0x03 → Holds s t .configure →
    5 ≤ t.params.length → itemOfCode (t.params.getD 0 0).toNat = some i →
    v = fieldNat t.params 1 4 → low = min 400 v →
    ((i = .degradeLow ∧
        new = { s.cfg with degradeLow := low, degradeHigh := max s.cfg.degradeHigh low } ∧
        clamped = decide (400 < v ∨ s.cfg.degradeHigh < low)) ∨
     (i = .degradeHigh ∧ new = { s.cfg with degradeHigh := max s.cfg.degradeLow low } ∧
        clamped = decide (max s.cfg.degradeLow low ≠ v)) ∨
     (i = .filterDepth ∧ new = { s.cfg with filterDepth := if 8 ≤ v then 8 else if 4 ≤ v then 4 else if 2 ≤ v then 2 else 1 } ∧
        clamped = decide (v ∉ [1, 2, 4, 8]))) →
    refilter = (fun l => { l with cond :=
      { l.cond with count := 0, below := belowThreshold new l.cond.condition l.q } }) →
    exec .setConfig s = .next
      ((if new = s.cfg then s.withIntake rest
        else { (s.withIntake rest).setNodes
          (s.tst.nodes.map (fun n => { n with links := n.links.map refilter })) with cfg := new }).respond t
        { code := if clamped then .clamped else .ok, data := t.params.getD 0 0 :: enc4 (valueInForce new i) })

/-- R181 for EVENT_ENABLE and NOTICE_ADDRESS: which classes' notices are queued after the change, the entries
kept in their places with their values, those added at the tail in ascending class number, with flags, counts
and subjects kept; and a SET CONFIG of either takes effect so, a value equal to that in
force changing nothing (R174). -/
def Obligations.EventItemsChangeTheNoticeQueue : Prop :=
  (∀ (u : EventUnit) (old new : Settings) (c : EventClass),
     ((noticesAfterEnable u old new).get c = u.get c ∧ (noticesAfterAddress u old new).get c = u.get c) ∧
     ((noticesAfterEnable u old new).queued c = true ↔
       (u.queued c = true ∧ ¬(eventIn old.eventEnable c = true ∧ eventIn new.eventEnable c = false)) ∨
       (eventIn old.eventEnable c = false ∧ eventIn new.eventEnable c = true ∧ new.noticeAddress ≠ 0#32 ∧
         (u.get c).pending = true)) ∧
     ((noticesAfterAddress u old new).queued c = true ↔
       new.noticeAddress ≠ 0#32 ∧
         (u.queued c = true ∨
           (old.noticeAddress = 0#32 ∧ eventIn new.eventEnable c = true ∧ (u.get c).pending = true)))) ∧
  (∀ (u : EventUnit) (old new : Settings) (byClass : List EventClass) (added : (EventClass → Bool) → List NoticeEntry),
    byClass = [.nodeAdded, .nodeExpired, .tableFull, .linkDegraded, .linkRecovered, .advertDropped,
      .watchViolated, .watchRerouted, .watchStalled, .reservationExpired, .epochApplied, .settled] →
    added = (fun asked => (byClass.filter (fun c =>
        asked c && (u.get c).pending && !u.notices.any (fun n => n.cls == c))).map (fun c =>
      { cls := c, count := (u.get c).count, subject := (u.get c).subject, reason := (u.get c).reason })) →
    (noticesAfterEnable u old new).notices =
      u.notices.filter (fun n => !eventIn old.eventEnable n.cls || eventIn new.eventEnable n.cls) ++
        (if new.noticeAddress = 0#32 then []
          else added (fun c => eventIn new.eventEnable c && !eventIn old.eventEnable c)) ∧
    (noticesAfterAddress u old new).notices =
      if new.noticeAddress = 0#32 then []
      else if old.noticeAddress = 0#32 then u.notices ++ added (eventIn new.eventEnable) else u.notices) ∧
  (∀ (s : State) (t : Taken) (rest : List IntakeFrame) (v : Nat) (new : Settings), AtHead s t rest →
    t.code = 0x03 → Holds s t .configure → 5 ≤ t.params.length → v = fieldNat t.params 1 4 →
    (t.params.getD 0 0 = 0x15 → new = { s.cfg with eventEnable := BitVec.ofNat 12 v } →
      exec .setConfig s = .next
        (({ s.withIntake rest with cfg := new, evu := noticesAfterEnable s.evu s.cfg new }).respond t
          { code := .ok, data := 0x15 :: enc4 (v % 4096) })) ∧
    (t.params.getD 0 0 = 0x13 → new = { s.cfg with noticeAddress := BitVec.ofNat 32 v } →
      exec .setConfig s = .next
        (({ s.withIntake rest with
            cfg := new
            evu := if new = s.cfg then s.evu else noticesAfterAddress s.evu s.cfg new }).respond t
          { code := .ok, data := 0x13 :: enc4 v })))

/-- R164: a port that leaves PORT_ENABLE has both queues emptied and counted, and its other state
kept; every other port stands. A SET CONFIG of PORT_ENABLE does so to every port it removes: the engines
that wait for one become IDLE, their records counted by RQ alone (the model's choice, log entry 6), and
the response hold, which is empty while a command is taken, stays so. -/
def Obligations.DisabledPortIsEmptiedAndCounted : Prop :=
  (∀ (s : State) (p q : Port),
     ((s.disablePort p).port p).transit = [] ∧ ((s.disablePort p).port p).localQueue = [] ∧
     ((s.disablePort p).port p).lastServed = (s.port p).lastServed ∧
     ((s.disablePort p).port p).transmitting = (s.port p).transmitting ∧
     ((s.disablePort p).port p).counters.transitDropped =
       min ((s.port p).counters.transitDropped + (s.port p).transit.length) 4294967295 ∧
     (s.spu.hold = none → ((s.disablePort p).port p).counters.localDiscarded =
       min ((s.port p).counters.localDiscarded + (s.port p).localQueue.length) 4294967295) ∧
     (q ≠ p → (s.disablePort p).port q = s.port q) ∧
     (∀ r, s.spu.hold = some r → (s.disablePort p).spu.hold = if r.port = p then none else some r) ∧
     (∀ e, (s.engine e).waitsFor = some p → (s.disablePort p).engine e = Engine.idle) ∧
     (∀ e, (s.engine e).waitsFor ≠ some p → (s.disablePort p).engine e = s.engine e)) ∧
  (∀ (s : State) (t : Taken) (rest : List IntakeFrame) (new : BitVec 9) (removed : Port → Bool) (k : Nat),
    AtHead s t rest → t.code = 0x03 → Holds s t .configure → 5 ≤ t.params.length →
    t.params.getD 0 0 = 0x02 → new = BitVec.ofNat 9 (fieldNat t.params 1 4) → s.stc.part = .standby →
    portIn new t.port = true → removed = (fun q => portIn s.cfg.portEnable q && !portIn new q) →
    k = ([EngineId.a, .b].filter (fun e => ((s.engine e).waitsFor.map removed).getD false)).length →
    ∃ u : State, exec .setConfig s = .next (u.respond t { code := .ok, data := 0x02 :: enc4 new.toNat }) ∧
      u = { s.withIntake rest with
            cfg := { s.cfg with portEnable := new }
            spu := { s.spu with intake := rest, ports := u.spu.ports }
            rq := { s.rq with counters := { s.rq.counters with
              resultsDiscarded := if k = 0 then s.rq.counters.resultsDiscarded
                else min (s.rq.counters.resultsDiscarded + k) 4294967295 } }
            engA := u.engA, engB := u.engB } ∧
      (∀ q, removed q = true → u.port q = { s.port q with
        transit := [], localQueue := []
        counters := { (s.port q).counters with
          transitDropped := min ((s.port q).counters.transitDropped + (s.port q).transit.length) 4294967295
          localDiscarded :=
            min ((s.port q).counters.localDiscarded + (s.port q).localQueue.length) 4294967295 } }) ∧
      (∀ q, removed q = false → u.port q = s.port q) ∧
      ∀ e, u.engine e =
        if ((s.engine e).waitsFor.map removed).getD false then Engine.idle else s.engine e)

/-- R169: OPERATE from STANDBY into SETTLING with the timer loaded, or into OPERATE with SETTLED raised
when SETTLE_TIME is 0; OPERATE elsewhere and STANDBY in STANDBY change nothing; another target is
BAD_VALUE. -/
def Obligations.SetStateOperateAndRefusals : Prop :=
  ∀ (s : State) (t : Taken) (rest : List IntakeFrame) (target : Byte) (more : List Byte),
    AtHead s t rest → t.code = 0x04 → Holds s t .configure → t.params = target :: more →
    (target = 1 → s.stc.part = .standby → s.cfg.settleTime ≠ 0 →
      exec .setState s = .next
        (({ s.withIntake rest with
            stc := { s.stc with part := .settling, settleTimer := s.cfg.settleTime } }).respond t
          { code := .ok, data := [2] })) ∧
    (target = 1 → s.stc.part = .standby → s.cfg.settleTime = 0 →
      exec .setState s = .next
        ((({ s.withIntake rest with stc := { s.stc with part := .operate, settleTimer := 0 } }).raise
            .settled .none .none).respond t { code := .ok, data := [1] })) ∧
    (target = 1 → s.stc.part ≠ .standby →
      exec .setState s = .next ((s.withIntake rest).respond t
        { code := .ok, data := [if s.stc.part = .settling then 2 else 1] })) ∧
    (target = 0 → s.stc.part = .standby →
      exec .setState s = .next ((s.withIntake rest).respond t { code := .ok, data := [0] })) ∧
    (target ≠ 0 → target ≠ 1 →
      exec .setState s = .next ((s.withIntake rest).respond t { code := .badValue, data := [] }))

/-- R169 and R171, STANDBY: after the response the part is in STANDBY with the translator's queue and
the request queue empty; the store, the banks, the configuration, the intake queue, the overlay, the
transit FIFOs and the settle timer stand, and an engine that was searching has its order to end, an
earlier order standing (log entry 13). A tick still owed is dropped (log entry 3). R116 and R134: the OK
with the state STANDBY is offered first; then each queued request ends ABORTED, in queue order: its RESULT
enters its ingress port's queue where a place is free (log entry 4), or is discarded and counted by RQ and
the port, for a disabled port too (log entry 6); a WATCH LIST request leaves its entry owing it again. The
results carry no PROVISIONAL (log entry 23) and no WINDOW_ADJUSTED (log entry 40), and nothing else changes. -/
def Obligations.SetStateStandby : Prop :=
  (∀ (s : State) (t : Taken) (rest : List IntakeFrame) (more : List Byte), AtHead s t rest → t.code = 0x04 →
    Holds s t .configure → t.params = 0 :: more → s.stc.part ≠ .standby →
    ∃ u, exec .setState s = .next u ∧ u.stc = { s.stc with part := .standby, offered := TickOffer.none } ∧
      u.atr = { s.atr with queue := [] } ∧ u.rq.queue = [] ∧ u.cfg = s.cfg ∧ u.prb = s.prb ∧ u.epc = s.epc ∧
      u.tst = s.tst ∧ u.spu.intake = rest ∧ u.spu.sources = s.spu.sources ∧
      u.pwl.overlay = s.pwl.overlay ∧ (∀ p, (u.port p).transit = (s.port p).transit) ∧
      (∀ e, u.engine e = if (s.engine e).searching = true ∧ (s.engine e).endOrder = .none
        then { s.engine e with endOrder := .standby } else s.engine e)) ∧
  (∀ (s : State) (t : Taken) (rest : List IntakeFrame) (more : List Byte) (ordered : Engine → Engine),
    AtHead s t rest → t.code = 0x04 → Holds s t .configure → t.params = 0 :: more →
    s.stc.part ≠ .standby → WatchIdsSound s.pwl →
    ordered = (fun x => if (x.mode = .primary ∨ x.mode = .protection) ∧ x.endOrder = .none
      then { x with endOrder := .standby } else x) →
    ∃ r u, r = (s.withIntake rest).respond t { code := .ok, data := [0] } ∧ exec .setState s = .next u ∧
      AllEndAborted s.rq.queue
        { r with
          stc := { s.stc with part := .standby, offered := TickOffer.none }
          atr := { s.atr with queue := [] }
          rq := { s.rq with queue := [] }
          engA := ordered s.engA
          engB := ordered s.engB } u)

/-- R173: what RESTART WARM clears and keeps after its OK. R28: a record that waits at the store is applied
first, as RECORD_APPLICATION would apply it, with its store event's changes to the tables, the watch list
and the store counters, and is then gone. A tick still owed is dropped (log entry 3), and a transmission in
progress is kept (log entry 19). -/
def Obligations.RestartWarmClearsAndKeeps : Prop :=
  (∀ (s : State) (t : Taken) (rest : List IntakeFrame), AtHead s t rest → t.code = 0x05 →
    Holds s t .configure → s.atr.handed = none →
    ∃ u r, r = (s.withIntake rest).respond t { code := .ok, data := [] } ∧ exec .restartWarm s = .next u ∧
      u.stc = { s.stc with part := .standby, settleTimer := 0, offered := TickOffer.none } ∧
      u.rq = { queue := [], counters := RequestCounters.zero } ∧
      u.engA = Engine.idle ∧ u.engB = Engine.idle ∧
      u.atr = { queue := [], handed := none, counters := TranslatorCounters.zero } ∧
      u.spu.intake = [] ∧ u.spu.hold = r.spu.hold ∧ u.spu.sources = s.spu.sources ∧
      u.epc = { s.epc with counters := EpochCounters.zero } ∧ u.evu = EventUnit.clear ∧
      (∀ p, u.port p = { r.port p with counters := PortCounters.zero }) ∧
      u.cfg = s.cfg ∧ u.prb = s.prb ∧ u.tst = s.tst ∧ u.pwl.overlay = s.pwl.overlay ∧
      u.pwl.entries = s.pwl.entries.map (fun w =>
        { w with submitPending := w.submitPending || w.state == .rerouting })) ∧
  (∀ (s : State) (t : Taken) (rest : List IntakeFrame) (x : UpdateRecord), AtHead s t rest → t.code = 0x05 →
    Holds s t .configure → s.atr.handed = some x →
    ∃ v u, exec .recordApplication ((s.withIntake rest).respond t { code := .ok, data := [] }) = .next v ∧
      exec .restartWarm s = .next u ∧ (∀ p, u.port p = { v.port p with counters := PortCounters.zero }) ∧
      u = { v with
            stc := { s.stc with part := .standby, settleTimer := 0, offered := TickOffer.none }
            spu := { v.spu with ports := u.spu.ports, intake := [] }
            atr := { queue := [], handed := none, counters := TranslatorCounters.zero }
            epc := { s.epc with counters := EpochCounters.zero }
            rq := { queue := [], counters := RequestCounters.zero }
            engA := Engine.idle, engB := Engine.idle
            pwl := { v.pwl with entries := v.pwl.entries.map (fun w =>
              { w with submitPending := w.submitPending || w.state == .rerouting }) }
            evu := EventUnit.clear })

/-- R176: READ COUNTERS returns the group's counters in its table's order, and sets them to 0 after the
reading under the clear option, which needs CONFIGURE. The groups' counters are written out (R24, R49, R118,
R153, R165). Any value but 0 sets the option (log entry 8), and group 4 sends the bad tag counter for a line
port too (log entry 32). -/
def Obligations.ReadCountersReadsThenClears : Prop :=
  ∀ (s : State) (t : Taken) (rest : List IntakeFrame) (group port clear : Byte) (more : List Byte),
    AtHead s t rest → t.code = 0x06 → t.params = group :: port :: clear :: more →
    Holds s t (if clear = 0 then .query else .configure) →
    (groupOfCode group.toNat port.toNat = none →
      exec .readCounters s = .next ((s.withIntake rest).respond t { code := .badIndex, data := [] })) ∧
    (∀ g, groupOfCode group.toNat port.toNat = some g →
      exec .readCounters s = .next
        ((if clear = 0 then s.withIntake rest else (s.withIntake rest).clearGroup g).respond t
          { code := .ok, data := (s.groupValues g).flatMap (encodeNat 4) })) ∧
    (5 ≤ group.toNat ∨ (group = 4 ∧ 9 ≤ port.toNat) →
      exec .readCounters s = .next ((s.withIntake rest).respond t { code := .badIndex, data := [] })) ∧
    (∀ (values : List Nat) (cleared : State),
      (group = 0 ∧ (∃ c, c = s.tst.counters ∧
          values = [c.recordsApplied, c.refreshesApplied, c.recordsDiscarded, c.recordsDropped, c.nodesAdded,
            c.nodesAged, c.nodesFlushed, c.nodesFreed, c.linksCreated, c.linksFreed, c.linksDropped,
            c.itemsInvalid]) ∧
        cleared = { s.withIntake rest with tst := { s.tst with counters := StoreCounters.zero } } ∨
      group = 1 ∧ (∃ c, c = s.atr.counters ∧
          values = [c.accepted, c.refreshed, c.stale, c.unknownDialect, c.malformed, c.malformedAttr,
            c.unmapped, c.clamped, c.queueFull]) ∧
        cleared = { s.withIntake rest with atr := { s.atr with counters := TranslatorCounters.zero } } ∨
      group = 2 ∧ (∃ c, c = s.rq.counters ∧
          values = [c.accepted, c.requeued, c.requeuesRefused, c.resultsDiscarded]) ∧
        cleared = { s.withIntake rest with rq := { s.rq with counters := RequestCounters.zero } } ∨
      group = 3 ∧ (∃ c, c = s.epc.counters ∧ values = [c.sent, c.notSent, c.taken, c.repeated, c.short]) ∧
        cleared = { s.withIntake rest with epc := { s.epc with counters := EpochCounters.zero } } ∨
      (∃ p, group = 4 ∧ port.toNat = (portIndex p).val ∧ (∃ c, c = (s.port p).counters ∧
          values = [c.framesReceived, c.lengthErrors, c.badCheck, c.badTag, c.receivedDisabled,
            c.commandsTakenIn, c.commandsDropped, c.transitDropped, c.transitToDisabled, c.localDiscarded,
            c.sentTransit, c.sentLocal]) ∧
        cleared = (s.withIntake rest).setPort p { s.port p with counters := PortCounters.zero })) →
      exec .readCounters s = .next ((if clear = 0 then s.withIntake rest else cleared).respond t
        { code := .ok, data := values.flatMap enc4 }))

/-- R177: WRITE SOURCE ENTRY and READ SOURCE ENTRY. Any value but 0 sets the mark (log entry 8), and the
rights set takes one byte (log entry 36). -/
def Obligations.SourceEntriesAreWrittenAndRead : Prop :=
  (∀ (s : State) (t : Taken) (rest : List IntakeFrame), AtHead s t rest → t.code = 0x07 →
    Holds s t .configure → 7 ≤ t.params.length →
    (8 ≤ (t.params.getD 0 0).toNat →
      exec .writeSourceEntry s = .next ((s.withIntake rest).respond t { code := .badIndex, data := [] })) ∧
    (∀ k : Fin 8, (t.params.getD 0 0).toNat = k.val →
      (t.params.getD 1 0 ≠ 0 →
        (field32 t.params 2 = 0x00000000#32 ∨ field32 t.params 2 = 0xFFFFFFFF#32) →
        exec .writeSourceEntry s = .next ((s.withIntake rest).respond t { code := .badValue, data := [] })) ∧
      ((t.params.getD 1 0 = 0 ∨
          (field32 t.params 2 ≠ 0x00000000#32 ∧ field32 t.params 2 ≠ 0xFFFFFFFF#32)) →
        exec .writeSourceEntry s = .next
          (({ s.withIntake rest with spu := { (s.withIntake rest).spu with
              sources := s.spu.sources.set k
                { valid := t.params.getD 1 0 != 0
                  address := field32 t.params 2
                  rights := { query := (t.params.getD 6 0).getLsbD 0
                              request := (t.params.getD 6 0).getLsbD 1
                              configure := (t.params.getD 6 0).getLsbD 2 } } } }).respond t
            { code := .ok, data := [] })))) ∧
  (∀ (s : State) (t : Taken) (rest : List IntakeFrame) (index : Byte) (more : List Byte),
    AtHead s t rest → t.code = 0x08 → Holds s t .query → t.params = index :: more →
    (8 ≤ index.toNat →
      exec .readSourceEntry s = .next ((s.withIntake rest).respond t { code := .badIndex, data := [] })) ∧
    (∀ k : Fin 8, index.toNat = k.val →
      exec .readSourceEntry s = .next ((s.withIntake rest).respond t
        { code := .ok
          data := encMark s.spu.sources[k].valid ++ enc4 s.spu.sources[k].address.toNat
            ++ encRights s.spu.sources[k].rights }))) ∧
  (∀ x : Rights, ∃ b : Byte, encRights x = [b] ∧ ∀ k, k < 8 → b.getLsbD k =
    (if k = 0 then x.query else if k = 1 then x.request else if k = 2 then x.configure else false))

/-! ## Store queries and crossings -/

/-- R25 to R27: QUERY NODE and QUERY LINK answer with the entry as it stands or NOT_FOUND; LIST NODES
returns the first 16 entries from the index upward, each with index, id and state, and the next index
when 16 were collected and one is left below 256. The queries change nothing. The data of both entries, what
the overlay reserves on them (R120) and the bytes of the field forms of section 9.1.2 are written out. The
forms of the optional transit q, of the next index, of bare link ids and of the age or hold-down counter are
the model's choices (log entries 10, 11, 32 and 36). -/
def Obligations.StoreQueriesReadTheTables : Prop :=
  (∀ (s : State) (t : Taken) (rest : List IntakeFrame), AtHead s t rest → t.code = 0x10 → Holds s t .query →
    4 ≤ t.params.length →
    ((findNode s.tst.nodes (field32 t.params 0) = none ∨ reservedId (field32 t.params 0) = true) →
      exec .queryNode s = .next ((s.withIntake rest).respond t { code := .notFound, data := [] })) ∧
    (∀ n, findNode s.tst.nodes (field32 t.params 0) = some n → reservedId (field32 t.params 0) = false →
      exec .queryNode s = .next ((s.withIntake rest).respond t
        { code := .ok, data := nodeData s.pwl.overlay n }))) ∧
  (∀ (s : State) (t : Taken) (rest : List IntakeFrame), AtHead s t rest → t.code = 0x11 → Holds s t .query →
    6 ≤ t.params.length →
    (findLink s.tst.nodes ⟨field32 t.params 0, field16 t.params 4⟩ = none →
      exec .queryLink s = .next ((s.withIntake rest).respond t { code := .notFound, data := [] })) ∧
    (∀ n l, findNode s.tst.nodes (field32 t.params 0) = some n →
      findLid n.links (field16 t.params 4) = some l →
      exec .queryLink s = .next ((s.withIntake rest).respond t { code := .ok, data := linkData s n l }))) ∧
  (∀ (s : State) (t : Taken) (rest : List IntakeFrame), AtHead s t rest → t.code = 0x12 → Holds s t .query →
    2 ≤ t.params.length →
    (256 ≤ fieldNat t.params 0 2 →
      exec .listNodes s = .next ((s.withIntake rest).respond t { code := .badIndex, data := [] })) ∧
    (fieldNat t.params 0 2 < 256 → ∀ (page : List NodeEntry) (next : List Byte),
      page = (s.tst.nodes.filter (fun n => decide (fieldNat t.params 0 2 ≤ n.index))).take 16 →
      ((∃ n, page.getLast? = some n ∧ page.length = 16 ∧ n.index < 255 ∧ next = 1 :: encByte (n.index + 1)) ∨
        ((page.length ≠ 16 ∨ ∃ n, page.getLast? = some n ∧ 255 ≤ n.index) ∧ next = [0, 0])) →
      exec .listNodes s = .next ((s.withIntake rest).respond t
        { code := .ok
          data := encByte page.length
            ++ page.flatMap (fun n => encByte n.index ++ enc4 n.id.toNat
                ++ encByte (if n.isLive then 1 else 2)) ++ next }))) ∧
  (∀ (o : Overlay) (n : NodeEntry), nodeData o n =
    encByte n.index ++ encByte (if n.isLive then 1 else 2) ++ enc4 n.id.toNat ++ encByte n.dialect
      ++ enc4 n.seq.toNat
      ++ encByte (match n.life with
          | .live age => age
          | .withdrawn h => h)
      ++ encByte n.regens ++ encByte (o.reservedRegens n.id)
      ++ (match n.transitQ with
          | some q => 1 :: enc2 q
          | none => [0, 0, 0])
      ++ encMark n.incomplete ++ encByte n.links.length
      ++ encByte n.links.length ++ n.links.flatMap (fun l => enc2 l.lid.toNat)) ∧
  (∀ (s : State) (n : NodeEntry) (l : Link) (reason : Nat),
    reason = (if n.isLive = false then 1 else if liveNode s.tst.nodes l.remote = false then 2
      else if l.admin = .down then 3
      else if usable s.cfg.twoWay s.tst.nodes n l = false then 4 else 0) →
    linkData s n l = enc4 n.id.toNat ++ enc2 l.lid.toNat ++ enc4 l.remote.toNat
      ++ (match l.remoteLid with
          | some lid => 1 :: enc2 lid.toNat
          | none => [0, 0, 0])
      ++ enc4 l.cost
      ++ (match l.q with
          | some q => enc2 q
          | none => [0xFF, 0xFF])
      ++ encodeSlots l.occupied
      ++ encByte l.srlg.length ++ l.srlg.flatMap (fun g => enc4 g.toNat)
      ++ encByte (if l.admin = .up then 0 else 1)
      ++ encByte (if l.cond.condition = .normal then 0 else 1) ++ encByte l.cond.count ++ encMark l.cond.below
      ++ encMark l.cond.crossed
      ++ encByte (if reason = 0 then 1 else 0) ++ encByte reason
      ++ encodeSlots (s.pwl.overlay.reservedSlots ⟨n.id, l.lid⟩)) ∧
  (∀ (o : Overlay) (ref : LinkRef) (id : NodeId) (k : Nat),
    ((o.reservedSlots ref).getLsbD k = true ↔ ∃ c ∈ o.slots, c.ref = ref ∧ c.slots.getLsbD k = true) ∧
    o.reservedRegens id = (o.regens.map (·.node)).count id) ∧
  (∀ (n : Nat) (b : Bool) (x : SlotSet) (k j : Nat),
    encByte n = [BitVec.ofNat 8 n] ∧ enc2 n = [BitVec.ofNat 8 (n / 256), BitVec.ofNat 8 n] ∧
    enc4 n = [BitVec.ofNat 8 (n / 16777216), BitVec.ofNat 8 (n / 65536), BitVec.ofNat 8 (n / 256),
      BitVec.ofNat 8 n] ∧
    encMark b = [if b then 1 else 0] ∧ (encodeSlots x).length = 40 ∧
    (k < 40 → j < 8 → ((encodeSlots x).getD k 0).getLsbD (7 - j) = x.getLsbD (8 * k + j)))

/-- R58: CLEAR CROSSINGS clears the mark of one link or of all links and counts the marks that were
set; no other field of any entry changes. That any presence byte but 0 names a link, the count's two
bytes and the form of the optional ref are the model's choices (log entries 8, 12 and 26). -/
def Obligations.ClearCrossingsClearsAndCounts : Prop :=
  ∀ (s : State) (t : Taken) (rest : List IntakeFrame) (clear : Link → Link),
    clear = (fun l => { l with cond := { l.cond with crossed := false } }) →
    AtHead s t rest → t.code = 0x13 → Holds s t .configure → 7 ≤ t.params.length →
    (t.params.getD 0 0 = 0 →
      exec .clearCrossings s = .next
        (((s.withIntake rest).setNodes
            (s.tst.nodes.map (fun n => { n with links := n.links.map clear }))).respond t
          { code := .ok
            data := enc2 (s.tst.nodes.map (fun n => (n.links.filter (·.cond.crossed)).length)).sum })) ∧
    (t.params.getD 0 0 ≠ 0 → findLink s.tst.nodes (paramLinkRef t.params 1) = none →
      exec .clearCrossings s = .next ((s.withIntake rest).respond t { code := .notFound, data := [] })) ∧
    (∀ l, t.params.getD 0 0 ≠ 0 → findLink s.tst.nodes (paramLinkRef t.params 1) = some l →
      exec .clearCrossings s = .next
        (((s.withIntake rest).setNodes (s.tst.nodes.map (fun n =>
            if n.id = field32 t.params 1 then
              { n with links := n.links.map (fun k => if k.lid = field16 t.params 5 then clear k else k) }
            else n))).respond t
          { code := .ok, data := enc2 (if l.cond.crossed then 1 else 0) }))

/-! ## Requests -/

/-- R100: the tests of SUBMIT in order, each with its response and no change, and what its values must
be. -/
def Obligations.SubmitRefusesInOrder : Prop :=
  (∀ ps : List Byte, submitCodes ps = none ↔
    2 ≤ param1 ps 3 ∨ 3 ≤ param1 ps 4 ∨ 4 ≤ param1 ps 5 ∨ 2 ≤ param1 ps 10) ∧
  (∀ (s : State) (d : Descriptor), submitValuesGood s d = true ↔
    d.source ≠ 0x00000000#32 ∧ d.source ≠ 0xFFFFFFFF#32 ∧ d.dest ≠ 0x00000000#32 ∧ d.dest ≠ 0xFFFFFFFF#32 ∧
    d.source ≠ d.dest ∧ 1 ≤ d.width ∧ d.width ≤ 16 ∧
    (∃ k : Fin 16, d.cls = k.val ∧ s.prb.active.classes[k].valid = true) ∧
    (∀ w, d.window = some w → w.start ≤ 319 ∧ 1 ≤ w.width ∧ w.width ≤ 320) ∧
    d.exNodes.length ≤ 8 ∧ d.exLinks.length ≤ 8 ∧
    (∀ n ∈ d.exNodes, n ≠ 0x00000000#32 ∧ n ≠ 0xFFFFFFFF#32) ∧ (∀ r ∈ d.exLinks, r.lid ≠ 0#16) ∧
    d.source ∉ d.exNodes ∧ d.dest ∉ d.exNodes) ∧
  ∀ (s : State) (t : Taken) (rest : List IntakeFrame), AtHead s t rest → t.code = 0x20 → Holds s t .request →
    (s.stc.part = .standby →
      exec .submit s = .next ((s.withIntake rest).respond t { code := .notReady, data := [] })) ∧
    (s.stc.part ≠ .standby →
      (t.params.length < 28 ∨ t.params.length < 28 + 4 * param1 t.params 26 + 6 * param1 t.params 27) →
      exec .submit s = .next ((s.withIntake rest).respond t { code := .malformed, data := [] })) ∧
    (s.stc.part ≠ .standby → 28 ≤ t.params.length →
      28 + 4 * param1 t.params 26 + 6 * param1 t.params 27 ≤ t.params.length →
      (∀ c, submitCodes t.params = some c → submitValuesGood s (submitDescriptor t c) = false) →
      exec .submit s = .next ((s.withIntake rest).respond t { code := .badValue, data := [] })) ∧
    (∀ c, s.stc.part ≠ .standby → 28 ≤ t.params.length →
      28 + 4 * param1 t.params 26 + 6 * param1 t.params 27 ≤ t.params.length →
      submitCodes t.params = some c → submitValuesGood s (submitDescriptor t c) = true →
      (s.standing (.mgmt t.source) t.tag ≠ .notLive →
        exec .submit s = .next ((s.withIntake rest).respond t { code := .duplicate, data := [] })) ∧
      (s.standing (.mgmt t.source) t.tag = .notLive → 64 ≤ s.rq.queue.length →
        exec .submit s = .next ((s.withIntake rest).respond t { code := .queueFull, data := [] })))

/-- R101, R103 and R105: a SUBMIT that passes every test is answered OK or CLAMPED with the depth after
its acceptance and any dispatch, and then enters the queue: while both engines are busy it stands after
every descriptor of its own or higher priority; with the queue empty and an engine IDLE the depth
answered is 0 and the descriptor is accepted and dispatched after the response. The descriptor's fields,
with R101's clamps, are written out. -/
def Obligations.AcceptedSubmitTakesItsPlace : Prop :=
  (∀ (s : State) (t : Taken) (rest : List IntakeFrame) (c : SubmitCodes), AtHead s t rest → t.code = 0x20 →
     Holds s t .request → s.stc.part ≠ .standby → 28 ≤ t.params.length →
     28 + 4 * param1 t.params 26 + 6 * param1 t.params 27 ≤ t.params.length →
     submitCodes t.params = some c → submitValuesGood s (submitDescriptor t c) = true →
     s.standing (.mgmt t.source) t.tag = .notLive → s.rq.queue.length < 64 →
     s.engA.mode ≠ .idle → s.engB.mode ≠ .idle →
     ∃ u r before after,
       r = (s.withIntake rest).respond t
         { code := if submitClamped t.params then .clamped else .ok, data := encByte (s.rq.queue.length + 1) } ∧
       exec .submit s = .next u ∧ s.rq.queue = before ++ after ∧
       (∀ x ∈ before, (submitDescriptor t c).priority ≤ x.priority) ∧
       (∀ x, after.head? = some x → x.priority < (submitDescriptor t c).priority) ∧
       u = { r with rq :=
         { queue := before ++ submitDescriptor t c :: after
           counters := { s.rq.counters with accepted := min (s.rq.counters.accepted + 1) 4294967295 } } }) ∧
  (∀ (s : State) (t : Taken) (rest : List IntakeFrame) (c : SubmitCodes), AtHead s t rest → t.code = 0x20 →
    Holds s t .request → s.stc.part ≠ .standby → 28 ≤ t.params.length →
    28 + 4 * param1 t.params 26 + 6 * param1 t.params 27 ≤ t.params.length →
    submitCodes t.params = some c → submitValuesGood s (submitDescriptor t c) = true →
    s.standing (.mgmt t.source) t.tag = .notLive → s.rq.queue = [] →
    (s.engA.mode = .idle ∨ s.engB.mode = .idle) →
    ∃ r, r = (s.withIntake rest).respond t
        { code := if submitClamped t.params then .clamped else .ok, data := [0] } ∧
      exec .submit s = .next (r.accept (submitDescriptor t c))) ∧
  (∀ ps : List Byte, submitClamped ps = true ↔
    7 < param1 ps 0 ∨ param1 ps 6 = 0 ∨ 32 < param1 ps 6 ∨ 3 < param1 ps 7 ∨ 3 < param1 ps 9 ∨
      3 < param1 ps 11) ∧
  (∀ (ps : List Byte) (c : SubmitCodes), submitCodes ps = some c ↔
    (param1 ps 3, c.order) ∈ [(0, Order.cost), (1, .hops)] ∧
    (param1 ps 4, c.policy) ∈ [(0, Policy.avoid), (1, .allow), (2, .penalize)] ∧
    (param1 ps 5, c.diversity) ∈ [(0, Diversity.none), (1, .link), (2, .node), (3, .srlg)] ∧
    (param1 ps 10, c.action) ∈ [(0, RerouteAction.notice), (1, .recompute)]) ∧
  (∀ (t : Taken) (c : SubmitCodes) (d : Descriptor) (retries : Nat), d = submitDescriptor t c →
    retries = (if 3 < param1 t.params 9 then 3 else param1 t.params 9) →
    d.requester = .mgmt t.source ∧ d.ingress = some t.port ∧ d.tag = t.tag ∧
    d.priority = (if 7 < param1 t.params 0 then 7 else param1 t.params 0) ∧
    d.width = param1 t.params 1 ∧ d.cls = param1 t.params 2 ∧
    d.order = c.order ∧ d.policy = c.policy ∧ d.diversity = c.diversity ∧ d.action = c.action ∧
    d.maxHops = (if param1 t.params 6 = 0 ∨ 32 < param1 t.params 6 then 32 else param1 t.params 6) ∧
    d.maxRegens = (if 3 < param1 t.params 7 then 3 else param1 t.params 7) ∧
    d.window = (if (t.params.getD 8 0).getLsbD 0
      then some { start := fieldNat t.params 20 2, width := fieldNat t.params 22 2 } else none) ∧
    d.hold = (t.params.getD 8 0).getLsbD 1 ∧ d.retryLimit = retries ∧ d.retries = retries ∧
    d.rerouteLimit = (if 3 < param1 t.params 11 then 3 else param1 t.params 11) ∧
    d.source = field32 t.params 12 ∧ d.dest = field32 t.params 16 ∧ d.limit = fieldNat t.params 24 2 ∧
    d.exNodes = (List.range (param1 t.params 26)).map (fun k => field32 t.params (28 + 4 * k)) ∧
    d.exLinks = (List.range (param1 t.params 27)).map (fun k =>
      ⟨field32 t.params (28 + 4 * param1 t.params 26 + 6 * k),
        field16 t.params (32 + 4 * param1 t.params 26 + 6 * k)⟩))

/-- R105, R106 and R78: outside STANDBY, a descriptor that enters an empty queue while an engine is IDLE
is dispatched in the same event, to engine A when it is IDLE and to engine B while A is busy. With a valid
class, LIVE endpoints and a window start, its primary phase starts with the root label alone; the engine's
copies of the class (R61), of the adjusted window (R68), of its window starts (R69) and of the limit are
written out. A class that is not valid completes it BAD_CLASS, an endpoint that is not LIVE UNKNOWN_ENDPOINT,
and no window start NO_PATH with a spectrum tally of 1: the engine is IDLE and the RESULT enters the ingress
port's queue. The head of a queue that waits is dispatched in the same way, and the arbiter goes on; its
result is handed on as R111 says (Delivers), to the watch list, to a port with or without a place (log entry
4), or discarded for a disabled port (log entry 6). That an engine COMPLETING after BAD_CLASS or
UNKNOWN_ENDPOINT holds the items it has not copied as it held them IDLE is log entry 39, and that such a result
carries no WINDOW_ADJUSTED, whatever an earlier dispatch of the request changed, log entry 40. -/
def Obligations.SubmissionIsDispatchedAtOnce : Prop :=
  (∀ (s : State) (d : Descriptor), s.stc.part ≠ .standby → s.rq.queue = [] → s.engA.mode = .idle →
     (s.prb.active.classEntry d.cls).valid = true →
     liveNode s.tst.nodes d.source = true → liveNode s.tst.nodes d.dest = true →
     windowStarts (adjustWindow d.window) d.width ≠ 0#320 →
     (s.accept d).rq.queue = [] ∧ (s.accept d).engB = s.engB ∧
     (s.accept d).engA.mode = .primary ∧ (s.accept d).engA.request = some d ∧
     (s.accept d).engA.budget =
       noiseTerm (min 400 ((s.prb.active.classEntry d.cls).qReq + (s.prb.active.classEntry d.cls).margin)) ∧
     (s.accept d).engA.touched = [] ∧ (s.accept d).engA.overflow = false ∧
     (s.accept d).engA.limit = (if d.limit = 0 then s.cfg.expansionLimit else d.limit) ∧
     (s.accept d).engA.pool.map (fun l => (l.node, l.cost, l.noise, l.hops, l.regens, l.starts)) =
       [(d.source, 0, 0, 0, 0, windowStarts (adjustWindow d.window) d.width)]) ∧
  (∀ (s : State) (d : Descriptor) (e : EngineId) (c : ClassEntry) (w : AdjustedWindow) (starts : SlotSet)
    (x : Engine), s.stc.part ≠ .standby → (s.engine e).mode = .idle → (e = .b → s.engA.mode ≠ .idle) →
    c = s.prb.active.classEntry d.cls → c.valid = true →
    liveNode s.tst.nodes d.source = true → liveNode s.tst.nodes d.dest = true →
    w = adjustWindow d.window → starts = windowStarts w d.width → starts ≠ 0#320 →
    x = { mode := .primary, request := some d, budget := noiseTerm (min 400 (c.qReq + c.margin))
          regenCost := c.regenCost, windowStart := w.start, windowEnd := w.stop, windowAdjusted := w.adjusted
          starts := starts, limit := if d.limit = 0 then s.cfg.expansionLimit else d.limit
          counts := { expansions := 0, spectrum := 0, noise := 0, hops := 0, excluded := 0, dominated := 0
                      truncated := false }
          nextNumber := 1
          pool := [{ node := d.source, pred := none, via := none, cost := 0, noise := 0, hops := 0
                     regens := 0, regenerated := false, starts := starts, closed := false, number := 0 }]
          touched := [], overflow := false, primary := none, endOrder := .none, result := none } →
    (s.rq.queue = [] →
      s.accept d = ({ s with rq := { queue := [], counters := { s.rq.counters with
        accepted := min (s.rq.counters.accepted + 1) 4294967295 } } }).setEngine e x) ∧
    (∀ rest, s.rq.queue = d :: rest →
      s.runArbiter = (({ s with rq := { s.rq with queue := rest } }).setEngine e x).runArbiter)) ∧
  (∀ s : State, s.stc.part = .standby ∨ s.rq.queue = [] ∨ (s.engA.mode ≠ .idle ∧ s.engB.mode ≠ .idle) →
    s.runArbiter = s) ∧
  (∀ (s : State) (d : Descriptor), ∃ before after, s.rq.queue = before ++ after ∧
    (∀ x ∈ before, d.priority ≤ x.priority) ∧ (∀ x, after.head? = some x → x.priority < d.priority) ∧
    s.accept d = State.runArbiter { s with rq :=
      { queue := before ++ d :: after
        counters := { s.rq.counters with accepted := min (s.rq.counters.accepted + 1) 4294967295 } } }) ∧
  (∀ (b : Bank) (k : Fin 16), b.classEntry k.val = b.classes[k]) ∧
  (adjustWindow none = { start := 0, stop := 320, adjusted := false }) ∧
  (∀ (v : Window) (start width : Nat), start = 2 * (v.start / 2) → width = 4 * (v.width / 4) →
    (adjustWindow (some v)).start = start ∧ (adjustWindow (some v)).stop = min (start + width) 320 ∧
    ((adjustWindow (some v)).adjusted = true ↔
      v.start ≠ start ∨ v.width ≠ width ∨ 320 < start + width)) ∧
  (∀ (w : AdjustedWindow) (width k : Nat), w.stop ≤ 320 →
    ((windowStarts w width).getLsbD k = true ↔ k < 320 ∧ w.start ≤ k ∧ k + width ≤ w.stop)) ∧
  (∀ (s : State) (d : Descriptor) (e : EngineId) (a : Address) (p : Port) (c : ClassEntry) (live : Prop)
    (st : Status) (adjusted : Bool) (counts : Option PhaseCounts), s.stc.part ≠ .standby →
    s.rq.queue = [] → (s.engine e).mode = .idle → (e = .b → s.engA.mode ≠ .idle) →
    d.requester = .mgmt a → d.ingress = some p → s.enabled p = true →
    (s.port p).localQueue.length < 16 → s.waiters p = 0 → c = s.prb.active.classEntry d.cls →
    live = (liveNode s.tst.nodes d.source = true ∧ liveNode s.tst.nodes d.dest = true) →
    (c.valid = false ∧ st = .badClass ∧ adjusted = false ∧ counts = none ∨
      c.valid = true ∧ ¬live ∧ st = .unknownEndpoint ∧ adjusted = false ∧ counts = none ∨
      c.valid = true ∧ live ∧ windowStarts (adjustWindow d.window) d.width = 0#320 ∧ st = .noPath ∧
        adjusted = (adjustWindow d.window).adjusted ∧
        counts = some { expansions := 0, spectrum := 1, noise := 0, hops := 0, excluded := 0
                        dominated := 0, truncated := false }) →
    s.accept d = State.delivered { s with rq := { queue := [], counters := { s.rq.counters with
        accepted := min (s.rq.counters.accepted + 1) 4294967295 } } } e a p
      { tag := d.tag, outcome := .failed, primary := st
        protection := if d.diversity = .none then .notRequested else .notAttempted
        truncated := false, provisional := s.stc.part == .settling, windowAdjusted := adjusted
        holdRefused := false, watchId := none, primaryPhase := counts, protectionPhase := none
        primaryPath := none, protectionPath := none }) ∧
  (∀ (s : State) (d : Descriptor) (rest : List Descriptor) (e : EngineId) (c : ClassEntry)
    (w : AdjustedWindow) (x : Engine) (live : Prop) (st : Status) (adjusted : Bool)
    (tallies : PhaseCounts) (counts : Option PhaseCounts), s.stc.part ≠ .standby →
    s.rq.queue = d :: rest → (s.engine e).mode = .idle → (e = .b → s.engA.mode ≠ .idle) →
    c = s.prb.active.classEntry d.cls → w = adjustWindow d.window →
    live = (liveNode s.tst.nodes d.source = true ∧ liveNode s.tst.nodes d.dest = true) →
    tallies = { expansions := 0, spectrum := 1, noise := 0, hops := 0, excluded := 0, dominated := 0
                truncated := false } →
    (c.valid = false ∧ st = .badClass ∧ adjusted = false ∧ counts = none ∧ x = s.engine e ∨
      c.valid = true ∧ ¬live ∧ st = .unknownEndpoint ∧ adjusted = false ∧ counts = none ∧ x = s.engine e ∨
      c.valid = true ∧ live ∧ windowStarts w d.width = 0#320 ∧ st = .noPath ∧ adjusted = w.adjusted ∧
        counts = some tallies ∧
        x = { mode := .primary, request := some d, budget := noiseTerm (min 400 (c.qReq + c.margin))
              regenCost := c.regenCost, windowStart := w.start, windowEnd := w.stop
              windowAdjusted := w.adjusted, starts := 0
              limit := if d.limit = 0 then s.cfg.expansionLimit else d.limit
              counts := tallies, nextNumber := 0, pool := [], touched := [], overflow := false
              primary := none, endOrder := .none, result := none }) →
    ∃ u, Delivers (({ s with rq := { s.rq with queue := rest } }).setEngine e x) u e d
        { tag := d.tag, outcome := .failed, primary := st
          protection := if d.diversity = .none then .notRequested else .notAttempted
          truncated := false, provisional := s.stc.part == .settling, windowAdjusted := adjusted
          holdRefused := false, watchId := none, primaryPhase := counts, protectionPhase := none
          primaryPath := none, protectionPath := none } ∧
      s.runArbiter = u.runArbiter)

/-- R112 and R113: what CANCEL does wherever the named request stands, for every state and parameters of
5 bytes or more: another requester's address needs CONFIGURE; a request in COMPLETING is answered
TOO_LATE and one not live NOT_FOUND; a searching one is answered OK and its engine ordered to end, an
earlier order standing (log entry 13); a queued one is answered OK and then leaves the queue with its
CANCELLED result, which enters the ingress port's queue, or is discarded and counted (for a disabled port
by RQ too, log entry 6). Where a request stands is written out, queue first and then the engines (R99, R112);
one whose search the watch list has cancelled is not live (log entry 22). The presence byte of the address is
read by log entries 8 and 26, and a place is free when the frames that wait leave one (log entry 4). That the
result of a request re-queued before carries no WINDOW_ADJUSTED is log entry 40. -/
def Obligations.CancelActsByStanding : Prop :=
  (∀ (s : State) (r : Requester) (tag : Word16) (queued : Prop) (runs : EngineId → Prop),
    queued = (∃ d ∈ s.rq.queue, d.requester = r ∧ d.tag = tag) →
    runs = (fun e => (s.engine e).mode ≠ .idle ∧ (s.engine e).endOrder ≠ .release ∧
      ∃ d, (s.engine e).request = some d ∧ d.requester = r ∧ d.tag = tag) →
    (s.standing r tag = .queued ↔ queued) ∧
    (∀ e, s.standing r tag = .searching e ↔ ¬queued ∧ runs e ∧ (e = .b → ¬runs .a) ∧
      ((s.engine e).mode = .primary ∨ (s.engine e).mode = .protection)) ∧
    (∀ e, s.standing r tag = .completing e ↔
      ¬queued ∧ runs e ∧ (e = .b → ¬runs .a) ∧ (s.engine e).mode = .completing) ∧
    (s.standing r tag = .notLive ↔ ¬queued ∧ ∀ e, ¬runs e)) ∧
  ∀ (s : State) (t : Taken) (rest : List IntakeFrame) (a : Address), AtHead s t rest → t.code = 0x21 →
    Holds s t .request → 5 ≤ t.params.length →
    a = (if t.params.getD 0 0 = 0 then t.source else field32 t.params 1) →
    (a ≠ t.source → ¬ Holds s t .configure →
      exec .cancel s = .next ((s.withIntake rest).respond t { code := .denied, data := [] })) ∧
    ((a = t.source ∨ Holds s t .configure) →
      (∀ e, s.standing (.mgmt a) t.tag = .completing e →
        exec .cancel s = .next ((s.withIntake rest).respond t { code := .tooLate, data := [] })) ∧
      (s.standing (.mgmt a) t.tag = .notLive →
        exec .cancel s = .next ((s.withIntake rest).respond t { code := .notFound, data := [] })) ∧
      ∀ r, r = (s.withIntake rest).respond t { code := .ok, data := [] } →
        (∀ e, s.standing (.mgmt a) t.tag = .searching e →
          exec .cancel s = .next (r.setEngine e { s.engine e with
            endOrder := if (s.engine e).endOrder = .none then .cancel else (s.engine e).endOrder })) ∧
        (s.standing (.mgmt a) t.tag = .queued →
          ∃ d, s.rq.queue.find? (fun x => x.requester == .mgmt a && x.tag == t.tag) = some d) ∧
        (∀ (d : Descriptor) (v : State),
          s.rq.queue.find? (fun x => x.requester == .mgmt a && x.tag == t.tag) = some d →
          v = { r with rq := { r.rq with
            queue := s.rq.queue.filter (fun x => !(x.requester == .mgmt a && x.tag == t.tag)) } } →
          s.standing (.mgmt a) t.tag = .queued ∧
          (d.ingress = none → exec .cancel s = .next v) ∧
          (∀ p, d.ingress = some p →
            (s.enabled p = false →
              exec .cancel s = .next
                (({ v with rq := { v.rq with counters := { v.rq.counters with
                    resultsDiscarded := min (v.rq.counters.resultsDiscarded + 1) 4294967295 } } }).setPort p
                  { v.port p with counters := { (v.port p).counters with
                    localDiscarded := min ((v.port p).counters.localDiscarded + 1) 4294967295 } })) ∧
            (s.enabled p = true → 16 ≤ (v.port p).localQueue.length + v.waiters p →
              exec .cancel s = .next (v.setPort p
                { v.port p with counters := { (v.port p).counters with
                  localDiscarded := min ((v.port p).counters.localDiscarded + 1) 4294967295 } })) ∧
            (s.enabled p = true → (v.port p).localQueue.length + v.waiters p < 16 →
              exec .cancel s = .next (v.setPort p
                { v.port p with localQueue := (v.port p).localQueue ++
                  [outgoing p (originated s.cfg.engineAddress a 0x52 (encResult
                    { tag := t.tag, outcome := .failed, primary := .cancelled
                      protection := if d.diversity = .none then .notRequested else .notAttempted
                      truncated := false, provisional := s.stc.part == .settling, windowAdjusted := false
                      holdRefused := false, watchId := none, primaryPhase := none, protectionPhase := none
                      primaryPath := none, protectionPath := none }))] })))))

/-! ## The watch list's commands -/

/-- R135 and R137: RELEASE WATCH by id, owner and right, where a released entry goes with its claims and is
answered OK; nothing else changes for one that is not REROUTING, or whose reroute request is not live. R113:
the request of a REROUTING entry leaves the queue, or its search is ordered to end, in place of an earlier
order (log entry 13), and no result is made. QUERY WATCH answers with the entry as it stands and changes
nothing; its data are written out, and their encodings are the model's choice (log entries 14 and 36). -/
def Obligations.WatchCommandsActOnTheEntry : Prop :=
  (∀ (s : State) (t : Taken) (rest : List IntakeFrame) (id : Byte) (more : List Byte),
    AtHead s t rest → t.code = 0x22 → Holds s t .request → t.params = id :: more →
    (128 ≤ id.toNat →
      exec .releaseWatch s = .next ((s.withIntake rest).respond t { code := .badIndex, data := [] })) ∧
    (id.toNat < 128 → findWatch s.pwl.entries id.toNat = none →
      exec .releaseWatch s = .next ((s.withIntake rest).respond t { code := .notFound, data := [] })) ∧
    (∀ w, id.toNat < 128 → findWatch s.pwl.entries id.toNat = some w →
      (w.requester ≠ t.source → ¬ Holds s t .configure →
        exec .releaseWatch s = .next ((s.withIntake rest).respond t { code := .denied, data := [] })) ∧
      ((w.requester = t.source ∨ Holds s t .configure) → w.state ≠ .rerouting →
        ∀ left : WatchList,
        left.entries = s.pwl.entries.filter (fun x => x.id != id.toNat) →
        left.overlay.slots = s.pwl.overlay.slots.filter (fun c => c.owner != id.toNat) →
        left.overlay.regens = s.pwl.overlay.regens.filter (fun c => c.owner != id.toNat) →
        exec .releaseWatch s = .next
          (({ s.withIntake rest with pwl := left }).respond t { code := .ok, data := [] })) ∧
      ((w.requester = t.source ∨ Holds s t .configure) → w.state = .rerouting →
        ∀ (left : WatchList) (raised : Descriptor → Bool) (live : EngineId → Prop),
        left.entries = s.pwl.entries.filter (fun x => x.id != id.toNat) →
        left.overlay.slots = s.pwl.overlay.slots.filter (fun c => c.owner != id.toNat) →
        left.overlay.regens = s.pwl.overlay.regens.filter (fun c => c.owner != id.toNat) →
        raised = (fun d => d.requester == .watchList && d.tag == BitVec.ofNat 16 id.toNat) →
        live = (fun e => (s.engine e).mode ≠ .idle ∧ (s.engine e).endOrder ≠ .release ∧
          ∃ d, (s.engine e).request = some d ∧ raised d = true) →
        ((∃ d ∈ s.rq.queue, raised d = true) →
          exec .releaseWatch s = .next (({ s.withIntake rest with
            pwl := left
            rq := { s.rq with queue := s.rq.queue.filter (fun d => !raised d) } }).respond t
              { code := .ok, data := [] })) ∧
        ((∀ d ∈ s.rq.queue, raised d = false) →
          (∀ e, live e → ((s.engine e).mode = .primary ∨ (s.engine e).mode = .protection) →
            (∀ k, live k → k = e) →
            exec .releaseWatch s = .next ((({ s.withIntake rest with pwl := left }).setEngine e
              { s.engine e with endOrder := .release }).respond t { code := .ok, data := [] })) ∧
          ((∀ e, ¬live e) →
            exec .releaseWatch s = .next
              (({ s.withIntake rest with pwl := left }).respond t { code := .ok, data := [] })))))) ∧
  (∀ (s : State) (t : Taken) (rest : List IntakeFrame) (id : Byte) (more : List Byte),
    AtHead s t rest → t.code = 0x23 → Holds s t .query → t.params = id :: more →
    (128 ≤ id.toNat →
      exec .queryWatch s = .next ((s.withIntake rest).respond t { code := .badIndex, data := [] })) ∧
    (id.toNat < 128 → findWatch s.pwl.entries id.toNat = none →
      exec .queryWatch s = .next ((s.withIntake rest).respond t { code := .notFound, data := [] })) ∧
    (∀ w, id.toNat < 128 → findWatch s.pwl.entries id.toNat = some w →
      exec .queryWatch s = .next ((s.withIntake rest).respond t { code := .ok, data := watchData s w }))) ∧
  (∀ (s : State) (w : WatchEntry) (path : HeldPath → List Byte) (hops : List (HeldSegment × Hop)),
    path = (fun p => encByte (p.flatMap (·.hops)).length
      ++ (p.flatMap (·.hops)).flatMap (fun h => enc4 h.ref.origin.toNat ++ enc2 h.ref.lid.toNat
          ++ enc4 h.reached.toNat ++ encMark h.regen)
      ++ encByte p.length ++ p.flatMap (fun g => enc2 g.start ++ encByte g.width)) →
    hops = (w.primary ++ w.protection.getD []).flatMap (fun g => g.hops.map (fun h => (g, h))) →
    ∃ confirmed : List Bool,
      (w.state ≠ .reserved → confirmed = []) ∧
      (w.state = .reserved → confirmed.length = hops.length ∧
        ∀ (k : Nat) (g : HeldSegment) (h : Hop), hops[k]? = some (g, h) →
          (confirmed[k]? = some true ↔ ∃ l, findLink s.tst.nodes h.ref = some l ∧
            ∀ x ∈ hops, x.2.ref = h.ref → ∀ j, x.1.start ≤ j → j < x.1.start + x.1.width → j < 320 →
              l.occupied.getLsbD j = true)) ∧
      watchData s w = encByte w.id
        ++ encByte (match w.state with
            | .reserved => 0
            | .active => 1
            | .violated => 2
            | .rerouting => 3
            | .stalled => 4)
        ++ encByte 0 ++ enc4 w.requester.toNat ++ enc2 w.tag.toNat
        ++ enc4 w.desc.source.toNat ++ enc4 w.desc.dest.toNat ++ encByte w.desc.width ++ encByte w.desc.cls
        ++ encByte (if w.desc.order = .cost then 0 else 1)
        ++ encByte (match w.desc.policy with
            | .avoid => 0
            | .allow => 1
            | .penalize => 2)
        ++ encByte (match w.desc.diversity with
            | .none => 0
            | .link => 1
            | .node => 2
            | .srlg => 3)
        ++ encByte (if w.desc.action = .notice then 0 else 1) ++ encByte w.desc.rerouteLimit
        ++ enc4 w.budget ++ enc2 w.regenCost
        ++ path w.primary
        ++ (match w.protection with
            | some p => 1 :: path p
            | none => [0, 0, 0])
        ++ (match w.reason with
            | none => [0, 0]
            | some r => 1 :: encByte (match r with
                | .linkGone => 0
                | .linkDown => 1
                | .linkDegraded => 2
                | .nodeGone => 3
                | .budget => 4))
        ++ (if w.state = .reserved then 1 :: encByte w.timer else [0, 0])
        ++ encByte w.rerouteLeft ++ encMark w.submitPending
        ++ encByte confirmed.length ++ confirmed.flatMap encMark)

/-! ## The Profile Banks -/

/-- R141: WRITE DIALECT ENTRY is judged BAD_INDEX, then DUPLICATE, then clamps mul and shift; the entry
at the named place of the staged bank takes all six fields, and every other entry stands. Any value but 0
sets the mark (log entry 8), and the shift takes one byte (log entry 9). -/
def Obligations.WriteDialectEntryStagesTheEntry : Prop :=
  (∀ (n : Nat) (x : Target), targetOfCode n = some x ↔
    (n, x) ∈ [(0, Target.nodeLifetime), (1, .nodeRegens), (2, .nodeTransitQ), (3, .linkCost), (4, .linkQ),
      (5, .linkRemoteId), (6, .linkOccupancy), (7, .linkSrlg), (8, .linkAdmin)]) ∧
  ∀ (s : State) (t : Taken) (rest : List IntakeFrame), AtHead s t rest → t.code = 0x30 →
    Holds s t .configure → 10 ≤ t.params.length →
    ((param1 t.params 0 = 0 ∨ 9 ≤ param1 t.params 0 ∨ 32 ≤ param1 t.params 1 ∨ 9 ≤ param1 t.params 4) →
      exec .writeDialectEntry s = .next ((s.withIntake rest).respond t { code := .badIndex, data := [] })) ∧
    (∀ (d : Fin 8) (i : Fin 32) (target : Target) (taken : Prop) (e : DialectEntry),
      param1 t.params 0 = d.val + 1 → param1 t.params 1 = i.val →
      targetOfCode (param1 t.params 4) = some target →
      taken = (t.params.getD 2 0 ≠ 0 ∧ ∃ j : Fin 32, j ≠ i ∧
        s.prb.staged.dialects[d][j].valid = true ∧ s.prb.staged.dialects[d][j].code = t.params.getD 3 0) →
      e.valid = (t.params.getD 2 0 != 0) → e.code = t.params.getD 3 0 → e.target = target →
      e.mul = max 1 (fieldNat t.params 5 2) → e.shift = min 15 (param1 t.params 7) →
      e.offset = (BitVec.ofNat 16 (fieldNat t.params 8 2)).toInt →
      (taken → exec .writeDialectEntry s = .next
          ((s.withIntake rest).respond t { code := .duplicate, data := [] })) ∧
      (¬taken → exec .writeDialectEntry s = .next
          (((s.withIntake rest).setStaged { s.prb.staged with
              dialects := s.prb.staged.dialects.set d (s.prb.staged.dialects[d].set i e) }).respond t
            { code := if fieldNat t.params 5 2 = 0 ∨ 15 < param1 t.params 7 then .clamped else .ok
              data := [] })))

/-- R142 and R143: CLEAR DIALECT clears the valid marks of the dialect's 32 staged entries and nothing
else; WRITE CLASS clamps q_req and margin and writes the staged entry. That any mark byte but 0 sets the valid
mark (log entry 8) and that the margin takes two bytes (log entry 9) are the model's choices. -/
def Obligations.ClearDialectAndWriteClass : Prop :=
  (∀ (s : State) (t : Taken) (rest : List IntakeFrame) (dialect : Byte) (more : List Byte),
    AtHead s t rest → t.code = 0x31 → Holds s t .configure → t.params = dialect :: more →
    ((dialect.toNat = 0 ∨ 9 ≤ dialect.toNat) →
      exec .clearDialect s = .next ((s.withIntake rest).respond t { code := .badIndex, data := [] })) ∧
    (∀ d : Fin 8, dialect.toNat = d.val + 1 →
      exec .clearDialect s = .next
        (((s.withIntake rest).setStaged { s.prb.staged with
            dialects := s.prb.staged.dialects.set d
              (s.prb.staged.dialects[d].map (fun e => { e with valid := false })) }).respond t
          { code := .ok, data := [] }))) ∧
  (∀ (s : State) (t : Taken) (rest : List IntakeFrame), AtHead s t rest → t.code = 0x32 →
    Holds s t .configure → 8 ≤ t.params.length →
    (16 ≤ param1 t.params 0 →
      exec .writeClass s = .next ((s.withIntake rest).respond t { code := .badIndex, data := [] })) ∧
    (∀ (k : Fin 16) (e : ClassEntry), param1 t.params 0 = k.val →
      e.valid = (t.params.getD 1 0 != 0) → e.qReq = min 400 (fieldNat t.params 2 2) →
      e.margin = min 100 (fieldNat t.params 4 2) → e.regenCost = fieldNat t.params 6 2 →
      exec .writeClass s = .next
        (((s.withIntake rest).setStaged { s.prb.staged with
            classes := s.prb.staged.classes.set k e }).respond t
          { code := if 400 < fieldNat t.params 2 2 ∨ 100 < fieldNat t.params 4 2 then .clamped else .ok
            data := [] })))

/-- R144: READ TABLE returns an entry of either bank of either table, or BAD_INDEX. The entries' bytes are
written out. The margin's two bytes and the shift's one are the model's choices (log entry 9), and so is that
only the dialect table needs a fourth byte, the index (log entry 15). -/
def Obligations.ReadTableReturnsTheEntry : Prop :=
  (∀ e : DialectEntry, ∃ n, targetOfCode n = some e.target ∧ encDialectEntry e =
    encMark e.valid ++ [e.code] ++ encByte n ++ enc2 e.mul ++ encByte e.shift
      ++ enc2 (BitVec.ofInt 16 e.offset).toNat) ∧
  (∀ e : ClassEntry, encClassEntry e =
    encMark e.valid ++ enc2 e.qReq ++ enc2 e.margin ++ enc2 e.regenCost) ∧
  ∀ (s : State) (t : Taken) (rest : List IntakeFrame) (bank table x : Byte) (more : List Byte),
    AtHead s t rest → t.code = 0x33 → Holds s t .query → t.params = bank :: table :: x :: more →
    ((table = 0 → more ≠ []) → (2 ≤ bank.toNat ∨ 2 ≤ table.toNat ∨
        (table = 0 ∧ (x = 0 ∨ 9 ≤ x.toNat ∨ ∃ index, more.head? = some index ∧ 32 ≤ index.toNat)) ∨
        (table = 1 ∧ 16 ≤ x.toNat)) →
      exec .readTable s = .next ((s.withIntake rest).respond t { code := .badIndex, data := [] })) ∧
    (∀ (b : Bank), (bank = 0 ∧ b = s.prb.active ∨ bank = 1 ∧ b = s.prb.staged) →
      (∀ (d : Fin 8) (i : Fin 32) (index : Byte), table = 0 → more.head? = some index →
        x.toNat = d.val + 1 → index.toNat = i.val →
        exec .readTable s = .next ((s.withIntake rest).respond t
          { code := .ok, data := encDialectEntry b.dialects[d][i] })) ∧
      (∀ k : Fin 16, table = 1 → x.toNat = k.val →
        exec .readTable s = .next ((s.withIntake rest).respond t
          { code := .ok, data := encClassEntry b.classes[k] })))

/-- R145 and R146: COMMIT sets the mark; DISCARD STAGED copies the active bank into the staged one,
every entry with every field, and clears the mark. -/
def Obligations.CommitMarksAndDiscardCopiesBack : Prop :=
  (∀ (s : State) (t : Taken) (rest : List IntakeFrame), AtHead s t rest → t.code = 0x34 →
    Holds s t .configure →
    exec .commit s = .next
      (({ s.withIntake rest with prb := { s.prb with commitPending := true } }).respond t
        { code := .ok, data := [] })) ∧
  (∀ (s : State) (t : Taken) (rest : List IntakeFrame), AtHead s t rest → t.code = 0x35 →
    Holds s t .configure →
    exec .discardStaged s = .next
      (({ s.withIntake rest with
          prb := { active := s.prb.active, staged := s.prb.active, commitPending := false } }).respond t
        { code := .ok, data := [] }))

/-! ## Events -/

/-- R182: ACK EVENTS reads each listed class, then clears it and its queued notice; the others stand. Each
class read is a pending-flag byte and the fields of a notice payload. -/
def Obligations.AckEventsReadsThenClears : Prop :=
  (∀ (u : EventUnit) (cs : List EventClass), encList (encAcked u) cs =
    encByte cs.length ++ cs.flatMap (fun c => encMark (u.get c).pending
      ++ (encByte (eventIndex c + 1) ++ encByte (u.get c).count ++ encByte (reasonCode (u.get c).reason)
        ++ encByte (subjectKind (u.get c).subject) ++ encSubject (u.get c).subject))) ∧
  ∀ (s : State) (t : Taken) (rest : List IntakeFrame), AtHead s t rest → t.code = 0x40 →
    Holds s t .configure → 4 ≤ t.params.length →
    ∃ u, exec .ackEvents s = .next (({ s.withIntake rest with evu := u }).respond t
        { code := .ok, data := encList (encAcked s.evu)
            (allEvents.filter (fun c => (fieldNat t.params 0 4).testBit (eventIndex c))) }) ∧
      (∀ c, u.get c = if (fieldNat t.params 0 4).testBit (eventIndex c) then EventClassState.clear
        else s.evu.get c) ∧
      u.notices = s.evu.notices.filter (fun n => !(fieldNat t.params 0 4).testBit (eventIndex n.cls))

/-- R179: raising a class sets its flag, counts to 255, and replaces subject and reason; a queued entry
is updated in place, and a new entry is appended exactly when the flag was clear and notices of the
class are wanted. -/
def Obligations.RaisingAClass : Prop :=
  ∀ (s : State) (c k : EventClass) (x : Subject) (r : Reason),
    (s.raise c x r).evu.get c =
      { pending := true, count := min ((s.evu.get c).count + 1) 255, subject := x, reason := r } ∧
    (k ≠ c → (s.raise c x r).evu.get k = s.evu.get k) ∧
    (s.evu.queued c = true → (s.raise c x r).evu.notices = s.evu.notices.map (fun n =>
      if n.cls = c then
        { cls := c, count := min ((s.evu.get c).count + 1) 255, subject := x, reason := r } else n)) ∧
    (s.evu.queued c = false → (s.raise c x r).evu.notices = s.evu.notices ++
      (if (s.evu.get c).pending = false ∧ eventIn s.cfg.eventEnable c = true ∧ s.cfg.noticeAddress ≠ 0#32 then
        [{ cls := c, count := min ((s.evu.get c).count + 1) 255, subject := x, reason := r }] else []))

/-! ## Frames at the ports -/

/-- R154, section 9.1.1: the bytes of a frame with a payload of at most 1500 bytes are read back as that
frame, whatever its check, and a frame the part originates passes its own check. The check is the complement
of the remainder of header and payload, bit by bit, by 04C11DB7h from FFFFFFFFh (dividedBytes). R162 and
R155: such a frame has flags and reserved 0, and carries tag F0h on the node port and none on a line port. -/
def Obligations.FramesReadBackFromTheirBytes : Prop :=
  (∀ f : Frame, f.payload.length ≤ 1500 → Frame.ofWire f.wire = some f) ∧
  (∀ (src dest : Address) (cls : Byte) (payload : List Byte), payload.length ≤ 1500 →
    (originated src dest cls payload).goodCheck = true) ∧
  (∀ f : Frame, f.wire = enc4 f.dest.toNat ++ enc4 f.src.toNat ++ [f.cls, f.flags]
    ++ enc2 f.payload.length ++ enc4 f.reserved.toNat ++ f.payload ++ enc4 f.check.toNat) ∧
  (∀ (f : Frame) (body : List Byte), body = enc4 f.dest.toNat ++ enc4 f.src.toNat ++ [f.cls, f.flags]
      ++ enc2 f.payload.length ++ enc4 f.reserved.toNat ++ f.payload →
    (f.goodCheck = true ↔ f.check = dividedBytes body) ∧
    ∀ (src dest : Address) (cls : Byte) (payload : List Byte), f = originated src dest cls payload →
      f = { dest, src, cls, flags := 0, reserved := 0, payload, check := dividedBytes body }) ∧
  (∀ (f : Frame) (i : Fin 8), outgoing .np f = { tag := some 0xF0, frame := f } ∧
    outgoing (.lp i) f = { tag := none, frame := f })

/-- R154, R155 and R164: a frame on a disabled port, an NP frame with a bad tag and a frame with a
length error are discarded, each with its own counter, and nothing else changes. -/
def Obligations.UnreadableFramesAreDiscarded : Prop :=
  ∀ (s : State) (p : Port) (tag : Option Byte) (bytes : List Byte),
    (s.enabled p = false →
      exec (.frameArrival p tag bytes) s = .next (s.setPort p { s.port p with counters :=
        { (s.port p).counters with
          receivedDisabled := min ((s.port p).counters.receivedDisabled + 1) 4294967295 } })) ∧
    (∀ b : Byte, s.enabled .np = true → p = .np → tag = some b → 8 ≤ b.toNat → b ≠ 0xFF →
      exec (.frameArrival p tag bytes) s = .next (s.setPort .np { s.port .np with counters :=
        { (s.port .np).counters with badTag := min ((s.port .np).counters.badTag + 1) 4294967295 } })) ∧
    (s.enabled p = true → (p = .np → ∃ b : Byte, tag = some b ∧ (b.toNat < 8 ∨ b = 0xFF)) →
      (bytes.length < 20 ∨ 1500 < fieldNat bytes 10 2 ∨ bytes.length ≠ 20 + fieldNat bytes 10 2) →
      exec (.frameArrival p tag bytes) s = .next (s.setPort p { s.port p with counters :=
        { (s.port p).counters with lengthErrors := min ((s.port p).counters.lengthErrors + 1) 4294967295 } }))

/-- R156 row 4, R157 and R159: a COMMAND for ENGINE_ADDRESS with a good check joins the intake queue with
its port, or is dropped when 8 wait; it is not passed. On NP its tag is one of 00h..07h and FFh, which a
command does not use. -/
def Obligations.CommandsAreConsumed : Prop :=
  ∀ (s : State) (p : Port) (tag : Option Byte) (f : Frame), s.enabled p = true →
    (p = .np → ∃ b : Byte, tag = some b ∧ (b.toNat < 8 ∨ b = 0xFF)) → f.payload.length ≤ 1500 →
    f.goodCheck = true → f.dest = s.cfg.engineAddress → f.cls = 0x50 →
    ∃ t, exec (.frameArrival p tag f.wire) s = .next t ∧
      t.spu.intake = (if s.spu.intake.length < 8 then s.spu.intake ++ [{ port := p, frame := f }]
        else s.spu.intake) ∧
      t = { (s.setPort p (t.port p)) with
            spu := { (s.setPort p (t.port p)).spu with intake := t.spu.intake } } ∧
      t.port p = { s.port p with counters :=
        { (s.port p).counters with
          framesReceived := min ((s.port p).counters.framesReceived + 1) 4294967295
          commandsTakenIn := if s.spu.intake.length < 8
            then min ((s.port p).counters.commandsTakenIn + 1) 4294967295
            else (s.port p).counters.commandsTakenIn
          commandsDropped := if s.spu.intake.length < 8 then (s.port p).counters.commandsDropped
            else min ((s.port p).counters.commandsDropped + 1) 4294967295 } }

/-- R154 to R158: a frame from a line port that is neither a command for the part nor an EPOCH MARK
joins NP's transit FIFO with the line port's number as its tag, is dropped and counted there when 64
wait, or is counted as for a disabled port; a bad check is counted and the frame passed all the same,
and an ADVERTISEMENT with a good check is copied to the translator. Any frame of any port that is not a
command for the part is passed to the port of its tag, or with tag FFh to every enabled line port; an
EPOCH MARK that arrives on EPOCH_PORT in FOLLOW with a good check is handed to Epoch Control first,
which outside STANDBY counts it as short, or as repeated, or takes it as an epoch event (R151, R147). -/
def Obligations.LinePortFramesPassToTheNodePort : Prop :=
  (∀ (s : State) (i : Fin 8) (f : Frame), s.enabled (.lp i) = true → f.payload.length ≤ 1500 →
     (f.goodCheck = true → f.cls ≠ 0x5E ∧ (f.cls = 0x50 → f.dest ≠ s.cfg.engineAddress)) →
     ∃ t, exec (.frameArrival (.lp i) none f.wire) s = .next t ∧
       t.spu.intake = s.spu.intake ∧ t.epc = s.epc ∧ t.prb = s.prb ∧ t.tst = s.tst ∧
       (f.goodCheck = true → f.cls = 0x41 →
         t.atr = (s.offerCopy f.payload).atr ∧ t.evu = (s.offerCopy f.payload).evu) ∧
       (f.goodCheck = false ∨ f.cls ≠ 0x41 → t.atr = s.atr ∧ t.evu = s.evu) ∧
       (t.port .np).transit = (s.port .np).transit ++
         (if s.enabled .np = true ∧ (s.port .np).transit.length < 64
           then [{ tag := some (BitVec.ofNat 8 i.val), frame := f }] else []) ∧
       (t.port .np).counters.transitDropped =
         (if s.enabled .np = true ∧ 64 ≤ (s.port .np).transit.length
           then min ((s.port .np).counters.transitDropped + 1) 4294967295
           else (s.port .np).counters.transitDropped) ∧
       (t.port .np).counters.transitToDisabled =
         (if s.enabled .np = true then (s.port .np).counters.transitToDisabled
           else min ((s.port .np).counters.transitToDisabled + 1) 4294967295) ∧
       (t.port (.lp i)).counters.badCheck =
         (if f.goodCheck then (s.port (.lp i)).counters.badCheck
           else min ((s.port (.lp i)).counters.badCheck + 1) 4294967295) ∧
       (∀ j, j ≠ i → t.port (.lp j) = s.port (.lp j))) ∧
  (∀ (s : State) (p : Port) (tag : Option Byte) (f : Frame) (copied marked : Prop), s.enabled p = true →
    (p = .np → ∃ b : Byte, tag = some b ∧ (b.toNat < 8 ∨ b = 0xFF)) → f.payload.length ≤ 1500 →
    ¬(f.goodCheck = true ∧ f.cls = 0x50 ∧ f.dest = s.cfg.engineAddress) →
    copied = (f.goodCheck = true ∧ f.cls = 0x41 ∧ s.stc.part ≠ .standby) →
    marked = (f.goodCheck = true ∧ f.cls = 0x5E ∧ p = s.cfg.epochPort ∧ s.cfg.epochMode = .follow ∧
      s.stc.part ≠ .standby) →
    ∃ t, exec (.frameArrival p tag f.wire) s = .next t ∧ Passed s t p tag f ∧
      t = { s with
            spu := { s.spu with ports := t.spu.ports }
            atr := t.atr, epc := t.epc, prb := t.prb, evu := t.evu } ∧
      (¬copied → t.atr = s.atr) ∧ (¬marked → t.epc = s.epc ∧ t.prb = s.prb) ∧
      (¬copied → ¬marked → t.evu = s.evu) ∧
      (copied →
        (s.atr.queue.length < 32 →
          t.atr = { s.atr with queue := s.atr.queue ++ [f.payload] } ∧ t.evu = s.evu) ∧
        (32 ≤ s.atr.queue.length →
          t.atr = { s.atr with counters := { s.atr.counters with
            queueFull := min (s.atr.counters.queueFull + 1) 4294967295 } } ∧
          t.evu = (s.raise .advertDropped .none .queue).evu)) ∧
      (marked → ∀ number, number = fieldNat f.payload 0 2 →
        (f.payload.length < 2 → t.prb = s.prb ∧ t.evu = s.evu ∧
          t.epc = { s.epc with counters := { s.epc.counters with
            short := min (s.epc.counters.short + 1) 4294967295 } }) ∧
        (2 ≤ f.payload.length → number = s.epc.number → t.prb = s.prb ∧ t.evu = s.evu ∧
          t.epc = { s.epc with counters := { s.epc.counters with
            repeated := min (s.epc.counters.repeated + 1) 4294967295 } }) ∧
        (2 ≤ f.payload.length → number ≠ s.epc.number →
          t.epc = { s.epc with
            number := number
            counters := { s.epc.counters with taken := min (s.epc.counters.taken + 1) 4294967295 } } ∧
          t.prb = (if s.prb.commitPending
            then { active := s.prb.staged, staged := s.prb.staged, commitPending := false } else s.prb) ∧
          t.evu = (if s.prb.commitPending
            then (s.raise .epochApplied (.epoch number) .none).evu else s.evu))))

/-- R163: the arbiter takes the head of the queue it did not serve last when both wait, the only head
otherwise, and records the queue it served; the end of a transmission is counted by its queue. -/
def Obligations.EgressAlternates : Prop :=
  (∀ (s : State) (p : Port), s.enabled p = true → (s.port p).transmitting = none →
    (∀ f more, (s.port p).transit = f :: more →
      ((s.port p).localQueue = [] ∨ (s.port p).lastServed = .localQueue) →
      exec (.egressTake p) s = .next (s.setPort p { s.port p with
        transit := more, lastServed := .transit
        transmitting := some { kind := .transit, frame := f } })) ∧
    (∀ f more, (s.port p).localQueue = f :: more →
      ((s.port p).transit = [] ∨ (s.port p).lastServed = .transit) →
      exec (.egressTake p) s = .next (s.setPort p { s.port p with
        localQueue := more, lastServed := .localQueue
        transmitting := some { kind := .localQueue, frame := f } }))) ∧
  (∀ (s : State) (p : Port) (x : Transmission), (s.port p).transmitting = some x →
    exec (.transmissionEnd p) s = .next (s.setPort p { s.port p with
      transmitting := none
      counters := { (s.port p).counters with
        sentTransit := if x.kind = .transit then min ((s.port p).counters.sentTransit + 1) 4294967295
          else (s.port p).counters.sentTransit
        sentLocal := if x.kind = .transit then (s.port p).counters.sentLocal
          else min ((s.port p).counters.sentLocal + 1) 4294967295 } }))

/-- R161, R162, R111 and R180: a freed place goes to the held response first, then to engine A's result,
then to engine B's, then to the notice queue's head; an engine whose result enters becomes IDLE. That a
row whose event cannot arise changes nothing, that the order is that of the entering, and that a waiting
RESULT takes the address in force then are the model's readings (log entries 5, 4 and 21). After an engine
became IDLE so the arbiter acts (R105). The fields of a notice's payload are written out (section 9.1.7). -/
def Obligations.FreedPlaceGoesInOrder : Prop :=
  (∀ (s : State) (r : HeldResponse), s.spu.hold = some r → (s.port r.port).localQueue.length < 16 →
    exec .heldResponseEnters s = .next
      (({ s with spu := { s.spu with hold := none } }).setPort r.port
        { s.port r.port with localQueue := (s.port r.port).localQueue ++ [r.frame] })) ∧
  (∀ s : State, (∀ r, s.spu.hold = some r → 16 ≤ (s.port r.port).localQueue.length) →
    exec .heldResponseEnters s = .next s) ∧
  (∀ (s : State) (e : EngineId), (s.engine e).mode ≠ .completing →
    exec (.completingResultEnters e) s = .next s) ∧
  (∀ s : State, s.evu.notices = [] → exec .noticeSend s = .next s) ∧
  (∀ (s : State) (e : EngineId) (p : Port) (d : Descriptor) (a : Address) (x : ResultRecord),
    (s.engine e).mode = .completing → (s.engine e).request = some d → d.ingress = some p →
    d.requester = .mgmt a → (s.engine e).result = some x →
    ((s.spu.hold.map (·.port)) = some p ∨ (e = .b ∧ s.engA.waitsFor = some p) ∨
        16 ≤ (s.port p).localQueue.length →
      exec (.completingResultEnters e) s = .next s) ∧
    ((s.spu.hold.map (·.port)) ≠ some p → ¬(e = .b ∧ s.engA.waitsFor = some p) →
      (s.port p).localQueue.length < 16 → s.rq.queue = [] →
      exec (.completingResultEnters e) s = .next ((s.setEngine e Engine.idle).setPort p
        { s.port p with localQueue := (s.port p).localQueue ++
          [outgoing p (originated s.cfg.engineAddress a 0x52 (encResult x))] })) ∧
    ((s.spu.hold.map (·.port)) ≠ some p → ¬(e = .b ∧ s.engA.waitsFor = some p) →
      (s.port p).localQueue.length < 16 →
      exec (.completingResultEnters e) s = .next ((s.setEngine e Engine.idle).setPort p
        { s.port p with localQueue := (s.port p).localQueue ++
          [outgoing p (originated s.cfg.engineAddress a 0x52 (encResult x))] }).runArbiter)) ∧
  (∀ (s : State) (n : NoticeEntry) (more : List NoticeEntry) (p : Port), s.evu.notices = n :: more →
    p = s.cfg.noticePort →
    ((s.enabled p = false ∨ s.waiters p ≠ 0 ∨ 16 ≤ (s.port p).localQueue.length) →
      exec .noticeSend s = .next s) ∧
    (s.enabled p = true → (s.port p).localQueue.length < 16 → s.waiters p = 0 →
      exec .noticeSend s = .next
        (({ s with evu := { s.evu with notices := more } }).setPort p
          { s.port p with localQueue := (s.port p).localQueue ++
            [outgoing p (originated s.cfg.engineAddress s.cfg.noticeAddress 0x53
              (encByte (eventIndex n.cls + 1) ++ encByte n.count ++ encByte (reasonCode n.reason)
                ++ encByte (subjectKind n.subject) ++ encSubject n.subject))] }))) ∧
  (∀ (k : Nat) (c : EventClass), (eventIndex c).val + 1 = k ↔
    (k, c) ∈ [(1, EventClass.nodeAdded), (2, .nodeExpired), (3, .tableFull), (4, .linkDegraded),
      (5, .linkRecovered), (6, .advertDropped), (7, .watchViolated), (8, .watchRerouted), (9, .watchStalled),
      (10, .reservationExpired), (11, .epochApplied), (12, .settled)]) ∧
  (∀ (k : Nat) (r : Reason), reasonCode r = k ↔
    (k, r) ∈ [(0, Reason.none), (1, .aged), (2, .flushed), (3, .nodes), (4, .links), (5, .queue),
      (6, .dialect), (7, .malformed)]) ∧
  (∀ (id : NodeId) (ref : LinkRef) (w : Nat) (tag : Word16) (number : Nat),
    (subjectKind .none = 0 ∧ encSubject .none = [0, 0, 0, 0, 0, 0]) ∧
    (subjectKind (.node id) = 1 ∧ encSubject (.node id) = enc4 id.toNat ++ [0, 0]) ∧
    (subjectKind (.link ref) = 2 ∧ encSubject (.link ref) = enc4 ref.origin.toNat ++ enc2 ref.lid.toNat) ∧
    (subjectKind (.watch w tag) = 3 ∧
      encSubject (.watch w tag) = encByte w ++ enc2 tag.toNat ++ [0, 0, 0]) ∧
    (subjectKind (.epoch number) = 4 ∧ encSubject (.epoch number) = enc2 number ++ [0, 0, 0, 0]))

/-! ## Time -/

/-- R167: each interval adds one to the count, and the interval that would take it past AGE_DIV takes
an age tick, which is offered to the blocks in SETTLING and OPERATE and to none in STANDBY. How a
block's action follows is the model's reading (log entry 3). -/
def Obligations.TimebaseCountsIntervals : Prop :=
  ∀ s : State, s.stc.offered = TickOffer.none →
    exec .timebaseInterval s = .next { s with stc := { s.stc with
      timebase := if s.cfg.ageDiv < s.stc.timebase + 1 then 0 else s.stc.timebase + 1
      offered := if s.cfg.ageDiv < s.stc.timebase + 1 ∧ s.stc.part ≠ .standby
        then { store := true, watch := true, epoch := true, settle := true } else TickOffer.none } }

/-- R18, R138, R149 and R170: in STANDBY an age tick reaches no block. What is owed on a tick is the model's
own field (log entry 3). -/
def Obligations.TicksReachNoBlockInStandby : Prop :=
  ∀ (s : State) (c : Instr), s.stc.part = .standby →
    c ∈ [Instr.timebaseInterval, .ageTick, .nodeAgeExpiry, .holdDownExpiry, .reservationExpiry,
      .epochTimerExpiry, .settleTimerExpiry] →
    ∃ t, exec c s = .next t ∧
      t = { s with stc := { s.stc with timebase := t.stc.timebase, offered := t.stc.offered } }

/-- R16 and R17: the store's action on a tick decrements every counter; a LIVE node at its last tick is
WITHDRAWN with HOLD_DOWN loaded and everything else kept, and a WITHDRAWN node at its last tick goes
with all its links. It is one store event: each aged node is raised in table order, the counters count,
the reports are the changes of R21, usability among them (R20), and the engines are marked (R22); then
the watch list takes the batch. What makes a link usable is R19, and several raises are taken one after
another. The tick's order is log entry 3; that the store's raises come before the watch list's own is the
model's reading, log entry 37; that a freed node's report stands before those of its links, log entry 42. -/
def Obligations.StoreAgesItsNodes : Prop :=
  (∀ (s : State) (c : Instr), s.stc.part ≠ .standby → s.stc.offered.store = true →
     ((c = .nodeAgeExpiry ∧ ∃ n ∈ s.tst.nodes, ∃ a, n.life = .live a ∧ a ≤ 1) ∨
      (c = .holdDownExpiry ∧ ∃ n ∈ s.tst.nodes, ∃ h, n.life = .withdrawn h ∧ h ≤ 1)) →
     ∃ t, exec c s = .next t ∧ t.cfg = s.cfg ∧ t.stc = { s.stc with offered := { s.stc.offered with store := false } } ∧
       t.tst.nodes = s.tst.nodes.filterMap (fun n =>
         match n.life with
         | .live a => some { n with life := if a ≤ 1 then .withdrawn s.cfg.holdDown else .live (a - 1) }
         | .withdrawn h => if h ≤ 1 then none else some { n with life := .withdrawn (h - 1) })) ∧
  (∀ (s : State) (c : Instr) (aged freed : List NodeEntry), s.stc.part ≠ .standby →
    s.stc.offered.store = true → TableSound s.tst.nodes →
    aged = s.tst.nodes.filter (fun n => match n.life with
      | .live a => decide (a ≤ 1)
      | .withdrawn _ => false) →
    freed = s.tst.nodes.filter (fun n => match n.life with
      | .live _ => false
      | .withdrawn h => decide (h ≤ 1)) →
    (c = .nodeAgeExpiry ∧ aged ≠ [] ∨ c = .holdDownExpiry ∧ freed ≠ []) →
    ∃ (u t : State) (rs : List Report), exec c s = .next t ∧ t = u.batch rs ∧ t.tst = u.tst ∧
      StoreEvent (s.setOffered { s.stc.offered with store := false }) u rs ∧
      (∃ us, rs = s.tst.nodes.flatMap tickReports ++ us ∧ UsabilityOrder us) ∧
      u.evu = (s.raiseAll (aged.map (fun n => ⟨.nodeExpired, .node n.id, .aged⟩))).evu ∧
      u.tst.counters = { s.tst.counters with
        nodesAged := if aged = [] then s.tst.counters.nodesAged
          else min (s.tst.counters.nodesAged + aged.length) 4294967295
        nodesFreed := if freed = [] then s.tst.counters.nodesFreed
          else min (s.tst.counters.nodesFreed + freed.length) 4294967295
        linksFreed := if freed = [] then s.tst.counters.linksFreed
          else min (s.tst.counters.linksFreed + (freed.map (fun n => n.links.length)).sum) 4294967295 }) ∧
  (∀ (twoWay : Bool) (nodes : List NodeEntry) (o : NodeEntry) (l : Link),
    usable twoWay nodes o l = true ↔ o.isLive = true ∧
      ∃ r, findNode nodes l.remote = some r ∧ r.isLive = true ∧ l.admin = .up ∧
        (twoWay = true → ∃ k ∈ r.links, k.remote = o.id ∧ ∀ x, l.remoteLid = some x → k.lid = x)) ∧
  (∀ s : State, s.raiseAll [] = s ∧
    ∀ r rs, s.raiseAll (r :: rs) = (s.raise r.cls r.subject r.reason).raiseAll rs)

/-- The watch list's own behaviour. R126: a tick decrements every RESERVED entry's timer; an entry at its
last tick goes with its claims and is raised, in ascending watch id. R131: a tick then submits the reroute
request that an entry owes. R125 and R127 to R130: what one store event's batch does to the one entry it
concerns, and on several in ascending watch id; the tests in their order, the noise of R62, R63 and R73, and
the claims of R119, written out. R121 to R124: the answers to a hold offer and what HELD makes. R132 to R134:
what a reroute's result does. The tick's order is log entry 3. -/
def Obligations.ReservationExpires : Prop :=
  (∀ (s : State) (w : WatchEntry), s.stc.part ≠ .standby → s.stc.offered.watch = true →
     s.pwl.entries = [w] → w.state = .reserved → w.timer ≤ 1 →
     exec .reservationExpiry s = .next
       (({ s with
           stc := { s.stc with offered := { s.stc.offered with watch := false } }
           pwl := { entries := []
                    overlay := { slots := s.pwl.overlay.slots.filter (fun c => c.owner != w.id)
                                 regens := s.pwl.overlay.regens.filter (fun c => c.owner != w.id) } } }).raise
         .reservationExpired (.watch w.id w.tag) .none)) ∧
  (∀ (s : State) (expired : List WatchEntry), s.stc.part ≠ .standby → s.stc.offered.watch = true →
    WatchIdsSound s.pwl →
    expired = s.pwl.entries.filter (fun w => w.state == .reserved && decide (w.timer ≤ 1)) → expired ≠ [] →
    (∀ w ∈ s.pwl.entries, w.state = .rerouting → w.submitPending = false) →
    exec .reservationExpiry s = .next (State.raiseAll { s with
        stc := { s.stc with offered := { s.stc.offered with watch := false } }
        pwl :=
          { entries := s.pwl.entries.filterMap (fun w =>
              if w.state ≠ .reserved then some w else if w.timer ≤ 1 then none
              else some { w with timer := w.timer - 1 })
            overlay :=
              { slots := s.pwl.overlay.slots.filter (fun c => !expired.any (fun w => w.id == c.owner))
                regens := s.pwl.overlay.regens.filter (fun c => !expired.any (fun w => w.id == c.owner)) } } }
      (expired.map (fun w => ⟨.reservationExpired, .watch w.id w.tag, .none⟩)))) ∧
  (∀ (s : State) (w : WatchEntry) (ticked : Bool → List WatchEntry), s.stc.part ≠ .standby →
    s.stc.offered = { store := false, watch := true, epoch := false, settle := false } →
    WatchIdsSound s.pwl → (∀ x ∈ s.pwl.entries, x.state = .reserved → 2 ≤ x.timer) →
    s.pwl.entries.filter (fun x => x.state == .rerouting && x.submitPending) = [w] →
    ticked = (fun mark => s.pwl.entries.map (fun x =>
      if x.id = w.id then { x with submitPending := mark }
      else if x.state = .reserved then { x with timer := x.timer - 1 } else x)) →
    (s.rq.queue.length < 64 →
      exec .ageTick s = .next (((s.setOffered TickOffer.none).withEntries (ticked false)).accept w.request)) ∧
    (64 ≤ s.rq.queue.length →
      exec .ageTick s = .next ((s.setOffered TickOffer.none).withEntries (ticked true)))) ∧
  (∀ (s : State) (rs : List Report) (w : WatchEntry) (pre post : List WatchEntry) (left : Overlay),
    WatchIdsSound s.pwl → s.pwl.entries = pre ++ w :: post →
    (∀ x ∈ pre ++ post, (x.state ≠ .reserved ∧ x.state ≠ .active) ∨ ¬Concerned rs x) →
    left = (if w.state = .reserved then s.pwl.overlay.without w.id else s.pwl.overlay) →
    ((w.state ≠ .reserved ∧ w.state ≠ .active) ∨ ¬Concerned rs w → s.batch rs = s) ∧
    (w.state = .reserved ∨ w.state = .active → Concerned rs w →
      (∀ r, violationCheck s w = some r →
        (w.desc.action = .notice →
          s.batch rs = ((s.withEntries (pre ++ { w with reason := some r, state := .violated } :: post)
            ).withOverlay left).raise .watchViolated (.watch w.id w.tag) .none) ∧
        (w.desc.action = .recompute → s.stc.part = .standby ∨ 64 ≤ s.rq.queue.length →
          s.batch rs = (s.withEntries
            (pre ++ { w with reason := some r, state := .rerouting, submitPending := true } :: post)
            ).withOverlay left) ∧
        (w.desc.action = .recompute → s.stc.part ≠ .standby → s.rq.queue.length < 64 →
          s.engA.mode ≠ .idle → s.engB.mode ≠ .idle →
          s.batch rs = ((s.withEntries
            (pre ++ { w with reason := some r, state := .rerouting, submitPending := false } :: post)
            ).withOverlay left).accept w.request)) ∧
      (violationCheck s w = none → ∀ confirmed : Prop,
        confirmed = (w.state = .reserved ∧
          (∃ r ∈ rs, r.kind = .occupancy ∧ ∃ h ∈ w.paths.flatMap pathHops, r.element = .link h.ref) ∧
          ∀ c ∈ w.slotClaims, ∃ l, findLink s.tst.nodes c.ref = some l ∧ c.slots &&& l.occupied = c.slots) →
        (confirmed → s.batch rs = (s.withEntries
          (pre ++ { w with state := .active, rerouteLeft := w.desc.rerouteLimit } :: post)).withOverlay left) ∧
        (¬confirmed → s.batch rs = s)))) ∧
  (∀ (s : State) (rs : List Report), WatchIdsSound s.pwl →
    BatchActsAll rs (s.pwl.entries.map (·.id)) s (s.batch rs)) ∧
  (∀ (s left : State) (expired : List WatchEntry) (owed : List Nat), s.stc.part ≠ .standby →
    WatchIdsSound s.pwl →
    expired = s.pwl.entries.filter (fun w => w.state == .reserved && decide (w.timer ≤ 1)) →
    owed = (s.pwl.entries.filter (fun w => w.state == .rerouting && w.submitPending)).map (·.id) →
    left = State.raiseAll { s with pwl :=
        { entries := s.pwl.entries.filterMap (fun w =>
            if w.state ≠ .reserved then some w else if w.timer ≤ 1 then none
            else some { w with timer := w.timer - 1 })
          overlay :=
            { slots := s.pwl.overlay.slots.filter (fun c => !expired.any (fun w => w.id == c.owner))
              regens := s.pwl.overlay.regens.filter (fun c => !expired.any (fun w => w.id == c.owner)) } } }
      (expired.map (fun w => ⟨.reservationExpired, .watch w.id w.tag, .none⟩)) →
    (s.stc.offered.watch = true → expired ≠ [] →
      ∃ t, exec .reservationExpiry s = .next t ∧
        SubmitsAll owed (left.setOffered { s.stc.offered with watch := false }) t) ∧
    (s.stc.offered = { store := false, watch := true, epoch := false, settle := false } →
      ∃ t, exec .ageTick s = .next t ∧ SubmitsAll owed (left.setOffered TickOffer.none) t)) ∧
  (∀ (s : State) (w : WatchEntry) (r : ViolationReason) (hops : List Hop),
    hops = w.paths.flatMap pathHops →
    (violationCheck s w = some r ↔
      (∃ before h after, hops = before ++ h :: after ∧
        (∀ k ∈ before, hopViolation s w.desc k = none) ∧ hopViolation s w.desc h = some r) ∨
      ((∀ h ∈ hops, hopViolation s w.desc h = none) ∧
        (∃ p ∈ w.paths, ∃ g ∈ p, w.budget < segmentNoise s g.hops) ∧ r = .budget))) ∧
  (∀ (s : State) (d : Descriptor) (h : Hop),
    (findLink s.tst.nodes h.ref = none → hopViolation s d h = some .linkGone) ∧
    (∀ o l, findNode s.tst.nodes h.ref.origin = some o → findLid o.links h.ref.lid = some l →
      (l.remote ≠ h.reached → hopViolation s d h = some .linkGone) ∧
      (l.remote = h.reached →
        (o.isLive = false ∨ liveNode s.tst.nodes l.remote = false →
          hopViolation s d h = some .nodeGone) ∧
        (o.isLive = true → liveNode s.tst.nodes l.remote = true →
          (l.admin = .down → hopViolation s d h = some .linkDown) ∧
          (l.admin = .up → usable s.cfg.twoWay s.tst.nodes o l = false →
            hopViolation s d h = some .linkGone) ∧
          (usable s.cfg.twoWay s.tst.nodes o l = true →
            hopViolation s d h =
              if l.cond.condition = .degraded ∧ d.policy = .avoid then some .linkDegraded else none))))) ∧
  (∀ (s : State) (h : Hop) (rest : List Hop), segmentNoise s (h :: rest) =
    min (hopTerm s h + (rest.map (fun k => nodeTerm s.tst.nodes k.ref.origin + hopTerm s k)).sum)
      1073741823) ∧
  (∀ (s : State) (h : Hop) (l : Link), findLink s.tst.nodes h.ref = some l →
    hopTerm s h = noiseTerm (l.q.getD s.cfg.defaultLinkQ)) ∧
  (∀ (nodes : List NodeEntry) (id : NodeId) (n : NodeEntry), findNode nodes id = some n →
    nodeTerm nodes id = match n.transitQ with
      | some q => noiseTerm q
      | none => 0) ∧
  (∀ (owner : Nat) (p : HeldPath),
    pathClaims owner p = p.flatMap (fun g => g.hops.map (fun h =>
      { ref := h.ref, owner := owner, slots := slotRange g.start g.width })) ∧
    pathRegens p = ((p.flatMap (·.hops)).filter (·.regen)).map (·.ref.origin)) ∧
  (∀ start width k : Nat, (slotRange start width).getLsbD k = true ↔
    k < 320 ∧ start ≤ k ∧ k < start + width) ∧
  (∀ (w : WatchEntry) (segments : List HeldSegment), segments = w.primary ++ w.protection.getD [] →
    w.paths.flatMap pathHops = segments.flatMap (·.hops) ∧
    w.slotClaims = segments.flatMap (fun g => g.hops.map (fun h =>
      { ref := h.ref, owner := w.id, slots := slotRange g.start g.width })) ∧
    w.regenClaims = ((segments.flatMap (·.hops)).filter (·.regen)).map (fun h =>
      { node := h.ref.origin, owner := w.id })) ∧
  (∀ (nodes : List NodeEntry) (id : NodeId), storedRegens nodes id = match findNode nodes id with
    | some n => n.regens
    | none => 0) ∧
  (∀ (o : Overlay) (ref : LinkRef) (id : NodeId),
    (∀ k, (o.reservedSlots ref).getLsbD k = true ↔
      ∃ c ∈ o.slots, c.ref = ref ∧ c.slots.getLsbD k = true) ∧
    o.reservedRegens id = (o.regens.map (·.node)).count id) ∧
  (∀ (s : State) (paths : List HeldPath) (claims : List SlotClaim) (marks : List NodeId),
    claims = paths.flatMap (pathClaims 0) → marks = paths.flatMap pathRegens →
    (reservationCheck s paths = true ↔
      (∀ c ∈ claims, ∃ l, findLink s.tst.nodes c.ref = some l ∧ c.slots &&& l.occupied = 0#320 ∧
        c.slots &&& s.pwl.overlay.reservedSlots c.ref = 0#320) ∧
      claims.Pairwise (fun b c => b.ref = c.ref → c.slots &&& b.slots = 0#320) ∧
      ∀ n ∈ marks, s.pwl.overlay.reservedRegens n + marks.count n ≤ storedRegens s.tst.nodes n)) ∧
  (∀ (s : State) (e : EngineId) (d : Descriptor) (primary : HeldPath) (protection : Option HeldPath)
    (held : List WatchEntry → WatchEntry → List WatchEntry → State → Prop),
    held = (fun pre w post u =>
      u = { s with pwl := { entries := pre ++ w :: post
                            overlay := { slots := s.pwl.overlay.slots ++ w.slotClaims
                                         regens := s.pwl.overlay.regens ++ w.regenClaims } }
                   engA := u.engA, engB := u.engB } ∧
      u.engine e = s.engine e ∧
      Marked (s.engine (otherEngine e)) (u.engine (otherEngine e)) (ClaimedElement w)) →
    (∀ a, d.requester = .mgmt a →
      ((∀ k, k < 128 → ∃ w ∈ s.pwl.entries, w.id = k) → s.offerHold e d primary protection = (.full, s)) ∧
      (∀ id, id < 128 → (∀ w ∈ s.pwl.entries, w.id ≠ id) →
        (∀ k, k < id → ∃ w ∈ s.pwl.entries, w.id = k) →
        (reservationCheck s (primary :: protection.toList) = false →
          s.offerHold e d primary protection = (.conflict, s)) ∧
        (reservationCheck s (primary :: protection.toList) = true →
          ∃ pre post u, s.pwl.entries = pre ++ post ∧ s.offerHold e d primary protection = (.held id, u) ∧
            held pre
              { id := id, requester := a, tag := d.tag, desc := d, budget := (s.engine e).budget
                regenCost := (s.engine e).regenCost, primary := primary, protection := protection
                state := .reserved, reason := none, timer := s.cfg.reserveHold
                rerouteLeft := d.rerouteLimit, submitPending := false } post u))) ∧
    (∀ w pre post, d.requester = .watchList → WatchIdsSound s.pwl → s.pwl.entries = pre ++ w :: post →
      w.id = d.tag.toNat → w.state = .rerouting →
      (reservationCheck s (primary :: protection.toList) = false →
        s.offerHold e d primary protection = (.conflict, s)) ∧
      (reservationCheck s (primary :: protection.toList) = true →
        ∃ u, s.offerHold e d primary protection = (.held w.id, u) ∧
          held pre { w with
            primary := primary, protection := protection, budget := (s.engine e).budget
            regenCost := (s.engine e).regenCost, state := .reserved, timer := s.cfg.reserveHold } post u))) ∧
  (∀ (s v : State) (e : EngineId) (d : Descriptor) (r : ResultRecord) (w : WatchEntry)
    (pre post : List WatchEntry), WatchIdsSound s.pwl → s.pwl.entries = pre ++ w :: post →
    d.requester = .watchList → d.tag.toNat = w.id → v = s.setEngine e Engine.idle →
    (r.primary = .found → s.deliver e d r = v.raise .watchRerouted (.watch w.id w.tag) .none) ∧
    (r.primary = .aborted →
      s.deliver e d r = v.withEntries (pre ++ { w with submitPending := true } :: post)) ∧
    (r.primary ∈ [.noPath, .exhausted, .unknownEndpoint, .badClass, .stale] →
      (w.desc.rerouteLimit = 0 →
        s.deliver e d r = v.withEntries (pre ++ { w with submitPending := true } :: post)) ∧
      (w.desc.rerouteLimit ≠ 0 → w.rerouteLeft ≤ 1 →
        s.deliver e d r = ((v.withEntries
          (pre ++ { w with rerouteLeft := 0, state := .stalled } :: post)).withOverlay
            (if w.state = .reserved then s.pwl.overlay.without w.id else s.pwl.overlay)).raise .watchStalled
            (.watch w.id w.tag) .none) ∧
      (w.desc.rerouteLimit ≠ 0 → 2 ≤ w.rerouteLeft →
        s.deliver e d r = v.withEntries
          (pre ++ { w with rerouteLeft := w.rerouteLeft - 1, submitPending := true } :: post))))

/-- R149 and R147: at its last tick in INTERNAL or LEAD the timer is reloaded, the number moves on, and
the staged bank becomes active when a commit is pending, with EPOCH_APPLIED raised. R150 and R153: in LEAD
the mark enters EPOCH_PORT's local egress queue and is counted as sent, or, where that queue is full or the
port disabled, is not sent: Epoch Control counts it as not sent and the port as a local frame discarded. The
tick's order is log entry 3; a freed place is left to the frames that wait (log entry 4). -/
def Obligations.EpochTimerTakesAnEpochEvent : Prop :=
  ∀ s : State, s.stc.part ≠ .standby → s.stc.offered.epoch = true → s.cfg.epochMode ≠ .follow →
    s.epc.timer ≤ 1 → s.epc.number < 65536 →
    ∃ t, exec .epochTimerExpiry s = .next t ∧ t.epc.timer = s.cfg.epochInterval ∧
      t.epc.number = (s.epc.number + 1) % 65536 ∧ t.prb.staged = s.prb.staged ∧
      t.prb.commitPending = false ∧
      t.prb.active = (if s.prb.commitPending then s.prb.staged else s.prb.active) ∧
      t.evu = (if s.prb.commitPending
        then (s.raise .epochApplied (.epoch ((s.epc.number + 1) % 65536)) .none).evu else s.evu) ∧
      (s.cfg.epochMode = .internal → t.spu = s.spu) ∧
      (s.cfg.epochMode = .lead → s.enabled s.cfg.epochPort = true → s.hasPlace s.cfg.epochPort = true →
        (t.port s.cfg.epochPort).localQueue = (s.port s.cfg.epochPort).localQueue ++
          [outgoing s.cfg.epochPort (originated s.cfg.engineAddress 0xFFFFFFFF#32 0x5E
            (enc2 ((s.epc.number + 1) % 65536)))]) ∧
      t.cfg = s.cfg ∧ t.tst = s.tst ∧ t.pwl = s.pwl ∧
      t = { s with
            stc := { s.stc with offered := { s.stc.offered with epoch := false } }
            spu := { s.spu with ports := t.spu.ports }
            prb := t.prb, epc := t.epc, evu := t.evu } ∧
      (s.cfg.epochMode = .internal → t.epc.counters = s.epc.counters) ∧
      (s.cfg.epochMode = .lead →
        (∀ q, q ≠ s.cfg.epochPort → t.port q = s.port q) ∧
        (s.enabled s.cfg.epochPort = true →
          (s.port s.cfg.epochPort).localQueue.length + s.waiters s.cfg.epochPort < 16 →
          t.epc.counters = { s.epc.counters with sent := min (s.epc.counters.sent + 1) 4294967295 } ∧
          t.port s.cfg.epochPort = { s.port s.cfg.epochPort with
            localQueue := (t.port s.cfg.epochPort).localQueue } ∧
          (t.port s.cfg.epochPort).localQueue = (s.port s.cfg.epochPort).localQueue ++
            [outgoing s.cfg.epochPort (originated s.cfg.engineAddress 0xFFFFFFFF#32 0x5E
              (enc2 ((s.epc.number + 1) % 65536)))]) ∧
        (s.enabled s.cfg.epochPort = false ∨
            16 ≤ (s.port s.cfg.epochPort).localQueue.length + s.waiters s.cfg.epochPort →
          t.epc.counters = { s.epc.counters with notSent := min (s.epc.counters.notSent + 1) 4294967295 } ∧
          t.port s.cfg.epochPort = { s.port s.cfg.epochPort with counters :=
            { (s.port s.cfg.epochPort).counters with
              localDiscarded :=
                min ((s.port s.cfg.epochPort).counters.localDiscarded + 1) 4294967295 } }))

/-- R170: in SETTLING the timer decrements at a tick and at its last tick the part enters OPERATE and
SETTLED is raised. The tick's order is the model's reading (log entry 3). -/
def Obligations.SettleTimerBringsOperate : Prop :=
  ∀ s : State, s.stc.part = .settling → s.stc.offered.settle = true → s.stc.settleTimer ≤ 1 →
    exec .settleTimerExpiry s = .next
      (({ s with stc := { s.stc with
          part := .operate, settleTimer := 0
          offered := { s.stc.offered with settle := false } } }).raise .settled .none .none)

/-- R167: an age tick that is owed is acted on by all four blocks in turn, and none owes an action after
it; one that is due is taken and acted on in the same way, and otherwise the row stands for no event. The
store ages its nodes (R16, R17); the watch list decrements its RESERVED entries' timers (R126), stated
where the store's event changes no node's state and no reroute is owed; Epoch Control decrements its
timer, or at its last tick reloads it and takes an epoch event (R149, R147), and in FOLLOW does nothing;
State Control runs the settle timer (R170). The order of the blocks' actions is the model's reading (log
entry 3). -/
def Obligations.AgeTickReachesTheFourBlocks : Prop :=
  (∀ s : State, s.stc.part ≠ .standby →
    s.stc.offered = { store := true, watch := true, epoch := true, settle := true } →
    ∃ t, exec .ageTick s = .next t ∧ t.stc.offered = TickOffer.none ∧ t.stc.timebase = s.stc.timebase ∧
      t.tst.nodes = s.tst.nodes.filterMap (fun n =>
        match n.life with
        | .live a => some { n with life := if a ≤ 1 then .withdrawn s.cfg.holdDown else .live (a - 1) }
        | .withdrawn h => if h ≤ 1 then none else some { n with life := .withdrawn (h - 1) }) ∧
      ((∀ n ∈ s.tst.nodes, ∃ k, 2 ≤ k ∧ (n.life = .live k ∨ n.life = .withdrawn k)) →
        TableSound s.tst.nodes → WatchIdsSound s.pwl →
        (∀ w ∈ s.pwl.entries, w.state = .rerouting → w.submitPending = false) →
        t.pwl.entries = s.pwl.entries.filterMap (fun w =>
          if w.state ≠ .reserved then some w else if w.timer ≤ 1 then none
          else some { w with timer := w.timer - 1 })) ∧
      (s.cfg.epochMode = .follow → t.epc = s.epc ∧ t.prb = s.prb) ∧
      (s.cfg.epochMode ≠ .follow → 2 ≤ s.epc.timer →
        t.epc = { s.epc with timer := s.epc.timer - 1 } ∧ t.prb = s.prb) ∧
      (s.cfg.epochMode ≠ .follow → s.epc.timer ≤ 1 → t.epc.timer = s.cfg.epochInterval ∧
        t.epc.number = (if 65535 ≤ s.epc.number then 0 else s.epc.number + 1) ∧
        t.prb = if s.prb.commitPending
          then { active := s.prb.staged, staged := s.prb.staged, commitPending := false } else s.prb) ∧
      t.stc.part = (if s.stc.part = .settling ∧ s.stc.settleTimer ≤ 1 then .operate else s.stc.part) ∧
      t.stc.settleTimer = (if s.stc.part = .settling
        then (if s.stc.settleTimer ≤ 1 then 0 else s.stc.settleTimer - 1) else s.stc.settleTimer)) ∧
  (∀ s : State, s.stc.part ≠ .standby → s.stc.offered = TickOffer.none →
    (s.cfg.ageDiv < s.stc.timebase + 1 →
      exec .ageTick s = exec .ageTick { s with stc := { s.stc with
        timebase := 0
        offered := { store := true, watch := true, epoch := true, settle := true } } }) ∧
    (s.stc.timebase + 1 ≤ s.cfg.ageDiv → exec .ageTick s = .next s))

/-! ## The map -/

/-- R30, R33, R34 and R36 to R38: the head copy is discarded with its counter, or its record is handed over.
A dialect that is outside 1..8 or has no valid entry is unknown. R34: a copy is walked exactly when it
begins with the bytes of an advertisement, the bytes after its last link unread, and is malformed otherwise.
R35 and R36: a walked copy becomes FULL, REFRESH or stale by its origin's entry and the distance around the
32-bit circle. R39 to R47: the record's fields, with every conversion and clamp, from numbers read most
significant byte first. A record handed over is counted as accepted or refreshed, with the unmapped and
malformed attributes of the sections that were mapped (the links only for a FULL record, the first 32 of
them), and once when a value was clamped (R40, R49). -/
def Obligations.TranslationTakesTheHeadCopy : Prop :=
  (∀ (s : State) (copy : List Byte) (more : List (List Byte)), s.atr.queue = copy :: more →
     s.stc.part ≠ .standby → s.atr.handed = none →
     ∃ t, exec .translationEvent s = .next t ∧ t.atr.queue = more ∧ t.tst = s.tst ∧
       (∀ tag bytes, copy = tag :: bytes → (tag = 0 ∨ 9 ≤ tag.toNat ∨ ∃ k : Fin 8,
           tag.toNat = k.val + 1 ∧ ∀ i : Fin 32, s.prb.active.dialects[k][i].valid = false) →
         t.atr.handed = none ∧ t.atr.counters = { s.atr.counters with
           unknownDialect := min (s.atr.counters.unknownDialect + 1) 4294967295 } ∧
         t.evu = (s.raise .advertDropped .none .dialect).evu) ∧
       (Machine.translate s copy = .malformed →
         t.atr.handed = none ∧ t.atr.counters = { s.atr.counters with
           malformed := min (s.atr.counters.malformed + 1) 4294967295 } ∧
         t.evu = (s.raise .advertDropped .none .malformed).evu) ∧
       (Machine.translate s copy = .stale →
         t.atr.handed = none ∧ t.evu = s.evu ∧ t.atr.counters = { s.atr.counters with
           stale := min (s.atr.counters.stale + 1) 4294967295 }) ∧
       (∀ r m, Machine.translate s copy = .record r m → t.atr.handed = some r ∧ t.evu = s.evu ∧
         t.atr.counters = { s.atr.counters with
           accepted := (match r with
             | .full _ => min (s.atr.counters.accepted + 1) 4294967295
             | .refresh _ _ _ => s.atr.counters.accepted)
           refreshed := (match r with
             | .full _ => s.atr.counters.refreshed
             | .refresh _ _ _ => min (s.atr.counters.refreshed + 1) 4294967295)
           malformedAttr := min (s.atr.counters.malformedAttr + m.badLength) 4294967295
           unmapped := min (s.atr.counters.unmapped + m.unmapped) 4294967295
           clamped := if m.clamped then min (s.atr.counters.clamped + 1) 4294967295
             else s.atr.counters.clamped })) ∧
  (∀ (s : State) (copy : List Byte) (r : UpdateRecord) (m : MapTally) (a : Advertisement)
    (entries : List DialectEntry) (links : List AdvLink), Machine.translate s copy = .record r m →
    walkCopy copy = some a → s.prb.active.dialect a.dialect = some entries →
    links = (match r with
      | .full _ => a.links.take 32
      | .refresh _ _ _ => []) →
    m.unmapped = (a.nodeAttrs.filter (Attribute.isUnmapped entries true)).length +
      ((links.flatMap (·.attrs)).filter (Attribute.isUnmapped entries false)).length ∧
    m.badLength = (a.nodeAttrs.filter (Attribute.isBadLength entries true)).length +
      ((links.flatMap (·.attrs)).filter (Attribute.isBadLength entries false)).length ∧
    (m.clamped = true ↔ (∃ x ∈ a.nodeAttrs, x.isClamped entries true = true) ∨
      ∃ l ∈ links, ∃ x ∈ l.attrs, x.isClamped entries false = true)) ∧
  (∀ (copy : List Byte) (a : Advertisement),
    walkCopy copy = some a ↔ a.Fits ∧ ∃ unread, copy = a.bytes ++ unread) ∧
  (∀ (b : Bank) (tag : Nat) (entries : List DialectEntry), KnownDialect b tag entries →
    b.dialect tag = some entries) ∧
  (∀ (s : State) (copy : List Byte),
    (copy = [] ∨ ∃ tag bytes entries, copy = tag :: bytes ∧ KnownDialect s.prb.active tag.toNat entries) →
    (∀ (a : Advertisement) unread, a.Fits → copy ≠ a.bytes ++ unread) →
    Machine.translate s copy = .malformed) ∧
  (∀ (s : State) (a : Advertisement) (unread : List Byte) (entries : List DialectEntry) (copy : List Byte)
    (full refresh stale : Prop), a.Fits → copy = a.bytes ++ unread →
    KnownDialect s.prb.active a.dialect entries →
    full = (∃ r m, Machine.translate s copy = .record (.full r) m ∧
      FullOf s.cfg.defaultLifetime entries a r) →
    refresh = (∃ m, Machine.translate s copy =
      .record (.refresh a.origin a.seq (lifetimeOf s.cfg.defaultLifetime entries a)) m) →
    stale = (Machine.translate s copy = .stale) →
    (findNode s.tst.nodes a.origin = none → full) ∧
    (∀ n d, findNode s.tst.nodes a.origin = some n →
      d = (a.seq.toNat + 4294967296 - n.seq.toNat) % 4294967296 →
      (1 ≤ d ∧ d ≤ 2147483647 → full) ∧ (2147483648 ≤ d → stale) ∧
      (d = 0 → n.isLive = true → refresh) ∧ (d = 0 → n.isLive = false → stale))) ∧
  (∀ (b : Byte) (bs : List Byte),
    decodeNat [] = 0 ∧ decodeNat (b :: bs) = b.toNat * 256 ^ bs.length + decodeNat bs) ∧
  (∀ (bs : List Byte) (off : Nat),
    (off + 2 ≤ bs.length → fieldNat bs off 2 = (bs.getD off 0).toNat * 256 + (bs.getD (off + 1) 0).toNat) ∧
    (off + 4 ≤ bs.length →
      (field32 bs off).toNat = fieldNat bs off 2 * 65536 + fieldNat bs (off + 2) 2))

/-- R6 and R7: a FULL record with a lifetime for an id no entry holds adds a LIVE node at the lowest FREE
index, with a link for each local id whose valid items found room (R12 to R15; of two items of one id the
later one's values stand), as one store event with its raises, its reports in R23's order and nodes added
counted; with no FREE entry it is dropped and TABLE_FULL raised. A flush or a REFRESH of such an id, and any record
of a reserved id, is discarded and counted. The crossings stand before TABLE_FULL (R56). That the store's
raises come before the watch list's own is the model's reading, log entry 37. -/
def Obligations.RecordOfAnUnknownOrigin : Prop :=
  (∀ (s : State) (r : UpdateRecord), s.atr.handed = some r → TableSound s.tst.nodes →
     (∀ x, r = .full x → reservedId x.origin = false → findNode s.tst.nodes x.origin = none →
       1 ≤ x.lifetime → x.items = [] → ∀ k, k < 256 → (∀ n ∈ s.tst.nodes, n.index ≠ k) →
       (∀ j, j < k → ∃ n ∈ s.tst.nodes, n.index = j) →
       ∃ t, exec .recordApplication s = .next t ∧ t.atr = { s.atr with handed := none } ∧ t.cfg = s.cfg ∧
         findNode t.tst.nodes x.origin = some
           { index := k, id := x.origin, life := .live x.lifetime, dialect := x.dialect, seq := x.seq
             regens := x.regens.getD 0, transitQ := x.transitQ, incomplete := x.incomplete, links := [] } ∧
         t.tst.counters.nodesAdded = min (s.tst.counters.nodesAdded + 1) 4294967295 ∧
         (∀ id, id ≠ x.origin → findNode t.tst.nodes id = findNode s.tst.nodes id)) ∧
     (∀ id, ((∃ x, r = .full x ∧ x.origin = id ∧ (x.lifetime = 0 ∨ reservedId id = true)) ∨
         (∃ q l, r = .refresh id q l)) → findNode s.tst.nodes id = none →
       exec .recordApplication s = .next { s with
         atr := { s.atr with handed := none }
         tst := { s.tst with counters := { s.tst.counters with
           recordsDiscarded := min (s.tst.counters.recordsDiscarded + 1) 4294967295 } } })) ∧
  (∀ (s : State) (x : FullRecord), s.atr.handed = some (.full x) → TableSound s.tst.nodes →
    reservedId x.origin = false → findNode s.tst.nodes x.origin = none → 1 ≤ x.lifetime →
    (∀ k others, k < 256 → (∀ n ∈ s.tst.nodes, n.index ≠ k) →
      (∀ j, j < k → ∃ n ∈ s.tst.nodes, n.index = j) →
      others = (s.tst.nodes.map (fun n => n.links.length)).sum →
      ∃ (u t : State) (rs : List Report) (m : NodeEntry), exec .recordApplication s = .next t ∧
        t = u.batch rs ∧ t.tst = u.tst ∧
        StoreEventBy (ItemChanged s.cfg x [] others) s.withoutRecord u rs ∧ RecordOrder s.cfg x [] others rs ∧
        ((x.goodItems.map (·.lid)).Nodup → StoreEvent s.withoutRecord u rs) ∧
        findNode u.tst.nodes x.origin = some m ∧
        (∀ id, id ≠ x.origin → findNode u.tst.nodes id = findNode s.tst.nodes id) ∧
        RecordMade s.cfg x [] others k m s.tst.counters u.tst.counters ∧
        u.tst.counters = { u.tst.counters with
          recordsApplied := s.tst.counters.recordsApplied
          refreshesApplied := s.tst.counters.refreshesApplied
          recordsDiscarded := s.tst.counters.recordsDiscarded
          recordsDropped := s.tst.counters.recordsDropped
          nodesAdded := min (s.tst.counters.nodesAdded + 1) 4294967295
          nodesAged := s.tst.counters.nodesAged
          nodesFlushed := s.tst.counters.nodesFlushed
          nodesFreed := s.tst.counters.nodesFreed } ∧
        u.evu = (s.raiseAll (⟨.nodeAdded, .node x.origin, .none⟩ :: raisesOfItems s.cfg x [] others)).evu) ∧
    ((∀ k, k < 256 → ∃ n ∈ s.tst.nodes, n.index = k) →
      exec .recordApplication s = .next (State.raise { s with
          atr := { s.atr with handed := none }
          tst := { s.tst with counters := { s.tst.counters with
            recordsDropped := min (s.tst.counters.recordsDropped + 1) 4294967295 } } }
        .tableFull (.node x.origin) .nodes)))

/-- R8 to R11: a REFRESH record reloads a LIVE node's age counter and nothing else, and is discarded
for a WITHDRAWN node or a lifetime of 0; a flush makes a LIVE node WITHDRAWN with HOLD_DOWN loaded, its
links kept and NODE_EXPIRED raised, and gives a WITHDRAWN one its dialect and sequence alone; a FULL
record with a lifetime updates a LIVE node, or returns a WITHDRAWN one to LIVE with NODE_ADDED raised,
and replaces its links (R12 to R15; of two items of one local id the first creates or updates the link, the
second updates it, and the later one's values stand). Every application is one store event, with the reports
of R21 and the marks of R22; items that name one link give a report for each item's change (R13), and
the reports stand in R23's order. The crossings stand before TABLE_FULL (R56). That the store's raises come before the watch list's own is the
model's reading, log entry 37. -/
def Obligations.RefreshAndFlushOfAKnownNode : Prop :=
  ((∀ (s : State) (id : NodeId) (q : Word32) (lifetime : Nat) (n : NodeEntry),
     s.atr.handed = some (.refresh id q lifetime) → reservedId id = false →
     findNode s.tst.nodes id = some n → TableSound s.tst.nodes →
     (n.isLive = true → 1 ≤ lifetime →
       ∃ t, exec .recordApplication s = .next t ∧
         t.tst.counters = { s.tst.counters with
           refreshesApplied := min (s.tst.counters.refreshesApplied + 1) 4294967295 } ∧
         t.tst.nodes = s.tst.nodes.map (fun x => if x.id = id then { x with life := .live lifetime } else x) ∧
         t.evu = s.evu ∧ t.pwl = s.pwl ∧ t.engA = s.engA ∧ t.engB = s.engB ∧ t.rq = s.rq) ∧
     ((n.isLive = false ∨ lifetime = 0) →
       exec .recordApplication s = .next { s with
         atr := { s.atr with handed := none }
         tst := { s.tst with counters := { s.tst.counters with
           recordsDiscarded := min (s.tst.counters.recordsDiscarded + 1) 4294967295 } } })) ∧
   (∀ (s : State) (x : FullRecord) (n : NodeEntry) (a : Nat), s.atr.handed = some (.full x) →
     reservedId x.origin = false → x.lifetime = 0 → findNode s.tst.nodes x.origin = some n →
     n.life = .live a →
     ∃ t, exec .recordApplication s = .next t ∧ t.cfg = s.cfg ∧
       findNode t.tst.nodes x.origin = some
         { n with life := .withdrawn s.cfg.holdDown, dialect := x.dialect, seq := x.seq } ∧
       t.tst.counters = { s.tst.counters with
         recordsApplied := min (s.tst.counters.recordsApplied + 1) 4294967295
         nodesFlushed := min (s.tst.counters.nodesFlushed + 1) 4294967295 } ∧
       (∀ id, id ≠ x.origin → findNode t.tst.nodes id = findNode s.tst.nodes id))) ∧
  (∀ (s : State) (x : FullRecord) (n : NodeEntry) (others : Nat), s.atr.handed = some (.full x) →
    TableSound s.tst.nodes → reservedId x.origin = false → findNode s.tst.nodes x.origin = some n →
    1 ≤ x.lifetime →
    others + n.links.length = (s.tst.nodes.map (fun n => n.links.length)).sum →
    ∃ (u t : State) (rs : List Report) (m : NodeEntry), exec .recordApplication s = .next t ∧
      t = u.batch rs ∧ t.tst = u.tst ∧
      StoreEventBy (ItemChanged s.cfg x n.links others) s.withoutRecord u rs ∧
      RecordOrder s.cfg x n.links others rs ∧
      ((x.goodItems.map (·.lid)).Nodup → StoreEvent s.withoutRecord u rs) ∧
      findNode u.tst.nodes x.origin = some m ∧
      (∀ id, id ≠ x.origin → findNode u.tst.nodes id = findNode s.tst.nodes id) ∧
      RecordMade s.cfg x n.links others n.index m s.tst.counters u.tst.counters ∧
      u.tst.counters = { u.tst.counters with
        recordsApplied := min (s.tst.counters.recordsApplied + 1) 4294967295
        refreshesApplied := s.tst.counters.refreshesApplied
        recordsDiscarded := s.tst.counters.recordsDiscarded
        recordsDropped := s.tst.counters.recordsDropped
        nodesAdded := if n.isLive then s.tst.counters.nodesAdded
          else min (s.tst.counters.nodesAdded + 1) 4294967295
        nodesAged := s.tst.counters.nodesAged
        nodesFlushed := s.tst.counters.nodesFlushed
        nodesFreed := s.tst.counters.nodesFreed } ∧
      u.evu = (s.raiseAll ((if n.isLive then [] else [⟨.nodeAdded, .node x.origin, .none⟩]) ++
        raisesOfItems s.cfg x n.links others)).evu) ∧
  (∀ (s : State) (x : FullRecord) (n : NodeEntry), s.atr.handed = some (.full x) →
    TableSound s.tst.nodes → reservedId x.origin = false → findNode s.tst.nodes x.origin = some n →
    x.lifetime = 0 →
    (n.isLive = true → ∃ (u : State) (rs : List Report), exec .recordApplication s = .next (u.batch rs) ∧
      StoreEvent s.withoutRecord u rs ∧
      (∃ us, rs = ⟨.node x.origin, .withdrawn⟩ :: us ∧ UsabilityOrder us) ∧
      u.evu = (s.raise .nodeExpired (.node x.origin) .flushed).evu) ∧
    (n.isLive = false → exec .recordApplication s = .next { s with
      atr := { s.atr with handed := none }
      tst :=
        { nodes := s.tst.nodes.map (fun y =>
            if y.id = x.origin then { y with dialect := x.dialect, seq := x.seq } else y)
          counters := { s.tst.counters with
            recordsApplied := min (s.tst.counters.recordsApplied + 1) 4294967295 } } })) ∧
  (∀ (s : State) (r : UpdateRecord), s.atr.handed = some r → TableSound s.tst.nodes →
    ∃ (u : State) (rs : List Report) (steps : Report → Prop),
      exec .recordApplication s = .next (u.batch rs) ∧ StoreEventBy steps s.withoutRecord u rs ∧
      ((∀ x, r = .full x → (x.goodItems.map (·.lid)).Nodup) → StoreEvent s.withoutRecord u rs) ∧
      ∀ p, steps p → ∃ x stored others, r = .full x ∧ 1 ≤ x.lifetime ∧
        stored = ((findNode s.tst.nodes x.origin).map (·.links)).getD [] ∧
        others + stored.length = (s.tst.nodes.map (fun n => n.links.length)).sum ∧
        ItemChanged s.cfg x stored others p)

/-- R51 to R55: one evaluation of a link by the monitor. -/
def Obligations.EvaluationFollowsTheThresholds : Prop :=
  ∀ (cfg : Settings) (f : CondFields) (q : Option Nat) (g : CondFields) (crossing : Bool),
    evaluate cfg f q = (g, crossing) →
    (q = none → g = { f with count := 0, below := false } ∧ crossing = false) ∧
    (∀ v, q = some v → f.condition = .normal →
      g.below = decide (v < cfg.degradeLow) ∧
      (cfg.degradeLow ≤ v → g.condition = .normal ∧ g.count = 0 ∧ g.crossed = f.crossed ∧ crossing = false) ∧
      (v < cfg.degradeLow → f.count + 1 ≠ cfg.filterDepth →
        g.condition = .normal ∧ g.count = f.count + 1 ∧ g.crossed = f.crossed ∧ crossing = false) ∧
      (v < cfg.degradeLow → f.count + 1 = cfg.filterDepth →
        g.condition = .degraded ∧ g.count = 0 ∧ g.crossed = true ∧ crossing = true)) ∧
    (∀ v, q = some v → f.condition = .degraded →
      g.below = decide (v < cfg.degradeHigh) ∧
      (v < cfg.degradeHigh → g.condition = .degraded ∧ g.count = 0 ∧ g.crossed = f.crossed ∧ crossing = false) ∧
      (cfg.degradeHigh ≤ v → f.count + 1 ≠ cfg.filterDepth →
        g.condition = .degraded ∧ g.count = f.count + 1 ∧ g.crossed = f.crossed ∧ crossing = false) ∧
      (cfg.degradeHigh ≤ v → f.count + 1 = cfg.filterDepth →
        g.condition = .normal ∧ g.count = 0 ∧ g.crossed = true ∧ crossing = true))

/-! ## Search -/

/-- R79 to R84, R86, R88 to R90 and R93 to R97: an expansion closes the frontier's first label and counts
it; the examined links are skipped, tallied or extended; while neither the destination, an empty frontier
nor the limit is met only that engine changes; at the destination a request with no protection phase and
no hold completes FOUND with the reconstructed path, and one with a protection phase starts it. A link is
extended plainly, or with regeneration, or tallied; the candidate is dominated, inserted, or evicts the
worst label of a full pool; the protection phase's exclusions follow the diversity. R77: the first label is
the OPEN one with the smallest key. R79 and R80: the links of the label's node are examined in the order of
its list, with the nodes of the label's chain as those visited. R66, R72 and R91 to R93: the path of a
destination label, its segments with first fit and reported q, and the facts captured of its hops. -/
def Obligations.ExpansionTakesTheFirstLabel : Prop :=
  ((∀ (s : State) (e : EngineId) (d : Descriptor) (x : Label) (y z : Engine), (s.engine e).request = some d →
     ((s.engine e).mode = .primary ∨ (s.engine e).mode = .protection) → (s.engine e).endOrder = .none →
     firstOpen d.order (s.engine e).pool = some x →
     y = { s.engine e with
       pool := (s.engine e).pool.map (fun l => if l.number = x.number then { l with closed := true } else l)
       counts := { (s.engine e).counts with expansions := (s.engine e).counts.expansions + 1 } } →
     (x.node ≠ d.dest → z = y.examineLinks s d x → firstOpen d.order z.pool ≠ none →
       z.counts.expansions ≠ z.limit → exec (.expansion e) s = .next (s.setEngine e z)) ∧
     (∀ (a : Address) (p : Port), x.node = d.dest → (s.engine e).mode = .primary → d.diversity = .none →
       d.hold = false → d.requester = .mgmt a → d.ingress = some p → (s.engine e).touched = [] →
       (s.engine e).overflow = false → s.rq.queue = [] → s.enabled p = true →
       (s.port p).localQueue.length < 16 → s.waiters p = 0 →
       exec (.expansion e) s = .next ((s.setEngine e Engine.idle).setPort p
         { s.port p with localQueue := (s.port p).localQueue ++
           [outgoing p (originated s.cfg.engineAddress a 0x52 (encResult
             { tag := d.tag, outcome := .complete, primary := .found, protection := .notRequested
               truncated := y.counts.truncated, provisional := s.stc.part == .settling
               windowAdjusted := y.windowAdjusted, holdRefused := false, watchId := none
               primaryPhase := some y.counts, protectionPhase := none
               primaryPath := some (reconstruct y.pool d.width x), protectionPath := none }))] }))) ∧
   (∀ (s : State) (d : Descriptor) (x : Label) (xn : NodeEntry) (visited : List NodeId) (e : Engine) (l : Link),
     (usable s.cfg.twoWay s.tst.nodes xn l = false ∨ excludedLink e d ⟨xn.id, l.lid⟩ l = true ∨
         l.remote ∈ visited → e.examineLink s d x xn visited l = e) ∧
     (usable s.cfg.twoWay s.tst.nodes xn l = true → excludedLink e d ⟨xn.id, l.lid⟩ l = false →
       l.remote ∉ visited →
       (l.cond.condition = .degraded ∧ d.policy = .avoid →
         e.examineLink s d x xn visited l =
           { e with counts := { e.counts with excluded := e.counts.excluded + 1 } }) ∧
       (¬(l.cond.condition = .degraded ∧ d.policy = .avoid) → d.maxHops < x.hops + 1 →
         e.examineLink s d x xn visited l =
           { e with counts := { e.counts with hops := e.counts.hops + 1 } })))) ∧
  (∀ (s : State) (d : Descriptor) (x : Label) (xn : NodeEntry) (visited : List NodeId) (e : Engine) (l : Link)
    (blocked : SlotSet) (cost through noise : Nat) (p q : Label) (feasible : Label → Prop)
    (regen : Prop), usable s.cfg.twoWay s.tst.nodes xn l = true →
    excludedLink e d ⟨xn.id, l.lid⟩ l = false → l.remote ∉ visited →
    ¬(l.cond.condition = .degraded ∧ d.policy = .avoid) → x.hops + 1 ≤ d.maxHops →
    blocked = l.occupied ||| s.pwl.overlay.reservedSlots ⟨xn.id, l.lid⟩ →
    cost = (if l.cond.condition = .degraded ∧ d.policy = .penalize
      then min (l.cost + s.cfg.degradePenalty) 16777215 else l.cost) →
    through = (if x.node = d.source then 0 else (xn.transitQ.map noiseTerm).getD 0) →
    noise = noiseTerm (l.q.getD s.cfg.defaultLinkQ) →
    p = { node := l.remote, pred := some x.number, via := some ⟨xn.id, l.lid⟩
          cost := min (x.cost + cost) 16777215
          noise := min (min (x.noise + through) 1073741823 + noise) 1073741823
          hops := x.hops + 1, regens := x.regens, regenerated := false
          starts := x.starts &&& freeStarts blocked d.width, closed := false, number := 0 } →
    q = { p with cost := min (p.cost + e.regenCost) 16777215, noise := noise, regens := x.regens + 1
                 regenerated := true, starts := e.starts &&& freeStarts blocked d.width } →
    feasible = (fun z => z.starts ≠ 0#320 ∧ z.noise ≤ e.budget) →
    regen = (x.regens < d.maxRegens ∧ x.node ≠ d.source ∧
      s.pwl.overlay.reservedRegens xn.id < xn.regens ∧ feasible q) →
    (feasible p → e.examineLink s d x xn visited l = e.insertLabel d.order p) ∧
    (¬feasible p → regen → e.examineLink s d x xn visited l = e.insertLabel d.order q) ∧
    (¬feasible p → ¬regen → e.examineLink s d x xn visited l =
      { e with counts := if p.starts = 0#320 then { e.counts with spectrum := e.counts.spectrum + 1 }
        else { e.counts with noise := e.counts.noise + 1 } })) ∧
  (∀ (blocked : SlotSet) (width k : Nat), (freeStarts blocked width).getLsbD k = true ↔
    k < 320 ∧ ∀ j, j < width → k + j < 320 ∧ blocked.getLsbD (k + j) = false) ∧
  (∀ (o : Order) (e : Engine) (c z : Label) (keep : Label → Bool) (pool : List Label),
    z = { c with number := e.nextNumber } →
    (∀ y, keep y = false ↔ y.closed = false ∧ y.node = c.node ∧ Dominates o c y) →
    pool = e.pool.filter keep →
    ((∃ y ∈ e.pool, y.node = c.node ∧ Dominates o y c) →
      e.insertLabel o c = { e with counts := { e.counts with dominated := e.counts.dominated + 1 } }) ∧
    ((∀ y ∈ e.pool, y.node = c.node → ¬Dominates o y c) →
      (pool.length < 2048 →
        e.insertLabel o c = { e with pool := pool ++ [z], nextNumber := e.nextNumber + 1 }) ∧
      (2048 ≤ pool.length →
        ((∀ y ∈ pool, y.closed = true) →
          e.insertLabel o c = { e with pool := pool, counts := { e.counts with truncated := true } }) ∧
        (∀ w ∈ pool, w.closed = false → (∀ y ∈ pool, y.closed = false → y = w ∨ KeyBefore o y w) →
          (KeyBefore o z w → e.insertLabel o c = { e with
            pool := pool.filter (fun y => y.number != w.number) ++ [z], nextNumber := e.nextNumber + 1
            counts := { e.counts with truncated := true } }) ∧
          (¬KeyBefore o z w →
            e.insertLabel o c =
              { e with pool := pool, counts := { e.counts with truncated := true } }))))) ∧
  (∀ (s : State) (e : EngineId) (d : Descriptor) (x : Label) (y : Engine) (path : FoundPath),
    (s.engine e).request = some d → (s.engine e).mode = .primary → (s.engine e).endOrder = .none →
    firstOpen d.order (s.engine e).pool = some x → x.node = d.dest → d.diversity ≠ .none →
    y = { s.engine e with
      pool := (s.engine e).pool.map (fun l => if l.number = x.number then { l with closed := true } else l)
      counts := { (s.engine e).counts with expansions := (s.engine e).counts.expansions + 1 } } →
    path = reconstruct y.pool d.width x → (s.engine e).starts ≠ 0#320 →
    exec (.expansion e) s = .next (s.setEngine e { y with
      mode := .protection
      primary := some
        { path := path
          facts := path.hops.map (captureFact s.tst.nodes)
          intermediates := (path.hops.drop 1).map (fun h => h.ref.origin)
          counts := y.counts }
      pool := [{ node := d.source, pred := none, via := none, cost := 0, noise := 0, hops := 0, regens := 0
                 regenerated := false, starts := (s.engine e).starts, closed := false, number := 0 }]
      nextNumber := 1
      counts := { expansions := 0, spectrum := 0, noise := 0, hops := 0, excluded := 0, dominated := 0
                  truncated := false } })) ∧
  (∀ (e : Engine) (d : Descriptor) (ref : LinkRef) (l : Link) (named : Prop),
    named = (ref ∈ d.exLinks ∨ l.remote ∈ d.exNodes) →
    (e.mode ≠ .protection → (excludedLink e d ref l = true ↔ named)) ∧
    (∀ (p : PrimaryRecord) (shares : Prop), e.mode = .protection → e.primary = some p →
      shares = (∃ f ∈ p.facts, f.ref = ref ∨ (ref.origin = f.remote ∧ l.remote = f.ref.origin ∧
        ∀ lid, f.remoteLid = some lid → l.lid = lid)) →
      (d.diversity = .link → (excludedLink e d ref l = true ↔ named ∨ shares)) ∧
      (d.diversity = .node → (excludedLink e d ref l = true ↔ named ∨ l.remote ∈ p.intermediates)) ∧
      (d.diversity = .srlg → (excludedLink e d ref l = true ↔ named ∨ shares ∨
        ∃ f ∈ p.facts, ∃ g ∈ l.srlg, g ∈ f.srlg)))) ∧
  (∀ (o : Order) (pool : List Label),
    (firstOpen o pool = none ↔ ∀ y ∈ pool, y.closed = true) ∧
    (∀ x, firstOpen o pool = some x → x ∈ pool ∧ x.closed = false ∧
      ∀ y ∈ pool, y.closed = false → ¬KeyBefore o y x) ∧
    ((pool.map (·.number)).Nodup → ∀ x, firstOpen o pool = some x ↔
      x ∈ pool ∧ x.closed = false ∧ ∀ y ∈ pool, y.closed = false → y = x ∨ KeyBefore o x y)) ∧
  (∀ (s : State) (d : Descriptor) (x : Label) (e : Engine),
    (findNode s.tst.nodes x.node = none → e.examineLinks s d x = e) ∧
    (∀ (xn : NodeEntry) (chain : List Label), findNode s.tst.nodes x.node = some xn →
      (e.pool.map (·.number)).Nodup → ChainOf e.pool x chain →
      (xn.links = [] → e.examineLinks s d x = e) ∧
      (∀ l more, xn.links = l :: more → e.examineLinks s d x =
        more.foldl (fun e l => e.examineLink s d x xn (chain.map (·.node)) l)
          (e.examineLink s d x xn (chain.map (·.node)) l)))) ∧
  (∀ (pool chain : List Label) (width : Nat) (dest : Label), (pool.map (·.number)).Nodup →
    ChainOf pool dest chain → (∀ l ∈ chain.dropLast, l.via ≠ none) →
    PathOf width dest chain.dropLast.reverse (reconstruct pool width dest)) ∧
  (∀ (nodes : List NodeEntry) (h : Hop),
    (captureFact nodes h).ref = h.ref ∧ (captureFact nodes h).remote = h.reached ∧
    (findLink nodes h.ref = none →
      (captureFact nodes h).remoteLid = none ∧ (captureFact nodes h).srlg = []) ∧
    (∀ l, findLink nodes h.ref = some l →
      (captureFact nodes h).remoteLid = l.remoteLid ∧ (captureFact nodes h).srlg = l.srlg))

/-- How a search ends. R87, R112, R113 and R116: an engine that takes its order to end becomes IDLE with no
result for the watch list's own cancel; for CANCEL and STANDBY its request's result has no path, and both
phases' counts when the protection phase was running. R86, R107 and R110: an empty frontier ends a phase
NO_PATH and the limit EXHAUSTED, and a primary path found before is reported with it, as PARTIAL. R107 to
R109 (Completes): a result with a path that is stale, or whose hold is answered CONFLICT, is re-queued or
delivered STALE; any other is delivered, with the watch id or HOLD_REFUSED that its hold was answered. R104,
R111 and R132 to R134 (Delivers): a result goes to the watch list, or into its ingress port's queue; where
that queue is full or other frames wait (log entry 4) the engine is COMPLETING, and for a disabled port the
result is discarded and counted (log entry 6). The arbiter acts after each end, whatever the queue holds
(R105). PROVISIONAL is set by the part state at the end (log entry 23). The RESULT's payload is written out
(section 9.1.6). -/
def Obligations.EngineTakesItsEndOrder : Prop :=
  (∀ (s : State) (e : EngineId) (d : Descriptor), (s.engine e).request = some d →
    ((s.engine e).mode = .primary ∨ (s.engine e).mode = .protection) → (s.engine e).endOrder = .release →
    exec (.engineEndOrder e) s = .next (s.setEngine e Engine.idle).runArbiter) ∧
  (∀ (s : State) (e : EngineId) (d : Descriptor) (st : Status), (s.engine e).request = some d →
    ((s.engine e).endOrder = .cancel ∧ st = .cancelled ∨ (s.engine e).endOrder = .standby ∧ st = .aborted) →
    ((s.engine e).mode = .primary →
      ∃ u, Delivers s u e d
          { tag := d.tag, outcome := .failed, primary := st
            protection := if d.diversity = .none then .notRequested else .notAttempted
            truncated := (s.engine e).counts.truncated, provisional := s.stc.part == .settling
            windowAdjusted := (s.engine e).windowAdjusted, holdRefused := false, watchId := none
            primaryPhase := some (s.engine e).counts, protectionPhase := none
            primaryPath := none, protectionPath := none } ∧
        exec (.engineEndOrder e) s = .next u.runArbiter) ∧
    (∀ k, (s.engine e).mode = .protection → (s.engine e).primary = some k →
      ∃ u, Delivers s u e d
          { tag := d.tag, outcome := .failed, primary := st, protection := st
            truncated := k.counts.truncated || (s.engine e).counts.truncated
            provisional := s.stc.part == .settling, windowAdjusted := (s.engine e).windowAdjusted
            holdRefused := false, watchId := none, primaryPhase := some k.counts
            protectionPhase := some (s.engine e).counts, primaryPath := none, protectionPath := none } ∧
        exec (.engineEndOrder e) s = .next u.runArbiter)) ∧
  (∀ (s : State) (e : EngineId) (d : Descriptor) (x : Label) (y z : Engine) (st : Status),
    (s.engine e).request = some d → (s.engine e).endOrder = .none →
    firstOpen d.order (s.engine e).pool = some x → x.node ≠ d.dest →
    y = { s.engine e with
      pool := (s.engine e).pool.map (fun l => if l.number = x.number then { l with closed := true } else l)
      counts := { (s.engine e).counts with expansions := (s.engine e).counts.expansions + 1 } } →
    z = y.examineLinks s d x →
    (firstOpen d.order z.pool = none ∧ st = .noPath ∨
      firstOpen d.order z.pool ≠ none ∧ z.counts.expansions = z.limit ∧ st = .exhausted) →
    ((s.engine e).mode = .primary →
      ∃ u, Delivers (s.setEngine e z) u e d
          { tag := d.tag, outcome := .failed, primary := st
            protection := if d.diversity = .none then .notRequested else .notAttempted
            truncated := z.counts.truncated, provisional := s.stc.part == .settling
            windowAdjusted := z.windowAdjusted, holdRefused := false, watchId := none
            primaryPhase := some z.counts, protectionPhase := none
            primaryPath := none, protectionPath := none } ∧
        exec (.expansion e) s = .next u.runArbiter) ∧
    (∀ k, (s.engine e).mode = .protection → z.primary = some k →
      ∃ u, Completes (s.setEngine e z) u e d
          { tag := d.tag, outcome := .partialPath, primary := .found, protection := st
            truncated := k.counts.truncated || z.counts.truncated
            provisional := s.stc.part == .settling, windowAdjusted := z.windowAdjusted
            holdRefused := false, watchId := none, primaryPhase := some k.counts
            protectionPhase := some z.counts, primaryPath := some k.path, protectionPath := none }
          k.path none ∧
        exec (.expansion e) s = .next u.runArbiter)) ∧
  (∀ (s : State) (e : EngineId) (d : Descriptor) (x : Label) (y : Engine) (path : FoundPath),
    (s.engine e).request = some d → (s.engine e).endOrder = .none →
    firstOpen d.order (s.engine e).pool = some x → x.node = d.dest →
    y = { s.engine e with
      pool := (s.engine e).pool.map (fun l => if l.number = x.number then { l with closed := true } else l)
      counts := { (s.engine e).counts with expansions := (s.engine e).counts.expansions + 1 } } →
    path = reconstruct y.pool d.width x →
    ((s.engine e).mode = .primary → d.diversity = .none →
      ∃ u, Completes (s.setEngine e y) u e d
          { tag := d.tag, outcome := .complete, primary := .found, protection := .notRequested
            truncated := y.counts.truncated, provisional := s.stc.part == .settling
            windowAdjusted := y.windowAdjusted, holdRefused := false, watchId := none
            primaryPhase := some y.counts, protectionPhase := none
            primaryPath := some path, protectionPath := none } path none ∧
        exec (.expansion e) s = .next u.runArbiter) ∧
    (∀ k, (s.engine e).mode = .protection → y.primary = some k →
      ∃ u, Completes (s.setEngine e y) u e d
          { tag := d.tag, outcome := .complete, primary := .found, protection := .found
            truncated := k.counts.truncated || y.counts.truncated
            provisional := s.stc.part == .settling, windowAdjusted := y.windowAdjusted
            holdRefused := false, watchId := none, primaryPhase := some k.counts
            protectionPhase := some y.counts, primaryPath := some k.path, protectionPath := some path }
          k.path (some path) ∧
        exec (.expansion e) s = .next u.runArbiter) ∧
    (∀ (k : PrimaryRecord) (tallies : PhaseCounts), (s.engine e).mode = .primary → d.diversity ≠ .none →
      (s.engine e).starts = 0#320 →
      k = { path := path, facts := path.hops.map (captureFact s.tst.nodes)
            intermediates := (path.hops.drop 1).map (fun h => h.ref.origin), counts := y.counts } →
      tallies = { expansions := 0, spectrum := 1, noise := 0, hops := 0, excluded := 0, dominated := 0
                  truncated := false } →
      ∃ u, Completes (s.setEngine e { y with
            mode := .protection, primary := some k, pool := [], nextNumber := 0, counts := tallies }) u e d
          { tag := d.tag, outcome := .partialPath, primary := .found, protection := .noPath
            truncated := y.counts.truncated, provisional := s.stc.part == .settling
            windowAdjusted := y.windowAdjusted, holdRefused := false, watchId := none
            primaryPhase := some y.counts, protectionPhase := some tallies
            primaryPath := some path, protectionPath := none } path none ∧
        exec (.expansion e) s = .next u.runArbiter)) ∧
  (∀ (r : ResultRecord) (outcome flags : Nat) (phase : Nat → Option PhaseCounts → List Byte)
    (path : Nat → Option FoundPath → List Byte) (status : Status → Nat),
    (outcome, r.outcome) ∈ [(1, ResultOutcome.complete), (2, .partialPath), (3, .failed)] →
    (∀ x, (status x, x) ∈ [(0, Status.notRequested), (1, .found), (2, .noPath), (3, .exhausted),
      (4, .unknownEndpoint), (5, .badClass), (6, .cancelled), (7, .aborted), (8, .stale),
      (9, .notAttempted)]) →
    flags = (if r.truncated then 1 else 0) + (if r.provisional then 2 else 0)
      + (if r.windowAdjusted then 4 else 0) + (if r.holdRefused then 8 else 0) →
    (∀ k, phase k none = [] ∧ path k none = []) →
    (∀ k c, phase k (some c) = encByte k ++ enc2 c.expansions ++ enc4 c.spectrum ++ enc4 c.noise
      ++ enc4 c.hops ++ enc4 c.excluded ++ enc4 c.dominated) →
    (∀ k p, path k (some p) = encByte k ++ enc4 p.cost ++ encByte p.hopCount ++ encByte p.segments.length
      ++ (p.segments.flatMap (·.held.hops)).flatMap (fun h =>
          enc4 h.ref.origin.toNat ++ enc2 h.ref.lid.toNat ++ encMark h.regen)
      ++ p.segments.flatMap (fun g =>
          enc2 g.held.start ++ encByte g.held.width ++ enc2 g.q ++ encMark g.qclamp)) →
    encResult r = enc2 r.tag.toNat ++ encByte outcome ++ encByte (status r.primary)
      ++ encByte (status r.protection) ++ encByte flags
      ++ encByte (match r.watchId with
          | some id => id
          | none => 0xFF)
      ++ encByte ((if r.primaryPhase = none then 0 else 1) + (if r.protectionPhase = none then 0 else 1))
      ++ encByte ((if r.primaryPath = none then 0 else 1) + (if r.protectionPath = none then 0 else 1))
      ++ phase 0 r.primaryPhase ++ phase 1 r.protectionPhase ++ path 0 r.primaryPath
      ++ path 1 r.protectionPath)

/-- R60: n(q) is floor(2^24 × 10^(−q/100) + 0.5), the greatest m with m − 1/2 ≤ 2^24 × 10^(−q/100),
written without fractions; it falls strictly from n(0) to n(400). -/
def Obligations.NoiseTermIsRounded : Prop :=
  (∀ q m : Nat, q ≤ 400 → (m ≤ noiseTerm q ↔ m = 0 ∨ (2 * m - 1) ^ 100 * 10 ^ q ≤ 2 ^ 2500)) ∧
  (∀ q r : Nat, q < r → r ≤ 400 → noiseTerm r < noiseTerm q) ∧
  noiseTerm 0 = 16777216 ∧ noiseTerm 400 = 1678

/-! ## Whole-machine rules -/

/-- Section 10.5: every step keeps the configuration in its ranges. -/
def Obligations.EveryStepKeepsTheConfigurationSound : Prop :=
  ∀ s t : State, ConfigSound s.cfg → Steps s t → ConfigSound t.cfg

/-- R141: no dialect maps one attribute code twice in either bank, whatever step is taken. -/
def Obligations.EveryStepKeepsDialectCodesDistinct : Prop :=
  ∀ s t : State, CodesDistinct s.prb.active → CodesDistinct s.prb.staged → Steps s t →
    CodesDistinct t.prb.active ∧ CodesDistinct t.prb.staged

/-- R140: the active bank changes only at an epoch event with commit pending, or at a cold reset. -/
def Obligations.ActiveBankChangesOnlyAtAnEpoch : Prop :=
  ∀ (c : Instr) (s t : State), exec c s = .next t → t.prb.active ≠ s.prb.active →
    (∃ straps, c = .coldReset straps) ∨
    (s.prb.commitPending = true ∧ t.prb.active = s.prb.staged ∧ t.prb.commitPending = false ∧
      t.epc.number ≠ s.epc.number)

/-- R179 and R180: the notice queue holds at most one entry per class, each for a pending class and up
to date with it. -/
def Obligations.EveryStepKeepsTheNoticeQueueSound : Prop :=
  ∀ s t : State, NoticesSound s.evu → Steps s t → NoticesSound t.evu

/-- R29, R103, R157, R159 and R162: no step takes a queue past its capacity. -/
def Obligations.EveryStepKeepsTheQueuesWithin : Prop :=
  ∀ s t : State, QueuesWithin s → Steps s t → QueuesWithin t

/-- R1 to R4 with R50: every step keeps the node table's form, and the link table's: at most 2048 links in
all, every link's cost, q, SRLG list, ends and filter count in range, and every node's fields. -/
def Obligations.EveryStepKeepsTheStoreSound : Prop :=
  ∀ s t : State, StoreSound s → Steps s t → StoreSound t

/-- R119, R120, R123 to R126, R129 and R135: the watch ids in use stay distinct, ascending and below 128, a
RESERVED entry's claims stand in the overlay, and the overlay holds these claims, each once, and no other,
and no slot of a link twice. -/
def Obligations.EveryStepKeepsReservedClaims : Prop :=
  (∀ s t : State, ClaimsStand s.pwl → Steps s t → ClaimsStand t.pwl) ∧
  (∀ s t : State, WatchIdsSound s.pwl → Steps s t → WatchIdsSound t.pwl) ∧
  ∀ s t : State, WatchIdsSound s.pwl → OverlayExact s.pwl → Steps s t → OverlayExact t.pwl

/-- R152, R164 and R174: outside STANDBY no step but a cold reset changes a standby-only item. -/
def Obligations.StandbyOnlyItemsChangeOnlyInStandby : Prop :=
  ∀ (c : Instr) (s t : State), exec c s = .next t → s.stc.part ≠ .standby →
    (∃ straps, c = .coldReset straps) ∨
    (t.cfg.engineAddress = s.cfg.engineAddress ∧ t.cfg.portEnable = s.cfg.portEnable ∧
      t.cfg.epochMode = s.cfg.epochMode ∧ t.cfg.epochPort = s.cfg.epochPort)

/-- R168: the part state changes only by SET STATE, the settle timer's expiry, RESTART WARM and a cold
reset, and only as the table of R168 gives. That an age tick or an interval may hold the timer's expiry is the
model's reading (log entry 3). -/
def Obligations.PartStateChangesOnlyAsListed : Prop :=
  ∀ (c : Instr) (s t : State), exec c s = .next t → t.stc.part ≠ s.stc.part →
    (s.stc.part = .standby ∧ c = .setState ∧
      t.stc.part = if s.cfg.settleTime = 0 then .operate else .settling) ∨
    (s.stc.part = .settling ∧ t.stc.part = .operate ∧
      c ∈ [Instr.settleTimerExpiry, .ageTick, .timebaseInterval]) ∨
    (t.stc.part = .standby ∧ (c = .setState ∨ c = .restartWarm ∨ ∃ straps, c = .coldReset straps))

/-- The state after a cold reset with any straps meets every invariant above; State.reset is that of the
straps 0 (log entry 2), with no record waiting at the store (log entry 20) and no step row queued (log
entry 16). -/
def Obligations.ResetMeetsTheInvariants : Prop :=
  State.reset = State.cold 0 ∧ ∀ straps : BitVec 4,
    ConfigSound (State.cold straps).cfg ∧ CodesDistinct (State.cold straps).prb.active ∧
    CodesDistinct (State.cold straps).prb.staged ∧ NoticesSound (State.cold straps).evu ∧
    QueuesWithin (State.cold straps) ∧ StoreSound (State.cold straps) ∧ ClaimsStand (State.cold straps).pwl ∧
    WatchIdsSound (State.cold straps).pwl ∧ OverlayExact (State.cold straps).pwl
end

