-- ==== Sys2Proof/Laws/State.lean ====
section
/-! SUPPORT. What each update of the state leaves alone: one lemma per field per update. -/

namespace Sys2Proof.Machine

@[simp] theorem State.setPort_pending (s : State) (p : Port) (x : PortState) : (s.setPort p x).pending = s.pending := rfl
@[simp] theorem State.setPort_cfg (s : State) (p : Port) (x : PortState) : (s.setPort p x).cfg = s.cfg := rfl
@[simp] theorem State.setPort_stc (s : State) (p : Port) (x : PortState) : (s.setPort p x).stc = s.stc := rfl
@[simp] theorem State.setPort_atr (s : State) (p : Port) (x : PortState) : (s.setPort p x).atr = s.atr := rfl
@[simp] theorem State.setPort_prb (s : State) (p : Port) (x : PortState) : (s.setPort p x).prb = s.prb := rfl
@[simp] theorem State.setPort_epc (s : State) (p : Port) (x : PortState) : (s.setPort p x).epc = s.epc := rfl
@[simp] theorem State.setPort_tst (s : State) (p : Port) (x : PortState) : (s.setPort p x).tst = s.tst := rfl
@[simp] theorem State.setPort_rq (s : State) (p : Port) (x : PortState) : (s.setPort p x).rq = s.rq := rfl
@[simp] theorem State.setPort_engA (s : State) (p : Port) (x : PortState) : (s.setPort p x).engA = s.engA := rfl
@[simp] theorem State.setPort_engB (s : State) (p : Port) (x : PortState) : (s.setPort p x).engB = s.engB := rfl
@[simp] theorem State.setPort_pwl (s : State) (p : Port) (x : PortState) : (s.setPort p x).pwl = s.pwl := rfl
@[simp] theorem State.setPort_evu (s : State) (p : Port) (x : PortState) : (s.setPort p x).evu = s.evu := rfl

@[simp] theorem State.countPort_pending (s : State) (p : Port) (f : PortCounters → PortCounters) : (s.countPort p f).pending = s.pending := rfl
@[simp] theorem State.countPort_cfg (s : State) (p : Port) (f : PortCounters → PortCounters) : (s.countPort p f).cfg = s.cfg := rfl
@[simp] theorem State.countPort_stc (s : State) (p : Port) (f : PortCounters → PortCounters) : (s.countPort p f).stc = s.stc := rfl
@[simp] theorem State.countPort_atr (s : State) (p : Port) (f : PortCounters → PortCounters) : (s.countPort p f).atr = s.atr := rfl
@[simp] theorem State.countPort_prb (s : State) (p : Port) (f : PortCounters → PortCounters) : (s.countPort p f).prb = s.prb := rfl
@[simp] theorem State.countPort_epc (s : State) (p : Port) (f : PortCounters → PortCounters) : (s.countPort p f).epc = s.epc := rfl
@[simp] theorem State.countPort_tst (s : State) (p : Port) (f : PortCounters → PortCounters) : (s.countPort p f).tst = s.tst := rfl
@[simp] theorem State.countPort_rq (s : State) (p : Port) (f : PortCounters → PortCounters) : (s.countPort p f).rq = s.rq := rfl
@[simp] theorem State.countPort_engA (s : State) (p : Port) (f : PortCounters → PortCounters) : (s.countPort p f).engA = s.engA := rfl
@[simp] theorem State.countPort_engB (s : State) (p : Port) (f : PortCounters → PortCounters) : (s.countPort p f).engB = s.engB := rfl
@[simp] theorem State.countPort_pwl (s : State) (p : Port) (f : PortCounters → PortCounters) : (s.countPort p f).pwl = s.pwl := rfl
@[simp] theorem State.countPort_evu (s : State) (p : Port) (f : PortCounters → PortCounters) : (s.countPort p f).evu = s.evu := rfl

@[simp] theorem State.enterLocal_pending (s : State) (p : Port) (f : OutFrame) : (s.enterLocal p f).pending = s.pending := rfl
@[simp] theorem State.enterLocal_cfg (s : State) (p : Port) (f : OutFrame) : (s.enterLocal p f).cfg = s.cfg := rfl
@[simp] theorem State.enterLocal_stc (s : State) (p : Port) (f : OutFrame) : (s.enterLocal p f).stc = s.stc := rfl
@[simp] theorem State.enterLocal_atr (s : State) (p : Port) (f : OutFrame) : (s.enterLocal p f).atr = s.atr := rfl
@[simp] theorem State.enterLocal_prb (s : State) (p : Port) (f : OutFrame) : (s.enterLocal p f).prb = s.prb := rfl
@[simp] theorem State.enterLocal_epc (s : State) (p : Port) (f : OutFrame) : (s.enterLocal p f).epc = s.epc := rfl
@[simp] theorem State.enterLocal_tst (s : State) (p : Port) (f : OutFrame) : (s.enterLocal p f).tst = s.tst := rfl
@[simp] theorem State.enterLocal_rq (s : State) (p : Port) (f : OutFrame) : (s.enterLocal p f).rq = s.rq := rfl
@[simp] theorem State.enterLocal_engA (s : State) (p : Port) (f : OutFrame) : (s.enterLocal p f).engA = s.engA := rfl
@[simp] theorem State.enterLocal_engB (s : State) (p : Port) (f : OutFrame) : (s.enterLocal p f).engB = s.engB := rfl
@[simp] theorem State.enterLocal_pwl (s : State) (p : Port) (f : OutFrame) : (s.enterLocal p f).pwl = s.pwl := rfl
@[simp] theorem State.enterLocal_evu (s : State) (p : Port) (f : OutFrame) : (s.enterLocal p f).evu = s.evu := rfl

@[simp] theorem State.countLocalDiscard_pending (s : State) (p : Port) : (s.countLocalDiscard p).pending = s.pending := rfl
@[simp] theorem State.countLocalDiscard_cfg (s : State) (p : Port) : (s.countLocalDiscard p).cfg = s.cfg := rfl
@[simp] theorem State.countLocalDiscard_stc (s : State) (p : Port) : (s.countLocalDiscard p).stc = s.stc := rfl
@[simp] theorem State.countLocalDiscard_atr (s : State) (p : Port) : (s.countLocalDiscard p).atr = s.atr := rfl
@[simp] theorem State.countLocalDiscard_prb (s : State) (p : Port) : (s.countLocalDiscard p).prb = s.prb := rfl
@[simp] theorem State.countLocalDiscard_epc (s : State) (p : Port) : (s.countLocalDiscard p).epc = s.epc := rfl
@[simp] theorem State.countLocalDiscard_tst (s : State) (p : Port) : (s.countLocalDiscard p).tst = s.tst := rfl
@[simp] theorem State.countLocalDiscard_rq (s : State) (p : Port) : (s.countLocalDiscard p).rq = s.rq := rfl
@[simp] theorem State.countLocalDiscard_engA (s : State) (p : Port) : (s.countLocalDiscard p).engA = s.engA := rfl
@[simp] theorem State.countLocalDiscard_engB (s : State) (p : Port) : (s.countLocalDiscard p).engB = s.engB := rfl
@[simp] theorem State.countLocalDiscard_pwl (s : State) (p : Port) : (s.countLocalDiscard p).pwl = s.pwl := rfl
@[simp] theorem State.countLocalDiscard_evu (s : State) (p : Port) : (s.countLocalDiscard p).evu = s.evu := rfl

@[simp] theorem State.withIntake_pending (s : State) (r : List IntakeFrame) : (s.withIntake r).pending = s.pending := rfl
@[simp] theorem State.withIntake_cfg (s : State) (r : List IntakeFrame) : (s.withIntake r).cfg = s.cfg := rfl
@[simp] theorem State.withIntake_stc (s : State) (r : List IntakeFrame) : (s.withIntake r).stc = s.stc := rfl
@[simp] theorem State.withIntake_atr (s : State) (r : List IntakeFrame) : (s.withIntake r).atr = s.atr := rfl
@[simp] theorem State.withIntake_prb (s : State) (r : List IntakeFrame) : (s.withIntake r).prb = s.prb := rfl
@[simp] theorem State.withIntake_epc (s : State) (r : List IntakeFrame) : (s.withIntake r).epc = s.epc := rfl
@[simp] theorem State.withIntake_tst (s : State) (r : List IntakeFrame) : (s.withIntake r).tst = s.tst := rfl
@[simp] theorem State.withIntake_rq (s : State) (r : List IntakeFrame) : (s.withIntake r).rq = s.rq := rfl
@[simp] theorem State.withIntake_engA (s : State) (r : List IntakeFrame) : (s.withIntake r).engA = s.engA := rfl
@[simp] theorem State.withIntake_engB (s : State) (r : List IntakeFrame) : (s.withIntake r).engB = s.engB := rfl
@[simp] theorem State.withIntake_pwl (s : State) (r : List IntakeFrame) : (s.withIntake r).pwl = s.pwl := rfl
@[simp] theorem State.withIntake_evu (s : State) (r : List IntakeFrame) : (s.withIntake r).evu = s.evu := rfl

@[simp] theorem State.popIntake_pending (s : State) : s.popIntake.pending = s.pending := rfl
@[simp] theorem State.popIntake_cfg (s : State) : s.popIntake.cfg = s.cfg := rfl
@[simp] theorem State.popIntake_stc (s : State) : s.popIntake.stc = s.stc := rfl
@[simp] theorem State.popIntake_atr (s : State) : s.popIntake.atr = s.atr := rfl
@[simp] theorem State.popIntake_prb (s : State) : s.popIntake.prb = s.prb := rfl
@[simp] theorem State.popIntake_epc (s : State) : s.popIntake.epc = s.epc := rfl
@[simp] theorem State.popIntake_tst (s : State) : s.popIntake.tst = s.tst := rfl
@[simp] theorem State.popIntake_rq (s : State) : s.popIntake.rq = s.rq := rfl
@[simp] theorem State.popIntake_engA (s : State) : s.popIntake.engA = s.engA := rfl
@[simp] theorem State.popIntake_engB (s : State) : s.popIntake.engB = s.engB := rfl
@[simp] theorem State.popIntake_pwl (s : State) : s.popIntake.pwl = s.pwl := rfl
@[simp] theorem State.popIntake_evu (s : State) : s.popIntake.evu = s.evu := rfl

@[simp] theorem State.countResultDiscard_pending (s : State) : s.countResultDiscard.pending = s.pending := rfl
@[simp] theorem State.countResultDiscard_cfg (s : State) : s.countResultDiscard.cfg = s.cfg := rfl
@[simp] theorem State.countResultDiscard_stc (s : State) : s.countResultDiscard.stc = s.stc := rfl
@[simp] theorem State.countResultDiscard_spu (s : State) : s.countResultDiscard.spu = s.spu := rfl
@[simp] theorem State.countResultDiscard_atr (s : State) : s.countResultDiscard.atr = s.atr := rfl
@[simp] theorem State.countResultDiscard_prb (s : State) : s.countResultDiscard.prb = s.prb := rfl
@[simp] theorem State.countResultDiscard_epc (s : State) : s.countResultDiscard.epc = s.epc := rfl
@[simp] theorem State.countResultDiscard_tst (s : State) : s.countResultDiscard.tst = s.tst := rfl
@[simp] theorem State.countResultDiscard_engA (s : State) : s.countResultDiscard.engA = s.engA := rfl
@[simp] theorem State.countResultDiscard_engB (s : State) : s.countResultDiscard.engB = s.engB := rfl
@[simp] theorem State.countResultDiscard_pwl (s : State) : s.countResultDiscard.pwl = s.pwl := rfl
@[simp] theorem State.countResultDiscard_evu (s : State) : s.countResultDiscard.evu = s.evu := rfl

@[simp] theorem State.setQueue_pending (s : State) (q : List Descriptor) : (s.setQueue q).pending = s.pending := rfl
@[simp] theorem State.setQueue_cfg (s : State) (q : List Descriptor) : (s.setQueue q).cfg = s.cfg := rfl
@[simp] theorem State.setQueue_stc (s : State) (q : List Descriptor) : (s.setQueue q).stc = s.stc := rfl
@[simp] theorem State.setQueue_spu (s : State) (q : List Descriptor) : (s.setQueue q).spu = s.spu := rfl
@[simp] theorem State.setQueue_atr (s : State) (q : List Descriptor) : (s.setQueue q).atr = s.atr := rfl
@[simp] theorem State.setQueue_prb (s : State) (q : List Descriptor) : (s.setQueue q).prb = s.prb := rfl
@[simp] theorem State.setQueue_epc (s : State) (q : List Descriptor) : (s.setQueue q).epc = s.epc := rfl
@[simp] theorem State.setQueue_tst (s : State) (q : List Descriptor) : (s.setQueue q).tst = s.tst := rfl
@[simp] theorem State.setQueue_engA (s : State) (q : List Descriptor) : (s.setQueue q).engA = s.engA := rfl
@[simp] theorem State.setQueue_engB (s : State) (q : List Descriptor) : (s.setQueue q).engB = s.engB := rfl
@[simp] theorem State.setQueue_pwl (s : State) (q : List Descriptor) : (s.setQueue q).pwl = s.pwl := rfl
@[simp] theorem State.setQueue_evu (s : State) (q : List Descriptor) : (s.setQueue q).evu = s.evu := rfl

@[simp] theorem State.countRq_pending (s : State) (f : RequestCounters → RequestCounters) : (s.countRq f).pending = s.pending := rfl
@[simp] theorem State.countRq_cfg (s : State) (f : RequestCounters → RequestCounters) : (s.countRq f).cfg = s.cfg := rfl
@[simp] theorem State.countRq_stc (s : State) (f : RequestCounters → RequestCounters) : (s.countRq f).stc = s.stc := rfl
@[simp] theorem State.countRq_spu (s : State) (f : RequestCounters → RequestCounters) : (s.countRq f).spu = s.spu := rfl
@[simp] theorem State.countRq_atr (s : State) (f : RequestCounters → RequestCounters) : (s.countRq f).atr = s.atr := rfl
@[simp] theorem State.countRq_prb (s : State) (f : RequestCounters → RequestCounters) : (s.countRq f).prb = s.prb := rfl
@[simp] theorem State.countRq_epc (s : State) (f : RequestCounters → RequestCounters) : (s.countRq f).epc = s.epc := rfl
@[simp] theorem State.countRq_tst (s : State) (f : RequestCounters → RequestCounters) : (s.countRq f).tst = s.tst := rfl
@[simp] theorem State.countRq_engA (s : State) (f : RequestCounters → RequestCounters) : (s.countRq f).engA = s.engA := rfl
@[simp] theorem State.countRq_engB (s : State) (f : RequestCounters → RequestCounters) : (s.countRq f).engB = s.engB := rfl
@[simp] theorem State.countRq_pwl (s : State) (f : RequestCounters → RequestCounters) : (s.countRq f).pwl = s.pwl := rfl
@[simp] theorem State.countRq_evu (s : State) (f : RequestCounters → RequestCounters) : (s.countRq f).evu = s.evu := rfl

@[simp] theorem State.countAtr_pending (s : State) (f : TranslatorCounters → TranslatorCounters) : (s.countAtr f).pending = s.pending := rfl
@[simp] theorem State.countAtr_cfg (s : State) (f : TranslatorCounters → TranslatorCounters) : (s.countAtr f).cfg = s.cfg := rfl
@[simp] theorem State.countAtr_stc (s : State) (f : TranslatorCounters → TranslatorCounters) : (s.countAtr f).stc = s.stc := rfl
@[simp] theorem State.countAtr_spu (s : State) (f : TranslatorCounters → TranslatorCounters) : (s.countAtr f).spu = s.spu := rfl
@[simp] theorem State.countAtr_prb (s : State) (f : TranslatorCounters → TranslatorCounters) : (s.countAtr f).prb = s.prb := rfl
@[simp] theorem State.countAtr_epc (s : State) (f : TranslatorCounters → TranslatorCounters) : (s.countAtr f).epc = s.epc := rfl
@[simp] theorem State.countAtr_tst (s : State) (f : TranslatorCounters → TranslatorCounters) : (s.countAtr f).tst = s.tst := rfl
@[simp] theorem State.countAtr_rq (s : State) (f : TranslatorCounters → TranslatorCounters) : (s.countAtr f).rq = s.rq := rfl
@[simp] theorem State.countAtr_engA (s : State) (f : TranslatorCounters → TranslatorCounters) : (s.countAtr f).engA = s.engA := rfl
@[simp] theorem State.countAtr_engB (s : State) (f : TranslatorCounters → TranslatorCounters) : (s.countAtr f).engB = s.engB := rfl
@[simp] theorem State.countAtr_pwl (s : State) (f : TranslatorCounters → TranslatorCounters) : (s.countAtr f).pwl = s.pwl := rfl
@[simp] theorem State.countAtr_evu (s : State) (f : TranslatorCounters → TranslatorCounters) : (s.countAtr f).evu = s.evu := rfl

@[simp] theorem State.countEpc_pending (s : State) (f : EpochCounters → EpochCounters) : (s.countEpc f).pending = s.pending := rfl
@[simp] theorem State.countEpc_cfg (s : State) (f : EpochCounters → EpochCounters) : (s.countEpc f).cfg = s.cfg := rfl
@[simp] theorem State.countEpc_stc (s : State) (f : EpochCounters → EpochCounters) : (s.countEpc f).stc = s.stc := rfl
@[simp] theorem State.countEpc_spu (s : State) (f : EpochCounters → EpochCounters) : (s.countEpc f).spu = s.spu := rfl
@[simp] theorem State.countEpc_atr (s : State) (f : EpochCounters → EpochCounters) : (s.countEpc f).atr = s.atr := rfl
@[simp] theorem State.countEpc_prb (s : State) (f : EpochCounters → EpochCounters) : (s.countEpc f).prb = s.prb := rfl
@[simp] theorem State.countEpc_tst (s : State) (f : EpochCounters → EpochCounters) : (s.countEpc f).tst = s.tst := rfl
@[simp] theorem State.countEpc_rq (s : State) (f : EpochCounters → EpochCounters) : (s.countEpc f).rq = s.rq := rfl
@[simp] theorem State.countEpc_engA (s : State) (f : EpochCounters → EpochCounters) : (s.countEpc f).engA = s.engA := rfl
@[simp] theorem State.countEpc_engB (s : State) (f : EpochCounters → EpochCounters) : (s.countEpc f).engB = s.engB := rfl
@[simp] theorem State.countEpc_pwl (s : State) (f : EpochCounters → EpochCounters) : (s.countEpc f).pwl = s.pwl := rfl
@[simp] theorem State.countEpc_evu (s : State) (f : EpochCounters → EpochCounters) : (s.countEpc f).evu = s.evu := rfl

@[simp] theorem State.setStaged_pending (s : State) (b : Bank) : (s.setStaged b).pending = s.pending := rfl
@[simp] theorem State.setStaged_cfg (s : State) (b : Bank) : (s.setStaged b).cfg = s.cfg := rfl
@[simp] theorem State.setStaged_stc (s : State) (b : Bank) : (s.setStaged b).stc = s.stc := rfl
@[simp] theorem State.setStaged_spu (s : State) (b : Bank) : (s.setStaged b).spu = s.spu := rfl
@[simp] theorem State.setStaged_atr (s : State) (b : Bank) : (s.setStaged b).atr = s.atr := rfl
@[simp] theorem State.setStaged_epc (s : State) (b : Bank) : (s.setStaged b).epc = s.epc := rfl
@[simp] theorem State.setStaged_tst (s : State) (b : Bank) : (s.setStaged b).tst = s.tst := rfl
@[simp] theorem State.setStaged_rq (s : State) (b : Bank) : (s.setStaged b).rq = s.rq := rfl
@[simp] theorem State.setStaged_engA (s : State) (b : Bank) : (s.setStaged b).engA = s.engA := rfl
@[simp] theorem State.setStaged_engB (s : State) (b : Bank) : (s.setStaged b).engB = s.engB := rfl
@[simp] theorem State.setStaged_pwl (s : State) (b : Bank) : (s.setStaged b).pwl = s.pwl := rfl
@[simp] theorem State.setStaged_evu (s : State) (b : Bank) : (s.setStaged b).evu = s.evu := rfl

@[simp] theorem State.setNodes_pending (s : State) (n : List NodeEntry) : (s.setNodes n).pending = s.pending := rfl
@[simp] theorem State.setNodes_cfg (s : State) (n : List NodeEntry) : (s.setNodes n).cfg = s.cfg := rfl
@[simp] theorem State.setNodes_stc (s : State) (n : List NodeEntry) : (s.setNodes n).stc = s.stc := rfl
@[simp] theorem State.setNodes_spu (s : State) (n : List NodeEntry) : (s.setNodes n).spu = s.spu := rfl
@[simp] theorem State.setNodes_atr (s : State) (n : List NodeEntry) : (s.setNodes n).atr = s.atr := rfl
@[simp] theorem State.setNodes_prb (s : State) (n : List NodeEntry) : (s.setNodes n).prb = s.prb := rfl
@[simp] theorem State.setNodes_epc (s : State) (n : List NodeEntry) : (s.setNodes n).epc = s.epc := rfl
@[simp] theorem State.setNodes_rq (s : State) (n : List NodeEntry) : (s.setNodes n).rq = s.rq := rfl
@[simp] theorem State.setNodes_engA (s : State) (n : List NodeEntry) : (s.setNodes n).engA = s.engA := rfl
@[simp] theorem State.setNodes_engB (s : State) (n : List NodeEntry) : (s.setNodes n).engB = s.engB := rfl
@[simp] theorem State.setNodes_pwl (s : State) (n : List NodeEntry) : (s.setNodes n).pwl = s.pwl := rfl
@[simp] theorem State.setNodes_evu (s : State) (n : List NodeEntry) : (s.setNodes n).evu = s.evu := rfl

@[simp] theorem State.setWatch_pending (s : State) (w : WatchEntry) : (s.setWatch w).pending = s.pending := rfl
@[simp] theorem State.setWatch_cfg (s : State) (w : WatchEntry) : (s.setWatch w).cfg = s.cfg := rfl
@[simp] theorem State.setWatch_stc (s : State) (w : WatchEntry) : (s.setWatch w).stc = s.stc := rfl
@[simp] theorem State.setWatch_spu (s : State) (w : WatchEntry) : (s.setWatch w).spu = s.spu := rfl
@[simp] theorem State.setWatch_atr (s : State) (w : WatchEntry) : (s.setWatch w).atr = s.atr := rfl
@[simp] theorem State.setWatch_prb (s : State) (w : WatchEntry) : (s.setWatch w).prb = s.prb := rfl
@[simp] theorem State.setWatch_epc (s : State) (w : WatchEntry) : (s.setWatch w).epc = s.epc := rfl
@[simp] theorem State.setWatch_tst (s : State) (w : WatchEntry) : (s.setWatch w).tst = s.tst := rfl
@[simp] theorem State.setWatch_rq (s : State) (w : WatchEntry) : (s.setWatch w).rq = s.rq := rfl
@[simp] theorem State.setWatch_engA (s : State) (w : WatchEntry) : (s.setWatch w).engA = s.engA := rfl
@[simp] theorem State.setWatch_engB (s : State) (w : WatchEntry) : (s.setWatch w).engB = s.engB := rfl
@[simp] theorem State.setWatch_evu (s : State) (w : WatchEntry) : (s.setWatch w).evu = s.evu := rfl

@[simp] theorem State.releaseClaims_pending (s : State) (id : Nat) : (s.releaseClaims id).pending = s.pending := rfl
@[simp] theorem State.releaseClaims_cfg (s : State) (id : Nat) : (s.releaseClaims id).cfg = s.cfg := rfl
@[simp] theorem State.releaseClaims_stc (s : State) (id : Nat) : (s.releaseClaims id).stc = s.stc := rfl
@[simp] theorem State.releaseClaims_spu (s : State) (id : Nat) : (s.releaseClaims id).spu = s.spu := rfl
@[simp] theorem State.releaseClaims_atr (s : State) (id : Nat) : (s.releaseClaims id).atr = s.atr := rfl
@[simp] theorem State.releaseClaims_prb (s : State) (id : Nat) : (s.releaseClaims id).prb = s.prb := rfl
@[simp] theorem State.releaseClaims_epc (s : State) (id : Nat) : (s.releaseClaims id).epc = s.epc := rfl
@[simp] theorem State.releaseClaims_tst (s : State) (id : Nat) : (s.releaseClaims id).tst = s.tst := rfl
@[simp] theorem State.releaseClaims_rq (s : State) (id : Nat) : (s.releaseClaims id).rq = s.rq := rfl
@[simp] theorem State.releaseClaims_engA (s : State) (id : Nat) : (s.releaseClaims id).engA = s.engA := rfl
@[simp] theorem State.releaseClaims_engB (s : State) (id : Nat) : (s.releaseClaims id).engB = s.engB := rfl
@[simp] theorem State.releaseClaims_evu (s : State) (id : Nat) : (s.releaseClaims id).evu = s.evu := rfl

@[simp] theorem State.removeWatch_pending (s : State) (id : Nat) : (s.removeWatch id).pending = s.pending := rfl
@[simp] theorem State.removeWatch_cfg (s : State) (id : Nat) : (s.removeWatch id).cfg = s.cfg := rfl
@[simp] theorem State.removeWatch_stc (s : State) (id : Nat) : (s.removeWatch id).stc = s.stc := rfl
@[simp] theorem State.removeWatch_spu (s : State) (id : Nat) : (s.removeWatch id).spu = s.spu := rfl
@[simp] theorem State.removeWatch_atr (s : State) (id : Nat) : (s.removeWatch id).atr = s.atr := rfl
@[simp] theorem State.removeWatch_prb (s : State) (id : Nat) : (s.removeWatch id).prb = s.prb := rfl
@[simp] theorem State.removeWatch_epc (s : State) (id : Nat) : (s.removeWatch id).epc = s.epc := rfl
@[simp] theorem State.removeWatch_tst (s : State) (id : Nat) : (s.removeWatch id).tst = s.tst := rfl
@[simp] theorem State.removeWatch_rq (s : State) (id : Nat) : (s.removeWatch id).rq = s.rq := rfl
@[simp] theorem State.removeWatch_engA (s : State) (id : Nat) : (s.removeWatch id).engA = s.engA := rfl
@[simp] theorem State.removeWatch_engB (s : State) (id : Nat) : (s.removeWatch id).engB = s.engB := rfl
@[simp] theorem State.removeWatch_evu (s : State) (id : Nat) : (s.removeWatch id).evu = s.evu := rfl

@[simp] theorem State.setOffered_pending (s : State) (o : TickOffer) : (s.setOffered o).pending = s.pending := rfl
@[simp] theorem State.setOffered_cfg (s : State) (o : TickOffer) : (s.setOffered o).cfg = s.cfg := rfl
@[simp] theorem State.setOffered_spu (s : State) (o : TickOffer) : (s.setOffered o).spu = s.spu := rfl
@[simp] theorem State.setOffered_atr (s : State) (o : TickOffer) : (s.setOffered o).atr = s.atr := rfl
@[simp] theorem State.setOffered_prb (s : State) (o : TickOffer) : (s.setOffered o).prb = s.prb := rfl
@[simp] theorem State.setOffered_epc (s : State) (o : TickOffer) : (s.setOffered o).epc = s.epc := rfl
@[simp] theorem State.setOffered_tst (s : State) (o : TickOffer) : (s.setOffered o).tst = s.tst := rfl
@[simp] theorem State.setOffered_rq (s : State) (o : TickOffer) : (s.setOffered o).rq = s.rq := rfl
@[simp] theorem State.setOffered_engA (s : State) (o : TickOffer) : (s.setOffered o).engA = s.engA := rfl
@[simp] theorem State.setOffered_engB (s : State) (o : TickOffer) : (s.setOffered o).engB = s.engB := rfl
@[simp] theorem State.setOffered_pwl (s : State) (o : TickOffer) : (s.setOffered o).pwl = s.pwl := rfl
@[simp] theorem State.setOffered_evu (s : State) (o : TickOffer) : (s.setOffered o).evu = s.evu := rfl

@[simp] theorem State.raise_pending (s : State) (c : EventClass) (x : Subject) (r : Reason) : (s.raise c x r).pending = s.pending := rfl
@[simp] theorem State.raise_cfg (s : State) (c : EventClass) (x : Subject) (r : Reason) : (s.raise c x r).cfg = s.cfg := rfl
@[simp] theorem State.raise_stc (s : State) (c : EventClass) (x : Subject) (r : Reason) : (s.raise c x r).stc = s.stc := rfl
@[simp] theorem State.raise_spu (s : State) (c : EventClass) (x : Subject) (r : Reason) : (s.raise c x r).spu = s.spu := rfl
@[simp] theorem State.raise_atr (s : State) (c : EventClass) (x : Subject) (r : Reason) : (s.raise c x r).atr = s.atr := rfl
@[simp] theorem State.raise_prb (s : State) (c : EventClass) (x : Subject) (r : Reason) : (s.raise c x r).prb = s.prb := rfl
@[simp] theorem State.raise_epc (s : State) (c : EventClass) (x : Subject) (r : Reason) : (s.raise c x r).epc = s.epc := rfl
@[simp] theorem State.raise_tst (s : State) (c : EventClass) (x : Subject) (r : Reason) : (s.raise c x r).tst = s.tst := rfl
@[simp] theorem State.raise_rq (s : State) (c : EventClass) (x : Subject) (r : Reason) : (s.raise c x r).rq = s.rq := rfl
@[simp] theorem State.raise_engA (s : State) (c : EventClass) (x : Subject) (r : Reason) : (s.raise c x r).engA = s.engA := rfl
@[simp] theorem State.raise_engB (s : State) (c : EventClass) (x : Subject) (r : Reason) : (s.raise c x r).engB = s.engB := rfl
@[simp] theorem State.raise_pwl (s : State) (c : EventClass) (x : Subject) (r : Reason) : (s.raise c x r).pwl = s.pwl := rfl

@[simp] theorem State.raiseWatch_pending (s : State) (c : EventClass) (w : WatchEntry) : (s.raiseWatch c w).pending = s.pending := rfl
@[simp] theorem State.raiseWatch_cfg (s : State) (c : EventClass) (w : WatchEntry) : (s.raiseWatch c w).cfg = s.cfg := rfl
@[simp] theorem State.raiseWatch_stc (s : State) (c : EventClass) (w : WatchEntry) : (s.raiseWatch c w).stc = s.stc := rfl
@[simp] theorem State.raiseWatch_spu (s : State) (c : EventClass) (w : WatchEntry) : (s.raiseWatch c w).spu = s.spu := rfl
@[simp] theorem State.raiseWatch_atr (s : State) (c : EventClass) (w : WatchEntry) : (s.raiseWatch c w).atr = s.atr := rfl
@[simp] theorem State.raiseWatch_prb (s : State) (c : EventClass) (w : WatchEntry) : (s.raiseWatch c w).prb = s.prb := rfl
@[simp] theorem State.raiseWatch_epc (s : State) (c : EventClass) (w : WatchEntry) : (s.raiseWatch c w).epc = s.epc := rfl
@[simp] theorem State.raiseWatch_tst (s : State) (c : EventClass) (w : WatchEntry) : (s.raiseWatch c w).tst = s.tst := rfl
@[simp] theorem State.raiseWatch_rq (s : State) (c : EventClass) (w : WatchEntry) : (s.raiseWatch c w).rq = s.rq := rfl
@[simp] theorem State.raiseWatch_engA (s : State) (c : EventClass) (w : WatchEntry) : (s.raiseWatch c w).engA = s.engA := rfl
@[simp] theorem State.raiseWatch_engB (s : State) (c : EventClass) (w : WatchEntry) : (s.raiseWatch c w).engB = s.engB := rfl
@[simp] theorem State.raiseWatch_pwl (s : State) (c : EventClass) (w : WatchEntry) : (s.raiseWatch c w).pwl = s.pwl := rfl

@[simp] theorem State.raiseDropped_pending (s : State) (r : Reason) : (s.raiseDropped r).pending = s.pending := rfl
@[simp] theorem State.raiseDropped_cfg (s : State) (r : Reason) : (s.raiseDropped r).cfg = s.cfg := rfl
@[simp] theorem State.raiseDropped_stc (s : State) (r : Reason) : (s.raiseDropped r).stc = s.stc := rfl
@[simp] theorem State.raiseDropped_spu (s : State) (r : Reason) : (s.raiseDropped r).spu = s.spu := rfl
@[simp] theorem State.raiseDropped_atr (s : State) (r : Reason) : (s.raiseDropped r).atr = s.atr := rfl
@[simp] theorem State.raiseDropped_prb (s : State) (r : Reason) : (s.raiseDropped r).prb = s.prb := rfl
@[simp] theorem State.raiseDropped_epc (s : State) (r : Reason) : (s.raiseDropped r).epc = s.epc := rfl
@[simp] theorem State.raiseDropped_tst (s : State) (r : Reason) : (s.raiseDropped r).tst = s.tst := rfl
@[simp] theorem State.raiseDropped_rq (s : State) (r : Reason) : (s.raiseDropped r).rq = s.rq := rfl
@[simp] theorem State.raiseDropped_engA (s : State) (r : Reason) : (s.raiseDropped r).engA = s.engA := rfl
@[simp] theorem State.raiseDropped_engB (s : State) (r : Reason) : (s.raiseDropped r).engB = s.engB := rfl
@[simp] theorem State.raiseDropped_pwl (s : State) (r : Reason) : (s.raiseDropped r).pwl = s.pwl := rfl

@[simp] theorem State.touchReports_pending (s : State) (r : List Report) : (s.touchReports r).pending = s.pending := rfl
@[simp] theorem State.touchReports_cfg (s : State) (r : List Report) : (s.touchReports r).cfg = s.cfg := rfl
@[simp] theorem State.touchReports_stc (s : State) (r : List Report) : (s.touchReports r).stc = s.stc := rfl
@[simp] theorem State.touchReports_spu (s : State) (r : List Report) : (s.touchReports r).spu = s.spu := rfl
@[simp] theorem State.touchReports_atr (s : State) (r : List Report) : (s.touchReports r).atr = s.atr := rfl
@[simp] theorem State.touchReports_prb (s : State) (r : List Report) : (s.touchReports r).prb = s.prb := rfl
@[simp] theorem State.touchReports_epc (s : State) (r : List Report) : (s.touchReports r).epc = s.epc := rfl
@[simp] theorem State.touchReports_tst (s : State) (r : List Report) : (s.touchReports r).tst = s.tst := rfl
@[simp] theorem State.touchReports_rq (s : State) (r : List Report) : (s.touchReports r).rq = s.rq := rfl
@[simp] theorem State.touchReports_pwl (s : State) (r : List Report) : (s.touchReports r).pwl = s.pwl := rfl
@[simp] theorem State.touchReports_evu (s : State) (r : List Report) : (s.touchReports r).evu = s.evu := rfl

@[simp] theorem State.rethreshold_pending (s : State) : s.rethreshold.pending = s.pending := rfl
@[simp] theorem State.rethreshold_cfg (s : State) : s.rethreshold.cfg = s.cfg := rfl
@[simp] theorem State.rethreshold_stc (s : State) : s.rethreshold.stc = s.stc := rfl
@[simp] theorem State.rethreshold_spu (s : State) : s.rethreshold.spu = s.spu := rfl
@[simp] theorem State.rethreshold_atr (s : State) : s.rethreshold.atr = s.atr := rfl
@[simp] theorem State.rethreshold_prb (s : State) : s.rethreshold.prb = s.prb := rfl
@[simp] theorem State.rethreshold_epc (s : State) : s.rethreshold.epc = s.epc := rfl
@[simp] theorem State.rethreshold_rq (s : State) : s.rethreshold.rq = s.rq := rfl
@[simp] theorem State.rethreshold_engA (s : State) : s.rethreshold.engA = s.engA := rfl
@[simp] theorem State.rethreshold_engB (s : State) : s.rethreshold.engB = s.engB := rfl
@[simp] theorem State.rethreshold_pwl (s : State) : s.rethreshold.pwl = s.pwl := rfl
@[simp] theorem State.rethreshold_evu (s : State) : s.rethreshold.evu = s.evu := rfl

@[simp] theorem State.setPort_spu_intake (s : State) (p : Port) (x : PortState) : (s.setPort p x).spu.intake = s.spu.intake := rfl
@[simp] theorem State.setPort_spu_hold (s : State) (p : Port) (x : PortState) : (s.setPort p x).spu.hold = s.spu.hold := rfl
@[simp] theorem State.setPort_spu_sources (s : State) (p : Port) (x : PortState) : (s.setPort p x).spu.sources = s.spu.sources := rfl
@[simp] theorem State.countPort_spu_intake (s : State) (p : Port) (f : PortCounters → PortCounters) : (s.countPort p f).spu.intake = s.spu.intake := rfl
@[simp] theorem State.countPort_spu_hold (s : State) (p : Port) (f : PortCounters → PortCounters) : (s.countPort p f).spu.hold = s.spu.hold := rfl
@[simp] theorem State.countPort_spu_sources (s : State) (p : Port) (f : PortCounters → PortCounters) : (s.countPort p f).spu.sources = s.spu.sources := rfl
@[simp] theorem State.enterLocal_spu_intake (s : State) (p : Port) (f : OutFrame) : (s.enterLocal p f).spu.intake = s.spu.intake := rfl
@[simp] theorem State.enterLocal_spu_hold (s : State) (p : Port) (f : OutFrame) : (s.enterLocal p f).spu.hold = s.spu.hold := rfl
@[simp] theorem State.enterLocal_spu_sources (s : State) (p : Port) (f : OutFrame) : (s.enterLocal p f).spu.sources = s.spu.sources := rfl
@[simp] theorem State.countLocalDiscard_spu_intake (s : State) (p : Port) : (s.countLocalDiscard p).spu.intake = s.spu.intake := rfl
@[simp] theorem State.countLocalDiscard_spu_hold (s : State) (p : Port) : (s.countLocalDiscard p).spu.hold = s.spu.hold := rfl
@[simp] theorem State.countLocalDiscard_spu_sources (s : State) (p : Port) : (s.countLocalDiscard p).spu.sources = s.spu.sources := rfl

@[simp] theorem State.withIntake_spu_ports (s : State) (r : List IntakeFrame) : (s.withIntake r).spu.ports = s.spu.ports := rfl
@[simp] theorem State.withIntake_spu_hold (s : State) (r : List IntakeFrame) : (s.withIntake r).spu.hold = s.spu.hold := rfl
@[simp] theorem State.withIntake_spu_sources (s : State) (r : List IntakeFrame) : (s.withIntake r).spu.sources = s.spu.sources := rfl
@[simp] theorem State.popIntake_spu_ports (s : State) : s.popIntake.spu.ports = s.spu.ports := rfl
@[simp] theorem State.popIntake_spu_hold (s : State) : s.popIntake.spu.hold = s.spu.hold := rfl
@[simp] theorem State.popIntake_spu_sources (s : State) : s.popIntake.spu.sources = s.spu.sources := rfl
@[simp] theorem State.withIntake_spu_intake (s : State) (r : List IntakeFrame) : (s.withIntake r).spu.intake = r := rfl

@[simp] theorem State.setEngine_pending (s : State) (e : EngineId) (x : Engine) : (s.setEngine e x).pending = s.pending := by
  cases e <;> rfl
@[simp] theorem State.setEngine_cfg (s : State) (e : EngineId) (x : Engine) : (s.setEngine e x).cfg = s.cfg := by
  cases e <;> rfl
@[simp] theorem State.setEngine_stc (s : State) (e : EngineId) (x : Engine) : (s.setEngine e x).stc = s.stc := by
  cases e <;> rfl
@[simp] theorem State.setEngine_spu (s : State) (e : EngineId) (x : Engine) : (s.setEngine e x).spu = s.spu := by
  cases e <;> rfl
@[simp] theorem State.setEngine_atr (s : State) (e : EngineId) (x : Engine) : (s.setEngine e x).atr = s.atr := by
  cases e <;> rfl
@[simp] theorem State.setEngine_prb (s : State) (e : EngineId) (x : Engine) : (s.setEngine e x).prb = s.prb := by
  cases e <;> rfl
@[simp] theorem State.setEngine_epc (s : State) (e : EngineId) (x : Engine) : (s.setEngine e x).epc = s.epc := by
  cases e <;> rfl
@[simp] theorem State.setEngine_tst (s : State) (e : EngineId) (x : Engine) : (s.setEngine e x).tst = s.tst := by
  cases e <;> rfl
@[simp] theorem State.setEngine_rq (s : State) (e : EngineId) (x : Engine) : (s.setEngine e x).rq = s.rq := by
  cases e <;> rfl
@[simp] theorem State.setEngine_pwl (s : State) (e : EngineId) (x : Engine) : (s.setEngine e x).pwl = s.pwl := by
  cases e <;> rfl
@[simp] theorem State.setEngine_evu (s : State) (e : EngineId) (x : Engine) : (s.setEngine e x).evu = s.evu := by
  cases e <;> rfl

@[simp] theorem State.setEngine_engine (s : State) (e : EngineId) (x : Engine) :
    (s.setEngine e x).engine e = x := by
  cases e <;> rfl

@[simp] theorem State.setEngine_otherEngine (s : State) (e : EngineId) (x : Engine) :
    (s.setEngine e x).engine (otherEngine e) = s.engine (otherEngine e) := by
  cases e <;> rfl

@[simp] theorem State.setEngine_setEngine (s : State) (e : EngineId) (x y : Engine) :
    (s.setEngine e x).setEngine e y = s.setEngine e y := by
  cases e <;> rfl

@[simp] theorem State.setEngine_self (s : State) (e : EngineId) : s.setEngine e (s.engine e) = s := by
  cases e <;> rfl

@[simp] theorem State.setEngine_port (s : State) (e : EngineId) (x : Engine) (p : Port) :
    (s.setEngine e x).port p = s.port p := by
  cases e <;> rfl

@[simp] theorem State.setEngine_enabled (s : State) (e : EngineId) (x : Engine) (p : Port) :
    (s.setEngine e x).enabled p = s.enabled p := by
  cases e <;> rfl

/-! ## Ports -/

theorem portIndex_injective : ∀ p q : Port, portIndex p = portIndex q → p = q := by
  intro p q h
  cases p with
  | np =>
    cases q with
    | np => rfl
    | lp j => exact absurd h.symm (by simp [portIndex, Fin.ext_iff]; omega)
  | lp i =>
    cases q with
    | np => exact absurd h (by simp [portIndex, Fin.ext_iff]; omega)
    | lp j => simpa [portIndex] using h

@[simp] theorem State.setPort_port (s : State) (p : Port) (x : PortState) : (s.setPort p x).port p = x := by
  simp [State.setPort, State.port]

theorem State.setPort_port_ne (s : State) {p q : Port} (x : PortState) (h : q ≠ p) :
    (s.setPort p x).port q = s.port q := by
  have : (portIndex p).val ≠ (portIndex q).val :=
    fun e => h (portIndex_injective _ _ (Fin.ext e)).symm
  simp [State.setPort, State.port, Vector.getElem_set_ne, this]

@[simp] theorem State.setPort_setPort (s : State) (p : Port) (x y : PortState) :
    (s.setPort p x).setPort p y = s.setPort p y := by
  simp [State.setPort]

@[simp] theorem State.setPort_enabled (s : State) (p q : Port) (x : PortState) :
    (s.setPort p x).enabled q = s.enabled q := rfl

@[simp] theorem State.setPort_waiters (s : State) (p q : Port) (x : PortState) :
    (s.setPort p x).waiters q = s.waiters q := rfl

@[simp] theorem State.enterLocal_port (s : State) (p : Port) (f : OutFrame) :
    (s.enterLocal p f).port p = { s.port p with localQueue := (s.port p).localQueue ++ [f] } := by
  simp [State.enterLocal]

theorem State.enterLocal_port_ne (s : State) {p q : Port} (f : OutFrame) (h : q ≠ p) :
    (s.enterLocal p f).port q = s.port q := by simp [State.enterLocal, State.setPort_port_ne _ _ h]

@[simp] theorem State.countPort_port (s : State) (p : Port) (f : PortCounters → PortCounters) :
    (s.countPort p f).port p = { s.port p with counters := f (s.port p).counters } := by
  simp [State.countPort]

theorem State.countPort_port_ne (s : State) {p q : Port} (f : PortCounters → PortCounters) (h : q ≠ p) :
    (s.countPort p f).port q = s.port q := by simp [State.countPort, State.setPort_port_ne _ _ h]

/-- Counting at a port leaves every queue as it is. -/
theorem State.countPort_queues (s : State) (p q : Port) (f : PortCounters → PortCounters) :
    ((s.countPort p f).port q).transit = (s.port q).transit ∧
      ((s.countPort p f).port q).localQueue = (s.port q).localQueue := by
  by_cases h : q = p
  · subst h; simp
  · simp [State.countPort_port_ne _ _ h]

@[simp] theorem State.withIntake_port (s : State) (r : List IntakeFrame) (p : Port) :
    (s.withIntake r).port p = s.port p := rfl

/-! ## Event classes -/

theorem eventIndex_injective : ∀ c k : EventClass, eventIndex c = eventIndex k → c = k := by
  intro c k h; cases c <;> cases k <;> first | rfl | exact absurd h (by decide)

@[simp] theorem EventUnit.get_put (u : EventUnit) (c : EventClass) (x : EventClassState) :
    (u.put c x).get c = x := by
  simp [EventUnit.put, EventUnit.get]

theorem EventUnit.get_put_ne (u : EventUnit) {c k : EventClass} (x : EventClassState) (h : k ≠ c) :
    (u.put c x).get k = u.get k := by
  have : (eventIndex c).val ≠ (eventIndex k).val :=
    fun e => h (eventIndex_injective _ _ (Fin.ext e)).symm
  simp [EventUnit.put, EventUnit.get, Vector.getElem_set_ne, this]

@[simp] theorem EventUnit.put_notices (u : EventUnit) (c : EventClass) (x : EventClassState) :
    (u.put c x).notices = u.notices := rfl

@[simp] theorem EventUnit.unqueue_get (u : EventUnit) (c k : EventClass) : (u.unqueue c).get k = u.get k := rfl

end Sys2Proof.Machine
end

