-- ==== Sys2Proof/Laws/Banks.lean ====
section
/-! SUPPORT. What the writes of the staged bank do to each entry (R141 to R143). -/

namespace Sys2Proof.Machine

/-- One entry after a dialect entry was written. -/
theorem putDialectEntry_entry (b : Bank) (d i : Nat) (e : DialectEntry) (k : Fin 8) (j : Fin 32) :
    (b.putDialectEntry d i e).dialects[k][j] = if k.val = d - 1 ∧ j.val = i then e else b.dialects[k][j] := by
  unfold Bank.putDialectEntry
  split
  · rename_i h
    rw [if_neg]
    rintro ⟨hk, -⟩
    have hlt : ¬ d - 1 < 8 := by simpa using h
    exact hlt (hk ▸ k.isLt)
  · rename_i row hrow
    obtain ⟨hlt, rfl⟩ := Vector.getElem?_eq_some_iff.1 hrow
    by_cases hk : k.val = d - 1
    · by_cases hj : j.val = i
      · simp [hk, hj]
      · simp [hk, hj, Ne.symm hj]
    · simp [hk, Ne.symm hk]

/-- One entry after a dialect was cleared. -/
theorem clearDialect_entry (b : Bank) (d : Nat) (k : Fin 8) (j : Fin 32) :
    (b.clearDialect d).dialects[k][j] =
      if k.val = d - 1 then { b.dialects[k][j] with valid := false } else b.dialects[k][j] := by
  unfold Bank.clearDialect
  split
  · rename_i h
    rw [if_neg]
    intro hk
    have hlt : ¬ d - 1 < 8 := by simpa using h
    exact hlt (hk ▸ k.isLt)
  · rename_i row hrow
    obtain ⟨hlt, rfl⟩ := Vector.getElem?_eq_some_iff.1 hrow
    by_cases hk : k.val = d - 1
    · simp [hk]
    · simp [hk, Ne.symm hk]

@[simp] theorem putDialectEntry_classes (b : Bank) (d i : Nat) (e : DialectEntry) :
    (b.putDialectEntry d i e).classes = b.classes := by
  unfold Bank.putDialectEntry; split <;> rfl

@[simp] theorem clearDialect_classes (b : Bank) (d : Nat) : (b.clearDialect d).classes = b.classes := by
  unfold Bank.clearDialect; split <;> rfl

@[simp] theorem putClass_dialects (b : Bank) (n : Nat) (c : ClassEntry) :
    (b.putClass n c).dialects = b.dialects := rfl

/-- When an attribute code is taken by another entry of a dialect (R141). -/
theorem codeTaken_iff (b : Bank) (k : Fin 8) (i : Nat) (code : Byte) :
    b.codeTaken (k.val + 1) i code = true ↔
      ∃ j : Fin 32, j.val ≠ i ∧ b.dialects[k][j].valid = true ∧ b.dialects[k][j].code = code := by
  have h : b.dialects[k.val + 1 - 1]? = some b.dialects[k] := by simp
  unfold Bank.codeTaken
  rw [h]
  simp [and_assoc]

/-- A code that no other entry takes. -/
theorem codeTaken_false {b : Bank} {d i : Nat} {code : Byte} (h : b.codeTaken d i code = false) (k : Fin 8)
    (hk : k.val = d - 1) (j : Fin 32) (hj : j.val ≠ i) (hv : b.dialects[k][j].valid = true) :
    b.dialects[k][j].code ≠ code := by
  have hrow : b.dialects[d - 1]? = some b.dialects[k] := by simp [← hk]
  unfold Bank.codeTaken at h
  rw [hrow] at h
  have := List.any_eq_false.1 h j (List.mem_finRange j)
  simp only [Bool.and_eq_true, bne_iff_ne, beq_iff_eq, not_and, and_imp] at this
  exact this hj hv

/-- A write that R141 lets through keeps the attribute codes of a dialect distinct. -/
theorem putDialectEntry_distinct {b : Bank} (h : CodesDistinct b) {d i : Nat} {e : DialectEntry}
    (he : e.valid = true → b.codeTaken d i e.code = false) : CodesDistinct (b.putDialectEntry d i e) := by
  intro k j l hjl hj hl
  rw [putDialectEntry_entry] at hj hl
  rw [putDialectEntry_entry, putDialectEntry_entry]
  by_cases hk : k.val = d - 1
  · by_cases h1 : j.val = i
    · have h2 : l.val ≠ i := fun e => hjl (Fin.ext (h1.trans e.symm))
      simp only [hk, h1, h2, and_self, and_false, if_true, if_false] at hj hl ⊢
      exact (codeTaken_false (he hj) k hk l h2 hl).symm
    · by_cases h2 : l.val = i
      · simp only [hk, h1, h2, and_self, and_false, if_true, if_false] at hj hl ⊢
        exact codeTaken_false (he hl) k hk j h1 hj
      · simp only [h1, h2, and_false, if_false] at hj hl ⊢
        exact h k j l hjl hj hl
  · simp only [hk, false_and, if_false] at hj hl ⊢
    exact h k j l hjl hj hl

theorem clearDialect_distinct {b : Bank} (h : CodesDistinct b) (d : Nat) : CodesDistinct (b.clearDialect d) := by
  intro k j l hjl hj hl
  rw [clearDialect_entry] at hj hl
  rw [clearDialect_entry, clearDialect_entry]
  by_cases hk : k.val = d - 1
  · simp [hk] at hj
  · simp only [hk, if_false] at hj hl ⊢
    exact h k j l hjl hj hl

theorem cold_distinct : CodesDistinct Bank.cold := by
  intro k j l _ hj
  simp [Bank.cold, DialectEntry.cold] at hj

end Sys2Proof.Machine
end

