-- ==== Sys2Proof/Laws/Bytes.lean ====
section
/-! SUPPORT. Fields written as bytes read back (sections 9.1.1 and 9.1.2); the slots of a range; the frame
check bit by bit. -/

namespace Sys2Proof.Machine

@[simp] theorem encodeNat_length (n v : Nat) : (encodeNat n v).length = n := by
  induction n generalizing v with
  | zero => rfl
  | succ n ih => simp [encodeNat, ih]

theorem foldl_bytes (bs : List Byte) (a : Nat) :
    bs.foldl (fun acc b => acc * 256 + b.toNat) a = a * 256 ^ bs.length + decodeNat bs := by
  unfold decodeNat
  induction bs generalizing a with
  | nil => simp
  | cons b bs ih =>
    rw [List.foldl_cons, ih, List.foldl_cons, ih (0 * 256 + b.toNat), List.length_cons]
    ring

theorem decodeNat_cons (b : Byte) (bs : List Byte) :
    decodeNat (b :: bs) = b.toNat * 256 ^ bs.length + decodeNat bs := by
  have := foldl_bytes bs b.toNat
  unfold decodeNat
  rw [List.foldl_cons]
  simpa [decodeNat] using this

theorem decodeNat_append (xs ys : List Byte) :
    decodeNat (xs ++ ys) = decodeNat xs * 256 ^ ys.length + decodeNat ys := by
  have := foldl_bytes ys (decodeNat xs)
  unfold decodeNat at this ⊢
  rw [List.foldl_append]
  exact this

theorem decodeNat_lt (bs : List Byte) : decodeNat bs < 256 ^ bs.length := by
  induction bs with
  | nil => simp [decodeNat]
  | cons b bs ih =>
    rw [decodeNat_cons, List.length_cons, pow_succ]
    have := b.isLt
    nlinarith [ih]

/-- A number written in `n` bytes reads back as its low `n` bytes. -/
theorem decodeNat_encodeNat (n v : Nat) : decodeNat (encodeNat n v) = v % 256 ^ n := by
  induction n with
  | zero => simp [encodeNat, decodeNat, Nat.mod_one]
  | succ n ih =>
    rw [encodeNat, decodeNat_cons, encodeNat_length, ih, BitVec.toNat_ofNat]
    have h1 : v % 256 ^ (n + 1) = v % 256 ^ n + 256 ^ n * (v / 256 ^ n % 256) := by
      rw [pow_succ, Nat.mod_mul]
    rw [h1]
    norm_num
    ring

/-- A field read from inside a longer list of bytes. -/
theorem fieldNat_append (xs ys zs : List Byte) :
    fieldNat (xs ++ (ys ++ zs)) xs.length ys.length = decodeNat ys := by
  simp [fieldNat]

theorem fieldNat_lt (bs : List Byte) (off n : Nat) : fieldNat bs off n < 256 ^ n := by
  have h := decodeNat_lt ((bs.drop off).take n)
  have hl : ((bs.drop off).take n).length ≤ n := List.length_take_le _ _
  exact lt_of_lt_of_le h (Nat.pow_le_pow_right (by norm_num) hl)

theorem body_length (f : Frame) : f.body.length = 16 + f.payload.length := by
  simp [Frame.body]; omega

theorem wire_length (f : Frame) : f.wire.length = 20 + f.payload.length := by
  simp [Frame.wire, body_length]; omega

/-- The slots of a range (section 4 of 00_scope.md). -/
theorem slotRange_getLsbD (start n k : Nat) :
    (slotRange start n).getLsbD k = true ↔ k < 320 ∧ start ≤ k ∧ k < start + n := by
  unfold slotRange
  simp only [BitVec.getLsbD_shiftLeft, BitVec.getLsbD_ushiftRight, BitVec.getLsbD_allOnes, Bool.and_eq_true,
    Bool.not_eq_eq_eq_not, Bool.not_true, decide_eq_false_iff_not, decide_eq_true_eq]
  omega

/-! ## The frame check -/

/-- A bit of the frame check's division, with the byte's other bits still to enter. -/
theorem crcBit_divide (r : Word32) (b : Byte) :
    crcBit (r ^^^ (b.setWidth 32 <<< 24)) = divideBit r (b.getMsbD 0) ^^^ ((b <<< 1).setWidth 32 <<< 24) := by
  have hm : (b.setWidth 32 <<< 24 : Word32).msb = b.getMsbD 0 := by
    simp [BitVec.msb, BitVec.getMsbD]
  have hs : (b.setWidth 32 <<< 24 : Word32) <<< 1 = (b <<< 1).setWidth 32 <<< 24 := by
    apply BitVec.eq_of_getLsbD_eq
    intro i hi
    simp only [BitVec.getLsbD_shiftLeft, BitVec.getLsbD_setWidth]
    by_cases h0 : i < 25
    · by_cases h24 : i < 24
      · simp [h24]; omega
      · have : i = 24 := by omega
        subst this; simp
    · simp only [show ¬ i < 1 by omega, show ¬ i < 24 by omega, show ¬ i - 1 < 24 by omega, hi,
        show i - 1 < 32 by omega, show ¬ i - 24 < 1 by omega, show i - 1 - 24 = i - 24 - 1 by omega,
        show i - 24 - 1 < 32 by omega, show i - 24 < 32 by omega, show i - 24 < 8 by omega, decide_true,
        decide_false, Bool.not_false, Bool.true_and]
  unfold crcBit divideBit
  rw [BitVec.msb_xor, hm, BitVec.shiftLeft_xor_distrib, hs]
  generalize (b <<< 1).setWidth 32 <<< 24 = y
  generalize r <<< 1 = x
  cases r.msb <;> cases b.getMsbD 0 <;> simp only [Bool.xor_true, Bool.xor_false, Bool.not_true, Bool.not_false,
    if_true, if_false, Bool.false_eq_true, Bool.true_eq_false] <;> ac_rfl

/-- A byte enters the frame check bit by bit, most significant first (section 9.1.1). -/
theorem crcByte_divide (r : Word32) (b : Byte) :
    crcByte r b = ((List.range 8).map b.getMsbD).foldl divideBit r := by
  have h0 : (b <<< 1 <<< 1 <<< 1 <<< 1 <<< 1 <<< 1 <<< 1 <<< 1 : Byte) = 0 := by
    simp [← BitVec.shiftLeft_add]
  have hk : ∀ (c : Byte) k, (c <<< 1).getMsbD k = c.getMsbD (k + 1) := by
    intro c k
    simp only [BitVec.getMsbD_shiftLeft]
  unfold crcByte
  rw [crcBit_divide, crcBit_divide, crcBit_divide, crcBit_divide, crcBit_divide, crcBit_divide, crcBit_divide, crcBit_divide, h0]
  simp only [hk]
  simp [List.range, List.range.loop]

end Sys2Proof.Machine
end

