-- ==== Sys2Proof/Laws/Commands.lean ====
section
/-! SUPPORT. What taking a command does, once for every command row (R159 to R161). -/

namespace Sys2Proof.Machine

/-! ## The head of the intake queue -/

theorem word16_of_bytes (x : Word16) :
    (BitVec.ofNat 8 (x.toNat / 256) ++ BitVec.ofNat 8 x.toNat : BitVec 16) = x := by
  apply BitVec.eq_of_toNat_eq
  have hx := x.isLt
  rw [BitVec.toNat_append, BitVec.toNat_ofNat, BitVec.toNat_ofNat, ← Nat.shiftLeft_add_eq_or_of_lt
    (Nat.mod_lt _ (by decide)), Nat.shiftLeft_eq]
  omega

theorem commandOf_payload (t : Taken) (ignored : Byte) (f : Frame) (hs : f.src = t.source)
    (hp : f.payload = t.code :: ignored :: (enc2 t.tag.toNat ++ t.params)) :
    commandOf { port := t.port, frame := f } = t := by
  have h := word16_of_bytes t.tag
  simp only [commandOf, hp, hs, fieldByte, enc2, encodeNat, List.getD]
  simp [-BitVec.ofNat_toNat, h]

/-- A command at the head is the one that is taken, and the queue's rest is what remains. -/
theorem AtHead.spec {s : State} {t : Taken} {rest : List IntakeFrame} (h : AtHead s t rest) :
    (∃ f, s.intakeHead = some f ∧ commandOf f = t ∧ 4 ≤ f.frame.payload.length) ∧
      s.popIntake = s.withIntake rest := by
  obtain ⟨hh, f, b, hi, hs, hp⟩ := h
  refine ⟨⟨_, ?_, commandOf_payload t b f hs hp, ?_⟩, ?_⟩
  · simp [State.intakeHead, hh, hi]
  · simp [hp, enc2, encodeNat]
  · simp [State.popIntake, State.withIntake, hi]

theorem AtHead.headCommand {s : State} {t : Taken} {rest : List IntakeFrame} (h : AtHead s t rest) :
    s.headCommand t.code = some t := by
  obtain ⟨⟨f, hf, hc, hl⟩, -⟩ := h.spec
  simp [State.headCommand, hf, hc, hl]

/-- The head command is taken by no row but its own. -/
theorem AtHead.headCommand_ne {s : State} {t : Taken} {rest : List IntakeFrame} (h : AtHead s t rest)
    {code : Byte} (hc : t.code ≠ code) : s.headCommand code = none := by
  obtain ⟨⟨f, hf, rfl, -⟩, -⟩ := h.spec
  simp [State.headCommand, hf, hc]

/-! ## What a command row does -/

/-- A command whose sender holds its right is carried out by its block and answered. -/
theorem takeCommand_held {s : State} {t : Taken} {rest : List IntakeFrame} {code : Byte} {r : Right}
    (h : AtHead s t rest) (hc : t.code = code) (hr : requiredRight code t.params = some r)
    (hh : Holds s t r) (body : Taken → State → Answer) :
    s.takeCommand code body = (body t (s.withIntake rest)).later
      ((body t (s.withIntake rest)).state.respond t (body t (s.withIntake rest)).reply) := by
  subst hc
  have ha : s.authorised t = true := by simpa [State.authorised, hr, Holds] using hh
  simp only [State.takeCommand, h.headCommand, ha, h.spec.2, if_true]

/-- A command whose sender lacks its right is answered DENIED. -/
theorem takeCommand_denied {s : State} {t : Taken} {rest : List IntakeFrame} {code : Byte} {r : Right}
    (h : AtHead s t rest) (hc : t.code = code) (hr : requiredRight code t.params = some r)
    (hh : ¬ Holds s t r) (body : Taken → State → Answer) :
    s.takeCommand code body = (s.withIntake rest).respond t (Reply.bare .denied) := by
  subst hc
  have ha : s.authorised t = false := by simpa [State.authorised, hr, Holds] using hh
  simp [State.takeCommand, h.headCommand, ha, h.spec.2]

/-- Nothing is taken while a response is held (R161). -/
theorem takeCommand_hold {s : State} {r : HeldResponse} (h : s.spu.hold = some r) (code : Byte)
    (body : Taken → State → Answer) : s.takeCommand code body = s := by
  simp [State.takeCommand, State.headCommand, State.intakeHead, h]

theorem takeUnknown_hold {s : State} {r : HeldResponse} (h : s.spu.hold = some r) : s.takeUnknown = s := by
  simp [State.takeUnknown, State.intakeHead, h]

/-- Everything a command row can do: nothing, a refusal, or the block's answer and what follows it. -/
theorem takeCommand_cases (s : State) (code : Byte) (body : Taken → State → Answer) :
    s.takeCommand code body = s ∨
    (∃ t, s.takeCommand code body = s.popIntake.respond t (Reply.bare .denied)) ∨
    (∃ t, s.headCommand code = some t ∧ s.takeCommand code body =
      (body t s.popIntake).later ((body t s.popIntake).state.respond t (body t s.popIntake).reply)) := by
  unfold State.takeCommand
  split
  · exact .inl rfl
  · rename_i t ht
    split
    · exact .inr (.inr ⟨t, ht, rfl⟩)
    · exact .inr (.inl ⟨t, rfl⟩)

/-- The row of a listed code takes the commands of that code. -/
theorem exec_of_row {code : Byte} {c : Instr} (h : rowOfCode code = some c) :
    ∃ body, ∀ s, exec c s = .next (s.takeCommand code body) := by
  unfold rowOfCode at h
  split at h <;> first
    | (rename_i hc
       have hcode : code = BitVec.ofNat 8 code.toNat := by simp
       rw [hc] at hcode
       obtain rfl := Option.some.inj h
       subst hcode
       exact ⟨_, fun s => rfl⟩)
    | (exfalso; simp at h)

/-- A code with no row requires no right. -/
theorem requiredRight_none {code : Byte} (h : rowOfCode code = none) (ps : List Byte) :
    requiredRight code ps = none := by
  unfold requiredRight
  rw [if_neg, if_neg, if_neg, if_neg] <;> intro hm <;>
    (try simp only [List.mem_cons, List.not_mem_nil, or_false] at hm) <;>
    (try rcases hm with rfl | rfl | rfl | rfl | rfl | rfl | rfl | rfl | rfl | rfl | rfl) <;>
    exact absurd h (by decide)

/-! ## Responses -/

/-- What offering a response can do: it enters its port's queue, is held, or is counted as discarded. -/
theorem offerResponse_cases (s : State) (p : Port) (f : Frame) :
    ((s.port p).localQueue.length < Config.localQueue ∧
      s.offerResponse p f = s.enterLocal p (outgoing p f)) ∨
    s.offerResponse p f = { s with spu := { s.spu with hold := some { port := p, frame := outgoing p f } } } ∨
    s.offerResponse p f = s.countLocalDiscard p := by
  unfold State.offerResponse
  split
  · split
    · rename_i h
      exact .inl ⟨by simp [State.hasPlace] at h; omega, rfl⟩
    · exact .inr (.inl rfl)
  · exact .inr (.inr rfl)

/-- A response changes the port unit alone, and of it neither the intake queue nor the source list. -/
theorem respond_footprint (s : State) (t : Taken) (r : Reply) :
    (s.respond t r).pending = s.pending ∧ (s.respond t r).cfg = s.cfg ∧ (s.respond t r).stc = s.stc ∧
    (s.respond t r).atr = s.atr ∧ (s.respond t r).prb = s.prb ∧ (s.respond t r).epc = s.epc ∧
    (s.respond t r).tst = s.tst ∧ (s.respond t r).rq = s.rq ∧ (s.respond t r).engA = s.engA ∧
    (s.respond t r).engB = s.engB ∧ (s.respond t r).pwl = s.pwl ∧ (s.respond t r).evu = s.evu ∧
    (s.respond t r).spu.intake = s.spu.intake ∧ (s.respond t r).spu.sources = s.spu.sources := by
  unfold State.respond
  rcases offerResponse_cases s t.port (responseFrame s t r) with ⟨-, h⟩ | h | h <;> rw [h] <;>
    simp [State.enterLocal, State.countLocalDiscard, State.countPort, State.setPort]

section
variable (s : State) (t : Taken) (r : Reply)
@[simp] theorem respond_pending : (s.respond t r).pending = s.pending := (respond_footprint s t r).1
@[simp] theorem respond_cfg : (s.respond t r).cfg = s.cfg := (respond_footprint s t r).2.1
@[simp] theorem respond_stc : (s.respond t r).stc = s.stc := (respond_footprint s t r).2.2.1
@[simp] theorem respond_atr : (s.respond t r).atr = s.atr := (respond_footprint s t r).2.2.2.1
@[simp] theorem respond_prb : (s.respond t r).prb = s.prb := (respond_footprint s t r).2.2.2.2.1
@[simp] theorem respond_epc : (s.respond t r).epc = s.epc := (respond_footprint s t r).2.2.2.2.2.1
@[simp] theorem respond_tst : (s.respond t r).tst = s.tst := (respond_footprint s t r).2.2.2.2.2.2.1
@[simp] theorem respond_rq : (s.respond t r).rq = s.rq := (respond_footprint s t r).2.2.2.2.2.2.2.1
@[simp] theorem respond_engA : (s.respond t r).engA = s.engA := (respond_footprint s t r).2.2.2.2.2.2.2.2.1
@[simp] theorem respond_engB : (s.respond t r).engB = s.engB :=
  (respond_footprint s t r).2.2.2.2.2.2.2.2.2.1
@[simp] theorem respond_pwl : (s.respond t r).pwl = s.pwl :=
  (respond_footprint s t r).2.2.2.2.2.2.2.2.2.2.1
@[simp] theorem respond_evu : (s.respond t r).evu = s.evu :=
  (respond_footprint s t r).2.2.2.2.2.2.2.2.2.2.2.1
@[simp] theorem respond_intake : (s.respond t r).spu.intake = s.spu.intake :=
  (respond_footprint s t r).2.2.2.2.2.2.2.2.2.2.2.2.1
@[simp] theorem respond_sources : (s.respond t r).spu.sources = s.spu.sources :=
  (respond_footprint s t r).2.2.2.2.2.2.2.2.2.2.2.2.2
@[simp] theorem respond_engine (e : EngineId) : (s.respond t r).engine e = s.engine e := by
  cases e <;> simp [State.engine]
@[simp] theorem respond_standby : (s.respond t r).standby = s.standby := by simp [State.standby]
end

/-- A response adds a frame to no transit FIFO. -/
theorem respond_transit (s : State) (t : Taken) (r : Reply) (p : Port) :
    ((s.respond t r).port p).transit = (s.port p).transit := by
  unfold State.respond
  rcases offerResponse_cases s t.port (responseFrame s t r) with ⟨-, h⟩ | h | h <;> rw [h]
  · by_cases hp : p = t.port
    · subst hp; simp
    · simp [State.enterLocal_port_ne _ _ hp]
  · rfl
  · exact (State.countPort_queues _ _ _ _).1

end Sys2Proof.Machine
end

