-- ==== Sys2Proof/Laws/Config.lean ====
section
/-! SUPPORT. The capacities and limits as numerals. -/

namespace Sys2Proof.Config

@[simp] theorem nodeEntries_eq : nodeEntries = 256 := rfl
@[simp] theorem linkEntries_eq : linkEntries = 2048 := rfl
@[simp] theorem linksPerNode_eq : linksPerNode = 32 := rfl
@[simp] theorem srlgPerLink_eq : srlgPerLink = 4 := rfl
@[simp] theorem translatorQueue_eq : translatorQueue = 32 := rfl
@[simp] theorem intakeQueue_eq : intakeQueue = 8 := rfl
@[simp] theorem transitFifo_eq : transitFifo = 64 := rfl
@[simp] theorem localQueue_eq : localQueue = 16 := rfl
@[simp] theorem requestQueue_eq : requestQueue = 64 := rfl
@[simp] theorem labelPool_eq : labelPool = 2048 := rfl
@[simp] theorem touchedSet_eq : touchedSet = 512 := rfl
@[simp] theorem watchEntries_eq : watchEntries = 128 := rfl
@[simp] theorem listPage_eq : listPage = 16 := rfl
@[simp] theorem counterMax_eq : counterMax = 4294967295 := rfl
@[simp] theorem eventCountMax_eq : eventCountMax = 255 := rfl
@[simp] theorem noiseMax_eq : noiseMax = 1073741823 := rfl
@[simp] theorem costMax_eq : costMax = 16777215 := rfl
@[simp] theorem qMax_eq : qMax = 400 := rfl
@[simp] theorem payloadMax_eq : payloadMax = 1500 := rfl
@[simp] theorem frameOverhead_eq : frameOverhead = 20 := rfl

end Sys2Proof.Config
end

