-- ==== Sys2Proof/Laws/Requests.lean ====
section
/-! SUPPORT. The places of the request queue and when the arbiter has nothing to do (R103, R105). -/

namespace Sys2Proof.Machine

/-- A new descriptor stands after every one of its own or higher priority, and before the rest (R103). -/
theorem placeNew_split (d : Descriptor) (q : List Descriptor) :
    ∃ before after, q = before ++ after ∧ placeNew d q = before ++ d :: after ∧
      (∀ x ∈ before, d.priority ≤ x.priority) ∧
      (∀ x, after.head? = some x → x.priority < d.priority) := by
  induction q with
  | nil => exact ⟨[], [], rfl, rfl, by simp, by simp⟩
  | cons x xs ih =>
    unfold placeNew
    split
    · obtain ⟨b, a, h1, h2, h3, h4⟩ := ih
      refine ⟨x :: b, a, by simp [h1], by simp [h2], fun y hy => ?_, h4⟩
      rcases List.mem_cons.1 hy with rfl | hy
      · assumption
      · exact h3 y hy
    · exact ⟨[], x :: xs, rfl, rfl, by simp, by simp; omega⟩

/-- A re-queued descriptor stands after every one of higher priority, and before the rest (R103). -/
theorem placeBack_split (d : Descriptor) (q : List Descriptor) :
    ∃ before after, q = before ++ after ∧ placeBack d q = before ++ d :: after ∧
      (∀ x ∈ before, d.priority < x.priority) ∧
      (∀ x, after.head? = some x → x.priority ≤ d.priority) := by
  induction q with
  | nil => exact ⟨[], [], rfl, rfl, by simp, by simp⟩
  | cons x xs ih =>
    unfold placeBack
    split
    · obtain ⟨b, a, h1, h2, h3, h4⟩ := ih
      refine ⟨x :: b, a, by simp [h1], by simp [h2], fun y hy => ?_, h4⟩
      rcases List.mem_cons.1 hy with rfl | hy
      · assumption
      · exact h3 y hy
    · exact ⟨[], x :: xs, rfl, rfl, by simp, by simp; omega⟩

/-- With an empty queue the arbiter has nothing to hand over. -/
theorem runArbiter_empty {s : State} (h : s.rq.queue = []) : s.runArbiter = s := by
  simp [State.runArbiter, h, State.arbitrate]

/-- With both engines busy the arbiter has no engine to hand to. -/
theorem arbitrate_busy {s : State} (ha : s.engA.mode ≠ .idle) (hb : s.engB.mode ≠ .idle) (n : Nat) :
    s.arbitrate n = s := by
  have hi : s.idleEngine = none := by simp [State.idleEngine, ha, hb]
  cases n with
  | zero => rfl
  | succ n =>
    unfold State.arbitrate
    split
    · rfl
    · rw [hi]; split
      · rename_i h; simp at h
      · rfl

/-- In STANDBY the arbiter hands nothing over. -/
theorem arbitrate_standby {s : State} (h : s.standby = true) (n : Nat) : s.arbitrate n = s := by
  cases n with
  | zero => rfl
  | succ n => unfold State.arbitrate; rw [if_pos h]

/-- Where a request stands depends on the queue and the engines alone. -/
theorem standing_congr {s t : State} (h1 : t.rq = s.rq) (h2 : t.engA = s.engA) (h3 : t.engB = s.engB)
    (r : Requester) (tag : Word16) : t.standing r tag = s.standing r tag := by
  simp [State.standing, h1, h2, h3]

/-- The arbiter hands the head to the IDLE engine and goes on (R105). -/
theorem runArbiter_dispatch {s : State} {e : EngineId} {d : Descriptor} {rest : List Descriptor}
    (hp : s.stc.part ≠ .standby) (hi : (s.engine e).mode = .idle) (ha : e = .b → s.engA.mode ≠ .idle)
    (hq : s.rq.queue = d :: rest) (hk : ((s.setQueue rest).dispatch e d).rq.queue = rest) :
    s.runArbiter = ((s.setQueue rest).dispatch e d).runArbiter := by
  have he : s.idleEngine = some e := by
    cases e with
    | a => simp [State.idleEngine, show s.engA.mode = .idle from hi]
    | b => simp [State.idleEngine, ha rfl, show s.engB.mode = .idle from hi]
  have hs : s.standby = false := by simpa [State.standby] using hp
  unfold State.runArbiter
  rw [hk, hq, List.length_cons, State.arbitrate, he, hq]
  simp [hs]

/-- An engine runs a live request: it is not IDLE, holds no order of release, and the request is its own
(R99, R113). -/
theorem Engine.runs_iff (x : Engine) (r : Requester) (tag : Word16) : x.runs r tag = true ↔
    x.mode ≠ .idle ∧ x.endOrder ≠ .release ∧ ∃ d, x.request = some d ∧ d.requester = r ∧ d.tag = tag := by
  unfold Engine.runs
  cases x.request <;> simp [Descriptor.named, and_assoc]

/-- Where a request stands, case by case (R99, R112). -/
theorem standing_spec (s : State) (r : Requester) (tag : Word16) (queued : Prop) (runs : EngineId → Prop)
    (hq : queued = ∃ d ∈ s.rq.queue, d.requester = r ∧ d.tag = tag)
    (hr : runs = fun e => (s.engine e).mode ≠ .idle ∧ (s.engine e).endOrder ≠ .release ∧
      ∃ d, (s.engine e).request = some d ∧ d.requester = r ∧ d.tag = tag) :
    (s.standing r tag = .queued ↔ queued) ∧
    (∀ e, s.standing r tag = .searching e ↔ ¬queued ∧ runs e ∧ (e = .b → ¬runs .a) ∧
      ((s.engine e).mode = .primary ∨ (s.engine e).mode = .protection)) ∧
    (∀ e, s.standing r tag = .completing e ↔
      ¬queued ∧ runs e ∧ (e = .b → ¬runs .a) ∧ (s.engine e).mode = .completing) ∧
    (s.standing r tag = .notLive ↔ ¬queued ∧ ∀ e, ¬runs e) := by
  have hq' : queued ↔ s.rq.queue.any (fun d => d.named r tag) = true := by
    rw [hq]; simp [Descriptor.named]
  have hr' : ∀ e, runs e ↔ (s.engine e).runs r tag = true := fun e => by
    rw [hr]; exact (Engine.runs_iff _ _ _).symm
  have hm : ∀ e, (s.engine e).runs r tag = true → (s.engine e).mode ≠ .idle := fun e h =>
    ((Engine.runs_iff _ _ _).1 h).1
  have ha := hm .a
  have hb := hm .b
  have hall : (∀ e, ¬runs e) ↔ ¬runs .a ∧ ¬runs .b :=
    ⟨fun h => ⟨h _, h _⟩, fun h e => by cases e; exacts [h.1, h.2]⟩
  have he : ∀ {P : EngineId → Prop}, (∀ e, P e) ↔ P .a ∧ P .b :=
    ⟨fun h => ⟨h _, h _⟩, fun h e => by cases e; exacts [h.1, h.2]⟩
  have hA : ∀ x : Engine, x.searching = (x.mode == .primary || x.mode == .protection) := fun _ => rfl
  rw [he, he, he, hr', hr', hq']
  simp only [State.standing, hA] at ha hb ⊢
  change s.engA.runs r tag = true → s.engA.mode ≠ .idle at ha
  change s.engB.runs r tag = true → s.engB.mode ≠ .idle at hb
  change (_ ↔ _) ∧ ((_ ↔ ¬_ ∧ s.engA.runs r tag = true ∧ (_ → ¬s.engA.runs r tag = true) ∧ (s.engA.mode = _ ∨ s.engA.mode = _)) ∧
    (_ ↔ ¬_ ∧ s.engB.runs r tag = true ∧ (_ → ¬s.engA.runs r tag = true) ∧ (s.engB.mode = _ ∨ s.engB.mode = _))) ∧
    ((_ ↔ ¬_ ∧ s.engA.runs r tag = true ∧ (_ → ¬s.engA.runs r tag = true) ∧ s.engA.mode = _) ∧
    (_ ↔ ¬_ ∧ s.engB.runs r tag = true ∧ (_ → ¬s.engA.runs r tag = true) ∧ s.engB.mode = _)) ∧
    (_ ↔ ¬_ ∧ ¬s.engA.runs r tag = true ∧ ¬s.engB.runs r tag = true)
  generalize s.rq.queue.any (fun d => d.named r tag) = q
  generalize s.engA.runs r tag = x at ha ⊢
  generalize s.engB.runs r tag = y at hb ⊢
  generalize s.engA.mode = m at ha ⊢
  generalize s.engB.mode = n at hb ⊢
  cases q
  · cases x
    · cases y
      · simp
      · have := hb rfl
        cases n <;> simp_all
    · have := ha rfl
      cases m <;> simp_all
  · simp

end Sys2Proof.Machine
end

