-- ==== Sys2Proof/Laws/Events.lean ====
section
/-! SUPPORT. What each change of the Event Unit does to each class and to the notice queue (R178 to R182). -/

namespace Sys2Proof.Machine

theorem queued_iff {u : EventUnit} {c : EventClass} : u.queued c = true ↔ ∃ n ∈ u.notices, n.cls = c := by
  simp [EventUnit.queued]

theorem mem_allEvents (c : EventClass) : c ∈ allEvents := by cases c <;> decide

theorem allEvents_nodup : allEvents.Nodup := by decide

/-! ## Raising (R179) -/

theorem raise_get (u : EventUnit) (b : Bool) (c k : EventClass) (x : Subject) (r : Reason) :
    (u.raise b c x r).get k =
      if k = c then { pending := true, count := min ((u.get c).count + 1) Config.eventCountMax
                      subject := x, reason := r }
      else u.get k := by
  have h : ((u.raise b c x r).get k) = (u.put c { pending := true, count := min ((u.get c).count + 1) Config.eventCountMax, subject := x, reason := r }).get k := by
    unfold EventUnit.raise
    dsimp only
    split
    · rfl
    · split <;> rfl
  rw [h]
  split
  · subst_vars; simp
  · exact EventUnit.get_put_ne _ _ ‹_›

/-- A raise keeps the notice queue one entry per pending class, each up to date. -/
theorem raise_sound {u : EventUnit} (h : NoticesSound u) (b : Bool) (c : EventClass) (x : Subject)
    (r : Reason) : NoticesSound (u.raise b c x r) := by
  obtain ⟨hn, hm⟩ := h
  have old : ∀ n ∈ u.notices, n.cls ≠ c →
      ((u.raise b c x r).get n.cls).pending = true ∧ n = (u.raise b c x r).entryOf n.cls := by
    intro n hin hne
    have := hm n hin
    simpa [EventUnit.entryOf, raise_get, hne] using this
  have new : ((u.raise b c x r).get c).pending = true := by simp [raise_get]
  have entry : ∀ v : EventClassState, v = (u.raise b c x r).get c →
      (u.put c v).entryOf c = (u.raise b c x r).entryOf c := by
    rintro v rfl; simp [EventUnit.entryOf]
  have hget : (u.raise b c x r).get c = { pending := true, count := min ((u.get c).count + 1) Config.eventCountMax, subject := x, reason := r } := by simp [raise_get]
  have he := entry _ hget.symm
  by_cases hq : u.queued c = true
  · have hl : (u.raise b c x r).notices =
        u.notices.map (fun n => if n.cls = c then (u.raise b c x r).entryOf c else n) := by
      rw [← he]; simp [EventUnit.raise, hq]
    refine ⟨?_, ?_⟩
    · rw [hl, List.map_map]
      have : ((·.cls) ∘ fun n : NoticeEntry => if n.cls = c then (u.raise b c x r).entryOf c else n) = (·.cls) := by
        funext n
        by_cases h : n.cls = c
        · simp [h, EventUnit.entryOf]
        · simp [h]
      rw [this]; exact hn
    · intro n hin
      rw [hl, List.mem_map] at hin
      obtain ⟨m, hm', rfl⟩ := hin
      split
      · exact ⟨new, rfl⟩
      · exact old m hm' ‹_›
  · have hfree : ∀ n ∈ u.notices, n.cls ≠ c := fun n hin hc => hq (queued_iff.2 ⟨n, hin, hc⟩)
    have hl : (u.raise b c x r).notices = u.notices ∨
        (u.raise b c x r).notices = u.notices ++ [(u.raise b c x r).entryOf c] := by
      rw [← he]
      unfold EventUnit.raise
      simp only [hq]
      split
      · exact absurd ‹_› (by simp)
      · split
        · exact .inr rfl
        · exact .inl rfl
    rcases hl with hl | hl
    · refine ⟨by rw [hl]; exact hn, fun n hin => ?_⟩
      rw [hl] at hin; exact old n hin (hfree n hin)
    · refine ⟨?_, fun n hin => ?_⟩
      · rw [hl, List.map_append, List.nodup_append]
        refine ⟨hn, by simp, ?_⟩
        intro a ha b' hb
        simp only [List.mem_map, List.mem_singleton] at ha hb
        obtain ⟨n, hin, rfl⟩ := ha
        obtain ⟨m, rfl, rfl⟩ := hb
        exact hfree n hin
      · rw [hl, List.mem_append, List.mem_singleton] at hin
        rcases hin with hin | rfl
        · exact old n hin (hfree n hin)
        · exact ⟨new, rfl⟩

/-! ## The notice queue's other changes (R181, R182) -/

@[simp] theorem unqueueAll_get (u : EventUnit) (cs : List EventClass) (c : EventClass) :
    (u.unqueueAll cs).get c = u.get c := by
  unfold EventUnit.unqueueAll
  induction cs generalizing u with
  | nil => rfl
  | cons a cs ih => rw [List.foldl_cons, ih]; rfl

theorem unqueueAll_notices (u : EventUnit) (cs : List EventClass) :
    (u.unqueueAll cs).notices = u.notices.filter (fun n => n.cls ∉ cs) := by
  unfold EventUnit.unqueueAll
  induction cs generalizing u with
  | nil => simp
  | cons a cs ih =>
    rw [List.foldl_cons, ih, EventUnit.unqueue, List.filter_filter]
    congr 1; funext n; rw [Bool.eq_iff_iff]; simp [and_comm]

theorem unqueueAll_queued (u : EventUnit) (cs : List EventClass) (c : EventClass) :
    (u.unqueueAll cs).queued c = true ↔ u.queued c = true ∧ c ∉ cs := by
  simp only [queued_iff, unqueueAll_notices, List.mem_filter]
  constructor
  · rintro ⟨n, ⟨hn, hc⟩, rfl⟩; exact ⟨⟨n, hn, rfl⟩, by simpa using hc⟩
  · rintro ⟨⟨n, hn, rfl⟩, hc⟩; exact ⟨n, ⟨hn, by simpa using hc⟩, rfl⟩

/-- Dropping entries keeps the notice queue sound. -/
theorem NoticesSound.sub {u v : EventUnit} (h : NoticesSound u) (hs : v.notices.Sublist u.notices)
    (hg : ∀ n ∈ v.notices, v.get n.cls = u.get n.cls) : NoticesSound v := by
  refine ⟨h.1.sublist (hs.map _), fun n hn => ?_⟩
  have := h.2 n (hs.subset hn)
  simpa [EventUnit.entryOf, hg n hn] using this

theorem unqueueAll_sound {u : EventUnit} (h : NoticesSound u) (cs : List EventClass) :
    NoticesSound (u.unqueueAll cs) :=
  h.sub (by rw [unqueueAll_notices]; exact List.filter_sublist) (by simp)

@[simp] theorem queuePending_get (u : EventUnit) (cs : List EventClass) (c : EventClass) :
    (u.queuePending cs).get c = u.get c := by
  unfold EventUnit.queuePending
  induction cs generalizing u with
  | nil => rfl
  | cons a cs ih => rw [List.foldl_cons, ih]; split <;> rfl

theorem queuePending_queued (u : EventUnit) (cs : List EventClass) (c : EventClass) :
    (u.queuePending cs).queued c = true ↔ u.queued c = true ∨ (c ∈ cs ∧ (u.get c).pending = true) := by
  unfold EventUnit.queuePending
  induction cs generalizing u with
  | nil => simp
  | cons a cs ih =>
    rw [List.foldl_cons, ih]
    split
    · rename_i ha
      simp only [Bool.and_eq_true, Bool.not_eq_true'] at ha
      have : ({ u with notices := u.notices ++ [u.entryOf a] } : EventUnit).queued c = true ↔
          u.queued c = true ∨ c = a := by
        rw [eq_comm]; simp [EventUnit.queued, EventUnit.entryOf, eq_comm (a := c)]
      rw [this]
      change (_ ∨ _) ∨ (_ ∧ (u.get c).pending = true) ↔ _
      simp only [List.mem_cons]
      constructor
      · rintro ((h | rfl) | h)
        · exact .inl h
        · exact .inr ⟨.inl rfl, ha.1⟩
        · exact .inr ⟨.inr h.1, h.2⟩
      · rintro (h | ⟨rfl | h, h'⟩)
        · exact .inl (.inl h)
        · exact .inl (.inr rfl)
        · exact .inr ⟨h, h'⟩
    · rename_i ha
      simp only [List.mem_cons]
      constructor
      · rintro (h | h)
        · exact .inl h
        · exact .inr ⟨.inr h.1, h.2⟩
      · rintro (h | ⟨rfl | h, h'⟩)
        · exact .inl h
        · exact .inl (by simpa [h'] using ha)
        · exact .inr ⟨h, h'⟩

theorem queuePending_sound {u : EventUnit} (h : NoticesSound u) (cs : List EventClass) :
    NoticesSound (u.queuePending cs) := by
  unfold EventUnit.queuePending
  induction cs generalizing u with
  | nil => exact h
  | cons a cs ih =>
    rw [List.foldl_cons]
    refine ih ?_
    split
    · rename_i ha
      simp only [Bool.and_eq_true, Bool.not_eq_true'] at ha
      refine ⟨?_, ?_⟩
      · rw [List.map_append, List.nodup_append]
        refine ⟨h.1, by simp, ?_⟩
        intro x hx y hy
        simp only [List.mem_map, List.mem_singleton] at hx hy
        obtain ⟨n, hn, rfl⟩ := hx
        obtain ⟨m, rfl, rfl⟩ := hy
        intro hc
        have : u.queued a = true := queued_iff.2 ⟨n, hn, hc⟩
        simp [this] at ha
      · intro n hn
        simp only [List.mem_append, List.mem_singleton] at hn
        rcases hn with hn | rfl
        · exact h.2 n hn
        · exact ⟨ha.1, rfl⟩
    · exact h

/-- Queueing each of several classes appends an entry for every pending class that had none, in order. -/
theorem queuePending_notices {u : EventUnit} {cs : List EventClass} (h : cs.Nodup) :
    (u.queuePending cs).notices = u.notices ++
      (cs.filter (fun c => (u.get c).pending && !u.queued c)).map u.entryOf := by
  unfold EventUnit.queuePending
  induction cs generalizing u with
  | nil => simp
  | cons a cs ih =>
    obtain ⟨ha, hc⟩ := List.nodup_cons.1 h
    rw [List.foldl_cons, ih hc]
    split
    · rename_i hp
      rw [List.filter_cons_of_pos (by simpa using hp)]
      have hf : cs.filter (fun c => (u.get c).pending &&
          !({ u with notices := u.notices ++ [u.entryOf a] } : EventUnit).queued c) =
          cs.filter (fun c => (u.get c).pending && !u.queued c) := by
        refine List.filter_congr fun c hm => ?_
        have hne : a ≠ c := fun e => ha (e ▸ hm)
        have hb : (a == c) = false := by simpa using hne
        simp [EventUnit.queued, EventUnit.entryOf, EventUnit.get, hb]
      rw [List.map_cons]
      show u.notices ++ [u.entryOf a] ++ List.map u.entryOf (cs.filter _) = _
      rw [List.append_assoc]
      refine congrArg (u.notices ++ u.entryOf a :: List.map u.entryOf ·) hf
    · rename_i hp
      rw [List.filter_cons_of_neg (by simpa using hp)]

theorem acknowledgeAll_get (u : EventUnit) (cs : List EventClass) (c : EventClass) :
    (u.acknowledgeAll cs).get c = if c ∈ cs then EventClassState.clear else u.get c := by
  unfold EventUnit.acknowledgeAll
  induction cs generalizing u with
  | nil => simp
  | cons a cs ih =>
    rw [List.foldl_cons, ih]
    by_cases h : c ∈ cs
    · simp [h]
    · by_cases ha : c = a
      · subst ha; simp [h, EventUnit.acknowledge]
      · simp [h, ha, EventUnit.acknowledge, EventUnit.get_put_ne _ _ ha]

theorem acknowledgeAll_notices (u : EventUnit) (cs : List EventClass) :
    (u.acknowledgeAll cs).notices = u.notices.filter (fun n => n.cls ∉ cs) := by
  unfold EventUnit.acknowledgeAll
  induction cs generalizing u with
  | nil => simp
  | cons a cs ih =>
    rw [List.foldl_cons, ih, EventUnit.acknowledge, EventUnit.unqueue, EventUnit.put_notices,
      List.filter_filter]
    congr 1; funext n; rw [Bool.eq_iff_iff]; simp [and_comm]

theorem acknowledgeAll_sound {u : EventUnit} (h : NoticesSound u) (cs : List EventClass) :
    NoticesSound (u.acknowledgeAll cs) := by
  refine h.sub (by rw [acknowledgeAll_notices]; exact List.filter_sublist) fun n hn => ?_
  rw [acknowledgeAll_notices, List.mem_filter] at hn
  rw [acknowledgeAll_get, if_neg (by simpa using hn.2)]

theorem clear_sound : NoticesSound EventUnit.clear := ⟨by simp [EventUnit.clear], by simp [EventUnit.clear]⟩

/-- The notice queue's head leaves it. -/
theorem tail_sound {u : EventUnit} (h : NoticesSound u) {n : NoticeEntry} {rest : List NoticeEntry}
    (hn : u.notices = n :: rest) : NoticesSound { u with notices := rest } :=
  h.sub (by rw [hn]; exact List.sublist_cons_self _ _) (fun _ _ => rfl)

end Sys2Proof.Machine
end

