-- ==== Sys2Proof/Laws/Watch.lean ====
section
/-! SUPPORT. Watch entries in their list, the claims of an offer, and the entries a batch concerns. -/

namespace Sys2Proof.Machine

/-- The entry at its place in the list is found by its id. -/
theorem findWatch_split {pre post : List WatchEntry} {w : WatchEntry}
    (h : (pre ++ w :: post).Pairwise (fun a b => a.id < b.id)) :
    findWatch (pre ++ w :: post) w.id = some w := by
  rw [List.pairwise_append] at h
  simp only [findWatch, List.find?_append, List.find?_cons]
  have : List.find? (fun x => x.id == w.id) pre = none := by
    rw [List.find?_eq_none]; intro x hx
    have := h.2.2 x hx w (by simp); simp; omega
  simp [this]

/-- Replacing an entry changes it alone. -/
theorem replaceWatch_split {pre post : List WatchEntry} {w v : WatchEntry}
    (h : (pre ++ w :: post).Pairwise (fun a b => a.id < b.id))
    (hv : v.id = w.id) : replaceWatch v (pre ++ w :: post) = pre ++ v :: post := by
  rw [List.pairwise_append] at h
  simp only [replaceWatch, List.map_append, List.map_cons, hv, if_true]
  have h1 : ∀ x ∈ pre, x.id ≠ w.id := fun x hx => by have := h.2.2 x hx w (by simp); omega
  have h2 : ∀ x ∈ post, x.id ≠ w.id := fun x hx => by have := (List.pairwise_cons.1 h.2.1).1 x hx; omega
  congr 1
  · conv => rhs; rw [← List.map_id pre]
    apply List.map_congr_left; intro x hx; simp [h1 x hx]
  · congr 1
    conv => rhs; rw [← List.map_id post]
    apply List.map_congr_left; intro x hx; simp [h2 x hx]

/-- A new entry stands at one place among the others. -/
theorem insertWatch_split (w : WatchEntry) (l : List WatchEntry) :
    ∃ pre post, l = pre ++ post ∧ insertWatch w l = pre ++ w :: post := by
  induction l with
  | nil => exact ⟨[], [], rfl, rfl⟩
  | cons x xs ih =>
    unfold insertWatch
    split
    · exact ⟨[], x :: xs, rfl, rfl⟩
    · obtain ⟨a, b, h1, h2⟩ := ih
      exact ⟨x :: a, b, by rw [h1]; rfl, by rw [h2]; rfl⟩

/-- The lowest free watch id, and when there is none (R119). -/
theorem lowestFreeId_spec (es : List WatchEntry) :
    ((∀ k, k < 128 → ∃ w ∈ es, w.id = k) → lowestFreeId es = none) ∧
    (∀ id, id < 128 → (∀ w ∈ es, w.id ≠ id) → (∀ k, k < id → ∃ w ∈ es, w.id = k) →
      lowestFreeId es = some id) := by
  constructor
  · intro h
    simp only [lowestFreeId, List.find?_eq_none, List.mem_range, Config.watchEntries]
    intro k hk
    obtain ⟨w, hw, e⟩ := h k hk
    simp; exact ⟨w, hw, e⟩
  · intro id h1 h2 h3
    simp only [lowestFreeId, Config.watchEntries]
    rw [List.find?_range_eq_some]
    simp
    exact ⟨h2, h1, fun j hj => h3 j hj⟩

/-- A batch concerns an entry when it reports an element of its paths (R127). -/
theorem concerns_iff (rs : List Report) (w : WatchEntry) : concerns rs w = true ↔ Concerned rs w := by
  have : ∀ el, el ∈ w.elements ↔ (el = .node w.desc.source ∨ el = .node w.desc.dest ∨
    ∃ h ∈ w.paths.flatMap pathHops, el = .link h.ref ∨ el = .node h.reached) := by
    intro el
    simp only [WatchEntry.elements, pathElements, List.mem_cons, List.mem_flatMap, List.mem_nil_iff, or_false]
    constructor
    · rintro (h | h | h) <;> simp [h]
    · rintro (h | h | h) <;> simp [h]
  simp [concerns, List.any_eq_true, Concerned, this]

/-- The claims of an offer are free, beside the `earlier` ones of the same offer (R122). -/
theorem checkClaims_iff (s : State) (l earlier : List SlotClaim) : checkClaims s earlier l = true ↔
      (∀ c ∈ l, ∃ k, findLink s.tst.nodes c.ref = some k ∧ c.slots &&& k.occupied = 0#320 ∧
        c.slots &&& s.pwl.overlay.reservedSlots c.ref = 0#320) ∧
      (∀ b ∈ earlier, ∀ c ∈ l, b.ref = c.ref → c.slots &&& b.slots = 0#320) ∧
      l.Pairwise (fun b c => b.ref = c.ref → c.slots &&& b.slots = 0#320) := by
  induction l generalizing earlier with
  | nil => simp [checkClaims]
  | cons a l ih =>
    unfold checkClaims
    cases hf : findLink s.tst.nodes a.ref with
    | none => simp [hf]
    | some k =>
      simp only [Bool.and_eq_true, ih, List.pairwise_cons, List.mem_cons, forall_eq_or_imp, hf, slotsApart,
        beq_iff_eq, List.all_eq_true, Bool.or_eq_true, bne_iff_ne, List.mem_append]
      constructor
      · rintro ⟨⟨⟨h1, h2⟩, h3⟩, h4, h5, h6⟩
        refine ⟨⟨⟨k, rfl, h1, h2⟩, h4⟩, ?_, ?_, h6⟩
        · intro b hb
          refine ⟨?_, fun c hc => h5 b (.inl hb) c hc⟩
          intro e; rcases h3 b hb with g | g
          · exact absurd e g
          · exact g
        · intro c hc; exact h5 a (.inr (by simp)) c hc
      · rintro ⟨⟨⟨k', h0, h1, h2⟩, h4⟩, h5, h6, h7⟩
        injection h0 with h0; subst h0
        refine ⟨⟨⟨h1, h2⟩, ?_⟩, h4, ?_, h7⟩
        · intro b hb
          by_cases g : b.ref = a.ref
          · exact .inr ((h5 b hb).1 g)
          · exact .inl g
        · rintro b (hb | hb) c hc
          · exact (h5 b hb).2 c hc
          · simp at hb; subst hb; exact h6 c hc

end Sys2Proof.Machine
end

