-- ==== Sys2Proof/Laws/Service.lean ====
section
/-! SUPPORT. What serving requests and watch entries can do to the part: each shared operation of the
queue, the engines and the watch list is a run of the small updates of `Serves`. -/

namespace Sys2Proof.Machine

/-- The runs of the updates that serving is made of. -/
inductive Serves : State → State → Prop where
  | refl (s : State) : Serves s s
  | trans {s t u : State} : Serves s t → Serves t u → Serves s u
  /-- A frame takes a free place of a local egress queue. -/
  | enter (s : State) (p : Port) (f : OutFrame) :
      (s.port p).localQueue.length < Config.localQueue → Serves s (s.enterLocal p f)
  /-- A discarded frame is counted at its port. -/
  | discard (s : State) (p : Port) : Serves s (s.countLocalDiscard p)
  | countRq (s : State) (f : RequestCounters → RequestCounters) : Serves s (s.countRq f)
  /-- The request queue changes within its capacity. -/
  | queue (s : State) (q : List Descriptor) :
      q.length ≤ max Config.requestQueue s.rq.queue.length → Serves s (s.setQueue q)
  | engine (s : State) (e : EngineId) (x : Engine) : Serves s (s.setEngine e x)
  | raise (s : State) (c : EventClass) (x : Subject) (r : Reason) : Serves s (s.raise c x r)
  /-- A watch entry `v` is written back as `w`, RESERVED as it was and with the claims it had. -/
  | watch (s : State) (v w : WatchEntry) :
      v ∈ s.pwl.entries → v.id = w.id → (v.state = .reserved ↔ w.state = .reserved) →
      v.slotClaims = w.slotClaims → v.regenClaims = w.regenClaims → Serves s (s.setWatch w)
  /-- A watch entry gives up its claims. -/
  | unreserve (s : State) (w : WatchEntry) :
      w.state ≠ .reserved → Serves s ((s.releaseClaims w.id).setWatch w)
  | remove (s : State) (id : Nat) : Serves s (s.removeWatch id)
  /-- A watch entry is RESERVED with its claims in the overlay: a new one, or one that was not RESERVED. No
  slot of its claims is claimed twice among them, or in the overlay already (R122). -/
  | reserve (s : State) (w : WatchEntry) (entries : List WatchEntry) :
      w.state = .reserved →
      (entries = insertWatch w s.pwl.entries ∧ w.id < 128 ∧ ∀ x ∈ s.pwl.entries, x.id ≠ w.id) ∨
        (entries = replaceWatch w s.pwl.entries ∧
          ∃ v ∈ s.pwl.entries, v.id = w.id ∧ v.state ≠ .reserved) →
      w.slotClaims.Pairwise (fun b c => b.ref = c.ref → c.slots &&& b.slots = 0#320) →
      (∀ c ∈ w.slotClaims, c.slots &&& s.pwl.overlay.reservedSlots c.ref = 0#320) →
      Serves s { s with pwl := { entries := entries, overlay := s.pwl.overlay.claim w } }

theorem findWatch_mem {entries : List WatchEntry} {id : Nat} {w : WatchEntry}
    (h : findWatch entries id = some w) : w ∈ entries := List.mem_of_find?_eq_some h

theorem findWatch_id {entries : List WatchEntry} {id : Nat} {w : WatchEntry}
    (h : findWatch entries id = some w) : w.id = id := by
  simpa using List.find?_some h

/-- An entry written back with its counts and marks changed, or its state among those without claims. -/
theorem Serves.rewrite (s : State) {w v : WatchEntry} (h : v ∈ s.pwl.entries) (hid : v.id = w.id)
    (hs : w.state = v.state ∨ (v.state ≠ .reserved ∧ w.state ≠ .reserved))
    (h1 : v.slotClaims = w.slotClaims) (h2 : v.regenClaims = w.regenClaims) : Serves s (s.setWatch w) :=
  .watch s v w h hid (by rcases hs with hs | hs <;> simp [hs]) h1 h2

/-- An entry gives up its claims, if it is RESERVED, and is written back in another state. -/
theorem Serves.leave (s : State) {w v : WatchEntry} (h : v ∈ s.pwl.entries) (hid : v.id = w.id)
    (hs : w.state ≠ .reserved) (h1 : v.slotClaims = w.slotClaims) (h2 : v.regenClaims = w.regenClaims) :
    Serves s ((s.leaveReserved v).setWatch w) := by
  unfold State.leaveReserved
  split
  · rw [hid]; exact .unreserve s w hs
  · exact .rewrite s h hid (.inr ⟨‹_›, hs⟩) h1 h2

theorem rerouteFailed_serves (s : State) (w : WatchEntry) (h : w ∈ s.pwl.entries) :
    Serves s (s.rerouteFailed w) := by
  unfold State.rerouteFailed
  split
  · exact .rewrite s h rfl (.inl rfl) rfl rfl
  · split
    · exact .trans (.leave s (w := { w with rerouteLeft := 0, state := .stalled }) h rfl (by simp) rfl rfl)
        (.raise _ _ _ _)
    · exact .rewrite s h rfl (.inl rfl) rfl rfl

theorem rerouteResult_serves (s : State) (id : Nat) (st : Status) : Serves s (s.rerouteResult id st) := by
  unfold State.rerouteResult
  split
  · exact .refl s
  · rename_i w hw
    have hm := findWatch_mem hw
    cases st <;> first
      | exact .refl s
      | exact .raise _ _ _ _
      | exact .rewrite s hm rfl (.inl rfl) rfl rfl
      | exact rerouteFailed_serves s w hm

theorem hasPlace_length {s : State} {p : Port} (h : s.hasPlace p = true) :
    (s.port p).localQueue.length < Config.localQueue :=
  Nat.lt_of_le_of_lt (Nat.le_add_right _ _) (of_decide_eq_true h)

theorem wayFree_iff {s : State} {p : Port} : s.wayFree p = true ↔
    (s.port p).localQueue.length < Config.localQueue ∧ s.waiters p = 0 := by
  simp only [State.wayFree, Bool.and_eq_true, decide_eq_true_eq, beq_iff_eq]

theorem countResultDiscard_serves (s : State) : Serves s s.countResultDiscard :=
  .countRq s (fun c => { c with resultsDiscarded := bump c.resultsDiscarded })

theorem deliver_serves (s : State) (e : EngineId) (d : Descriptor) (r : ResultRecord) :
    Serves s (s.deliver e d r) := by
  unfold State.deliver
  split
  · exact .trans (.engine s e _) (rerouteResult_serves _ _ _)
  · split
    · split
      · rename_i hp
        exact .trans (.engine s e _) (.enter _ _ _ (by simpa using (wayFree_iff.1 hp).1))
      · exact .engine s e _
    · exact .trans (.trans (.engine s e _) (countResultDiscard_serves _)) (.discard _ _)
  · exact .engine s e _

theorem dispatch_serves (s : State) (e : EngineId) (d : Descriptor) : Serves s (s.dispatch e d) := by
  unfold State.dispatch
  dsimp only
  split
  · exact deliver_serves _ _ _ _
  · split
    · exact deliver_serves _ _ _ _
    · split
      · exact .trans (.engine s e _) (deliver_serves _ _ _ _)
      · exact .engine s e _

theorem arbitrate_serves (fuel : Nat) (s : State) : Serves s (s.arbitrate fuel) := by
  induction fuel generalizing s with
  | zero => exact .refl s
  | succ n ih =>
    unfold State.arbitrate
    split
    · exact .refl s
    · split
      · rename_i d rest e hq he
        exact .trans (.trans (.queue s _ (by simp [hq])) (dispatch_serves _ _ _)) (ih _)
      · exact .refl s

theorem runArbiter_serves (s : State) : Serves s s.runArbiter := arbitrate_serves _ s

theorem placeNew_length (d : Descriptor) (q : List Descriptor) : (placeNew d q).length = q.length + 1 := by
  induction q with
  | nil => rfl
  | cons x xs ih => unfold placeNew; split <;> simp [ih]

theorem placeBack_length (d : Descriptor) (q : List Descriptor) : (placeBack d q).length = q.length + 1 := by
  induction q with
  | nil => rfl
  | cons x xs ih => unfold placeBack; split <;> simp [ih]

theorem accept_serves (s : State) (d : Descriptor) (h : s.rq.queue.length < Config.requestQueue) :
    Serves s (s.accept d) :=
  .trans (.trans (.queue s _ (by rw [placeNew_length]; exact le_max_of_le_left h)) (.countRq _ _))
    (runArbiter_serves _)

theorem retry_serves (s : State) (e : EngineId) (d : Descriptor) (r : ResultRecord) :
    Serves s (s.retry e d r) := by
  unfold State.retry
  split
  · exact deliver_serves _ _ _ _
  · split
    · exact .trans (.countRq _ _) (deliver_serves _ _ _ _)
    · rename_i h
      exact .trans (.trans (.queue s _ (by
        rw [placeBack_length]; exact le_max_of_le_left (by omega))) (.countRq _ _)) (.engine _ _ _)

theorem mem_insertWatch {w x : WatchEntry} {l : List WatchEntry} :
    x ∈ insertWatch w l ↔ x = w ∨ x ∈ l := by
  induction l with
  | nil => simp [insertWatch]
  | cons y ys ih => unfold insertWatch; split <;> simp [ih, or_left_comm]

theorem mem_replaceWatch {w x : WatchEntry} {l : List WatchEntry} (h : x ∈ replaceWatch w l) :
    x = w ∨ (x ∈ l ∧ x.id ≠ w.id) := by
  simp only [replaceWatch, List.mem_map] at h
  obtain ⟨y, hy, rfl⟩ := h
  split
  · exact .inl rfl
  · exact .inr ⟨hy, ‹_›⟩

theorem lowestFreeId_free {entries : List WatchEntry} {id : Nat} (h : lowestFreeId entries = some id) :
    id < 128 ∧ ∀ x ∈ entries, x.id ≠ id := by
  have h1 := List.find?_some h
  have h2 := List.mem_of_find?_eq_some h
  exact ⟨by simpa [Config.watchEntries] using h2, by simpa using h1⟩

/-- What a passed reservation check says of the claims of the entry that is then made: no slot twice among
them, and none reserved already (R122). -/
theorem claims_apart {s : State} (w : WatchEntry)
    (h : reservationCheck s (w.primary :: w.protection.toList) = true) :
    w.slotClaims.Pairwise (fun b c => b.ref = c.ref → c.slots &&& b.slots = 0#320) ∧
      ∀ c ∈ w.slotClaims, c.slots &&& s.pwl.overlay.reservedSlots c.ref = 0#320 := by
  have hm : w.slotClaims = (w.paths.flatMap (pathClaims 0)).map (fun c => { c with owner := w.id }) := by
    simp only [WatchEntry.slotClaims, List.map_flatMap, pathClaims, List.map_map, Function.comp_def]
    rfl
  obtain ⟨h1, -, h2⟩ := (checkClaims_iff s (w.paths.flatMap (pathClaims 0)) []).1
    (by simp only [reservationCheck, Bool.and_eq_true] at h; exact h.1)
  rw [hm]
  refine ⟨List.pairwise_map.2 h2, fun c hc => ?_⟩
  obtain ⟨b, hb, rfl⟩ := List.mem_map.1 hc
  obtain ⟨l, -, -, h3⟩ := h1 b hb
  exact h3

theorem offerHold_serves (s : State) (e : EngineId) (d : Descriptor) (p : HeldPath) (q : Option HeldPath) :
    Serves s (s.offerHold e d p q).2 := by
  unfold State.offerHold
  split
  · unfold State.offerNew
    split
    · exact .refl s
    · split
      · rename_i id hid hc
        obtain ⟨hp, ho⟩ := claims_apart (newWatch s (s.engine e) d _ id p q) hc
        refine .trans (.reserve s _ _ rfl (.inl ⟨rfl, ?_⟩) hp ho) (.engine _ _ _)
        exact lowestFreeId_free hid
      · exact .refl s
  · unfold State.offerReroute
    split
    · exact .refl s
    · split
      · rename_i w hw hc
        have hm := findWatch_mem hw
        obtain ⟨hp, ho⟩ := claims_apart (rerouted s (s.engine e) w p q) hc.2
        refine .trans (.reserve s (rerouted s (s.engine e) w p q) _ rfl
          (.inr ⟨rfl, w, hm, rfl, by simp [hc.1]⟩) hp ho) (.engine _ _ _)
      · exact .refl s

theorem offerAndDeliver_serves (s : State) (e : EngineId) (d : Descriptor) (r : ResultRecord)
    (p : FoundPath) : Serves s (s.offerAndDeliver e d r p) := by
  have h := offerHold_serves s e d p.held (r.protectionPath.map (·.held))
  unfold State.offerAndDeliver
  split <;> rename_i s' hs <;> rw [hs] at h
  · exact h.trans (deliver_serves _ _ _ _)
  · exact h.trans (retry_serves _ _ _ _)
  · exact h.trans (deliver_serves _ _ _ _)

theorem complete_serves (s : State) (e : EngineId) (d : Descriptor) (r : ResultRecord) :
    Serves s (s.complete e d r) := by
  refine .trans ?_ (runArbiter_serves _)
  split
  · exact deliver_serves _ _ _ _
  · split
    · exact retry_serves _ _ _ _
    · split
      · exact offerAndDeliver_serves _ _ _ _ _
      · exact deliver_serves _ _ _ _

theorem phaseFound_serves (s : State) (e : EngineId) (x : Engine) (d : Descriptor) (l : Label) :
    Serves s (s.phaseFound e x d l) := by
  unfold State.phaseFound
  dsimp only
  split
  · split
    · exact .trans (.engine _ _ _) (complete_serves _ _ _ _)
    · exact .engine _ _ _
  · exact .trans (.engine _ _ _) (complete_serves _ _ _ _)

theorem expand_serves (s : State) (e : EngineId) : Serves s (s.expand e) := by
  unfold State.expand
  split
  · exact .refl s
  · split
    · split
      · exact .engine _ _ _
      · exact phaseFound_serves _ _ _ _ _
      · exact .trans (.engine _ _ _) (complete_serves _ _ _ _)
      · exact .trans (.engine _ _ _) (complete_serves _ _ _ _)
    · exact .refl s

theorem takeOrder_serves (s : State) (e : EngineId) : Serves s (s.takeOrder e) := by
  unfold State.takeOrder
  split
  · exact .refl s
  · split
    · split
      · exact .refl s
      · exact .trans (deliver_serves _ _ _ _) (runArbiter_serves _)
      · exact .trans (deliver_serves _ _ _ _) (runArbiter_serves _)
      · exact .trans (.engine _ _ _) (runArbiter_serves _)
    · exact .refl s

theorem completingEnters_serves (s : State) (e : EngineId) : Serves s (s.completingEnters e) := by
  unfold State.completingEnters
  split
  · split
    · exact .refl s
    · split
      · exact .refl s
      · rename_i h
        exact .trans (.trans (.engine _ _ _) (.enter _ _ _ (by simp at h ⊢; omega))) (runArbiter_serves _)
  · exact .refl s

/-! ## The watch list's own events -/

@[simp] theorem leaveReserved_rq (s : State) (w : WatchEntry) : (s.leaveReserved w).rq = s.rq := by
  unfold State.leaveReserved; split <;> rfl

/-- An entry that was RESERVED gives up its claims before it is written back in another state. -/
theorem violate_serves (s : State) (w : WatchEntry) (r : ViolationReason) (h : w ∈ s.pwl.entries) :
    Serves s (s.violate w r) := by
  unfold State.violate
  split
  · exact .trans (.leave s (w := { w with reason := some r, state := .violated }) h rfl (by simp) rfl rfl)
      (.raise _ _ _ _)
  · unfold State.submitReroute
    split
    · exact .leave s (w := { w with reason := some r, state := .rerouting, submitPending := true })
        h rfl (by simp) rfl rfl
    · rename_i hq
      refine .trans (.leave s (w := { w with reason := some r, state := .rerouting, submitPending := false })
        h rfl (by simp) rfl rfl) (accept_serves _ _ ?_)
      simp only [State.setWatch_rq, leaveReserved_rq, Bool.or_eq_true, decide_eq_true_eq, not_or] at hq ⊢
      omega

theorem confirm_serves (s : State) (w : WatchEntry) : Serves s (s.confirm w) :=
  .unreserve s { w with state := .active, rerouteLeft := w.desc.rerouteLimit } (by simp)

theorem batchEntry_serves (rs : List Report) (s : State) (id : Nat) : Serves s (s.batchEntry rs id) := by
  unfold State.batchEntry
  split
  · exact .refl s
  · rename_i w hw
    split
    · split
      · exact violate_serves _ _ _ (findWatch_mem hw)
      · split
        · exact confirm_serves _ _
        · exact .refl s
    · exact .refl s

/-- A fold of operations that serve, serves. -/
theorem foldl_serves {α : Type} (f : State → α → State) (h : ∀ s a, Serves s (f s a)) (l : List α) (s : State) :
    Serves s (l.foldl f s) := by
  induction l generalizing s with
  | nil => exact .refl s
  | cons a l ih => exact (h s a).trans (ih _)

theorem reportChanges_serves (s : State) (rs : List Report) : Serves s (s.reportChanges rs) := by
  refine .trans ?_ (foldl_serves _ (fun s id => batchEntry_serves rs s id) _ _)
  exact .trans (.engine s .a (s.engA.touchAll (rs.map (·.element))))
    (.engine _ .b (s.engB.touchAll (rs.map (·.element))))

theorem raiseAll_serves (s : State) (rs : List Raise) : Serves s (s.raiseAll rs) :=
  foldl_serves _ (fun _ _ => .raise _ _ _ _) rs s

/-- A store event writes the store's tables and then serves. -/
theorem storeEvent_serves (s : State) (o : StoreOutcome) :
    Serves { s with tst := { nodes := o.nodes, counters := o.counters } } (s.storeEvent o) :=
  .trans (raiseAll_serves _ _) (reportChanges_serves _ _)

theorem tickReservation_serves (s : State) (id : Nat) : Serves s (s.tickReservation id) := by
  unfold State.tickReservation
  split
  · exact .refl s
  · split
    · split
      · exact .trans (.remove _ _) (.raise _ _ _ _)
      · rename_i w hw _ _
        exact .rewrite s (findWatch_mem hw) rfl (.inl rfl) rfl rfl
    · exact .refl s

theorem submitOwed_serves (s : State) (id : Nat) : Serves s (s.submitOwed id) := by
  unfold State.submitOwed
  split
  · exact .refl s
  · rename_i w hw
    unfold State.submitReroute
    split
    · exact .rewrite s (findWatch_mem hw) rfl (.inl rfl) rfl rfl
    · rename_i hq
      refine .trans (t := s.setWatch { w with submitPending := false })
        (.rewrite s (findWatch_mem hw) rfl (.inl rfl) rfl rfl) (accept_serves _ _ ?_)
      simp at hq ⊢; omega

theorem tickWatch_serves (s : State) : Serves s s.tickWatch :=
  .trans (foldl_serves _ tickReservation_serves _ _) (foldl_serves _ submitOwed_serves _ _)

theorem filter_within (q : List Descriptor) (p : Descriptor → Bool) :
    (q.filter p).length ≤ max Config.requestQueue q.length :=
  le_max_of_le_right (List.length_filter_le _ _)

theorem unqueueRequest_serves (s : State) (r : Requester) (tag : Word16) : Serves s (s.unqueueRequest r tag) :=
  .queue s _ (filter_within _ _)

theorem cancelReroute_serves (s : State) (id : Nat) : Serves s (s.cancelReroute id) := by
  unfold State.cancelReroute
  split
  · exact unqueueRequest_serves _ _ _
  · exact .engine _ _ _
  · exact .refl s
  · exact .refl s

theorem releaseWatch_serves (s : State) (w : WatchEntry) : Serves s (s.releaseWatch w) := by
  refine .trans ?_ (.remove _ _)
  split
  · exact cancelReroute_serves _ _
  · exact .refl s

theorem offerQueuedResult_serves (s : State) (a : Address) (p : Port) (r : ResultRecord) (b : Bool) :
    Serves s (s.offerQueuedResult a p r b) := by
  unfold State.offerQueuedResult
  split
  · split
    · rename_i h
      exact .enter _ _ _ (hasPlace_length h)
    · split
      · exact .trans (countResultDiscard_serves s) (.discard _ _)
      · exact .discard _ _
  · exact .trans (countResultDiscard_serves s) (.discard _ _)

theorem abortQueued_serves (s : State) (d : Descriptor) : Serves s (s.abortQueued d) := by
  unfold State.abortQueued
  split
  · exact rerouteResult_serves _ _ _
  · exact offerQueuedResult_serves _ _ _ _ _
  · exact .refl s

theorem cancelQueued_serves (s : State) (r : Requester) (tag : Word16) : Serves s (s.cancelQueued r tag) := by
  unfold State.cancelQueued
  split
  · exact .refl s
  · split
    · exact .trans (unqueueRequest_serves _ _ _) (offerQueuedResult_serves _ _ _ _ _)
    · exact unqueueRequest_serves _ _ _

/-! ## What serving leaves alone -/

/-- Serving changes no configuration, no bank, no counter of time, no table of the store, nothing of the
translator's and nothing of the command intake. -/
theorem Serves.footprint {s t : State} (h : Serves s t) :
    t.pending = s.pending ∧ t.cfg = s.cfg ∧ t.stc = s.stc ∧ t.atr = s.atr ∧ t.prb = s.prb ∧ t.epc = s.epc ∧
      t.tst = s.tst ∧ t.spu.intake = s.spu.intake ∧ t.spu.hold = s.spu.hold ∧
      t.spu.sources = s.spu.sources := by
  induction h with
  | trans _ _ h1 h2 => simp_all
  | engine s e x => cases e <;> simp [State.setEngine]
  | _ => simp [State.setWatch, State.releaseClaims, State.removeWatch, State.raise, State.setQueue,
      State.countRq, State.enterLocal, State.countLocalDiscard, State.countPort, State.setPort]

end Sys2Proof.Machine
end

