-- ==== Sys2Proof/Laws/Serving.lean ====
section
/-! SUPPORT. What serving keeps: the fields it leaves alone, one by one, and the invariants of the queues, the
notice queue and the reservation overlay. -/

namespace Sys2Proof.Machine

namespace Serves
variable {s t : State}

theorem pending (h : Serves s t) : t.pending = s.pending := h.footprint.1
theorem cfg (h : Serves s t) : t.cfg = s.cfg := h.footprint.2.1
theorem stc (h : Serves s t) : t.stc = s.stc := h.footprint.2.2.1
theorem atr (h : Serves s t) : t.atr = s.atr := h.footprint.2.2.2.1
theorem prb (h : Serves s t) : t.prb = s.prb := h.footprint.2.2.2.2.1
theorem epc (h : Serves s t) : t.epc = s.epc := h.footprint.2.2.2.2.2.1
theorem tst (h : Serves s t) : t.tst = s.tst := h.footprint.2.2.2.2.2.2.1
theorem intake (h : Serves s t) : t.spu.intake = s.spu.intake := h.footprint.2.2.2.2.2.2.2.1
theorem hold (h : Serves s t) : t.spu.hold = s.spu.hold := h.footprint.2.2.2.2.2.2.2.2.1
theorem sources (h : Serves s t) : t.spu.sources = s.spu.sources := h.footprint.2.2.2.2.2.2.2.2.2

/-- Serving keeps the notice queue sound. -/
theorem noticesSound (h : Serves s t) (hs : NoticesSound s.evu) : NoticesSound t.evu := by
  induction h with
  | trans _ _ h1 h2 => exact h2 (h1 hs)
  | raise s c x r => exact raise_sound hs _ _ _ _
  | engine s e x => cases e <;> exact hs
  | _ => exact hs

end Serves

/-! ## The queues -/

theorem enterLocal_within {s : State} (h : QueuesWithin s) (p : Port) (f : OutFrame)
    (hp : (s.port p).localQueue.length < 16) : QueuesWithin (s.enterLocal p f) := by
  refine ⟨h.1, h.2.1, h.2.2.1, fun q => ?_⟩
  by_cases hq : q = p
  · subst hq
    have := h.2.2.2 q
    simp only [State.enterLocal_port, List.length_append, List.length_singleton]
    omega
  · rw [State.enterLocal_port_ne _ _ hq]; exact h.2.2.2 q

theorem countPort_within {s : State} (h : QueuesWithin s) (p : Port) (f : PortCounters → PortCounters) :
    QueuesWithin (s.countPort p f) := by
  refine ⟨h.1, h.2.1, h.2.2.1, fun q => ?_⟩
  rw [(State.countPort_queues s p q f).1, (State.countPort_queues s p q f).2]
  exact h.2.2.2 q

/-- Serving keeps the queues within their capacities. -/
theorem Serves.queuesWithin {s t : State} (h : Serves s t) (hs : QueuesWithin s) : QueuesWithin t := by
  induction h with
  | trans _ _ h1 h2 => exact h2 (h1 hs)
  | enter s p f hp => exact enterLocal_within hs p f hp
  | discard s p => exact countPort_within hs p _
  | queue s q hq =>
    have h64 := hs.2.2.1
    exact ⟨hs.1, hs.2.1, by simp [State.setQueue] at hq ⊢; omega, hs.2.2.2⟩
  | engine s e x => cases e <;> exact hs
  | _ => exact hs

/-! ## The reservation overlay -/

theorem slotClaims_owner {w : WatchEntry} {c : SlotClaim} (h : c ∈ w.slotClaims) : c.owner = w.id := by
  simp only [WatchEntry.slotClaims, List.mem_flatMap, pathClaims, List.mem_map] at h
  obtain ⟨p, -, g, -, k, -, rfl⟩ := h
  rfl

theorem regenClaims_owner {w : WatchEntry} {c : RegenClaim} (h : c ∈ w.regenClaims) : c.owner = w.id := by
  simp only [WatchEntry.regenClaims, List.mem_map] at h
  obtain ⟨n, -, rfl⟩ := h
  rfl

/-- Giving up an id's claims keeps the claims of every other entry. -/
theorem release_keeps {o : Overlay} {w : WatchEntry} {id : Nat} (hid : w.id ≠ id)
    (h : (∀ c ∈ w.slotClaims, c ∈ o.slots) ∧ (∀ c ∈ w.regenClaims, c ∈ o.regens)) :
    (∀ c ∈ w.slotClaims, c ∈ (o.release id).slots) ∧ (∀ c ∈ w.regenClaims, c ∈ (o.release id).regens) := by
  refine ⟨fun c hc => ?_, fun c hc => ?_⟩
  · simpa [Overlay.release, slotClaims_owner hc, hid] using h.1 c hc
  · simpa [Overlay.release, regenClaims_owner hc, hid] using h.2 c hc

/-- Serving keeps every RESERVED entry's claims in the overlay. -/
theorem Serves.claimsStand {s t : State} (h : Serves s t) (hs : ClaimsStand s.pwl) : ClaimsStand t.pwl := by
  induction h with
  | trans _ _ h1 h2 => exact h2 (h1 hs)
  | engine s e x => cases e <;> exact hs
  | watch s v w hv hid hr h1 h2 =>
    intro x hx hxr
    rcases mem_replaceWatch hx with rfl | ⟨hx, -⟩
    · have := hs v hv (hr.2 hxr)
      rw [h1, h2] at this
      exact this
    · exact hs x hx hxr
  | unreserve s w hw =>
    intro x hx hr
    rcases mem_replaceWatch hx with rfl | ⟨hx, hid⟩
    · exact absurd hr hw
    · exact release_keeps hid (hs x hx hr)
  | remove s id =>
    intro x hx hr
    simp only [State.removeWatch, List.mem_filter] at hx
    exact release_keeps (by simpa using hx.2) (hs x hx.1 hr)
  | reserve s w entries hw he hp ho =>
    intro x hx hr
    have : x ∈ s.pwl.entries ∨ x = w := by
      rcases he with ⟨rfl, -, -⟩ | ⟨rfl, -⟩
      · exact (mem_insertWatch.1 hx).symm
      · exact (mem_replaceWatch hx).symm.imp_left (·.1)
    rcases this with hx | rfl
    · exact ⟨fun c hc => List.mem_append_left _ ((hs x hx hr).1 c hc),
        fun c hc => List.mem_append_left _ ((hs x hx hr).2 c hc)⟩
    · exact ⟨fun c hc => List.mem_append_right _ hc, fun c hc => List.mem_append_right _ hc⟩
  | _ => exact hs

/-! ## Watch ids (R119) -/

/-- Writing an entry back keeps the ids. -/
theorem replaceWatch_ids {w : WatchEntry} (l : List WatchEntry) :
    (replaceWatch w l).map (·.id) = l.map (·.id) := by
  simp only [replaceWatch, List.map_map]
  refine List.map_congr_left fun x _ => ?_
  by_cases h : x.id = w.id <;> simp [h]

theorem watchIds_iff (w : WatchList) : WatchIdsSound w ↔
    (w.entries.map (·.id)).Pairwise (· < ·) ∧ ∀ k ∈ w.entries.map (·.id), k < 128 := by
  simp [WatchIdsSound, List.pairwise_map]

theorem insertWatch_sorted {w : WatchEntry} {l : List WatchEntry} (h : l.Pairwise (fun a b => a.id < b.id))
    (hw : ∀ x ∈ l, x.id ≠ w.id) : (insertWatch w l).Pairwise (fun a b => a.id < b.id) := by
  induction l with
  | nil => simp [insertWatch]
  | cons x xs ih =>
    have hx := List.pairwise_cons.1 h
    unfold insertWatch
    split
    · rename_i hlt
      refine List.pairwise_cons.2 ⟨fun y hy => ?_, h⟩
      rcases List.mem_cons.1 hy with rfl | hy
      · exact hlt
      · exact lt_trans hlt (hx.1 y hy)
    · refine List.pairwise_cons.2 ⟨fun y hy => ?_, ih hx.2 fun y hy => hw y (by simp [hy])⟩
      rcases mem_insertWatch.1 hy with rfl | hy
      · have := hw x (by simp); omega
      · exact hx.1 y hy

/-- Serving keeps the watch ids distinct, ascending and below 128. -/
theorem Serves.watchIdsSound {s t : State} (h : Serves s t) (hs : WatchIdsSound s.pwl) :
    WatchIdsSound t.pwl := by
  induction h with
  | trans _ _ h1 h2 => exact h2 (h1 hs)
  | engine s e x => cases e <;> exact hs
  | watch s v w _ _ _ _ _ =>
    rw [watchIds_iff] at hs ⊢
    simpa only [State.setWatch, replaceWatch_ids] using hs
  | unreserve s w _ =>
    rw [watchIds_iff] at hs ⊢
    simpa only [State.setWatch, State.releaseClaims, replaceWatch_ids] using hs
  | remove s id => exact ⟨hs.1.filter _, fun x hx => hs.2 x (List.mem_filter.1 hx).1⟩
  | reserve s w entries hw he hp ho =>
    rcases he with ⟨rfl, hi, hn⟩ | ⟨rfl, -⟩
    · refine ⟨insertWatch_sorted hs.1 hn, fun x hx => ?_⟩
      rcases mem_insertWatch.1 hx with rfl | hx
      · exact hi
      · exact hs.2 x hx
    · rw [watchIds_iff] at hs ⊢
      simpa only [replaceWatch_ids] using hs
  | _ => exact hs

/-! ## The overlay holds what the RESERVED entries claim (R120) -/

/-- What the RESERVED entries of a list hold of something each entry has. -/
def heldBy {α : Type} (f : WatchEntry → List α) (l : List WatchEntry) : List α :=
  l.flatMap (fun e => if e.state = .reserved then f e else [])

theorem heldBy_filter {α : Type} (f : WatchEntry → List α) (l : List WatchEntry) :
    (l.filter (fun e => e.state == .reserved)).flatMap f = heldBy f l := by
  induction l with
  | nil => rfl
  | cons x xs ih =>
    simp only [List.filter_cons, heldBy, List.flatMap_cons] at ih ⊢
    by_cases h : x.state = .reserved <;> simp [h, ih]

theorem mem_heldBy {α : Type} {f : WatchEntry → List α} {l : List WatchEntry} {a : α} :
    a ∈ heldBy f l ↔ ∃ e ∈ l, e.state = .reserved ∧ a ∈ f e := by
  simp only [heldBy, List.mem_flatMap]
  refine exists_congr fun e => and_congr_right fun _ => ?_
  by_cases h : e.state = .reserved <;> simp [h]

/-- Distinct ids make the entry of an id the only one. -/
theorem id_unique {l : List WatchEntry} (h : l.Pairwise (fun a b => a.id < b.id)) {v x : WatchEntry}
    (hv : v ∈ l) (hx : x ∈ l) (he : x.id = v.id) : x = v := by
  obtain ⟨i, hi, rfl⟩ := List.mem_iff_getElem.1 hv
  obtain ⟨j, hj, rfl⟩ := List.mem_iff_getElem.1 hx
  rw [List.pairwise_iff_getElem] at h
  rcases lt_trichotomy i j with g | g | g
  · have := h i j hi hj g; omega
  · subst g; rfl
  · have := h j i hj hi g; omega

/-- An entry written back with what it held keeps what is held. -/
theorem heldBy_rewrite {α : Type} {f : WatchEntry → List α} {l : List WatchEntry} {v w : WatchEntry}
    (h : l.Pairwise (fun a b => a.id < b.id)) (hv : v ∈ l) (hid : v.id = w.id)
    (hr : v.state = .reserved ↔ w.state = .reserved) (hf : f v = f w) :
    heldBy f (replaceWatch w l) = heldBy f l := by
  simp only [heldBy, replaceWatch, List.flatMap_map]
  refine List.flatMap_congr fun x hx => ?_
  by_cases he : x.id = w.id
  · obtain rfl := id_unique h hv hx (he.trans hid.symm)
    simp [he, hf, hr]
  · simp [he]

/-- Without an id's claims there is left what the other entries hold. -/
theorem heldBy_without {α : Type} {f : WatchEntry → List α} {owner : α → Nat}
    (ho : ∀ e, ∀ a ∈ f e, owner a = e.id) (l : List WatchEntry) (id : Nat) :
    (heldBy f l).filter (fun a => owner a != id) = heldBy f (l.filter (fun e => e.id != id)) := by
  induction l with
  | nil => rfl
  | cons x xs ih =>
    simp only [heldBy, List.flatMap_cons, List.filter_append, List.filter_cons] at ih ⊢
    rw [ih]
    by_cases h : x.id = id
    · have : (if x.state = .reserved then f x else []).filter (fun a => owner a != id) = [] := by
        rw [List.filter_eq_nil_iff]; intro a ha
        have : a ∈ f x := by split at ha <;> simp_all
        simp [ho x a this, h]
      simp [this, h]
    · have : (if x.state = .reserved then f x else []).filter (fun a => owner a != id)
          = if x.state = .reserved then f x else [] := by
        rw [List.filter_eq_self]; intro a ha
        have : a ∈ f x := by split at ha <;> simp_all
        simp [ho x a this, h]
      simp [this, h]

/-- An entry written back out of RESERVED holds nothing. -/
theorem heldBy_unreserve {α : Type} (f : WatchEntry → List α) (l : List WatchEntry) {w : WatchEntry}
    (hw : w.state ≠ .reserved) :
    heldBy f (replaceWatch w l) = heldBy f (l.filter (fun e => e.id != w.id)) := by
  induction l with
  | nil => rfl
  | cons x xs ih =>
    simp only [heldBy, replaceWatch, List.map_cons, List.flatMap_cons, List.filter_cons] at ih ⊢
    rw [ih]
    by_cases h : x.id = w.id <;> simp [h, hw]

theorem heldBy_insert {α : Type} (f : WatchEntry → List α) (l : List WatchEntry) {w : WatchEntry}
    (hw : w.state = .reserved) : (heldBy f l ++ f w).Perm (heldBy f (insertWatch w l)) := by
  obtain ⟨a, b, h1, h2⟩ := insertWatch_split w l
  rw [h2, h1]
  simp only [heldBy, List.flatMap_append, List.flatMap_cons, hw, if_true]
  rw [List.append_assoc]
  exact List.Perm.append_left _ List.perm_append_comm

theorem heldBy_replace {α : Type} (f : WatchEntry → List α) {l : List WatchEntry} {v w : WatchEntry}
    (h : l.Pairwise (fun a b => a.id < b.id)) (hv : v ∈ l) (hid : v.id = w.id) (hr : v.state ≠ .reserved)
    (hw : w.state = .reserved) : (heldBy f l ++ f w).Perm (heldBy f (replaceWatch w l)) := by
  obtain ⟨a, b, rfl⟩ := List.append_of_mem hv
  rw [replaceWatch_split h hid.symm]
  simp only [heldBy, List.flatMap_append, List.flatMap_cons, hw, hr, if_true, if_false, List.nil_append]
  rw [List.append_assoc]
  exact List.Perm.append_left _ List.perm_append_comm

theorem overlayExact_iff (w : WatchList) : OverlayExact w ↔
    w.overlay.slots.Perm (heldBy (·.slotClaims) w.entries) ∧
    w.overlay.regens.Perm (heldBy (·.regenClaims) w.entries) ∧
    w.overlay.slots.Pairwise (fun b c => b.ref = c.ref → c.slots &&& b.slots = 0#320) := by
  simp only [OverlayExact, heldBy_filter]

theorem and_zero_or {a b c : SlotSet} : a &&& (b ||| c) = 0#320 ↔ a &&& b = 0#320 ∧ a &&& c = 0#320 := by
  constructor
  · intro h
    constructor <;>
    · ext i hi
      have := congrArg (fun x => x.getLsbD i) h
      simp at this ⊢
      simp_all
  · rintro ⟨h1, h2⟩
    ext i hi
    have g1 := congrArg (fun x => x.getLsbD i) h1
    have g2 := congrArg (fun x => x.getLsbD i) h2
    simp at g1 g2 ⊢
    simp_all

/-- Slots apart from a link's reserved slots are apart from every claim on it. -/
theorem reservedSlots_apart {o : Overlay} {ref : LinkRef} {x : SlotSet} (h : x &&& o.reservedSlots ref = 0#320)
    {c : SlotClaim} (hc : c ∈ o.slots) (hr : c.ref = ref) : x &&& c.slots = 0#320 := by
  have key : ∀ (l : List SlotSet) (acc : SlotSet), x &&& l.foldl (· ||| ·) acc = 0#320 →
      x &&& acc = 0#320 ∧ ∀ y ∈ l, x &&& y = 0#320 := by
    intro l
    induction l with
    | nil => intro acc h; exact ⟨h, by simp⟩
    | cons y ys ih =>
      intro acc h
      obtain ⟨h1, h2⟩ := ih _ h
      obtain ⟨h3, h4⟩ := and_zero_or.1 h1
      exact ⟨h3, by simpa using ⟨h4, h2⟩⟩
  exact (key _ _ h).2 _ (List.mem_map.2 ⟨c, List.mem_filter.2 ⟨hc, by simp [hr]⟩, rfl⟩)

/-- Serving keeps the overlay exact. -/
theorem Serves.overlayExact {s t : State} (h : Serves s t) (hi : WatchIdsSound s.pwl)
    (hs : OverlayExact s.pwl) : OverlayExact t.pwl := by
  induction h with
  | trans g1 _ h1 h2 => exact h2 (g1.watchIdsSound hi) (h1 hi hs)
  | engine s e x => cases e <;> exact hs
  | watch s v w hv hid hr h1 h2 =>
    rw [overlayExact_iff] at hs ⊢
    simp only [State.setWatch]
    rw [heldBy_rewrite hi.1 hv hid hr h1, heldBy_rewrite hi.1 hv hid hr h2]
    exact hs
  | unreserve s w hw =>
    rw [overlayExact_iff] at hs ⊢
    simp only [State.setWatch, State.releaseClaims, Overlay.release]
    rw [heldBy_unreserve _ _ hw, heldBy_unreserve _ _ hw,
      ← heldBy_without (fun e a ha => slotClaims_owner ha), ← heldBy_without (fun e a ha => regenClaims_owner ha)]
    exact ⟨hs.1.filter _, hs.2.1.filter _, hs.2.2.filter _⟩
  | remove s id =>
    rw [overlayExact_iff] at hs ⊢
    simp only [State.removeWatch, Overlay.release]
    rw [← heldBy_without (fun e a ha => slotClaims_owner ha), ← heldBy_without (fun e a ha => regenClaims_owner ha)]
    exact ⟨hs.1.filter _, hs.2.1.filter _, hs.2.2.filter _⟩
  | reserve s w entries hw he hp ho =>
    rw [overlayExact_iff] at hs ⊢
    have key : ∀ {α : Type} (f : WatchEntry → List α),
        (heldBy f s.pwl.entries ++ f w).Perm (heldBy f entries) := by
      intro α f
      rcases he with ⟨rfl, -, -⟩ | ⟨rfl, v, hv, hid, hr⟩
      · exact heldBy_insert f _ hw
      · exact heldBy_replace f hi.1 hv hid hr hw
    refine ⟨(hs.1.append_right _).trans (key _), (hs.2.1.append_right _).trans (key _), ?_⟩
    refine List.pairwise_append.2 ⟨hs.2.2, hp, fun b hb c hc hbc => ?_⟩
    exact reservedSlots_apart (ho c hc) hb hbc
  | _ => exact hs

/-- A result for an enabled port with a place that nothing waits for enters its queue (R111). -/
theorem deliver_mgmt {s : State} {e : EngineId} {d : Descriptor} {a : Address} {p : Port} (r : ResultRecord)
    (h1 : d.requester = .mgmt a) (h2 : d.ingress = some p) (h3 : s.enabled p = true)
    (h4 : (s.port p).localQueue.length < 16) (h5 : s.waiters p = 0) :
    s.deliver e d r = s.delivered e a p r := by
  have hw : s.wayFree p = true := wayFree_iff.2 ⟨h4, h5⟩
  simp only [State.deliver, h1, h2, h3, hw, if_true]
  cases e <;> rfl

end Sys2Proof.Machine
end

