-- ==== Sys2Proof/Laws/Delivery.lean ====
section
/-! SUPPORT. What a finished result's way can do, once for each operation: its delivery, what the watch list
makes of it, and a completion with its stale check, hold and retries (R107 to R111, R132 to R134). -/

namespace Sys2Proof.Machine

/-- The entry of an id that one entry has, and what writing it back makes of the list. -/
theorem watch_alone {pre post : List WatchEntry} {w : WatchEntry} {id : Nat} (hid : w.id = id)
    (h : ∀ x ∈ pre ++ post, x.id ≠ id) :
    findWatch (pre ++ w :: post) id = some w ∧
      ∀ v : WatchEntry, v.id = id → replaceWatch v (pre ++ w :: post) = pre ++ v :: post := by
  have h1 : ∀ x ∈ pre, x.id ≠ id := fun x hx => h x (List.mem_append_left _ hx)
  have h2 : ∀ x ∈ post, x.id ≠ id := fun x hx => h x (List.mem_append_right _ hx)
  have keep : ∀ (l : List WatchEntry) (v : WatchEntry), (∀ x ∈ l, x.id ≠ id) →
      l.map (fun x => if x.id = id then v else x) = l := fun l v hl => by
    conv => rhs; rw [← List.map_id l]
    exact List.map_congr_left fun x hx => by simp [hl x hx]
  refine ⟨?_, fun v hv => ?_⟩
  · have : List.find? (fun x => x.id == id) pre = none := by
      rw [List.find?_eq_none]; intro x hx; simpa using h1 x hx
    simp [findWatch, List.find?_append, this, hid]
  · simp only [replaceWatch, hv, List.map_append, List.map_cons, hid, if_true, keep pre v h1, keep post v h2]

theorem findWatch_none {entries : List WatchEntry} {id : Nat} (h : ∀ w ∈ entries, w.id ≠ id) :
    findWatch entries id = none := by
  rw [findWatch, List.find?_eq_none]; intro x hx; simpa using h x hx

/-- What the watch list makes of a reroute's result (R132 to R134). -/
theorem rerouteResult_takes (s : State) (id : Nat) (st : Status) :
    TakesReroute s (s.rerouteResult id st) id st := by
  refine ⟨fun h => by rw [State.rerouteResult, findWatch_none h], fun pre post w he hid hn => ?_⟩
  obtain ⟨hf, hr⟩ := watch_alone hid hn
  have put : ∀ v : WatchEntry, v.id = id → s.setWatch v = s.withEntries (pre ++ v :: post) := fun v hv => by
    rw [State.setWatch, he, hr v hv]; rfl
  have same : (s.leaveReserved w).pwl.entries = s.pwl.entries := by
    unfold State.leaveReserved; split <;> rfl
  have out : ∀ v : WatchEntry, v.id = id → (s.leaveReserved w).setWatch v =
      (s.withEntries (pre ++ v :: post)).withOverlay
        (if w.state = .reserved then s.pwl.overlay.without id else s.pwl.overlay) := fun v hv => by
    rw [State.setWatch, same, he, hr v hv]
    unfold State.leaveReserved
    split
    · rw [hid]; rfl
    · rfl
  simp only [State.rerouteResult, he, hf]
  refine ⟨?_, ?_, ?_⟩
  · rintro rfl; simp only [State.raiseWatch, hid]
  · rintro rfl; exact put _ hid
  · intro hst
    have : s.rerouteResult id st = s.rerouteFailed w := by
      simp only [State.rerouteResult, he, hf]
      simp only [List.mem_cons, List.not_mem_nil, or_false] at hst
      rcases hst with rfl | rfl | rfl | rfl | rfl <;> rfl
    simp only [State.rerouteResult, he, hf] at this
    rw [this]
    unfold State.rerouteFailed
    refine ⟨fun h0 => ?_, fun h0 h1 => ?_, fun h0 h2 => ?_⟩
    · rw [if_pos h0]; exact put _ hid
    · rw [if_neg h0, if_pos h1, State.raiseWatch,
        out { w with rerouteLeft := 0, state := .stalled } hid, hid]
    · rw [if_neg h0, if_neg (by omega)]; exact put _ hid

/-- No frame waits for a place on a port exactly when the port's count of them is 0 (R162). -/
theorem waiters_zero (s : State) (p : Port) : s.waiters p = 0 ↔ ¬s.Waited p := by
  have eng : ∀ e, (s.engine e).waitsFor = some p ↔ ∃ d, (s.engine e).mode = .completing ∧
      (s.engine e).request = some d ∧ d.ingress = some p := by
    intro e
    unfold Engine.waitsFor
    split
    · rename_i d hm hr
      simp [hm, hr]
    · rename_i hn
      constructor
      · intro h; cases h
      · rintro ⟨d, h1, h2, -⟩; exact absurd h2 (hn d h1)
  have ha := eng .a
  have hb := eng .b
  simp only [State.engine] at ha hb
  unfold State.waiters State.Waited
  rw [Nat.add_eq_zero_iff, Nat.add_eq_zero_iff]
  simp only [ite_eq_right_iff, one_ne_zero, imp_false, not_or, Option.map_eq_some_iff, ha, hb]
  constructor
  · rintro ⟨⟨h1, h2⟩, h3⟩
    refine ⟨h1, ?_⟩
    rintro ⟨e, d, h⟩
    cases e
    · exact h2 ⟨d, h⟩
    · exact h3 ⟨d, h⟩
  · rintro ⟨h1, h2⟩
    exact ⟨⟨h1, fun ⟨d, h⟩ => h2 ⟨.a, d, h⟩⟩, fun ⟨d, h⟩ => h2 ⟨.b, d, h⟩⟩

/-- What the delivery of a finished result does (R111). -/
theorem deliver_delivers (s : State) (e : EngineId) (d : Descriptor) (r : ResultRecord) :
    Delivers s (s.deliver e d r) e d r := by
  refine ⟨fun h => ?_, fun a p h1 h2 => ⟨fun h3 h4 h5 => ?_, fun h3 h4 => ?_, fun h3 => ?_⟩⟩
  · have : s.deliver e d r = (s.setEngine e Engine.idle).rerouteResult d.tag.toNat r.primary := by
      simp only [State.deliver, h]
    rw [this]; exact rerouteResult_takes _ _ _
  · exact deliver_mgmt r h1 h2 h3 h4 ((waiters_zero s p).2 h5)
  · have hw : s.wayFree p = false := by
      rw [Bool.eq_false_iff, ne_eq, wayFree_iff, waiters_zero]
      rintro ⟨g1, g2⟩
      rcases h4 with h4 | h4
      · exact absurd g1 (by simp [Config.localQueue]; omega)
      · exact g2 h4
    simp only [State.deliver, h1, h2, h3, hw, if_true, Bool.false_eq_true, if_false]
  · simp only [State.deliver, h1, h2, h3, Bool.false_eq_true, if_false]
    cases e <;> rfl

/-- The elements of a path are its source and the links and nodes of its hops (R107). -/
theorem mem_pathElements {source : NodeId} {hops : List Hop} {el : Element} :
    el ∈ pathElements source hops ↔
      el = .node source ∨ ∃ h ∈ hops, el = .link h.ref ∨ el = .node h.reached := by
  simp only [pathElements, List.mem_cons, List.mem_flatMap]
  refine or_congr_right (exists_congr fun h => and_congr_right fun _ => ?_)
  simp

/-- What the retries make of a stale or conflicting result (R109). -/
theorem retry_cases (s : State) (e : EngineId) (d : Descriptor) (r : ResultRecord) :
    (d.retryLimit ≠ 0 → d.retries = 0 →
      Delivers s (s.retry e d r) e d { r with primary := .stale, outcome := .failed }) ∧
    ((d.retryLimit = 0 ∨ d.retries ≠ 0) → 64 ≤ s.rq.queue.length →
      Delivers { s with rq := { s.rq with counters := { s.rq.counters with
        requeuesRefused := min (s.rq.counters.requeuesRefused + 1) 4294967295 } } } (s.retry e d r) e d
        { r with primary := .stale, outcome := .failed }) ∧
    ((d.retryLimit = 0 ∨ d.retries ≠ 0) → s.rq.queue.length < 64 →
      ∃ before after, s.rq.queue = before ++ after ∧ (∀ w ∈ before, d.priority < w.priority) ∧
        (∀ w, after.head? = some w → w.priority ≤ d.priority) ∧
        s.retry e d r = State.setEngine { s with rq :=
          { queue := before ++
              { d with retries := if d.retryLimit = 0 then d.retries else d.retries - 1 } :: after
            counters := { s.rq.counters with
              requeued := min (s.rq.counters.requeued + 1) 4294967295 } } } e Engine.idle) := by
  have ho : staleRecord r = { r with primary := .stale, outcome := .failed } := by
    simp [staleRecord, outcomeOf]
  refine ⟨fun h1 h2 => ?_, fun h1 h2 => ?_, fun h1 h2 => ?_⟩
  · rw [State.retry, if_pos ⟨h1, h2⟩, ho]; exact deliver_delivers _ _ _ _
  · rw [State.retry, if_neg (by rintro ⟨g1, g2⟩; rcases h1 with h | h <;> contradiction),
      if_pos (show s.rq.queue.length ≥ Config.requestQueue from h2), ho]
    exact deliver_delivers _ _ _ _
  · rw [State.retry, if_neg (by rintro ⟨g1, g2⟩; rcases h1 with h | h <;> contradiction),
      if_neg (by simp [Config.requestQueue]; omega)]
    obtain ⟨b, a, g1, g2, g3, g4⟩ := placeBack_split
      { d with retries := if d.retryLimit = 0 then d.retries else d.retries - 1 } s.rq.queue
    exact ⟨b, a, g1, g3, g4, by dsimp only; rw [g2]; rfl⟩

/-- An offer answered CONFLICT changes nothing (R121, R124). -/
theorem offerHold_conflict {s v : State} {e : EngineId} {d : Descriptor} {p : HeldPath} {q : Option HeldPath}
    (h : s.offerHold e d p q = (.conflict, v)) : v = s := by
  unfold State.offerHold at h
  split at h
  · unfold State.offerNew at h
    split at h
    · cases h
    · split at h <;> cases h; rfl
  · unfold State.offerReroute at h
    split at h
    · cases h; rfl
    · split at h <;> cases h; rfl

/-- What a completion with a path found does, before the arbiter acts (R107 to R109). -/
theorem complete_completes (s : State) (e : EngineId) (d : Descriptor) (r : ResultRecord)
    {first : FoundPath} {second : Option FoundPath} (h1 : r.primaryPath = some first)
    (h2 : r.protectionPath = second) :
    ∃ u, Completes s u e d r first second ∧ s.complete e d r = u.runArbiter := by
  refine ⟨_, ?_, by rw [State.complete]⟩
  simp only [h1]
  rintro stale conflict hs hc
  have hst : staleResult (s.engine e) d r = true ↔ stale := by
    rw [hs, staleResult, h1, h2, Bool.or_eq_true]
    refine or_congr_right ?_
    simp only [List.any_eq_true, decide_eq_true_eq, mem_pathElements, List.mem_append, Option.mem_toList]
    constructor
    · rintro ⟨p, hp, el, hel, ht⟩
      refine ⟨el, ht, hel.imp_right fun ⟨h, hh, hr⟩ => ⟨h, ?_, hr⟩⟩
      rcases hp with hp | hp
      · injection hp with hp; subst hp; exact .inl hh
      · subst hp; exact .inr (by simpa using hh)
    · rintro ⟨el, ht, rfl | ⟨h, hh | hh, hr⟩⟩
      · exact ⟨first, .inl rfl, _, .inl rfl, ht⟩
      · exact ⟨first, .inl rfl, _, .inr ⟨h, hh, hr⟩, ht⟩
      · cases hp : second with
        | none => rw [hp] at hh; simp at hh
        | some p => rw [hp] at hh; exact ⟨p, .inr rfl, _, .inr ⟨h, by simpa using hh, hr⟩, ht⟩
  have hoff : d.hold = true → ¬stale →
      (if staleResult (s.engine e) d r = true then s.retry e d r
        else if d.hold = true then s.offerAndDeliver e d r first else s.deliver e d r) =
      s.offerAndDeliver e d r first := fun g1 g2 => by rw [if_neg (mt hst.1 g2), if_pos g1]
  refine ⟨fun g1 g2 => ?_, fun id v g1 g2 g3 => ?_, fun v g1 g2 g3 => ?_, fun g => ?_⟩
  · rw [if_neg (mt hst.1 g1), if_neg (by simp [g2])]; exact deliver_delivers _ _ _ _
  · rw [hoff g2 g1, State.offerAndDeliver, h2, g3]; exact deliver_delivers _ _ _ _
  · rw [hoff g2 g1, State.offerAndDeliver, h2, g3]; exact deliver_delivers _ _ _ _
  · have : (if staleResult (s.engine e) d r = true then s.retry e d r
        else if d.hold = true then s.offerAndDeliver e d r first else s.deliver e d r) = s.retry e d r := by
      by_cases hx : stale
      · rw [if_pos (hst.2 hx)]
      · rcases g with g | g
        · exact absurd g hx
        · rw [hc] at g
          obtain ⟨g1, v, g2⟩ := g
          have hv : v = s := offerHold_conflict g2
          rw [hoff g1 hx, State.offerAndDeliver, h2, g2, hv]
    rw [this]
    exact retry_cases s e d r

/-! ## The watch ids in use stand while requests are accepted -/

/-- The watch ids in use, in their order. -/
def State.watchIds (s : State) : List Nat := s.pwl.entries.map (·.id)

@[simp] theorem setWatch_watchIds (s : State) (w : WatchEntry) : (s.setWatch w).watchIds = s.watchIds :=
  replaceWatch_ids _

@[simp] theorem leaveReserved_watchIds (s : State) (w : WatchEntry) :
    (s.leaveReserved w).watchIds = s.watchIds := by
  unfold State.leaveReserved; split <;> rfl

@[simp] theorem setEngine_watchIds (s : State) (e : EngineId) (x : Engine) :
    (s.setEngine e x).watchIds = s.watchIds := by cases e <;> rfl

theorem rerouteResult_watchIds (s : State) (id : Nat) (st : Status) :
    (s.rerouteResult id st).watchIds = s.watchIds := by
  have raised : ∀ (u : State) (c : EventClass) (w : WatchEntry), (u.raiseWatch c w).watchIds = u.watchIds :=
    fun _ _ _ => rfl
  unfold State.rerouteResult
  split
  · rfl
  · cases st <;> simp only [raised, setWatch_watchIds, State.rerouteFailed] <;>
      (repeat' split) <;> simp only [raised, setWatch_watchIds, leaveReserved_watchIds]

theorem deliver_watchIds (s : State) (e : EngineId) (d : Descriptor) (r : ResultRecord) :
    (s.deliver e d r).watchIds = s.watchIds := by
  have entered : ∀ (u : State) p f, (u.enterLocal p f).watchIds = u.watchIds := fun _ _ _ => rfl
  have counted : ∀ (u : State) p, (u.countResultDiscard.countLocalDiscard p).watchIds = u.watchIds :=
    fun _ _ => rfl
  unfold State.deliver
  (repeat' split) <;> simp only [rerouteResult_watchIds, entered, counted, setEngine_watchIds]

theorem dispatch_watchIds (s : State) (e : EngineId) (d : Descriptor) :
    (s.dispatch e d).watchIds = s.watchIds := by
  unfold State.dispatch
  dsimp only
  (repeat' split) <;> simp only [deliver_watchIds, setEngine_watchIds]

theorem arbitrate_watchIds (fuel : Nat) (s : State) : (s.arbitrate fuel).watchIds = s.watchIds := by
  induction fuel generalizing s with
  | zero => rfl
  | succ n ih =>
    unfold State.arbitrate
    split
    · rfl
    · split
      · rw [ih, dispatch_watchIds]; rfl
      · rfl

/-- An accepted request changes no watch id in use. -/
theorem accept_watchIds (s : State) (d : Descriptor) : (s.accept d).watchIds = s.watchIds :=
  arbitrate_watchIds _ _

end Sys2Proof.Machine
end

