-- ==== Sys2Proof/Laws/Epochs.lean ====
section
/-! SUPPORT. What an epoch event, a mark and the passing of a frame can do to the part (chapters 8 and 9). -/

namespace Sys2Proof.Machine

/-! ## Epoch events (R147 to R151) -/

/-- The banks after an epoch event. -/
theorem epochEvent_prb (s : State) (n : Nat) : (s.epochEvent n).prb =
    if s.prb.commitPending then { s.prb with active := s.prb.staged, commitPending := false } else s.prb := by
  have h : ∀ u : State, (u.sendMark n).prb = u.prb := by
    intro u; unfold State.sendMark; split <;> simp
  have ha : (s.applyEpoch n).prb = if s.prb.commitPending then
      { s.prb with active := s.prb.staged, commitPending := false } else s.prb := by
    unfold State.applyEpoch; dsimp only; split <;> simp
  unfold State.epochEvent
  dsimp only
  split
  · rw [h, ha]
  · exact ha

/-- What an epoch event changes: the port unit's queues and counters, Epoch Control, the banks and the
Event Unit, and no more. -/
theorem epochEvent_footprint (s : State) (n : Nat) :
    (s.epochEvent n).pending = s.pending ∧ (s.epochEvent n).cfg = s.cfg ∧ (s.epochEvent n).stc = s.stc ∧
      (s.epochEvent n).atr = s.atr ∧ (s.epochEvent n).tst = s.tst ∧ (s.epochEvent n).rq = s.rq ∧
      (s.epochEvent n).engA = s.engA ∧ (s.epochEvent n).engB = s.engB ∧ (s.epochEvent n).pwl = s.pwl ∧
      (s.epochEvent n).spu.intake = s.spu.intake ∧ (s.epochEvent n).spu.hold = s.spu.hold ∧
      (s.epochEvent n).spu.sources = s.spu.sources := by
  have h : ∀ u : State, (u.sendMark n).pending = u.pending ∧ (u.sendMark n).cfg = u.cfg ∧
      (u.sendMark n).stc = u.stc ∧ (u.sendMark n).atr = u.atr ∧ (u.sendMark n).tst = u.tst ∧
      (u.sendMark n).rq = u.rq ∧ (u.sendMark n).engA = u.engA ∧ (u.sendMark n).engB = u.engB ∧
      (u.sendMark n).pwl = u.pwl ∧ (u.sendMark n).spu.intake = u.spu.intake ∧
      (u.sendMark n).spu.hold = u.spu.hold ∧ (u.sendMark n).spu.sources = u.spu.sources := by
    intro u; unfold State.sendMark; split <;> simp
  have ha : ∀ u : State, (u.applyEpoch n).pending = u.pending ∧ (u.applyEpoch n).cfg = u.cfg ∧
      (u.applyEpoch n).stc = u.stc ∧ (u.applyEpoch n).atr = u.atr ∧ (u.applyEpoch n).tst = u.tst ∧
      (u.applyEpoch n).rq = u.rq ∧ (u.applyEpoch n).engA = u.engA ∧ (u.applyEpoch n).engB = u.engB ∧
      (u.applyEpoch n).pwl = u.pwl ∧ (u.applyEpoch n).spu = u.spu := by
    intro u; unfold State.applyEpoch; dsimp only; split <;> simp
  have h1 := h (s.applyEpoch n)
  have h2 := ha s
  unfold State.epochEvent
  dsimp only
  split <;> simp_all

/-- The epoch number after an epoch event. -/
theorem epochEvent_number (s : State) (n : Nat) : (s.epochEvent n).epc.number = n := by
  have h : ∀ u : State, (u.sendMark n).epc.number = u.epc.number := by
    intro u; unfold State.sendMark; split <;> simp [State.countEpc]
  have ha : (s.applyEpoch n).epc.number = n := by
    unfold State.applyEpoch; dsimp only; split <;> simp
  unfold State.epochEvent
  dsimp only
  split
  · rw [h, ha]
  · exact ha

/-- An epoch event keeps the notice queue sound. -/
theorem epochEvent_notices {s : State} (h : NoticesSound s.evu) (n : Nat) :
    NoticesSound (s.epochEvent n).evu := by
  have hm : ∀ u : State, (u.sendMark n).evu = u.evu := by
    intro u; unfold State.sendMark; split <;> simp
  have ha : NoticesSound (s.applyEpoch n).evu := by
    unfold State.applyEpoch; dsimp only; split
    · exact raise_sound h _ _ _ _
    · exact h
  unfold State.epochEvent
  dsimp only
  split
  · rw [hm]; exact ha
  · exact ha

/-- An epoch event keeps the queues within their capacities. -/
theorem epochEvent_within {s : State} (h : QueuesWithin s) (n : Nat) : QueuesWithin (s.epochEvent n) := by
  have ha : QueuesWithin (s.applyEpoch n) := by
    unfold State.applyEpoch; dsimp only; split <;> exact h
  have hm : ∀ u : State, QueuesWithin u → QueuesWithin (u.sendMark n) := by
    intro u hu; unfold State.sendMark; split
    · rename_i hp
      simp only [Bool.and_eq_true] at hp
      exact enterLocal_within hu _ _ (by simpa using hasPlace_length hp.2)
    · exact countPort_within (s := u.countEpc _) hu _ _
  unfold State.epochEvent
  dsimp only
  split
  · exact hm _ ha
  · exact ha

/-- A mark taken in FOLLOW does nothing, counts, or is an epoch event whose number differs. -/
theorem takeMark_cases (s : State) (p : List Byte) :
    s.takeMark p = s ∨ (∃ f, s.takeMark p = s.countEpc f) ∨
      (fieldNat p 0 2 ≠ s.epc.number ∧ ∃ f, s.takeMark p = (s.epochEvent (fieldNat p 0 2)).countEpc f) := by
  unfold State.takeMark
  split
  · exact .inl rfl
  · split
    · exact .inr (.inl ⟨_, rfl⟩)
    · split
      · exact .inr (.inl ⟨_, rfl⟩)
      · exact .inr (.inr ⟨‹_›, _, rfl⟩)

/-- Epoch Control's tick does nothing, counts its timer down, or is an epoch event. -/
theorem tickEpoch_cases (s : State) :
    s.tickEpoch = s ∨ s.tickEpoch = { s with epc := { s.epc with timer := s.epc.timer - 1 } } ∨
      s.tickEpoch = ({ s with epc := { s.epc with timer := s.cfg.epochInterval } }).epochEvent
        (nextEpoch s.epc.number) := by
  unfold State.tickEpoch
  split
  · exact .inl rfl
  · split
    · exact .inr (.inr rfl)
    · exact .inr (.inl rfl)

/-! ## Passing a frame (R157) -/

/-- A frame that is passed enters transit FIFOs and counts at ports, and does no more. -/
theorem enterTransit_footprint (s : State) (f : Frame) (x : Port × Option Byte) :
    ∃ ports, s.enterTransit f x = { s with spu := { s.spu with ports := ports } } := by
  unfold State.enterTransit
  split
  · split
    · exact ⟨_, rfl⟩
    · exact ⟨_, rfl⟩
  · exact ⟨_, rfl⟩

theorem passFrame_footprint (s : State) (p : Port) (tag : Option Byte) (f : Frame) :
    ∃ ports, s.passFrame p tag f = { s with spu := { s.spu with ports := ports } } := by
  unfold State.passFrame
  generalize passPorts s p tag = l
  induction l generalizing s with
  | nil => exact ⟨_, rfl⟩
  | cons x l ih =>
    obtain ⟨ps, h⟩ := enterTransit_footprint s f x
    obtain ⟨qs, h'⟩ := ih (s.enterTransit f x)
    exact ⟨qs, by rw [List.foldl_cons, h', h]⟩

theorem enterTransit_within {s : State} (h : QueuesWithin s) (f : Frame) (x : Port × Option Byte) :
    QueuesWithin (s.enterTransit f x) := by
  unfold State.enterTransit
  split
  · split
    · rename_i hl
      refine ⟨h.1, h.2.1, h.2.2.1, fun q => ?_⟩
      by_cases hq : q = x.1
      · subst hq
        have := h.2.2.2 x.1
        simp only [Config.transitFifo_eq] at hl
        simp only [State.setPort_port, List.length_append, List.length_singleton]
        omega
      · rw [State.setPort_port_ne _ _ hq]; exact h.2.2.2 q
    · exact countPort_within h _ _
  · exact countPort_within h _ _

theorem passFrame_within {s : State} (h : QueuesWithin s) (p : Port) (tag : Option Byte) (f : Frame) :
    QueuesWithin (s.passFrame p tag f) := by
  unfold State.passFrame
  generalize passPorts s p tag = l
  induction l generalizing s with
  | nil => exact h
  | cons x l ih => exact ih (enterTransit_within h f x)

/-! ## A frame's arrival (R154 to R159) -/

/-- What taking a frame in can do before it is passed: count at ports, take a command in, take a mark, or offer
a copy to the translator. -/
theorem frameArrival_cases (s : State) (port : Port) (tag : Option Byte) (bytes : List Byte) :
    ∃ f : PortCounters → PortCounters, s.frameArrival port tag bytes = s.countPort port f ∨
      ∃ fr : Frame, s.frameArrival port tag bytes = (s.countPort port f).consume port fr ∨
        (∃ g, s.frameArrival port tag bytes = ((s.countPort port f).countPort port g).passFrame port tag fr) ∨
        s.frameArrival port tag bytes = (s.countPort port f).passFrame port tag fr ∨
        s.frameArrival port tag bytes = ((s.countPort port f).takeMark fr.payload).passFrame port tag fr ∨
        s.frameArrival port tag bytes = ((s.countPort port f).offerCopy fr.payload).passFrame port tag fr := by
  unfold State.frameArrival
  split
  · exact ⟨_, .inl rfl⟩
  · split
    · exact ⟨_, .inl rfl⟩
    · split
      · exact ⟨_, .inl rfl⟩
      · rename_i fr _
        refine ⟨fun c => { c with framesReceived := bump c.framesReceived }, .inr ⟨fr, ?_⟩⟩
        unfold State.receive
        dsimp only
        split
        · unfold State.classify
          split
          · exact .inl rfl
          · split
            · exact .inr (.inr (.inr (.inl rfl)))
            · split
              · exact .inr (.inr (.inr (.inr rfl)))
              · exact .inr (.inr (.inl rfl))
        · exact .inr (.inl ⟨_, rfl⟩)

/-- What offering a copy to the translator can do (R29). -/
theorem offerCopy_cases (s : State) (copy : List Byte) :
    s.offerCopy copy = s ∨
    (s.atr.queue.length < Config.translatorQueue ∧
      s.offerCopy copy = { s with atr := { s.atr with queue := s.atr.queue ++ [copy] } }) ∨
    ∃ f, s.offerCopy copy = (s.countAtr f).raiseDropped .queue := by
  unfold State.offerCopy
  split
  · exact .inl rfl
  · split
    · exact .inr (.inl ⟨‹_›, rfl⟩)
    · exact .inr (.inr ⟨_, rfl⟩)

/-- What a translation event can do (R30). -/
theorem translationEvent_cases (s : State) :
    s.translationEvent = s ∨ ∃ q, (q.length ≤ s.atr.queue.length) ∧
      ((∃ f r, s.translationEvent =
          (({ s with atr := { s.atr with queue := q } } : State).countAtr f).raiseDropped r) ∨
        (∃ f, s.translationEvent = ({ s with atr := { s.atr with queue := q } } : State).countAtr f) ∨
        (∃ r m, translate s (s.atr.queue.headD []) = .record r m ∧ s.translationEvent =
          { s with atr := { queue := q, handed := some r, counters := countHandedOver r m s.atr.counters } })) := by
  unfold State.translationEvent
  split
  · exact .inl rfl
  · rename_i copy rest hq
    split
    · exact .inl rfl
    · refine .inr ⟨rest, by simp [hq], ?_⟩
      rw [hq, List.headD_cons]
      unfold State.finishTranslation
      cases ht : translate s copy with
      | unknownDialect => exact .inl ⟨_, _, rfl⟩
      | malformed => exact .inl ⟨_, _, rfl⟩
      | stale => exact .inr (.inl ⟨_, rfl⟩)
      | record r m => exact .inr (.inr ⟨r, m, rfl, rfl⟩)

end Sys2Proof.Machine
end

