-- ==== Sys2Proof/Laws/Rows.lean ====
section
/-! SUPPORT. Each command row, once: with its code at the head and its right held, it is its block's answer
to the command, run on the part whose intake queue has lost its head. -/

namespace Sys2Proof.Machine

/-- An answer is given, and what follows it is done. -/
def Answer.run (a : Answer) (t : Taken) : State := a.later (a.state.respond t a.reply)

@[simp] theorem Answer.run_done (r : Reply) (s : State) (t : Taken) :
    (Answer.done r s).run t = s.respond t r := rfl

@[simp] theorem Answer.run_refuse (c : Response) (s : State) (t : Taken) :
    (Answer.refuse c s).run t = s.respond t { code := c, data := [] } := rfl

section
variable {s : State} {t : Taken} {rest : List IntakeFrame}

theorem exec_readStatus (h : AtHead s t rest) (hc : t.code = 0x01) (hh : Holds s t .query) :
    exec .readStatus s = .next ((readStatus t (s.withIntake rest)).run t) :=
  congrArg _ (takeCommand_held h hc (r := .query) rfl hh _)

theorem exec_readConfig (h : AtHead s t rest) (hc : t.code = 0x02) (hh : Holds s t .query) :
    exec .readConfig s = .next ((readConfig t (s.withIntake rest)).run t) :=
  congrArg _ (takeCommand_held h hc (r := .query) rfl hh _)

theorem exec_setConfig (h : AtHead s t rest) (hc : t.code = 0x03) (hh : Holds s t .configure) :
    exec .setConfig s = .next ((setConfig t (s.withIntake rest)).run t) :=
  congrArg _ (takeCommand_held h hc (r := .configure) rfl hh _)

theorem exec_setState (h : AtHead s t rest) (hc : t.code = 0x04) (hh : Holds s t .configure) :
    exec .setState s = .next ((setState t (s.withIntake rest)).run t) :=
  congrArg _ (takeCommand_held h hc (r := .configure) rfl hh _)

theorem exec_restartWarm (h : AtHead s t rest) (hc : t.code = 0x05) (hh : Holds s t .configure) :
    exec .restartWarm s = .next ((restartWarm t (s.withIntake rest)).run t) :=
  congrArg _ (takeCommand_held h hc (r := .configure) rfl hh _)

theorem exec_readCounters (h : AtHead s t rest) (hc : t.code = 0x06)
    (hh : Holds s t (if t.params.length ≥ 3 ∧ paramMark t.params 2 = true then .configure else .query)) :
    exec .readCounters s = .next ((readCounters t (s.withIntake rest)).run t) :=
  congrArg _ (takeCommand_held h hc rfl hh _)

theorem exec_writeSourceEntry (h : AtHead s t rest) (hc : t.code = 0x07) (hh : Holds s t .configure) :
    exec .writeSourceEntry s = .next ((writeSource t (s.withIntake rest)).run t) :=
  congrArg _ (takeCommand_held h hc (r := .configure) rfl hh _)

theorem exec_readSourceEntry (h : AtHead s t rest) (hc : t.code = 0x08) (hh : Holds s t .query) :
    exec .readSourceEntry s = .next ((readSource t (s.withIntake rest)).run t) :=
  congrArg _ (takeCommand_held h hc (r := .query) rfl hh _)

theorem exec_queryNode (h : AtHead s t rest) (hc : t.code = 0x10) (hh : Holds s t .query) :
    exec .queryNode s = .next ((queryNode t (s.withIntake rest)).run t) :=
  congrArg _ (takeCommand_held h hc (r := .query) rfl hh _)

theorem exec_queryLink (h : AtHead s t rest) (hc : t.code = 0x11) (hh : Holds s t .query) :
    exec .queryLink s = .next ((queryLink t (s.withIntake rest)).run t) :=
  congrArg _ (takeCommand_held h hc (r := .query) rfl hh _)

theorem exec_listNodes (h : AtHead s t rest) (hc : t.code = 0x12) (hh : Holds s t .query) :
    exec .listNodes s = .next ((listNodes t (s.withIntake rest)).run t) :=
  congrArg _ (takeCommand_held h hc (r := .query) rfl hh _)

theorem exec_clearCrossings (h : AtHead s t rest) (hc : t.code = 0x13) (hh : Holds s t .configure) :
    exec .clearCrossings s = .next ((clearCrossings t (s.withIntake rest)).run t) :=
  congrArg _ (takeCommand_held h hc (r := .configure) rfl hh _)

theorem exec_submit (h : AtHead s t rest) (hc : t.code = 0x20) (hh : Holds s t .request) :
    exec .submit s = .next ((submit t (s.withIntake rest)).run t) :=
  congrArg _ (takeCommand_held h hc (r := .request) rfl hh _)

theorem exec_cancel (h : AtHead s t rest) (hc : t.code = 0x21) (hh : Holds s t .request) :
    exec .cancel s = .next ((cancel t (s.withIntake rest)).run t) :=
  congrArg _ (takeCommand_held h hc (r := .request) rfl hh _)

theorem exec_releaseWatch (h : AtHead s t rest) (hc : t.code = 0x22) (hh : Holds s t .request) :
    exec .releaseWatch s = .next ((releaseWatch t (s.withIntake rest)).run t) :=
  congrArg _ (takeCommand_held h hc (r := .request) rfl hh _)

theorem exec_queryWatch (h : AtHead s t rest) (hc : t.code = 0x23) (hh : Holds s t .query) :
    exec .queryWatch s = .next ((queryWatch t (s.withIntake rest)).run t) :=
  congrArg _ (takeCommand_held h hc (r := .query) rfl hh _)

theorem exec_writeDialectEntry (h : AtHead s t rest) (hc : t.code = 0x30) (hh : Holds s t .configure) :
    exec .writeDialectEntry s = .next ((writeDialect t (s.withIntake rest)).run t) :=
  congrArg _ (takeCommand_held h hc (r := .configure) rfl hh _)

theorem exec_clearDialect (h : AtHead s t rest) (hc : t.code = 0x31) (hh : Holds s t .configure) :
    exec .clearDialect s = .next ((clearDialect t (s.withIntake rest)).run t) :=
  congrArg _ (takeCommand_held h hc (r := .configure) rfl hh _)

theorem exec_writeClass (h : AtHead s t rest) (hc : t.code = 0x32) (hh : Holds s t .configure) :
    exec .writeClass s = .next ((writeClass t (s.withIntake rest)).run t) :=
  congrArg _ (takeCommand_held h hc (r := .configure) rfl hh _)

theorem exec_readTable (h : AtHead s t rest) (hc : t.code = 0x33) (hh : Holds s t .query) :
    exec .readTable s = .next ((readTable t (s.withIntake rest)).run t) :=
  congrArg _ (takeCommand_held h hc (r := .query) rfl hh _)

theorem exec_commit (h : AtHead s t rest) (hc : t.code = 0x34) (hh : Holds s t .configure) :
    exec .commit s = .next ((commit t (s.withIntake rest)).run t) :=
  congrArg _ (takeCommand_held h hc (r := .configure) rfl hh _)

theorem exec_discardStaged (h : AtHead s t rest) (hc : t.code = 0x35) (hh : Holds s t .configure) :
    exec .discardStaged s = .next ((discardStaged t (s.withIntake rest)).run t) :=
  congrArg _ (takeCommand_held h hc (r := .configure) rfl hh _)

theorem exec_ackEvents (h : AtHead s t rest) (hc : t.code = 0x40) (hh : Holds s t .configure) :
    exec .ackEvents s = .next ((ackEvents t (s.withIntake rest)).run t) :=
  congrArg _ (takeCommand_held h hc (r := .configure) rfl hh _)

end

end Sys2Proof.Machine
end

