-- ==== Sys2Proof/Laws/Settings.lean ====
section
/-! SUPPORT. SET CONFIG's steps and the effect of a configuration that takes effect (R174). -/

namespace Sys2Proof.Machine

/-- Past the code and the standby test, SET CONFIG is what the item's judgement says. -/
theorem setConfig_judged {t : Taken} {s : State} {i : ConfigItem} (hl : 5 ≤ t.params.length)
    (hi : itemOfCode (t.params.getD 0 0).toNat = some i)
    (hs : standbyOnly i = false ∨ s.stc.part = .standby) :
    setConfig t s =
      match judgeItem s.cfg t.port i (fieldNat t.params 1 4) with
      | none => Answer.refuse .badValue s
      | some (new, clamped) =>
        Answer.done { code := okOrClamped clamped, data := itemData new i (fieldByte t.params 0) }
          (s.configure i new) := by
  have h2 : (standbyOnly i && !s.standby) = false := by
    rcases hs with h | h <;> simp [h, State.standby]
  rw [setConfig, if_neg (by omega)]
  simp only [param1, fieldByte, hi, setItem, h2]
  rfl

/-- An item whose change has no effect of its own takes effect by standing in the configuration. -/
theorem configure_plain {i : ConfigItem} (h : ∀ (s : State) (old : Settings), s.itemEffect old i = s)
    (s : State) (new : Settings) : s.configure i new = { s with cfg := new } := by
  unfold State.configure
  split
  · rename_i hn; rw [hn]
  · rw [h]

theorem testBit_portIn (v : Nat) (p : Port) : portIn (BitVec.ofNat 9 v) p = v.testBit (portIndex p) := by
  have h := (portIndex p).isLt
  rw [portIn, BitVec.getLsbD_ofNat]
  simp [h]

/-- A change of the three monitor items resets every link's filter (R57). -/
theorem configure_rethreshold {i : ConfigItem} (h : i = .degradeLow ∨ i = .degradeHigh ∨ i = .filterDepth)
    (s : State) (new : Settings) :
    s.configure i new = if new = s.cfg then s else ({ s with cfg := new }).rethreshold := by
  unfold State.configure
  rcases h with rfl | rfl | rfl <;> rfl

/-- FILTER_DEPTH changes only by its own item. -/
theorem judgeItem_filterDepth {c : Settings} {p : Port} {i : ConfigItem} {v : Nat} {new : Settings} {cl : Bool}
    (h : judgeItem c p i v = some (new, cl)) (hi : i ≠ .filterDepth) : new.filterDepth = c.filterDepth := by
  cases i <;> simp only [judgeItem, setDegradeLow, setDegradeHigh, Option.map_eq_some_iff,
    Option.ite_none_left_eq_some, Option.ite_none_right_eq_some, Option.some.injEq, Prod.mk.injEq] at h
  case filterDepth => exact absurd rfl hi
  all_goals first
    | (obtain ⟨rfl, -⟩ := h; rfl)
    | (obtain ⟨-, rfl, -⟩ := h; rfl)
    | (obtain ⟨-, -, rfl, -⟩ := h; rfl)

end Sys2Proof.Machine
end

