-- ==== Sys2Proof/Laws/Keeps.lean ====
section
/-! SUPPORT. How a property of the part is carried through a command row and through the rows of time: what has
to keep it, once for all rows. -/

namespace Sys2Proof.Machine

/-! ## Command rows -/

/-- A property that the taking of a command, its response, its block's answer and what follows keep, is kept
by the command's row. -/
theorem takeCommand_keeps {P : State → Prop} {code : Byte} {body : Taken → State → Answer} {s : State}
    (hpop : P s → P s.popIntake) (hresp : ∀ u t r, P u → P (u.respond t r))
    (hlater : ∀ t u r, P u → P ((body t u).later ((body t u).state.respond t r))) (h : P s) :
    P (s.takeCommand code body) := by
  rcases takeCommand_cases s code body with e | ⟨t, e⟩ | ⟨t, -, e⟩ <;> rw [e]
  · exact h
  · exact hresp _ _ _ (hpop h)
  · exact hlater _ _ _ (hpop h)

/-- An answer that leaves the part as it is and does nothing more. -/
def Answer.still (a : Answer) (s : State) : Prop := a.state = s ∧ a.later = id

theorem still_done (r : Reply) (s : State) : (Answer.done r s).still s := ⟨rfl, rfl⟩

theorem still_refuse (c : Response) (s : State) : (Answer.refuse c s).still s := ⟨rfl, rfl⟩

theorem readStatus_still (t : Taken) (s : State) : (readStatus t s).still s := still_done _ _

theorem readConfig_still (t : Taken) (s : State) : (readConfig t s).still s := by
  unfold readConfig
  split
  · exact still_refuse _ _
  · split
    · exact still_refuse _ _
    · exact still_done _ _

theorem readSource_still (t : Taken) (s : State) : (readSource t s).still s := by
  unfold readSource
  split
  · exact still_refuse _ _
  · split
    · exact still_refuse _ _
    · exact still_done _ _

theorem queryNode_still (t : Taken) (s : State) : (queryNode t s).still s := by
  unfold queryNode
  split
  · exact still_refuse _ _
  · split
    · exact still_refuse _ _
    · split
      · exact still_refuse _ _
      · exact still_done _ _

theorem queryLink_still (t : Taken) (s : State) : (queryLink t s).still s := by
  unfold queryLink
  split
  · exact still_refuse _ _
  · split
    · exact still_refuse _ _
    · split
      · exact still_refuse _ _
      · exact still_done _ _

theorem listNodes_still (t : Taken) (s : State) : (listNodes t s).still s := by
  unfold listNodes
  split
  · exact still_refuse _ _
  · split
    · exact still_refuse _ _
    · exact still_done _ _

theorem queryWatch_still (t : Taken) (s : State) : (queryWatch t s).still s := by
  unfold queryWatch
  split
  · exact still_refuse _ _
  · split
    · exact still_refuse _ _
    · split
      · exact still_refuse _ _
      · exact still_done _ _

theorem readTable_still (t : Taken) (s : State) : (readTable t s).still s := by
  unfold readTable
  split
  · exact still_refuse _ _
  · split
    · exact still_refuse _ _
    · split
      · unfold readDialectEntry
        split
        · exact still_refuse _ _
        · exact still_done _ _
      · unfold readClassEntry
        split
        · exact still_refuse _ _
        · exact still_done _ _
      · exact still_refuse _ _

/-- A row whose answers leave the part as it is keeps what popping and responding keep. -/
theorem takeCommand_still {P : State → Prop} {code : Byte} {body : Taken → State → Answer} {s : State}
    (hpop : P s → P s.popIntake) (hresp : ∀ u t r, P u → P (u.respond t r))
    (hb : ∀ t u, (body t u).still u) (h : P s) : P (s.takeCommand code body) :=
  takeCommand_keeps hpop hresp
    (fun t u r hu => by rw [(hb t u).1, (hb t u).2]; exact hresp _ _ _ hu) h

/-- A row whose answer is given on a changed part, and does nothing more. -/
theorem takeCommand_done {P : State → Prop} {code : Byte} {body : Taken → State → Answer} {s : State}
    (hpop : P s → P s.popIntake) (hresp : ∀ u t r, P u → P (u.respond t r))
    (hb : ∀ t u, P u → P (body t u).state ∧ (body t u).later = id) (h : P s) :
    P (s.takeCommand code body) :=
  takeCommand_keeps hpop hresp
    (fun t u r hu => by rw [(hb t u hu).2]; exact hresp _ _ _ (hb t u hu).1) h

theorem takeUnknown_keeps {P : State → Prop} {s : State} (hpop : P s → P s.popIntake)
    (hresp : ∀ u t r, P u → P (u.respond t r)) (h : P s) : P s.takeUnknown := by
  unfold State.takeUnknown
  split
  · exact h
  · split
    · exact hresp _ _ _ (hpop h)
    · split
      · exact hresp _ _ _ (hpop h)
      · exact h

/-- What SUBMIT's answer is: a refusal, or an acceptance after the response, outside STANDBY and with a
place in the queue. -/
theorem submit_cases (t : Taken) (s : State) :
    (submit t s).still s ∨ ∃ r c, submit t s =
        { reply := r, state := s, later := fun u => u.accept (submitDescriptor t c) } ∧
      s.standby = false ∧ s.rq.queue.length < Config.requestQueue := by
  unfold submit
  split
  · exact .inl (still_refuse _ _)
  · split
    · exact .inl (still_refuse _ _)
    · split
      · exact .inl (still_refuse _ _)
      · rename_i hst _ _ c _
        dsimp only
        split
        · exact .inl (still_refuse _ _)
        · split
          · exact .inl (still_refuse _ _)
          · split
            · exact .inl (still_refuse _ _)
            · exact .inr ⟨_, c, rfl, by simpa using hst, by omega⟩

/-- What CANCEL's answer is: nothing more, or the end of one request after the response. -/
theorem cancel_cases (t : Taken) (s : State) :
    (cancel t s).still s ∨
      (∃ r tag, cancel t s = { reply := Reply.bare .ok, state := s, later := fun u => u.cancelQueued r tag }) ∨
      ∃ e, cancel t s = { reply := Reply.bare .ok, state := s, later := fun u => u.cancelSearch e } := by
  unfold cancel
  split
  · exact .inl (still_refuse _ _)
  · split
    · exact .inl (still_refuse _ _)
    · unfold cancelNamed
      split
      · exact .inr (.inl ⟨_, _, rfl⟩)
      · exact .inr (.inr ⟨_, rfl⟩)
      · exact .inl (still_refuse _ _)
      · exact .inl (still_refuse _ _)

/-- What SET STATE's answer is. -/
theorem setState_cases (t : Taken) (s : State) :
    (setState t s).still s ∨
      (s.standby = true ∧ ∃ r, setState t s = Answer.done r s.leaveStandby) ∨
      (s.standby = false ∧ ∃ r, setState t s = { reply := r, state := s, later := State.enterStandby }) := by
  unfold setState
  split
  · exact .inl (still_refuse _ _)
  · split
    · split
      · exact .inr (.inl ⟨‹_›, _, rfl⟩)
      · exact .inl (still_done _ _)
    · split
      · split
        · exact .inl (still_done _ _)
        · rename_i hs
          exact .inr (.inr ⟨by simpa using hs, _, rfl⟩)
      · exact .inl (still_refuse _ _)

/-- What SET CONFIG's answer is: nothing more, or an item that takes effect in a state that lets it. -/
theorem setConfig_cases (t : Taken) (s : State) :
    (setConfig t s).still s ∨ ∃ i v new clamped r, (standbyOnly i = true → s.standby = true) ∧
      judgeItem s.cfg t.port i v = some (new, clamped) ∧
      setConfig t s = Answer.done r (s.configure i new) := by
  unfold setConfig
  split
  · exact .inl (still_refuse _ _)
  · split
    · exact .inl (still_refuse _ _)
    · rename_i i _
      unfold setItem
      split
      · exact .inl (still_refuse _ _)
      · rename_i hs
        split
        · exact .inl (still_refuse _ _)
        · rename_i new clamped hj
          exact .inr ⟨i, _, new, clamped, _, fun hi => by simpa [hi] using hs, hj, rfl⟩

/-- What ACK EVENTS's answer is: a refusal, or the classes acknowledged. -/
theorem ackEvents_cases (t : Taken) (s : State) :
    (ackEvents t s).still s ∨
      ∃ r cs, ackEvents t s = Answer.done r { s with evu := s.evu.acknowledgeAll cs } := by
  unfold ackEvents
  split
  · exact .inl (still_refuse _ _)
  · exact .inr ⟨_, _, rfl⟩

/-! ## The rows of time -/

/-- A property that the four blocks' actions on a tick keep, is kept by every row of time. -/
theorem time_keeps {P : State → Prop} (hoff : ∀ u o, P u → P (u.setOffered o))
    (hbase : ∀ u n, P u → P { u with stc := { u.stc with timebase := n } })
    (hstore : ∀ u, P u → P (u.storeEvent (tickStore u.cfg u.tst))) (hwatch : ∀ u, P u → P u.tickWatch)
    (hepoch : ∀ u, P u → P u.tickEpoch) (hsettle : ∀ u, P u → P u.tickSettle) {s : State} (h : P s) :
    P s.timebaseInterval ∧ P s.ageTick ∧ P s.nodeAgeExpiry ∧ P s.holdDownExpiry ∧ P s.reservationExpiry ∧
      P s.epochTimerExpiry ∧ P s.settleTimerExpiry := by
  have h1 : ∀ u, P u → P u.actStore := by
    intro u hu; unfold State.actStore; split
    · exact hstore _ (hoff u _ hu)
    · exact hu
  have h2 : ∀ u, P u → P u.actWatch := by
    intro u hu; unfold State.actWatch; split
    · exact hwatch _ (hoff u _ hu)
    · exact hu
  have h3 : ∀ u, P u → P u.actEpoch := by
    intro u hu; unfold State.actEpoch; split
    · exact hepoch _ (hoff u _ hu)
    · exact hu
  have h4 : ∀ u, P u → P u.actSettle := by
    intro u hu; unfold State.actSettle; split
    · exact hsettle _ (hoff u _ hu)
    · exact hu
  have hf : ∀ u, P u → P u.finishTick := fun u hu => h4 _ (h3 _ (h2 _ (h1 _ hu)))
  have ht : ∀ u, P u → P u.takeTick := fun u hu => hoff _ _ (hbase u 0 hu)
  refine ⟨?_, ?_, ?_, ?_, ?_, ?_, ?_⟩
  · unfold State.timebaseInterval; dsimp only; split
    · exact ht _ (hf _ h)
    · exact hbase _ _ (hf _ h)
  · unfold State.ageTick; split
    · exact hf _ h
    · split
      · exact hf _ (ht _ h)
      · exact h
  · unfold State.nodeAgeExpiry; split
    · exact h1 _ h
    · exact h
  · unfold State.holdDownExpiry; split
    · exact h1 _ h
    · exact h
  · unfold State.reservationExpiry; split
    · exact h2 _ h
    · exact h
  · unfold State.epochTimerExpiry; split
    · exact h3 _ h
    · exact h
  · unfold State.settleTimerExpiry; split
    · exact h4 _ h
    · exact h

end Sys2Proof.Machine
end

