-- ==== Sys2Proof/Laws/Ports.lean ====
section
/-! SUPPORT. What the ports' and the configuration's operations can do, and what they keep (chapters 9, 10). -/

namespace Sys2Proof.Machine

/-- What keeps a property through a response. -/
theorem respond_keeps {P : State → Prop}
    (h1 : ∀ u p f, (u.port p).localQueue.length < 16 → P u → P (u.enterLocal p f))
    (h2 : ∀ (u : State) x, P u → P { u with spu := { u.spu with hold := x } })
    (h3 : ∀ u p, P u → P (u.countLocalDiscard p)) (u : State) (t : Taken) (r : Reply) (h : P u) :
    P (u.respond t r) := by
  unfold State.respond
  rcases offerResponse_cases u t.port (responseFrame u t r) with ⟨h', e⟩ | e | e <;> rw [e]
  · exact h1 _ _ _ h' h
  · exact h2 _ _ h
  · exact h3 _ _ h

/-- A property blind to the port unit is kept by a frame's arrival, if marks and copies keep it. -/
theorem frameArrival_keeps {P : State → Prop} (hspu : ∀ (u : State) x, P u → P { u with spu := x })
    (hm : ∀ u p, P u → P (u.takeMark p)) (ho : ∀ u c, P u → P (u.offerCopy c)) (u : State) (p : Port)
    (t : Option Byte) (b : List Byte) (h : P u) : P (u.frameArrival p t b) := by
  have hpass : ∀ u p t f, P u → P (u.passFrame p t f) := by
    intro u p t f hu; obtain ⟨ps, e⟩ := passFrame_footprint u p t f; rw [e]; exact hspu _ _ hu
  have hc : ∀ u p f, P u → P (u.countPort p f) := fun u p f hu => hspu _ _ hu
  obtain ⟨f, e | ⟨fr, e | ⟨g, e⟩ | e | e | e⟩⟩ := frameArrival_cases u p t b <;> rw [e]
  · exact hc _ _ _ h
  · unfold State.consume; split
    · exact hc _ _ _ (hspu _ _ (hc _ _ _ h))
    · exact hc _ _ _ (hc _ _ _ h)
  · exact hpass _ _ _ _ (hc _ _ _ (hc _ _ _ h))
  · exact hpass _ _ _ _ (hc _ _ _ h)
  · exact hpass _ _ _ _ (hm _ _ (hc _ _ _ h))
  · exact hpass _ _ _ _ (ho _ _ (hc _ _ _ h))

/-- Disabling a port changes the port unit, the engines and RQ's counters, and no more. -/
theorem disablePort_footprint (s : State) (p : Port) :
    (s.disablePort p).cfg = s.cfg ∧ (s.disablePort p).prb = s.prb ∧ (s.disablePort p).evu = s.evu ∧
      (s.disablePort p).pwl = s.pwl ∧ (s.disablePort p).tst = s.tst ∧ (s.disablePort p).stc = s.stc ∧
      (s.disablePort p).atr = s.atr ∧ (s.disablePort p).epc = s.epc := by
  have h1 : ∀ (s : State) e, (s.discardRecord e p).cfg = s.cfg ∧ (s.discardRecord e p).prb = s.prb ∧
      (s.discardRecord e p).evu = s.evu ∧ (s.discardRecord e p).pwl = s.pwl ∧
      (s.discardRecord e p).tst = s.tst ∧ (s.discardRecord e p).stc = s.stc ∧
      (s.discardRecord e p).atr = s.atr ∧ (s.discardRecord e p).epc = s.epc := by
    intro s e; unfold State.discardRecord; split <;> simp
  have h2 : ∀ (s : State), (s.discardHeld p).cfg = s.cfg ∧ (s.discardHeld p).prb = s.prb ∧
      (s.discardHeld p).evu = s.evu ∧ (s.discardHeld p).pwl = s.pwl ∧
      (s.discardHeld p).tst = s.tst ∧ (s.discardHeld p).stc = s.stc ∧
      (s.discardHeld p).atr = s.atr ∧ (s.discardHeld p).epc = s.epc := by
    intro s; unfold State.discardHeld; split <;> simp
  unfold State.disablePort
  simp [h1, h2]

/-- What sending a notice can do: nothing, or the head enters a free place (R180). -/
theorem noticeSend_cases (s : State) :
    s.noticeSend = s ∨ ∃ n rest f, s.evu.notices = n :: rest ∧ s.wayFree s.cfg.noticePort = true ∧
      s.noticeSend =
        ({ s with evu := { s.evu with notices := rest } }).enterLocal s.cfg.noticePort f := by
  unfold State.noticeSend
  split
  · exact .inl rfl
  · split
    · rename_i hn h
      refine .inr ⟨_, _, _, hn, ?_, rfl⟩
      simp at h; exact h.2
    · exact .inl rfl

theorem configure_cases (u : State) (i : ConfigItem) (new : Settings) :
    u.configure i new = u ∨ u.configure i new = ({ u with cfg := new }).itemEffect u.cfg i := by
  unfold State.configure; split
  · exact .inl rfl
  · exact .inr rfl

/-- What keeps a property through a configuration that takes effect. -/
theorem configure_keeps {P : State → Prop} (u : State) (i : ConfigItem) (new : Settings) (h : P u)
    (hcfg : P { u with cfg := new }) (hdis : ∀ u p, P u → P (u.disablePort p))
    (hep : ∀ (u : State) n, P u → P { u with epc := { u.epc with timer := n } })
    (hre : ∀ u, P u → P u.rethreshold) (hserv : ∀ u v, P u → Serves u v → P v)
    (hna : ∀ (u : State) a b, P u → P { u with evu := noticesAfterAddress u.evu a b })
    (hne : ∀ (u : State) a b, P u → P { u with evu := noticesAfterEnable u.evu a b }) :
    P (u.configure i new) := by
  rcases configure_cases u i new with e | e <;> rw [e]
  · exact h
  · cases i <;> try exact hcfg
    · show P ((portsRemoved _ _).foldl _ _)
      generalize portsRemoved _ _ = l
      clear e
      generalize ({ u with cfg := new } : State) = v at hcfg ⊢
      induction l generalizing v with
      | nil => exact hcfg
      | cons p l ih => exact ih _ (hdis _ _ hcfg)
    · exact hep _ _ hcfg
    · exact hep _ _ hcfg
    · exact hre _ hcfg
    · exact hre _ hcfg
    · exact hre _ hcfg
    · exact hserv _ _ hcfg (reportChanges_serves _ _)
    · exact hna _ _ _ hcfg
    · exact hne _ _ _ hcfg

/-- SET CONFIG keeps what every item it lets take effect keeps. -/
theorem setConfig_keeps {P : State → Prop}
    (hconf : ∀ u p i v new cl, P u → (standbyOnly i = true → u.standby = true) →
      judgeItem u.cfg p i v = some (new, cl) → P (u.configure i new)) (t : Taken) (u : State) (h : P u) :
    P (setConfig t u).state ∧ (setConfig t u).later = id := by
  rcases setConfig_cases t u with ⟨h1, h2⟩ | ⟨i, v, new, cl, r, hs, hj, e⟩
  · exact ⟨by rw [h1]; exact h, h2⟩
  · rw [e]; exact ⟨hconf u _ i v new cl h hs hj, rfl⟩

end Sys2Proof.Machine
end

