-- ==== Sys2Proof/Laws/Exec.lean ====
section
/-! SUPPORT. How a property is carried through every row of the table: each update that some row makes, once. -/

namespace Sys2Proof.Machine

/-- A property that a cold reset establishes and that every update of the part keeps, is kept by every step. -/
theorem exec_keeps {P : State → Prop} {s : State} (h : P s)
   (hcold : ∀ st, P { State.cold st with pending := s.pending })
   (hpop : ∀ u, P u → P u.popIntake) (hresp : ∀ u t r, P u → P (u.respond t r))
   (harr : ∀ u p t b, P u → P (u.frameArrival p t b))
   (hserv : ∀ u v, P u → Serves u v → P v)
   (hoff : ∀ u o, P u → P (u.setOffered o))
   (hbase : ∀ u n, P u → P { u with stc := { u.stc with timebase := n } })
   (hstore : ∀ u, P u → P { u with
     tst := { nodes := (tickStore u.cfg u.tst).nodes, counters := (tickStore u.cfg u.tst).counters } })
   (happly : ∀ u r, P u → u.atr.handed = some r → P { u with
     atr := { u.atr with handed := none }
     tst := { nodes := (applyRecord u.cfg u.tst r).nodes, counters := (applyRecord u.cfg u.tst r).counters } })
   (hepoch : ∀ u, P u → P u.tickEpoch) (hsettle : ∀ u, P u → P u.tickSettle)
   (htrans : ∀ u, P u → P u.translationEvent)
   (heg : ∀ u p, P u → P (u.egressTake p)) (hte : ∀ u p, P u → P (u.transmissionEnd p))
   (hheld : ∀ u, P u → P u.heldEnters) (hnot : ∀ u, P u → P u.noticeSend)
   (hcfg : ∀ t u, P u → P (setConfig t u).state ∧ (setConfig t u).later = id)
   (hleave : ∀ u, P u → P u.leaveStandby) (hinto : ∀ u, P u → P u.intoStandby)
   (hwarm : ∀ u, P u → P u.clearWarm)
   (hctr : ∀ u g, P u → P (u.clearGroup g))
   (hsrc : ∀ u x, P u → P { u with spu := { u.spu with sources := x } })
   (hnodes : ∀ u (f : NodeEntry → Link → Bool), P u → P (u.setNodes
     (u.tst.nodes.map (fun n =>
       { n with links := n.links.map (fun l => { l with cond := { l.cond with crossed := f n l } }) }))))
   (hdial : ∀ u d i e, P u → (e.valid = true → u.prb.staged.codeTaken d i e.code = false) →
     P (u.setStaged (u.prb.staged.putDialectEntry d i e)))
   (hclr : ∀ u d, P u → P (u.setStaged (u.prb.staged.clearDialect d)))
   (hcls : ∀ u n e, P u → P (u.setStaged (u.prb.staged.putClass n e)))
   (hcom : ∀ u, P u → P { u with prb := { u.prb with commitPending := true } })
   (hdis : ∀ u, P u → P { u with prb := { u.prb with staged := u.prb.active, commitPending := false } })
   (hack : ∀ u cs, P u → P { u with evu := u.evu.acknowledgeAll cs })
   (c : Instr) : ∃ t, exec c s = .next t ∧ P t := by
  have happly : ∀ u, P u → P u.applyHanded := by
    intro u hu
    unfold State.applyHanded; split
    · exact hu
    · exact hserv _ _ (happly u _ hu ‹_›) (storeEvent_serves { u with atr := { u.atr with handed := none } } _)
  have htime := fun {s} (h : P s) =>
    time_keeps hoff hbase (fun u hu => hserv _ _ (hstore u hu) (storeEvent_serves u _))
      (fun u hu => hserv _ _ hu (tickWatch_serves u)) hepoch hsettle h
  suffices hP : match exec c s with
      | .next t => P t
      | _ => False by
    revert hP
    cases exec c s with
    | next t => exact fun h => ⟨t, rfl, h⟩
    | fault f => exact False.elim
    | refused r => exact False.elim
  cases c with
  | coldReset st => exact hcold st
  | frameArrival p t b => exact harr s p t b h
  | readStatus => exact takeCommand_still (hpop s) hresp readStatus_still h
  | readConfig => exact takeCommand_still (hpop s) hresp readConfig_still h
  | setConfig => exact takeCommand_done (hpop s) hresp hcfg h
  | setState =>
    refine takeCommand_keeps (hpop s) hresp (fun t u r hu => ?_) h
    rcases setState_cases t u with ⟨h1, h2⟩ | ⟨_, r', h1⟩ | ⟨_, r', h1⟩
    · rw [h1, h2]; exact hresp _ _ _ hu
    · rw [h1]; exact hresp _ _ _ (hleave _ hu)
    · rw [h1]
      exact hserv _ _ (hinto _ (hresp _ _ _ hu)) (foldl_serves _ abortQueued_serves _ _)
  | restartWarm =>
    refine takeCommand_keeps (hpop s) hresp (fun t u r hu => ?_) h
    exact hwarm _ (happly _ (hresp _ _ _ hu))
  | readCounters =>
    refine takeCommand_done (hpop s) hresp (fun t u hu => ?_) h
    unfold readCounters
    split
    · exact ⟨hu, rfl⟩
    · split
      · exact ⟨hu, rfl⟩
      · refine ⟨?_, rfl⟩
        simp only [Answer.done]
        split
        · exact hctr _ _ hu
        · exact hu
  | writeSourceEntry =>
    refine takeCommand_done (hpop s) hresp (fun t u hu => ?_) h
    unfold writeSource
    split
    · exact ⟨hu, rfl⟩
    · split
      · exact ⟨hu, rfl⟩
      · split
        · exact ⟨hu, rfl⟩
        · exact ⟨hsrc _ _ hu, rfl⟩
  | readSourceEntry => exact takeCommand_still (hpop s) hresp readSource_still h
  | queryNode => exact takeCommand_still (hpop s) hresp queryNode_still h
  | queryLink => exact takeCommand_still (hpop s) hresp queryLink_still h
  | listNodes => exact takeCommand_still (hpop s) hresp listNodes_still h
  | clearCrossings =>
    refine takeCommand_done (hpop s) hresp (fun t u hu => ?_) h
    unfold clearCrossings
    split
    · exact ⟨hu, rfl⟩
    · split
      · unfold clearOne
        split
        · exact ⟨hu, rfl⟩
        · refine ⟨?_, rfl⟩
          have := hnodes u (fun n l => if n.id = (paramLinkRef t.params 1).origin ∧
            l.lid = (paramLinkRef t.params 1).lid then false else l.cond.crossed) hu
          convert this using 2
          simp only [Answer.done, NodeEntry.uncross, Link.uncross]
          congr 1
          refine List.map_congr_left fun n _ => ?_
          by_cases hn : n.id = (paramLinkRef t.params 1).origin
          · simp only [hn, if_true, true_and]
            congr 1
            refine List.map_congr_left fun l _ => ?_
            split <;> rfl
          · simp [hn]
      · refine ⟨hnodes u (fun _ _ => false) hu, rfl⟩
  | submit =>
    refine takeCommand_keeps (hpop s) hresp (fun t u r hu => ?_) h
    rcases submit_cases t u with ⟨h1, h2⟩ | ⟨r', c, h1, h2, h3⟩
    · rw [h1, h2]; exact hresp _ _ _ hu
    · rw [h1]
      exact hserv _ _ (hresp _ _ _ hu) (accept_serves _ _ (by simpa using h3))
  | cancel =>
    refine takeCommand_keeps (hpop s) hresp (fun t u r hu => ?_) h
    rcases cancel_cases t u with ⟨h1, h2⟩ | ⟨r', c, h1⟩ | ⟨e, h1⟩
    · rw [h1, h2]; exact hresp _ _ _ hu
    · rw [h1]
      exact hserv _ _ (hresp _ _ _ hu) (cancelQueued_serves _ _ _)
    · rw [h1]
      refine hserv _ _ (hresp u t r hu) ?_
      show Serves _ (State.cancelSearch _ _)
      unfold State.cancelSearch
      split
      · exact .engine _ _ _
      · exact .refl _
  | releaseWatch =>
    refine takeCommand_done (hpop s) hresp (fun t u hu => ?_) h
    unfold releaseWatch
    split
    · exact ⟨hu, rfl⟩
    · split
      · exact ⟨hu, rfl⟩
      · split
        · exact ⟨hu, rfl⟩
        · split
          · exact ⟨hu, rfl⟩
          · exact ⟨hserv _ _ hu (releaseWatch_serves _ _), rfl⟩
  | queryWatch => exact takeCommand_still (hpop s) hresp queryWatch_still h
  | writeDialectEntry =>
    refine takeCommand_done (hpop s) hresp (fun t u hu => ?_) h
    unfold writeDialect
    split
    · exact ⟨hu, rfl⟩
    · split
      · exact ⟨hu, rfl⟩
      · split
        · exact ⟨hu, rfl⟩
        · dsimp only
          split
          · exact ⟨hu, rfl⟩
          · rename_i hd
            exact ⟨hdial _ _ _ _ hu (fun hv => by simpa [hv] using hd), rfl⟩
  | clearDialect =>
    refine takeCommand_done (hpop s) hresp (fun t u hu => ?_) h
    unfold clearDialect
    split
    · exact ⟨hu, rfl⟩
    · split
      · exact ⟨hclr _ _ hu, rfl⟩
      · exact ⟨hu, rfl⟩
  | writeClass =>
    refine takeCommand_done (hpop s) hresp (fun t u hu => ?_) h
    unfold writeClass
    split
    · exact ⟨hu, rfl⟩
    · split
      · exact ⟨hu, rfl⟩
      · exact ⟨hcls _ _ _ hu, rfl⟩
  | readTable => exact takeCommand_still (hpop s) hresp readTable_still h
  | commit => exact takeCommand_done (hpop s) hresp (fun t u hu => ⟨hcom u hu, rfl⟩) h
  | discardStaged => exact takeCommand_done (hpop s) hresp (fun t u hu => ⟨hdis u hu, rfl⟩) h
  | ackEvents =>
    refine takeCommand_done (hpop s) hresp (fun t u hu => ?_) h
    rcases ackEvents_cases t u with ⟨h1, h2⟩ | ⟨r, cs, e⟩
    · exact ⟨by rw [h1]; exact hu, h2⟩
    · rw [e]; exact ⟨hack _ _ hu, rfl⟩
  | timebaseInterval => exact (htime h).1
  | ageTick => exact (htime h).2.1
  | nodeAgeExpiry => exact (htime h).2.2.1
  | holdDownExpiry => exact (htime h).2.2.2.1
  | reservationExpiry => exact (htime h).2.2.2.2.1
  | epochTimerExpiry => exact (htime h).2.2.2.2.2.1
  | settleTimerExpiry => exact (htime h).2.2.2.2.2.2
  | translationEvent => exact htrans s h
  | recordApplication => exact happly s h
  | expansion e => exact hserv _ _ h (expand_serves s e)
  | engineEndOrder e => exact hserv _ _ h (takeOrder_serves s e)
  | egressTake p => exact heg s p h
  | transmissionEnd p => exact hte s p h
  | heldResponseEnters => exact hheld s h
  | completingResultEnters e => exact hserv _ _ h (completingEnters_serves s e)
  | noticeSend => exact hnot s h
  | unknownOrMalformedCommand => exact takeUnknown_keeps (hpop s) hresp h

end Sys2Proof.Machine
end

