-- ==== Sys2Proof/Laws/Store.lean ====
section
/-! SUPPORT. What the store's operations do to the node table and the link lists (chapter 1). -/

namespace Sys2Proof.Machine

/-! ## Link lists (R4, R12) -/

/-- A link list in its form: at most 32 links in ascending local link id. -/
def LinksSound (l : List Link) : Prop :=
  l.length ≤ 32 ∧ l.Pairwise (fun a b => a.lid.toNat < b.lid.toNat)

theorem mem_insertLink {l x : Link} {ls : List Link} : x ∈ insertLink l ls ↔ x = l ∨ x ∈ ls := by
  induction ls with
  | nil => simp [insertLink]
  | cons y ys ih => unfold insertLink; split <;> simp [ih, or_left_comm]

theorem insertLink_length (l : Link) (ls : List Link) : (insertLink l ls).length = ls.length + 1 := by
  induction ls with
  | nil => rfl
  | cons y ys ih => unfold insertLink; split <;> simp [ih]

theorem insertLink_sorted {l : Link} {ls : List Link} (hn : ∀ x ∈ ls, x.lid ≠ l.lid)
    (h : ls.Pairwise (fun a b => a.lid.toNat < b.lid.toNat)) :
    (insertLink l ls).Pairwise (fun a b => a.lid.toNat < b.lid.toNat) := by
  induction ls with
  | nil => simp [insertLink]
  | cons y ys ih =>
    obtain ⟨hy, hys⟩ := List.pairwise_cons.1 h
    unfold insertLink
    split
    · rename_i hlt
      refine List.pairwise_cons.2 ⟨fun x hx => ?_, h⟩
      rcases List.mem_cons.1 hx with rfl | hx
      · exact hlt
      · exact lt_trans hlt (hy x hx)
    · rename_i hge
      have hne : l.lid.toNat ≠ y.lid.toNat :=
        fun e => hn y (List.mem_cons_self ..) (BitVec.eq_of_toNat_eq e.symm)
      refine List.pairwise_cons.2 ⟨fun x hx => ?_, ih (fun x hx => hn x (List.mem_cons_of_mem _ hx)) hys⟩
      rcases mem_insertLink.1 hx with rfl | hx
      · omega
      · exact hy x hx

theorem replaceLink_sorted {l : Link} {ls : List Link}
    (h : ls.Pairwise (fun a b => a.lid.toNat < b.lid.toNat)) :
    (replaceLink l ls).Pairwise (fun a b => a.lid.toNat < b.lid.toNat) := by
  have hl : ∀ x : Link, (if x.lid = l.lid then l else x).lid = x.lid := by
    intro x; split
    · exact Eq.symm ‹_›
    · rfl
  refine List.pairwise_map.2 (h.imp ?_)
  intro a b hab
  rw [hl, hl]; exact hab

theorem findLid_none {ls : List Link} {lid : Word16} (h : findLid ls lid = none) : ∀ x ∈ ls, x.lid ≠ lid := by
  intro x hx; simpa using List.find?_eq_none.1 h x hx

theorem findLid_some {ls : List Link} {lid : Word16} {l : Link} (h : findLid ls lid = some l) :
    l ∈ ls ∧ l.lid = lid := ⟨List.mem_of_find?_eq_some h, by simpa using List.find?_some h⟩

theorem applyItem_links {cfg : Settings} {origin : NodeId} {others : Nat} {w : LinkWork} {i : LinkItem}
    (h : LinksSound w.links) : LinksSound (applyItem cfg origin others w i).links := by
  unfold applyItem
  dsimp only
  split
  · exact ⟨by simpa [replaceLink] using h.1, replaceLink_sorted h.2⟩
  · rename_i hf
    split
    · rename_i hl
      refine ⟨?_, insertLink_sorted (findLid_none hf) h.2⟩
      have := hl.1
      simp only [Config.linksPerNode_eq] at this
      rw [insertLink_length]; omega
    · exact h

/-- Link set replacement keeps a link list's form. -/
theorem replaceLinks_links {cfg : Settings} {origin : NodeId} {others : Nat} {stored : List Link}
    {items : List LinkItem} {c : StoreCounters} (h : LinksSound stored) :
    LinksSound (replaceLinks cfg origin others stored items c).links := by
  unfold replaceLinks
  generalize items.filter (validItem origin) = l
  have h0 : LinksSound (freeUnnamed origin stored items c).links := by
    refine ⟨le_trans (List.length_filter_le _ _) h.1, h.2.sublist List.filter_sublist⟩
  revert h0
  generalize freeUnnamed origin stored items c = w
  intro h0
  induction l generalizing w with
  | nil => exact h0
  | cons i l ih => exact ih _ (applyItem_links h0)

/-! ## The node table (R1, R2) -/

theorem findNode_some {nodes : List NodeEntry} {id : NodeId} {n : NodeEntry} (h : findNode nodes id = some n) :
    n ∈ nodes ∧ n.id = id := ⟨List.mem_of_find?_eq_some h, by simpa using List.find?_some h⟩

theorem findNode_none {nodes : List NodeEntry} {id : NodeId} (h : findNode nodes id = none) :
    ∀ n ∈ nodes, n.id ≠ id := by
  intro n hn; simpa using List.find?_eq_none.1 h n hn

/-- The entry of an id is the one that lists it, in a table with no id twice. -/
theorem findNode_of_mem {nodes : List NodeEntry} (h : (nodes.map (·.id)).Nodup) {n : NodeEntry}
    (hn : n ∈ nodes) : findNode nodes n.id = some n := by
  induction nodes with
  | nil => simp at hn
  | cons x xs ih =>
    rw [List.map_cons, List.nodup_cons] at h
    rcases List.mem_cons.1 hn with rfl | hn
    · simp [findNode]
    · have : x.id ≠ n.id := fun e => h.1 (List.mem_map.2 ⟨n, hn, e.symm⟩)
      have := ih h.2 hn
      simp_all [findNode]

theorem lowestFree_some {nodes : List NodeEntry} {k : Nat} (h : lowestFree nodes = some k) :
    k < 256 ∧ ∀ n ∈ nodes, n.index ≠ k := by
  have h1 := List.mem_of_find?_eq_some h
  have h2 := List.find?_some h
  simp only [Config.nodeEntries_eq, List.mem_range] at h1
  exact ⟨h1, by simpa using h2⟩

theorem mem_insertNode {n x : NodeEntry} {l : List NodeEntry} : x ∈ insertNode n l ↔ x = n ∨ x ∈ l := by
  induction l with
  | nil => simp [insertNode]
  | cons y ys ih => unfold insertNode; split <;> simp [ih, or_left_comm]

theorem insertNode_perm (n : NodeEntry) (l : List NodeEntry) : (insertNode n l).Perm (n :: l) := by
  induction l with
  | nil => exact List.Perm.refl _
  | cons y ys ih =>
    unfold insertNode
    split
    · exact List.Perm.refl _
    · exact (ih.cons y).trans (List.Perm.swap n y ys)

theorem insertNode_sorted {n : NodeEntry} {l : List NodeEntry} (hn : ∀ x ∈ l, x.index ≠ n.index)
    (h : l.Pairwise (fun a b => a.index < b.index)) :
    (insertNode n l).Pairwise (fun a b => a.index < b.index) := by
  induction l with
  | nil => simp [insertNode]
  | cons y ys ih =>
    obtain ⟨hy, hys⟩ := List.pairwise_cons.1 h
    unfold insertNode
    split
    · rename_i hlt
      refine List.pairwise_cons.2 ⟨fun x hx => ?_, h⟩
      rcases List.mem_cons.1 hx with rfl | hx
      · exact hlt
      · exact lt_trans hlt (hy x hx)
    · have hne := hn y (List.mem_cons_self ..)
      refine List.pairwise_cons.2 ⟨fun x hx => ?_, ih (fun x hx => hn x (List.mem_cons_of_mem _ hx)) hys⟩
      rcases mem_insertNode.1 hx with rfl | hx
      · omega
      · exact hy x hx

/-- What the table asks of one entry. -/
def EntrySound (n : NodeEntry) : Prop := n.index < 256 ∧ LifeSound n.life ∧ LinksSound n.links

theorem tableSound_iff {nodes : List NodeEntry} : TableSound nodes ↔
    nodes.Pairwise (fun a b => a.index < b.index) ∧ (nodes.map (·.id)).Nodup ∧ ∀ n ∈ nodes, EntrySound n :=
  Iff.rfl

/-- A new entry at a free index for an id no entry holds keeps the table's form. -/
theorem insertNode_sound {nodes : List NodeEntry} {n : NodeEntry} (h : TableSound nodes) (he : EntrySound n)
    (hi : ∀ x ∈ nodes, x.index ≠ n.index) (hd : ∀ x ∈ nodes, x.id ≠ n.id) :
    TableSound (insertNode n nodes) := by
  refine ⟨insertNode_sorted hi h.1, ?_, fun x hx => ?_⟩
  · refine (((insertNode_perm n nodes).map (·.id)).nodup_iff).2 ?_
    rw [List.map_cons, List.nodup_cons]
    exact ⟨fun hm => by obtain ⟨x, hx, e⟩ := List.mem_map.1 hm; exact hd x hx e, h.2.1⟩
  · rcases mem_insertNode.1 hx with rfl | hx
    · exact he
    · exact h.2.2 x hx

/-- An entry rewritten with its index and id kept keeps the table's form. -/
theorem mapNodes_sound {nodes : List NodeEntry} (f : NodeEntry → NodeEntry) (h : TableSound nodes)
    (hi : ∀ n ∈ nodes, (f n).index = n.index) (hd : ∀ n ∈ nodes, (f n).id = n.id)
    (he : ∀ n ∈ nodes, EntrySound (f n)) : TableSound (nodes.map f) := by
  refine ⟨?_, ?_, ?_⟩
  · refine List.pairwise_map.2 (h.1.imp_of_mem ?_)
    intro a b ha hb hab
    rw [hi a ha, hi b hb]; exact hab
  · have e : (nodes.map f).map (·.id) = nodes.map (·.id) := by
      rw [List.map_map]; exact List.map_congr_left fun n hn => hd n hn
    rw [e]; exact h.2.1
  · intro x hx
    obtain ⟨n, hn, rfl⟩ := List.mem_map.1 hx
    exact he n hn

/-- The entry of an id replaced by one with its index and id keeps the table's form. -/
theorem replaceNode_sound {nodes : List NodeEntry} {old n : NodeEntry} (h : TableSound nodes)
    (ho : findNode nodes n.id = some old) (hx : n.index = old.index) (he : EntrySound n) :
    TableSound (replaceNode n nodes) := by
  have key : ∀ x ∈ nodes, x.id = n.id → x = old := by
    intro x hx' hid
    have := findNode_of_mem h.2.1 hx'
    rw [hid, ho] at this
    exact (Option.some.inj this).symm
  refine mapNodes_sound _ h (fun x hx' => ?_) (fun x hx' => ?_) (fun x hx' => ?_)
  · split
    · rw [hx, key x hx' ‹_›]
    · rfl
  · split
    · exact Eq.symm ‹_›
    · rfl
  · split
    · exact he
    · exact h.2.2 x hx'

/-- Looking an id up after an entry was replaced. -/
theorem findNode_replaceNode {nodes : List NodeEntry} {n old : NodeEntry} (h : findNode nodes n.id = some old) :
    findNode (replaceNode n nodes) n.id = some n ∧
      ∀ id, id ≠ n.id → findNode (replaceNode n nodes) id = findNode nodes id := by
  constructor
  · induction nodes with
    | nil => simp [findNode] at h
    | cons x xs ih =>
      by_cases hx : x.id = n.id
      · simp [findNode, replaceNode, hx]
      · simp_all [findNode, replaceNode]
  · intro id hid
    clear h
    induction nodes with
    | nil => rfl
    | cons x xs ih =>
      by_cases hx : x.id = n.id
      · simp_all [findNode, replaceNode, Ne.symm hid]
      · by_cases hx' : x.id = id <;> simp_all [findNode, replaceNode]

/-- Looking an id up after an entry was added. -/
theorem findNode_insertNode {nodes : List NodeEntry} {n : NodeEntry} (h : findNode nodes n.id = none) :
    findNode (insertNode n nodes) n.id = some n ∧
      ∀ id, id ≠ n.id → findNode (insertNode n nodes) id = findNode nodes id := by
  constructor
  · induction nodes with
    | nil => simp [findNode, insertNode]
    | cons x xs ih =>
      unfold insertNode
      split
      · simp [findNode]
      · by_cases hx : x.id = n.id <;> simp_all [findNode]
  · intro id hid
    clear h
    induction nodes with
    | nil => simp [findNode, insertNode, Ne.symm hid]
    | cons x xs ih =>
      unfold insertNode
      split
      · simp [findNode, Ne.symm hid]
      · by_cases hx : x.id = id <;> simp_all [findNode]

/-! ## Records and ticks keep the table's form -/

theorem applyFull_sound {cfg : Settings} {t : Store} {r : FullRecord} (hc : ConfigSound cfg)
    (h : TableSound t.nodes) (hr : r.lifetime ≤ 255) : TableSound (applyFull cfg t r).nodes := by
  obtain ⟨-, -, -, -, -, -, -, hh1, hh2, -⟩ := hc
  unfold applyFull
  split
  · exact h
  · split
    · rename_i hf
      split
      · exact h
      · unfold addNode
        split
        · exact h
        · rename_i hl k hk
          obtain ⟨hk1, hk2⟩ := lowestFree_some hk
          refine insertNode_sound h ⟨hk1, ⟨by omega, hr⟩, ?_⟩ (fun x hx => hk2 x hx) (findNode_none hf)
          exact replaceLinks_links ⟨by simp, by simp⟩
    · rename_i n hf
      have hs := h.2.2 n (findNode_some hf).1
      have hid := (findNode_some hf).2
      split
      · unfold flushNode
        split
        · refine replaceNode_sound (old := n) h (by rw [← hid] at hf; exact hf) rfl ⟨hs.1, ⟨hh1, hh2⟩, hs.2.2⟩
        · rename_i hw
          refine replaceNode_sound (old := n) h (by rw [← hid] at hf; exact hf) rfl ⟨hs.1, ?_, hs.2.2⟩
          have := hs.2.1
          rwa [hw] at this
      · refine replaceNode_sound (old := n) h (by exact hf) rfl ⟨hs.1, ⟨by omega, hr⟩, ?_⟩
        exact replaceLinks_links hs.2.2

theorem applyRefresh_sound {t : Store} {origin : NodeId} {lifetime : Nat} (h : TableSound t.nodes)
    (hr : lifetime ≤ 255) : TableSound (applyRefresh t origin lifetime).nodes := by
  unfold applyRefresh
  split
  · exact h
  · rename_i n hf
    have hs := h.2.2 n (findNode_some hf).1
    have hid := (findNode_some hf).2
    split
    · exact h
    · rename_i hl
      simp only [Bool.or_eq_true, beq_iff_eq, not_or] at hl
      exact replaceNode_sound (old := n) h (by rw [← hid] at hf; exact hf) rfl
        ⟨hs.1, ⟨by omega, hr⟩, hs.2.2⟩

/-- An update record keeps the table's form. -/
theorem applyRecord_sound {cfg : Settings} {t : Store} {r : UpdateRecord} (hc : ConfigSound cfg)
    (h : TableSound t.nodes) (hr : RecordSound r) : TableSound (applyRecord cfg t r).nodes := by
  cases r with
  | full r => exact applyFull_sound hc h hr.1
  | refresh o s l => exact applyRefresh_sound h hr

/-! ## The link table's bounds (R3, R50) -/

/-- An evaluation leaves the filter count below the depth (R50). -/
theorem evaluate_count {cfg : Settings} {f : CondFields} (h : f.count < cfg.filterDepth) (q : Option Nat) :
    (evaluate cfg f q).1.count < cfg.filterDepth := by
  unfold evaluate
  dsimp only
  split
  · split
    · exact Nat.lt_of_le_of_lt (Nat.zero_le _) h
    · dsimp only; omega
  · exact Nat.lt_of_le_of_lt (Nat.zero_le _) h

/-- A valid item whose values are in range makes a link in range. -/
theorem itemLink_range {cfg : Settings} {origin : NodeId} {i : LinkItem} {f : CondFields}
    (hv : validItem origin i = true) (hi : ItemInRange i) (hf : f.count < cfg.filterDepth) :
    LinkInRange cfg.filterDepth origin (evaluated cfg (itemLink i f)).1 := by
  simp only [validItem, Bool.and_eq_true, bne_iff_ne, Bool.not_eq_true', ne_eq] at hv
  obtain ⟨h1, h2, h3, h4⟩ := hi
  refine ⟨hv.1.1, hv.1.2, hv.2, h1, ?_, ?_, h3, ?_, evaluate_count hf _⟩
  · cases hc : i.cost with
    | none => simp [evaluated, itemLink, hc]
    | some v => simpa [evaluated, itemLink, hc] using (h2 v hc).1
  · cases hc : i.cost with
    | none => simp [evaluated, itemLink, hc]
    | some v => simpa [evaluated, itemLink, hc] using (h2 v hc).2
  · cases hs : i.srlg with
    | none => simp [evaluated, itemLink, hs, SrlgInRange]
    | some ids => simpa [evaluated, itemLink, hs] using h4 ids hs

theorem applyItem_range {cfg : Settings} {origin : NodeId} {others : Nat} {w : LinkWork} {i : LinkItem}
    (hd : 0 < cfg.filterDepth) (hv : validItem origin i = true) (hi : ItemInRange i)
    (h : others + w.links.length ≤ 2048 ∧ ∀ l ∈ w.links, LinkInRange cfg.filterDepth origin l) :
    others + (applyItem cfg origin others w i).links.length ≤ 2048 ∧
      ∀ l ∈ (applyItem cfg origin others w i).links, LinkInRange cfg.filterDepth origin l := by
  unfold applyItem
  dsimp only
  split
  · rename_i old hf
    refine ⟨by simpa [replaceLink] using h.1, fun l hl => ?_⟩
    obtain ⟨x, hx, rfl⟩ := List.mem_map.1 hl
    split
    · exact itemLink_range hv hi (h.2 old (findLid_some hf).1).2.2.2.2.2.2.2.2
    · exact h.2 x hx
  · split
    · rename_i hl
      simp only [Config.linkEntries_eq] at hl
      refine ⟨?_, fun l hm => ?_⟩
      · rw [insertLink_length]; omega
      · rcases mem_insertLink.1 hm with rfl | hm
        · exact itemLink_range hv hi hd
        · exact h.2 l hm
    · exact h

/-- Link set replacement keeps the link table's bounds. -/
theorem replaceLinks_range {cfg : Settings} {origin : NodeId} {others : Nat} {stored : List Link}
    {items : List LinkItem} {c : StoreCounters} (hd : 0 < cfg.filterDepth) (hi : ∀ i ∈ items, ItemInRange i)
    (h : others + stored.length ≤ 2048 ∧ ∀ l ∈ stored, LinkInRange cfg.filterDepth origin l) :
    others + (replaceLinks cfg origin others stored items c).links.length ≤ 2048 ∧
      ∀ l ∈ (replaceLinks cfg origin others stored items c).links, LinkInRange cfg.filterDepth origin l := by
  unfold replaceLinks
  have hv : ∀ i ∈ items.filter (validItem origin), validItem origin i = true ∧ ItemInRange i :=
    fun i hm => ⟨(List.mem_filter.1 hm).2, hi i (List.mem_filter.1 hm).1⟩
  have h0 : others + (freeUnnamed origin stored items c).links.length ≤ 2048 ∧
      ∀ l ∈ (freeUnnamed origin stored items c).links, LinkInRange cfg.filterDepth origin l := by
    refine ⟨le_trans (Nat.add_le_add_left (List.length_filter_le _ _) _) h.1, fun l hl => ?_⟩
    exact h.2 l (List.mem_filter.1 hl).1
  revert hv h0
  generalize items.filter (validItem origin) = l
  generalize freeUnnamed origin stored items c = w
  intro hv h0
  induction l generalizing w with
  | nil => exact h0
  | cons i l ih =>
    exact ih _ (fun j hj => hv j (List.mem_cons_of_mem _ hj))
      (applyItem_range hd (hv i (List.mem_cons_self ..)).1 (hv i (List.mem_cons_self ..)).2 h0)

theorem linksInUse_insertNode (n : NodeEntry) (l : List NodeEntry) :
    linksInUse (insertNode n l) = linksInUse l + n.links.length := by
  rw [linksInUse, ((insertNode_perm n l).map (fun n => n.links.length)).sum_eq]
  simp [linksInUse, Nat.add_comm]

/-- The links in use after an entry was replaced, in a table that lists no id twice. -/
theorem linksInUse_replaceNode {nodes : List NodeEntry} {n old : NodeEntry} (h : (nodes.map (·.id)).Nodup)
    (ho : findNode nodes n.id = some old) :
    old.links.length ≤ linksInUse nodes ∧
      linksInUse (replaceNode n nodes) = linksInUse nodes - old.links.length + n.links.length := by
  induction nodes with
  | nil => simp [findNode] at ho
  | cons x xs ih =>
    rw [List.map_cons, List.nodup_cons] at h
    by_cases hx : x.id = n.id
    · have : old = x := by simpa [findNode, hx] using ho.symm
      subst this
      have hr : replaceNode n xs = xs := by
        unfold replaceNode
        refine (List.map_congr_left fun y hy => ?_).trans (List.map_id _)
        exact if_neg fun e => h.1 (List.mem_map.2 ⟨y, hy, e.trans hx.symm⟩)
      have e : replaceNode n (old :: xs) = n :: replaceNode n xs := by simp [replaceNode, hx]
      rw [e, hr]
      simp only [linksInUse, List.map_cons, List.sum_cons]
      omega
    · have ho' : findNode xs n.id = some old := by simpa [findNode, hx] using ho
      have e : replaceNode n (x :: xs) = x :: replaceNode n xs := by simp [replaceNode, hx]
      obtain ⟨h1, h2⟩ := ih h.2 ho'
      rw [e]
      simp only [linksInUse, List.map_cons, List.sum_cons] at h1 h2 ⊢
      omega

/-- An update record keeps the link table's bounds (R3). -/
theorem applyRecord_range {cfg : Settings} {t : Store} {r : UpdateRecord} (hc : ConfigSound cfg)
    (h : TableSound t.nodes) (hl : LinkTableSound cfg.filterDepth t.nodes) (hr : RecordSound r) :
    LinkTableSound cfg.filterDepth (applyRecord cfg t r).nodes := by
  have hd : 0 < cfg.filterDepth := by
    have := hc.2.2.2.2.2.2.2.2.2.2.2.2.1
    simp only [List.mem_cons, List.not_mem_nil, or_false] at this
    omega
  have rep : ∀ n old, findNode t.nodes n.id = some old → NodeInRange cfg.filterDepth n →
      linksInUse t.nodes - old.links.length + n.links.length ≤ 2048 →
      LinkTableSound cfg.filterDepth (replaceNode n t.nodes) := by
    intro n old ho hn hb
    refine ⟨by have := (linksInUse_replaceNode h.2.1 ho).2; unfold linksInUse at this hb; omega, fun x hx => ?_⟩
    obtain ⟨y, hy, rfl⟩ := List.mem_map.1 hx
    split
    · exact hn
    · exact hl.2 y hy
  have keep : ∀ n old, findNode t.nodes n.id = some old → NodeInRange cfg.filterDepth n →
      n.links = old.links → LinkTableSound cfg.filterDepth (replaceNode n t.nodes) := by
    intro n old ho hn he
    refine rep n old ho hn ?_
    have := (linksInUse_replaceNode h.2.1 ho).1
    have h2 : linksInUse t.nodes ≤ 2048 := hl.1
    rw [he]; omega
  cases r with
  | refresh o q l =>
    show LinkTableSound _ (applyRefresh t o l).nodes
    unfold applyRefresh
    split
    · exact hl
    · rename_i n hf
      split
      · exact hl
      · exact keep _ n (by rw [← (findNode_some hf).2] at hf; exact hf) (hl.2 n (findNode_some hf).1) rfl
  | full r =>
    obtain ⟨-, hr1, hr2, hr3, hr4, -, hr6⟩ := hr
    have hnode : ∀ index w, reservedId r.origin = false →
        (∀ l ∈ w.links, LinkInRange cfg.filterDepth r.origin l) →
        NodeInRange cfg.filterDepth (recordNode index r w) := by
      intro index w ho hw
      refine ⟨ho, hr1, hr2, ?_, hr4, hw⟩
      cases hg : r.regens with
      | none => simp [recordNode, hg]
      | some v => simpa [recordNode, hg] using hr3 v hg
    show LinkTableSound _ (applyFull cfg t r).nodes
    unfold applyFull
    split
    · exact hl
    · rename_i ho
      have ho : reservedId r.origin = false := by simpa using ho
      split
      · split
        · exact hl
        · unfold addNode
          split
          · exact hl
          · obtain ⟨h1, h2⟩ := replaceLinks_range (cfg := cfg) (origin := r.origin)
              (others := linksInUse t.nodes) (stored := []) (c := t.counters) hd hr6 ⟨hl.1, by simp⟩
            refine ⟨?_, fun x hx => ?_⟩
            · show linksInUse (insertNode _ _) ≤ 2048
              rw [linksInUse_insertNode]; exact h1
            · rcases mem_insertNode.1 hx with rfl | hx
              · exact hnode _ _ ho h2
              · exact hl.2 x hx
      · rename_i n hf
        have hn := hl.2 n (findNode_some hf).1
        have hid := (findNode_some hf).2
        split
        · unfold flushNode
          split <;>
          exact keep _ n (by rw [← hid] at hf; exact hf) ⟨hn.1, hr1, hr2, hn.2.2.2⟩ rfl
        · have hb := (linksInUse_replaceNode (n := { n with id := r.origin }) h.2.1 hf).1
          have h2 : linksInUse t.nodes ≤ 2048 := hl.1
          obtain ⟨h3, h4⟩ := replaceLinks_range (cfg := cfg) (origin := n.id)
            (others := linksInUse t.nodes - n.links.length) (stored := n.links) (c := t.counters) hd hr6
            ⟨by omega, hn.2.2.2.2.2⟩
          refine rep _ n hf (hnode _ _ ho (by rw [← hid]; exact h4)) h3

/-- A node at an age tick: rewritten, or freed (R16, R17). -/
def tickedNode (cfg : Settings) (n : NodeEntry) : Option NodeEntry :=
  match n.life with
  | .live a => some { n with life := if a ≤ 1 then .withdrawn cfg.holdDown else .live (a - 1) }
  | .withdrawn h => if h ≤ 1 then none else some { n with life := .withdrawn (h - 1) }

/-- The store's action on an age tick, entry by entry. -/
theorem tickStore_nodes (cfg : Settings) (t : Store) :
    (tickStore cfg t).nodes = t.nodes.filterMap (tickedNode cfg) := by
  have one : ∀ (o : StoreOutcome) (n : NodeEntry),
      (tickNode cfg o n).nodes = o.nodes ++ (tickedNode cfg n).toList := by
    intro o n
    unfold tickNode tickedNode
    cases n.life with
    | live a => by_cases ha : a ≤ 1 <;> simp [ha]
    | withdrawn h => by_cases ha : h ≤ 1 <;> simp [ha]
  have h : ∀ (l : List NodeEntry) (o : StoreOutcome),
      (l.foldl (tickNode cfg) o).nodes = o.nodes ++ l.filterMap (tickedNode cfg) := by
    intro l
    induction l with
    | nil => simp
    | cons n l ih =>
      intro o
      rw [List.foldl_cons, ih, one, List.filterMap_cons]
      cases tickedNode cfg n <;> simp
  exact h t.nodes _

theorem tickStore_sound {cfg : Settings} {t : Store} (hc : ConfigSound cfg) (h : TableSound t.nodes) :
    TableSound (tickStore cfg t).nodes := by
  obtain ⟨-, -, -, -, -, -, -, hh1, hh2, -⟩ := hc
  have hk : ∀ n m, tickedNode cfg n = some m → m.index = n.index ∧ m.id = n.id ∧ m.links = n.links ∧
      (LifeSound n.life → LifeSound m.life) := by
    intro n m hm
    unfold tickedNode at hm
    split at hm
    · rename_i a ha
      cases hm
      refine ⟨rfl, rfl, rfl, fun hl => ?_⟩
      rw [ha] at hl
      dsimp only
      split
      · exact ⟨hh1, hh2⟩
      · exact ⟨by omega, by have := hl.2; omega⟩
    · rename_i w hw
      split at hm
      · cases hm
      · cases hm
        refine ⟨rfl, rfl, rfl, fun hl => ?_⟩
        rw [hw] at hl
        exact ⟨by omega, by have := hl.2; omega⟩
  rw [tickStore_nodes]
  refine ⟨?_, ?_, ?_⟩
  · refine List.pairwise_filterMap.2 (h.1.imp ?_)
    intro a b hab x hx y hy
    rw [(hk a x hx).1, (hk b y hy).1]; exact hab
  · have : (t.nodes.filterMap (tickedNode cfg)).map (·.id) |>.Sublist (t.nodes.map (·.id)) := by
      generalize t.nodes = l
      induction l with
      | nil => simp
      | cons n l ih =>
        rw [List.filterMap_cons]
        split
        · exact ih.cons _
        · rename_i m hm
          rw [List.map_cons, List.map_cons, (hk n m hm).2.1]
          exact ih.cons_cons _
    exact h.2.1.sublist this
  · intro x hx
    obtain ⟨n, hn, hm⟩ := List.mem_filterMap.1 hx
    have hs := h.2.2 n hn
    obtain ⟨h1, h2, h3, h4⟩ := hk n x hm
    exact ⟨by rw [h1]; exact hs.1, h4 hs.2.1, by rw [h3]; exact hs.2.2⟩

/-- Links rewritten within their ranges keep the link table's bounds (R57, R58). -/
theorem mapLinks_linkTable {d d' : Nat} {nodes : List NodeEntry} (f : NodeEntry → Link → Link)
    (hf : ∀ n l, LinkInRange d n.id l → LinkInRange d' n.id (f n l)) (h : LinkTableSound d nodes) :
    LinkTableSound d' (nodes.map (fun n => { n with links := n.links.map (f n) })) := by
  refine ⟨by simpa [List.map_map, Function.comp_def] using h.1, fun x hx => ?_⟩
  obtain ⟨n, hn, rfl⟩ := List.mem_map.1 hx
  obtain ⟨h1, h2, h3, h4, h5, h6⟩ := h.2 n hn
  refine ⟨h1, h2, h3, h4, h5, fun l hl => ?_⟩
  obtain ⟨m, hm, rfl⟩ := List.mem_map.1 hl
  exact hf n m (h6 m hm)

/-- An age tick keeps the link table's bounds. -/
theorem tickStore_range {cfg : Settings} {t : Store} {depth : Nat} (h : LinkTableSound depth t.nodes) :
    LinkTableSound depth (tickStore cfg t).nodes := by
  have hk : ∀ n m, tickedNode cfg n = some m → m.links = n.links ∧
      (NodeInRange depth n → NodeInRange depth m) := by
    intro n m hm
    unfold tickedNode at hm
    split at hm
    · cases hm; exact ⟨rfl, id⟩
    · split at hm
      · cases hm
      · cases hm; exact ⟨rfl, id⟩
  rw [tickStore_nodes]
  refine ⟨le_trans ?_ h.1, fun x hx => ?_⟩
  · generalize t.nodes = l
    induction l with
    | nil => simp
    | cons n l ih =>
      rw [List.filterMap_cons]
      cases hm : tickedNode cfg n with
      | none => simp only [List.map_cons, List.sum_cons]; omega
      | some m =>
        simp only [List.map_cons, List.sum_cons, (hk n m hm).1]; omega
  · obtain ⟨n, hn, hm⟩ := List.mem_filterMap.1 hx
    exact (hk n x hm).2 (h.2 n hn)

end Sys2Proof.Machine
end

