-- ==== Sys2Proof/Laws/Reports.lean ====
section
/-! SUPPORT. What marking an engine does (R22), and what the usability reports of an event are (R20). -/

namespace Sys2Proof.Machine

/-- What marking a list of elements does to an engine, and that a full set stands. -/
theorem touchAll_spec (x : Engine) (els : List Element) :
    Marked x (x.touchAll els) (· ∈ els) ∧
      (x.mode ≠ .idle → 512 ≤ x.touched.length → (x.touchAll els).touched = x.touched) := by
  induction els generalizing x with
  | nil => simp [Engine.touchAll, Marked]
  | cons el els ih =>
    obtain ⟨⟨i1, i2⟩, i3⟩ := ih (x.touch el)
    have hf : x.touchAll (el :: els) = (x.touch el).touchAll els := rfl
    rw [hf]
    by_cases hx : x.mode = .idle
    · have : x.touch el = x := by simp [Engine.touch, hx]
      rw [this] at i1 ⊢
      exact ⟨⟨i1, fun h => absurd hx h⟩, fun h => absurd hx h⟩
    have ht : (x.touch el) = x ∧ el ∈ x.touched ∨
        (x.touch el) = { x with touched := x.touched ++ [el] } ∧ el ∉ x.touched ∧ x.touched.length < 512 ∨
        (x.touch el) = { x with overflow := true } ∧ el ∉ x.touched ∧ 512 ≤ x.touched.length := by
      unfold Engine.touch
      rw [if_neg hx]
      split
      · exact .inl ⟨rfl, by assumption⟩
      · split
        · exact .inr (.inl ⟨rfl, by assumption, by assumption⟩)
        · exact .inr (.inr ⟨rfl, by assumption, not_lt.1 ‹¬x.touched.length < Config.touchedSet›⟩)
    have hm : (x.touch el).mode ≠ .idle := by
      rcases ht with ⟨h, -⟩ | ⟨h, -⟩ | ⟨h, -⟩ <;> rw [h] <;> exact hx
    obtain ⟨h1, h2, h3, h4, h5, h6, h7, h8⟩ := i2 hm
    specialize i3 hm
    generalize (x.touch el).touchAll els = z at *
    generalize x.touch el = y at *
    rcases ht with ⟨rfl, ha⟩ | ⟨rfl, ha, hl⟩ | ⟨rfl, ha, hl⟩
    · refine ⟨⟨fun h => absurd h hx, fun _ => ⟨h1, h2, ?_, ?_, h5, h6, ?_, ?_⟩⟩, fun _ => i3⟩
      · intro a h; rcases h3 a h with g | g <;> simp [g]
      · intro a h; rcases List.mem_cons.1 h with rfl | g
        · exact .inl (h2 _ ha)
        · exact h4 a g
      · rw [h7]; constructor
        · rintro (g | ⟨a, g, k⟩)
          · exact .inl g
          · exact .inr ⟨a, by simp [g], k⟩
        · rintro (g | ⟨a, g, k⟩)
          · exact .inl g
          · rcases List.mem_cons.1 g with rfl | g
            · exact absurd (h2 _ ha) k
            · exact .inr ⟨a, g, k⟩
      · intro a g k; rcases List.mem_cons.1 g with rfl | g
        · exact absurd (h2 _ ha) k
        · exact h8 a g k
    · refine ⟨⟨fun h => absurd h hx, fun _ => ⟨h1, ?_, ?_, ?_, ?_, ?_, ?_, ?_⟩⟩, fun _ h => absurd h (by omega)⟩
      · intro a g; exact h2 a (by simp [g])
      · intro a g; rcases h3 a g with k | k
        · simp at k; rcases k with k | k <;> simp [k]
        · simp [k]
      · intro a g; rcases List.mem_cons.1 g with rfl | g
        · exact .inl (h2 _ (by simp))
        · exact h4 a g
      · intro hn; apply h5
        rw [List.nodup_append]
        refine ⟨hn, by simp, ?_⟩
        intro a h b hb; simp at hb; subst hb; rintro rfl; exact ha h
      · intro _; apply h6; simp; omega
      · rw [h7]; constructor
        · rintro (g | ⟨a, g, k⟩)
          · exact .inl g
          · exact .inr ⟨a, by simp [g], k⟩
        · rintro (g | ⟨a, g, k⟩)
          · exact .inl g
          · rcases List.mem_cons.1 g with rfl | g
            · exact absurd (h2 _ (by simp)) k
            · exact .inr ⟨a, g, k⟩
      · intro a g k; rcases List.mem_cons.1 g with rfl | g
        · exact absurd (h2 _ (by simp)) k
        · exact h8 a g k
    · have hz := i3 hl
      simp only at hz h1 h3 h7
      refine ⟨⟨fun h => absurd h hx, fun _ => ⟨h1, ?_, ?_, ?_, ?_, ?_, ?_, ?_⟩⟩, fun _ _ => hz⟩
      · intro a g; exact h2 a g
      · intro a g; rw [hz] at g; exact .inl g
      · intro a _; right; rw [h7]; simp
      · intro hn; rw [hz]; exact hn
      · intro hn; rw [hz]; exact hn
      · rw [h7]; simp only [true_or, true_iff]
        right; exact ⟨el, by simp, by rw [hz]; exact ha⟩
      · intro a _ _; rw [hz]; exact hl

/-- A value after a list is new to its first places, or changes nothing of them. -/
theorem firsts_snoc {α : Type} [DecidableEq α] (xs : List α) (a : α) :
    firsts (xs ++ [a]) = if a ∈ firsts xs then firsts xs else firsts xs ++ [a] := by
  rw [firsts, List.foldl_append]; rfl

/-- What a list's marks leave in the touched set, in their order: the new elements as far as there is room
(R22). -/
theorem touchAll_touched {x : Engine} (hx : x.mode ≠ .idle) (els : List Element) :
    (x.touchAll els).mode = x.mode ∧ (x.touchAll els).touched = x.touched ++
      ((firsts els).filter (fun a => decide (a ∉ x.touched))).take (512 - x.touched.length) := by
  induction els using List.reverseRecOn with
  | nil => simp [Engine.touchAll, firsts]
  | append_singleton els a ih =>
    obtain ⟨hm, ht⟩ := ih
    have e : x.touchAll (els ++ [a]) = (x.touchAll els).touch a := by
      simp [Engine.touchAll, List.foldl_append]
    rw [e, firsts_snoc]
    generalize x.touchAll els = y at hm ht
    have hy : y.mode ≠ .idle := by rw [hm]; exact hx
    unfold Engine.touch
    rw [if_neg hy]
    generalize hF : (firsts els).filter (fun a => decide (a ∉ x.touched)) = F at ht
    have hmem : a ∈ y.touched → a ∈ x.touched ∨ a ∈ firsts els := by
      intro h; rw [ht] at h
      rcases List.mem_append.1 h with h | h
      · exact .inl h
      · have := List.mem_of_mem_take h
        rw [← hF] at this
        exact .inr (List.mem_filter.1 this).1
    by_cases hf : a ∈ firsts els
    · rw [if_pos hf, hF]
      split
      · exact ⟨hm, ht⟩
      · rename_i hn
        split
        · rename_i hl
          exfalso
          simp only [Config.touchedSet_eq, ht, List.length_append, List.length_take] at hl
          refine hn ?_
          rw [ht, List.take_of_length_le (by omega)]
          by_cases hax : a ∈ x.touched
          · exact List.mem_append_left _ hax
          · exact List.mem_append_right _ (by rw [← hF]; exact List.mem_filter.2 ⟨hf, by simpa using hax⟩)
        · exact ⟨hm, ht⟩
    · rw [if_neg hf, List.filter_append, hF]
      by_cases hax : a ∈ x.touched
      · rw [if_pos (by rw [ht]; exact List.mem_append_left _ hax)]
        refine ⟨hm, by rw [ht]; simp [hax]⟩
      · rw [if_neg (fun h => (hmem h).elim hax hf)]
        have h1 : [a].filter (fun a => decide (a ∉ x.touched)) = [a] := by simp [hax]
        rw [h1]
        split
        · rename_i hl
          simp only [Config.touchedSet_eq, ht, List.length_append, List.length_take] at hl
          refine ⟨hm, ?_⟩
          dsimp only
          rw [ht, List.take_of_length_le (by omega), List.take_of_length_le (by simp; omega), List.append_assoc]
        · rename_i hl
          simp only [Config.touchedSet_eq, ht, List.length_append, List.length_take] at hl
          refine ⟨hm, ?_⟩
          dsimp only
          rw [ht, List.take_append_of_le_length (by omega)]

/-- A list's elements enter an engine's touched set in the list's order (R22). -/
theorem touchAll_inOrder (x : Engine) (els : List Element) : EnteredInOrder x (x.touchAll els) els := by
  intro hx el
  rw [(touchAll_touched hx els).2, List.mem_append]

/-- Marking a list of elements marks exactly those (R22). -/
theorem touchAll_marked (x : Engine) (els : List Element) : Marked x (x.touchAll els) (· ∈ els) :=
  (touchAll_spec x els).1

/-- The set of elements marked may be written in any way. -/
theorem Marked.congr {x y : Engine} {P Q : Element → Prop} (h : Marked x y P) (k : ∀ el, P el ↔ Q el) :
    Marked x y Q := by
  have : P = Q := funext fun el => propext (k el)
  rwa [← this]

/-- Inserting by id keeps the entries. -/
theorem insertById_perm (n : NodeEntry) (l : List NodeEntry) : (insertById n l).Perm (n :: l) := by
  induction l with
  | nil => exact .refl _
  | cons x xs ih =>
    unfold insertById; split
    · exact .refl _
    · exact (List.Perm.cons x ih).trans (List.Perm.swap n x xs)

/-- Ordering by id keeps the entries. -/
theorem sortById_perm (l : List NodeEntry) : (sortById l).Perm l := by
  induction l with
  | nil => exact .refl _
  | cons x xs ih => exact (insertById_perm x _).trans (List.Perm.cons x ih)

theorem insertById_sorted {n : NodeEntry} {l : List NodeEntry} (hn : ∀ x ∈ l, x.id ≠ n.id)
    (h : l.Pairwise (fun a b => a.id.toNat < b.id.toNat)) :
    (insertById n l).Pairwise (fun a b => a.id.toNat < b.id.toNat) := by
  induction l with
  | nil => simp [insertById]
  | cons y ys ih =>
    obtain ⟨hy, hys⟩ := List.pairwise_cons.1 h
    have hne : n.id.toNat ≠ y.id.toNat :=
      fun e => hn y (List.mem_cons_self ..) (BitVec.eq_of_toNat_eq e.symm)
    unfold insertById
    split
    · refine List.pairwise_cons.2 ⟨fun x hx => ?_, h⟩
      rcases List.mem_cons.1 hx with rfl | hx
      · omega
      · have := hy x hx; omega
    · refine List.pairwise_cons.2 ⟨fun x hx => ?_, ih (fun x hx => hn x (List.mem_cons_of_mem _ hx)) hys⟩
      rcases List.mem_cons.1 ((insertById_perm n ys).mem_iff.1 hx) with rfl | hx
      · omega
      · exact hy x hx

/-- A table that lists no id twice is ordered by id. -/
theorem sortById_sorted {l : List NodeEntry} (h : (l.map (·.id)).Nodup) :
    (sortById l).Pairwise (fun a b => a.id.toNat < b.id.toNat) := by
  induction l with
  | nil => exact .nil
  | cons n l ih =>
    rw [List.map_cons, List.nodup_cons] at h
    refine insertById_sorted (fun x hx e => h.1 ?_) (ih h.2)
    exact List.mem_map.2 ⟨x, (sortById_perm l).mem_iff.1 hx, e⟩

/-- The USABILITY reports of an event stand in the order of item 4 of R23. -/
theorem usabilityReports_order (b b' : Bool) (nodes : List NodeEntry) {nodes' : List NodeEntry}
    (h : TableSound nodes') : UsabilityOrder (usabilityReports b b' nodes nodes') := by
  have hone : ∀ (n' : NodeEntry) (l' : Link) (r : Report), (match findNode nodes n'.id with
      | none => (none : Option Report)
      | some n =>
        match findLid n.links l'.lid with
        | none => none
        | some l =>
          if usable b nodes n l = usable b' nodes' n' l' then none
          else some { element := Element.link ⟨n'.id, l'.lid⟩, kind := ReportKind.usability }) = some r →
      r = { element := .link ⟨n'.id, l'.lid⟩, kind := .usability } := by
    intro n' l' r hr
    split at hr
    · cases hr
    · split at hr
      · cases hr
      · split at hr
        · cases hr
        · exact (Option.some.inj hr).symm
  refine ⟨fun r hr => ?_, ?_⟩
  · obtain ⟨n', -, hr⟩ := List.mem_flatMap.1 hr
    obtain ⟨l', -, hr⟩ := List.mem_filterMap.1 hr
    rw [hone n' l' r hr]
  · unfold usabilityReports
    refine List.pairwise_flatMap.2 ⟨fun n' hn' => ?_, ?_⟩
    · have hs := (h.2.2 n' ((sortById_perm nodes').mem_iff.1 hn')).2.2.2
      refine List.pairwise_filterMap.2 (hs.imp ?_)
      intro k l hkl x hx y hy
      rw [hone n' k x hx, hone n' l y hy]
      exact ⟨_, _, rfl, rfl, .inr ⟨rfl, hkl⟩⟩
    · refine (sortById_sorted h.2.1).imp ?_
      intro m n hmn x hx y hy
      obtain ⟨k, -, hx⟩ := List.mem_filterMap.1 hx
      obtain ⟨l, -, hy⟩ := List.mem_filterMap.1 hy
      rw [hone m k x hx, hone n l y hy]
      exact ⟨_, _, rfl, rfl, .inl hmn⟩

/-- A link of a list in ascending local id is found by its id. -/
theorem findLid_of_mem {ls : List Link} (h : ls.Pairwise (fun a b => a.lid.toNat < b.lid.toNat)) {l : Link}
    (hl : l ∈ ls) : findLid ls l.lid = some l := by
  induction ls with
  | nil => cases hl
  | cons x xs ih =>
    rw [List.pairwise_cons] at h
    rcases List.mem_cons.1 hl with rfl | hm
    · simp [findLid]
    · have : x.lid ≠ l.lid := fun e => by have := h.1 l hm; rw [e] at this; omega
      have := ih h.2 hm
      unfold findLid at this ⊢
      rw [List.find?_cons_of_neg (by simpa using ‹x.lid ≠ l.lid›)]; exact this

/-- The USABILITY reports of an event are R20's changes. -/
theorem mem_usabilityReports {b b' : Bool} {nodes nodes' : List NodeEntry} (h' : TableSound nodes')
    {r : Report} : r ∈ usabilityReports b b' nodes nodes' ↔
      r.kind = .usability ∧ Changed b b' nodes nodes' r := by
  obtain ⟨el, k⟩ := r
  unfold usabilityReports
  rw [List.mem_flatMap]
  constructor
  · rintro ⟨n', hn', hr⟩
    rw [(sortById_perm nodes').mem_iff] at hn'
    rw [List.mem_filterMap] at hr
    obtain ⟨l', hl', hr⟩ := hr
    split at hr
    · cases hr
    rename_i n hn
    split at hr
    · cases hr
    rename_i l hl
    split at hr
    · cases hr
    rename_i hu
    injection hr with hr
    injection hr with h1 h2
    subst h1 h2
    refine ⟨rfl, n, n', l, l', hn, ?_, hl, ?_, hu⟩
    · exact findNode_of_mem h'.2.1 hn'
    · exact findLid_of_mem (h'.2.2 n' hn').2.2.2 hl'
  · rintro ⟨hk, hc⟩
    simp only at hk; subst hk
    cases el with
    | node id => simp [Changed] at hc
    | link ref =>
      obtain ⟨m, n, k, l, h1, h2, h3, h4, h5⟩ := hc
      obtain ⟨hn1, hn2⟩ := findNode_some h2
      obtain ⟨hl1, hl2⟩ := findLid_some h4
      refine ⟨n, (sortById_perm nodes').mem_iff.2 ‹_›, ?_⟩
      rw [List.mem_filterMap]
      refine ⟨l, ‹_›, ?_⟩
      simp only [hn2, h1, hl2, h3]
      rw [if_neg h5]

/-- The reports of an age tick stand node by node, in table order (log entry 42). -/
theorem tickStore_reports (cfg : Settings) (t : Store) : (tickStore cfg t).reports = t.nodes.flatMap tickReports := by
  have : ∀ (l : List NodeEntry) (o : StoreOutcome), (l.foldl (tickNode cfg) o).reports = o.reports ++ l.flatMap tickReports := by
    intro l
    induction l with
    | nil => simp
    | cons n l ih =>
      intro o
      rw [List.foldl_cons, ih, List.flatMap_cons, ← List.append_assoc]
      congr 1
      unfold tickNode tickReports
      cases n.life with
      | live a => by_cases ha : a ≤ 1 <;> simp [ha]
      | withdrawn h => by_cases ha : h ≤ 1 <;> simp [ha]
  exact (this _ _).trans (by simp)

end Sys2Proof.Machine
end

