-- ==== Sys2Proof/Laws/Search.lean ====
section
/-! SUPPORT. The order of labels: keys, dominance and the worst open label (R77, R88, R90); the predecessor
chain and its division into segments (R91, R92). -/

namespace Sys2Proof.Machine

/-- The key comparison is R77's. -/
theorem keyLt_iff (o : Order) (x y : Label) : keyLt (labelKey o x) (labelKey o y) = true ↔ KeyBefore o x y := by
  unfold keyLt labelKey KeyBefore
  cases o <;> simp
/-- Dominance is R88's. -/
theorem dominates_iff (o : Order) (x y : Label) : dominates o x y = true ↔ Dominates o x y := by
  unfold dominates Dominates slotsWithin
  have : (y.starts &&& x.starts == y.starts) = true ↔
      ∀ k, y.starts.getLsbD k = true → x.starts.getLsbD k = true := by
    rw [beq_iff_eq]
    constructor
    · intro h k hk; rw [← h] at hk; simp at hk; exact hk.2
    · intro h; apply BitVec.eq_of_getLsbD_eq; intro i hi
      rw [BitVec.getLsbD_and]
      cases hy : y.starts.getLsbD i with
      | false => rfl
      | true => simp [h i hy]
  simp only [Bool.and_eq_true, decide_eq_true_eq, this, Bool.or_eq_true, beq_iff_eq]
  cases o <;> simp [and_assoc]

/-- A pool without open labels has no worst one. -/
theorem worstOpen_none (o : Order) (pool : List Label) (h : ∀ y ∈ pool, y.closed = true) :
    worstOpen o pool = none := by
  unfold worstOpen
  suffices ∀ l : List Label, (∀ y ∈ l, y.closed = true) → l.foldl (fun worst l =>
    if l.closed then worst
    else match worst with
      | none => some l
      | some w => if keyLt (labelKey o w) (labelKey o l) then some l else some w) none = none from this pool h
  intro l hl
  induction l with
  | nil => rfl
  | cons a l ih => rw [List.foldl_cons, hl a (by simp)]; exact ih (fun y hy => hl y (by simp [hy]))

/-- The open label that every other open label's key precedes is the worst (R90). -/
theorem worstOpen_some (o : Order) (pool : List Label) (w : Label) (hw : w ∈ pool) (hc : w.closed = false)
    (h : ∀ y ∈ pool, y.closed = false → y = w ∨ KeyBefore o y w) : worstOpen o pool = some w := by
  unfold worstOpen
  have irr : ∀ a b, KeyBefore o a b → ¬ KeyBefore o b a := by
    intro a b; unfold KeyBefore; cases o <;> simp only <;> omega
  have irr' : ∀ a, ¬ KeyBefore o a a := fun a h => irr a a h h
  suffices ∀ (l : List Label) (acc : Option Label),
      (∀ y ∈ l, y.closed = false → y = w ∨ KeyBefore o y w) →
      (∀ a, acc = some a → a = w ∨ KeyBefore o a w) → (w ∈ l ∨ acc = some w) → l.foldl (fun worst l =>
    if l.closed then worst
    else match worst with
      | none => some l
      | some w => if keyLt (labelKey o w) (labelKey o l) then some l else some w) acc = some w
    from this pool none h (by simp) (.inl hw)
  intro l
  induction l with
  | nil => intro acc _ _ h3; rcases h3 with h3 | h3; cases h3; exact h3
  | cons a l ih =>
    intro acc h1 h2 h3
    rw [List.foldl_cons]
    apply ih _ (fun y hy => h1 y (by simp [hy]))
    · intro b hb
      split at hb
      · exact h2 b hb
      · rename_i hcl
        have ha := h1 a (by simp) (by simpa using hcl)
        cases acc with
        | none => simp at hb; subst hb; exact ha
        | some c =>
          simp only at hb
          split at hb
          · injection hb with hb; subst hb; exact ha
          · injection hb with hb; subst hb; exact h2 _ rfl
    · rcases h3 with h3 | h3
      · rcases List.mem_cons.1 h3 with rfl | h3
        · right
          rw [hc]
          cases acc with
          | none => rfl
          | some c =>
            simp only [Bool.false_eq_true, if_false]
            rcases h2 c rfl with rfl | h
            · split <;> rfl
            · rw [if_pos ((keyLt_iff o c w).2 h)]
        · exact .inl h3
      · right; subst h3
        split
        · rfl
        · rename_i hcl
          simp only
          rcases h1 a (by simp) (by simpa using hcl) with rfl | h
          · split <;> rfl
          · rw [if_neg]; intro g; exact irr _ _ h ((keyLt_iff o w a).1 g)

/-- With the insertion numbers distinct, a label of the pool is found by its own. -/
theorem findLabel_mem {pool : List Label} {p : Label} (hn : (pool.map (·.number)).Nodup) (h : p ∈ pool) :
    findLabel pool p.number = some p := by
  unfold findLabel
  induction pool with
  | nil => cases h
  | cons a rest ih =>
    simp only [List.map_cons, List.nodup_cons] at hn
    rcases List.mem_cons.1 h with rfl | h
    · simp
    · have : a.number ≠ p.number := fun e => hn.1 (e ▸ List.mem_map_of_mem h)
      rw [List.find?_cons_of_neg (by simpa using this)]
      exact ih hn.2 h

/-- The predecessor chain that the machine reads is the chain (R75, R91). -/
theorem labelChain_eq {pool chain : List Label} {x : Label} (hn : (pool.map (·.number)).Nodup)
    (h : ChainOf pool x chain) : labelChain pool x = chain := by
  obtain ⟨h1, h2, root, h3, h4, h5⟩ := h
  unfold labelChain
  induction chain generalizing x with
  | nil => cases h1
  | cons a rest ih =>
    obtain rfl : a = x := by simpa using h1
    cases rest with
    | nil =>
      obtain rfl : a = root := by simpa using h3
      rw [h5]; rfl
    | cons p rest =>
      rw [List.isChain_cons_cons] at h2
      obtain ⟨⟨hp, hpred, hh⟩, h2⟩ := h2
      rw [hh, chainBack, hpred, Option.bind_some, findLabel_mem hn hp]
      simp only
      rw [ih rfl h2 (by simpa using h3)]

/-- The groups of R92: they make up the labels, and each but the first begins at a regeneration mark and has no
other. -/
theorem splitSegments_spec (labels : List Label) :
    (splitSegments labels).flatten = labels ∧
    (∀ g ∈ splitSegments labels, g ≠ [] ∧ ∀ l ∈ g.tail, l.regenerated = false) ∧
    (∀ g ∈ (splitSegments labels).tail, ∀ l, g.head? = some l → l.regenerated = true) ∧
    ∀ g, (splitSegments labels).head? = some g → g.head? = labels.head? := by
  induction labels with
  | nil => simp [splitSegments]
  | cons l rest ih =>
    obtain ⟨h1, h2, h3, h4⟩ := ih
    cases rest with
    | nil => simp [splitSegments]
    | cons r more =>
      cases hs : splitSegments (r :: more) with
      | nil => simp [hs] at h1
      | cons g gs =>
        rw [hs] at h1 h2 h3 h4
        have hg : g.head? = some r := by simpa using h4 g rfl
        obtain ⟨more', rfl⟩ : ∃ more', g = r :: more' := by
          cases g with
          | nil => cases hg
          | cons a m => simp at hg; subst hg; exact ⟨m, rfl⟩
        have hu : splitSegments (l :: r :: more) =
            if r.regenerated then [l] :: (r :: more') :: gs else (l :: r :: more') :: gs := by
          rw [splitSegments]
          exact hs
        rw [hu]
        split
        · rename_i hr
          refine ⟨by simpa using h1, ?_, ?_, by simp⟩
          · intro k hk
            rcases List.mem_cons.1 hk with rfl | hk
            · simp
            · exact h2 k hk
          · intro k hk x hx
            simp only [List.tail_cons] at hk
            rcases List.mem_cons.1 hk with rfl | hk
            · simp at hx; subst hx; exact hr
            · exact h3 k (by simpa using hk) x hx
        · rename_i hr
          refine ⟨by simpa using h1, ?_, ?_, by simp⟩
          · intro k hk
            rcases List.mem_cons.1 hk with rfl | hk
            · refine ⟨by simp, fun x hx => ?_⟩
              rcases List.mem_cons.1 (by simpa using hx : x ∈ r :: more') with rfl | hx
              · simpa using hr
              · exact (h2 _ (List.mem_cons_self ..)).2 x (by simpa using hx)
            · exact h2 k (List.mem_cons_of_mem _ hk)
          · intro k hk x hx
            exact h3 k (by simpa using hk) x hx

end Sys2Proof.Machine
end

