-- ==== Sys2Proof/Laws/Translate.lean ====
section
/-! SUPPORT. The ranges of what a translation event makes (chapter 2). -/

namespace Sys2Proof.Machine

theorem clampInt_range {lo hi : Nat} (h : lo ≤ hi) (v : Int) :
    lo ≤ (clampInt lo hi v).1 ∧ (clampInt lo hi v).1 ≤ hi := by
  unfold clampInt
  split
  · exact ⟨le_refl _, h⟩
  · split
    · exact ⟨h, le_refl _⟩
    · constructor <;> simp only <;> omega

/-- A scalar's converted value lies in its target's range (R32, R40). -/
theorem scalarValue_range (e : DialectEntry) (value : List Byte) :
    (scalarRange e.target).1 ≤ (scalarValue e value).1 ∧
      (scalarValue e value).1 ≤ (scalarRange e.target).2 := by
  unfold scalarValue
  exact clampInt_range (by cases e.target <;> decide) _

/-- A property of the values that each attribute keeps holds of what a section sets. -/
theorem foldl_values {V : Type} {P : V → Prop} {f : V × MapTally → Attribute → V × MapTally}
    (hf : ∀ acc a, P acc.1 → P (f acc a).1) (l : List Attribute) (acc : V × MapTally) (h : P acc.1) :
    P (l.foldl f acc).1 := by
  induction l generalizing acc with
  | nil => exact h
  | cons a l ih => exact ih _ (hf acc a h)

/-- The values that a node section sets lie in their targets' ranges. -/
def NodeValuesInRange (v : NodeValues) : Prop :=
  (∀ x, v.lifetime = some x → x ≤ 255) ∧ (∀ x, v.regens = some x → x ≤ 15) ∧ QInRange v.transitQ

theorem mapNode_range (entries : List DialectEntry) (attrs : List Attribute) (t : MapTally) :
    NodeValuesInRange (mapNode entries attrs t).1 := by
  refine foldl_values (P := NodeValuesInRange) (fun acc a h => ?_) attrs _ ⟨by simp, by simp, by simp [QInRange]⟩
  unfold mapNodeAttr
  split
  · exact h
  · rename_i e _
    have hr := scalarValue_range e a.value
    dsimp only
    split
    · rename_i ht
      rw [ht] at hr
      exact ⟨fun x hx => by cases hx; exact hr.2, h.2.1, h.2.2⟩
    · rename_i ht
      rw [ht] at hr
      exact ⟨h.1, fun x hx => by cases hx; exact hr.2, h.2.2⟩
    · rename_i ht
      rw [ht] at hr
      exact ⟨h.1, h.2.1, fun x hx => by cases hx; exact hr.2⟩
    · exact h

/-- The ids of a LINK_SRLG value are at most 4 and distinct (R42). -/
theorem srlgValue_range (value : List Byte) : SrlgInRange (srlgValue value).1 := by
  unfold srlgValue
  have h : ∀ (l : List (List Byte)) (acc : List Word32 × Bool), SrlgInRange acc.1 →
      SrlgInRange (l.foldl (fun acc p =>
        let id := field32 p 0
        if id ∈ acc.1 then acc
        else if acc.1.length < Config.srlgPerLink then (acc.1 ++ [id], acc.2)
        else (acc.1, true)) acc).1 := by
    intro l
    induction l with
    | nil => exact fun _ h => h
    | cons p l ih =>
      intro acc hacc
      refine ih _ ?_
      dsimp only
      split
      · exact hacc
      · rename_i hn
        split
        · rename_i hl
          simp only [Config.srlgPerLink_eq] at hl
          refine ⟨by simp only [List.length_append, List.length_singleton]; omega, ?_⟩
          rw [List.nodup_append]
          exact ⟨hacc.2, by simp, fun a ha b hb e => hn (by rw [← List.mem_singleton.1 hb, ← e]; exact ha)⟩
        · exact hacc
  exact h _ _ ⟨by simp, by simp⟩

/-- The values that a link's section sets lie in their targets' ranges. -/
def LinkValuesInRange (v : LinkValues) : Prop :=
  (∀ x, v.cost = some x → 1 ≤ x ∧ x ≤ 65535) ∧ QInRange v.q ∧ (∀ x, v.remoteId = some x → x ≤ 65535) ∧
    ∀ x, v.srlg = some x → SrlgInRange x

theorem mapLinkAttr_range (entries : List DialectEntry) (acc : LinkValues × MapTally) (a : Attribute)
    (h : LinkValuesInRange acc.1) : LinkValuesInRange (mapLinkAttr entries acc a).1 := by
  unfold mapLinkAttr
  split
  · exact h
  · rename_i e _
    have hr := scalarValue_range e a.value
    split
    · rename_i ht
      rw [ht] at hr
      exact ⟨fun x hx => by cases hx; exact hr, h.2⟩
    · rename_i ht
      rw [ht] at hr
      exact ⟨h.1, fun x hx => by cases hx; exact hr.2, h.2.2⟩
    · rename_i ht
      rw [ht] at hr
      exact ⟨h.1, h.2.1, fun x hx => by cases hx; exact hr.2, h.2.2.2⟩
    · exact h
    · exact ⟨h.1, h.2.1, h.2.2.1, fun x hx => by cases hx; exact srlgValue_range _⟩
    · exact h
    · exact h

/-- A link's item has its values in the ranges of section 1.3. -/
theorem mapLink_range (entries : List DialectEntry) (l : AdvLink) (t : MapTally) :
    ItemInRange (mapLink entries l t).1 := by
  obtain ⟨h1, h2, h3, h4⟩ := foldl_values (P := LinkValuesInRange) (mapLinkAttr_range entries) l.attrs
    (⟨none, none, none, none, none, none⟩, t) ⟨by simp, by simp [QInRange], by simp, by simp⟩
  refine ⟨?_, h1, h2, h4⟩
  unfold mapLink remoteLink
  dsimp only
  split
  · simp
  · rename_i v hv
    have := h3 v hv
    split
    · simp
    · intro e
      have := congrArg BitVec.toNat (Option.some.inj e)
      simp only [BitVec.toNat_ofNat] at this
      omega

theorem mapLinks_range (entries : List DialectEntry) (links : List AdvLink) (t : MapTally) :
    (mapLinks entries links t).1.length = links.length ∧ ∀ i ∈ (mapLinks entries links t).1, ItemInRange i := by
  have h : ∀ (l : List AdvLink) (acc : List LinkItem × MapTally), (∀ i ∈ acc.1, ItemInRange i) →
      (l.foldl (fun acc l => let r := mapLink entries l acc.2; (acc.1 ++ [r.1], r.2)) acc).1.length =
        acc.1.length + l.length ∧
      ∀ i ∈ (l.foldl (fun acc l => let r := mapLink entries l acc.2; (acc.1 ++ [r.1], r.2)) acc).1,
        ItemInRange i := by
    intro l
    induction l with
    | nil => exact fun _ h => ⟨rfl, h⟩
    | cons x l ih =>
      intro acc hacc
      obtain ⟨h1, h2⟩ := ih (acc.1 ++ [(mapLink entries x acc.2).1], (mapLink entries x acc.2).2) (by
        intro i hi
        rcases List.mem_append.1 hi with hi | hi
        · exact hacc i hi
        · rw [List.mem_singleton.1 hi]; exact mapLink_range _ _ _)
      exact ⟨by rw [List.foldl_cons]; rw [h1]; simp; omega, h2⟩
  have := h links ([], t) (by simp)
  exact ⟨by simpa [mapLinks] using this.1, this.2⟩

/-- A walked copy carries the dialect tag it begins with (R34). -/
theorem walkCopy_dialect {bs : List Byte} {a : Advertisement} (h : walkCopy bs = some a) :
    a.dialect = (fieldByte bs 0).toNat := by
  unfold walkCopy at h
  split at h
  · cases h
  · split at h
    · cases h
    · split at h
      · cases h
      · split at h
        · cases h
        · cases h; rfl

/-- A record that a translation event makes has its content in the ranges of section 1.4. -/
theorem translate_sound {s : State} {copy : List Byte} {r : UpdateRecord} {m : MapTally}
    (hc : ConfigSound s.cfg) (h : Machine.translate s copy = .record r m) : RecordSound r := by
  have hd : s.cfg.defaultLifetime ≤ 255 := hc.2.2.2.2.2.2.1
  have hl : ∀ entries attrs t,
      (mapNode entries attrs t).1.lifetime.getD s.cfg.defaultLifetime ≤ 255 := by
    intro entries attrs t
    cases hv : (mapNode entries attrs t).1.lifetime with
    | none => exact hd
    | some v => exact (mapNode_range entries attrs t).1 v hv
  unfold Machine.translate at h
  split at h
  · cases h
  · rename_i tag rest
    split at h
    · cases h
    · rename_i entries he
      have htag : 1 ≤ tag.toNat ∧ tag.toNat ≤ 8 := by
        unfold Bank.dialect at he
        split at he
        · cases he
        · refine ⟨by omega, ?_⟩
          by_contra hn
          rw [Vector.getElem?_eq_none (by omega)] at he
          cases he
      split at h
      · cases h
      · split at h
        · cases h
        · rename_i a ha
          have hdia : a.dialect = tag.toNat := walkCopy_dialect ha
          split at h
          · cases h
            refine ⟨hl _ _ _, by dsimp only; omega, by dsimp only; omega, (mapNode_range _ _ _).2.1,
              (mapNode_range _ _ _).2.2, ?_, (mapLinks_range _ _ _).2⟩
            dsimp only
            rw [(mapLinks_range _ _ _).1, List.length_take, Config.linksPerNode_eq]
            exact Nat.min_le_left _ _
          · cases h; exact hl _ _ _
          · cases h

end Sys2Proof.Machine
end

