-- ==== Sys2Proof/WellFormed.lean ====
section
/-! DEFINITION. When a step's operands can arise at the part's pins. -/

namespace Sys2Proof

/-- A frame on the node port is preceded by a node-port tag, and a frame on a line port carries none
(section 9.1.1, R155). Every other operand is well formed by its type. -/
def Instr.wellFormed : Instr → Bool
  | .frameArrival (.lp _) tag _ => tag.isNone
  | .frameArrival .np tag _ => tag.isSome
  | .coldReset _ => true
  | .readStatus => true
  | .readConfig => true
  | .setConfig => true
  | .setState => true
  | .restartWarm => true
  | .readCounters => true
  | .writeSourceEntry => true
  | .readSourceEntry => true
  | .queryNode => true
  | .queryLink => true
  | .listNodes => true
  | .clearCrossings => true
  | .submit => true
  | .cancel => true
  | .releaseWatch => true
  | .queryWatch => true
  | .writeDialectEntry => true
  | .clearDialect => true
  | .writeClass => true
  | .readTable => true
  | .commit => true
  | .discardStaged => true
  | .ackEvents => true
  | .timebaseInterval => true
  | .ageTick => true
  | .nodeAgeExpiry => true
  | .holdDownExpiry => true
  | .reservationExpiry => true
  | .epochTimerExpiry => true
  | .settleTimerExpiry => true
  | .translationEvent => true
  | .recordApplication => true
  | .expansion _ => true
  | .engineEndOrder _ => true
  | .egressTake _ => true
  | .transmissionEnd _ => true
  | .heldResponseEnters => true
  | .completingResultEnters _ => true
  | .noticeSend => true
  | .unknownOrMalformedCommand => true

end Sys2Proof
end

