-- ==== Sys2Proof/Tests/Slice0.lean ====
section
/-! SUPPORT. Own tests: the form of the operands, the spec's worked figures on single operations and
single steps, and for every statement with hypotheses a witness that meets them, clause by clause. -/

namespace Sys2Proof.Tests

set_option Elab.async false

open Sys2Proof.Machine

/-! ## Operands -/

/-- Section 9.1.1: a line port's frame carries no tag, a node port's does. -/
theorem test_lp_frame_with_tag_refused :
    (Instr.frameArrival (.lp 0) (some 0) []).wellFormed = false := by decide

theorem test_np_frame_without_tag_refused :
    (Instr.frameArrival .np none []).wellFormed = false := by decide

theorem test_lp_frame_accepted : (Instr.frameArrival (.lp 7) none []).wellFormed = true := by decide

/-- Log entry 16. -/
theorem test_no_word_spells_a_step :
    decodeTableWord 32 0x50 = none ∧ State.reset.withFetchWord 32 0x50 = State.reset := ⟨rfl, rfl⟩

/-- Log entry 17. -/
theorem test_empty_queue_idles : step State.reset = .next State.reset := rfl

/-! ## The spec's worked figures -/

/-- R60's table of reference values. -/
theorem test_noise_reference_values :
    [0, 200, 220, 224, 225, 230, 250, 252, 253, 260, 280, 300, 320, 400].map noiseTerm =
      [16777216, 167772, 105857, 96543, 94345, 84085, 53054, 50666, 49513, 42142, 26590, 16777, 10586,
        1678] := by decide +kernel

/-- R66's table of reported values. -/
theorem test_reported_q :
    [96421, 50331, 84085, 26590, 1678].map (fun n => (reportedQ n, qClamped (reportedQ n))) =
      [(224, false), (252, false), (230, false), (280, false), (400, true)] := by decide +kernel

/-- R68's table and the first row of R69's. -/
theorem test_windows :
    (adjustWindow (some ⟨37, 30⟩) = ⟨36, 64, true⟩ ∧ adjustWindow (some ⟨300, 64⟩) = ⟨300, 320, true⟩ ∧
      adjustWindow (some ⟨40, 3⟩) = ⟨40, 40, true⟩ ∧ adjustWindow (some ⟨96, 32⟩) = ⟨96, 128, false⟩) ∧
    windowStarts ⟨36, 64, true⟩ 4 = slotRange 36 25 ∧ windowStarts ⟨40, 40, true⟩ 4 = 0#320 := by
  decide +kernel

/-- R71's worked case: window starts 36..60 over L1 (40..47 occupied), then L2 (52..55 occupied). -/
theorem test_candidate_sets :
    slotRange 36 25 &&& freeStarts (slotRange 40 8) 4 &&& freeStarts (slotRange 52 4) 4 =
      slotRange 36 1 ||| slotRange 48 1 ||| slotRange 56 5 := by decide +kernel

/-- A dialect entry of section 2.10's cases. -/
def entry (target : Target) (mul shift : Nat) (offset : Int) : DialectEntry :=
  { valid := true, code := 0, target, mul, shift, offset }

/-- Section 2.10, scalar conversions. -/
theorem test_scalar_conversions :
    scalarValue (entry .linkQ 5 1 0) [112] = (280, false) ∧
    scalarValue (entry .linkQ 6554 16 0) [0x09, 0xE9] = (254, false) ∧
    scalarValue (entry .linkQ 1 0 (-5)) [0] = (0, true) ∧
    scalarValue (entry .linkCost 1 2 0) [6] = (2, false) ∧
    scalarValue (entry .linkCost 1 2 0) [5] = (1, false) ∧
    scalarValue (entry .nodeRegens 1 0 0) [20] = (15, true) := by decide +kernel

/-- Section 2.10, occupancy conversions and an SRLG list. -/
theorem test_list_conversions :
    occupancyPair (entry .linkOccupancy 1 1 0) 81 16 = (slotRange 40 9, false) ∧
    occupancyPair (entry .linkOccupancy 1 0 (-8)) 10 4 = (slotRange 2 4, false) ∧
    occupancyPair (entry .linkOccupancy 1 0 0) 315 10 = (slotRange 315 5, true) ∧
    srlgValue [0, 0, 0, 7, 0, 0, 0, 8, 0, 0, 0, 7] = ([7, 8], false) := by decide +kernel

/-- Section 3.8, steps 4 to 6 and 8 to 10 of the fade (R53, R54). -/
theorem test_fade :
    evaluate (Settings.cold 0) ⟨.normal, 1, true, false⟩ (some 160) = (⟨.degraded, 0, true, true⟩, true) ∧
    evaluate (Settings.cold 0) ⟨.degraded, 0, true, true⟩ (some 190) = (⟨.degraded, 0, true, true⟩, false) ∧
    evaluate (Settings.cold 0) ⟨.degraded, 0, false, true⟩ (some 205) =
      (⟨.degraded, 1, false, true⟩, false) ∧
    evaluate (Settings.cold 0) ⟨.degraded, 1, false, true⟩ (some 210) =
      (⟨.normal, 0, false, true⟩, true) := by decide +kernel

/-- Section 9.1.1's division, at the check value known for its parameters. PRESUMED, log entry 29: the
spec writes no frame check out. -/
theorem test_frame_check :
    crc32 [0x31, 0x32, 0x33, 0x34, 0x35, 0x36, 0x37, 0x38, 0x39] = 0xFC891918#32 := by decide +kernel

/-! ## States and commands for the witnesses -/

/-- The address of section 10.7's node controller. -/
def controller : Address := 0x0B000001#32

/-- A command from the node controller on NP. -/
def sent (code : Byte) (params : List Byte) : Taken := { port := .np, source := controller, code, tag := 7, params }

/-- A command from a remote controller on LP3. -/
def remote (code : Byte) (params : List Byte) : Taken :=
  { port := .lp 3, source := 0x0C000002#32, code, tag := 7, params }

/-- A command frame in the intake queue. -/
def arrived (t : Taken) : IntakeFrame :=
  { port := t.port
    frame := originated t.source 0x7F000000#32 classCommand (t.code :: 0 :: (enc2 t.tag.toNat ++ t.params)) }

/-- The state with a command at the head of its intake queue. -/
def queued (s : State) (t : Taken) : State := { s with spu := { s.spu with intake := [arrived t] } }

theorem queued_atHead (s : State) (t : Taken) (h : s.spu.hold = none) : AtHead (queued s t) t [] :=
  ⟨h, _, 0, rfl, rfl, rfl⟩

/-- A command of this code is at the head and its sender holds this right. -/
def Meets (s : State) (t : Taken) (code : Byte) (r : Right) : Prop :=
  AtHead s t [] ∧ t.code = code ∧ Holds s t r

theorem sent_meets (s : State) (code : Byte) (params : List Byte) (r : Right) (h : s.spu.hold = none) :
    Meets (queued s (sent code params)) (sent code params) code r :=
  ⟨queued_atHead s _ h, rfl, rfl⟩

/-- The state a step gives; every step gives one. -/
def after (c : Instr) (s : State) : State :=
  match exec c s with
  | .next t => t
  | .fault _ => s
  | .refused _ => s

/-- The payloads that wait in a port's local egress queue. -/
def waiting (s : State) (p : Port) : List (List Byte) := (s.port p).localQueue.map (·.frame.payload)

/-- The part in a part state, else as after reset. -/
def inPart (p : PartState) : State :=
  { State.reset with stc := { State.reset.stc with part := p } }

/-- A link with nothing occupied. -/
def lineTo (lid : Word16) (remote : NodeId) (q : Nat) : Link :=
  { lid, remote, remoteLid := none, cost := 10, q := some q, occupied := 0, srlg := [], admin := .up
    cond := CondFields.fresh }

/-- A node entry. -/
def nodeAt (index : Nat) (id : NodeId) (life : NodeLife) (links : List Link) : NodeEntry :=
  { index, id, life, dialect := 1, seq := 40, regens := 0, transitQ := none, incomplete := false, links }

/-- Two nodes A and B, each with a link to the other. -/
def twoNodes : List NodeEntry :=
  [nodeAt 0 0x0A000021#32 (.live 1) [lineTo 1 0x0A000022#32 300],
   nodeAt 255 0x0A000022#32 (.live 60) [lineTo 1 0x0A000021#32 300]]

/-- A class that is valid, with section 4.9's figures. -/
def classBank : Bank :=
  { Bank.cold with classes := Bank.cold.classes.set 3 { valid := true, qReq := 220, margin := 10, regenCost := 20 } }

/-- The part in OPERATE with the two nodes and the class. -/
def network : State :=
  { inPart .operate with
    tst := { State.reset.tst with nodes := twoNodes }
    prb := { State.reset.prb with active := classBank } }

/-- A SUBMIT of width 4 in class 3 from A to B, with these options and priority. -/
def submission (priority options : Byte) : List Byte :=
  [priority, 4, 3, 0, 0, 0, 8, 0, options, 0, 0, 0, 0x0A, 0, 0, 0x21, 0x0A, 0, 0, 0x22, 0, 0, 0, 0, 0, 0, 0, 0]

/-- The enumerations of that SUBMIT. -/
def submissionCodes : SubmitCodes := ⟨.cost, .avoid, .none, .notice⟩

/-- The descriptor of that SUBMIT. -/
def request : Descriptor := submitDescriptor (sent 0x20 (submission 2 0)) submissionCodes

/-- An engine that runs that request, at its root label. -/
def searching : Engine := (network.accept request).engA

/-- An engine that waits to deliver that request's result. -/
def completing : Engine :=
  { searching with mode := .completing, result := some (unrunResult network request .stale) }

/-- A frame of a class, from the remote controller. -/
def frameOf (dest : Address) (cls : Byte) (payload : List Byte) : Frame :=
  originated 0x0C000002#32 dest cls payload

/-- A port's local egress queue filled to a length. -/
def filled (s : State) (p : Port) (n : Nat) : State :=
  s.setPort p { s.port p with localQueue := List.replicate n { tag := none, frame := frameOf 1 0x60 [] } }

/-- A held response for NP. -/
def heldOnNp : HeldResponse := { port := .np, frame := { tag := some 0xF0, frame := frameOf 1 0x51 [] } }

/-- The state with that response in the hold. -/
def withHold (s : State) : State := { s with spu := { s.spu with hold := some heldOnNp } }

/-- A watch entry in a state, of the remote controller, on A's link. -/
def watch (state : WatchState) : WatchEntry :=
  { id := 127, requester := 0x0C000002#32, tag := 9, desc := request, budget := 84085, regenCost := 20
    primary := [{ start := 0, width := 4, hops := [⟨⟨0x0A000021#32, 1⟩, 0x0A000022#32, false⟩] }]
    protection := none, state, reason := none, timer := 1, rerouteLeft := 0, submitPending := false }

/-- The network with that entry in use. -/
def watched (state : WatchState) : State :=
  { network with pwl :=
      { entries := [watch state], overlay := Overlay.claim { slots := [], regens := [] } (watch state) } }

/-- The blocks owe their action on a tick. -/
def owed (s : State) : State := s.setOffered ⟨true, true, true, true⟩

/-! ## Witnesses: each meets every hypothesis of the statement it is named after, clause by clause -/

theorem witness_StepRunsTheFrontCommand :
    ({ State.reset with pending := [.readStatus] }).pending = .readStatus :: [] := rfl

theorem witness_ResponseEntersIsHeldOrDiscarded :
    ((filled .reset .np 15).enabled .np = true ∧
      ((filled .reset .np 15).port .np).localQueue.length + (filled .reset .np 15).waiters .np < 16) ∧
    ((filled .reset .np 16).enabled .np = true ∧ 16 ≤ ((filled .reset .np 16).port .np).localQueue.length) ∧
    ({ State.reset with cfg := { Settings.cold 0 with portEnable := 0x0FF } }).enabled .np = false := by
  decide +kernel

theorem witness_ResponseEntersIsHeldOrDiscarded_waited :
    ∃ s : State, s = { filled .reset .np 15 with engA := completing } ∧ s.enabled .np = true ∧
      (s.port .np).localQueue.length = 15 ∧ s.waiters .np = 1 := ⟨_, rfl, by decide +kernel⟩

theorem witness_OccupiedHoldBlocksCommands :
    (withHold .reset).spu.hold = some heldOnNp ∧ rowOfCode 0x40 = some .ackEvents := ⟨rfl, rfl⟩

/-- An entry of the source list. -/
def source (address : Address) (configure : Bool) : SourceEntry :=
  { valid := true, address, rights := { query := true, request := true, configure } }

/-- The list with an entry of another source first and the remote controller's last. -/
def listed : State :=
  { State.reset with spu :=
    { State.reset.spu with
      sources := (State.reset.spu.sources.set 0 (source controller true)).set 7 (source 0x0C000002#32 false) } }

theorem witness_SenderWithoutTheRightIsDenied :
    (AtHead (queued .reset (remote 0x01 [])) (remote 0x01 []) [] ∧ rowOfCode 0x01 = some .readStatus ∧
      requiredRight 0x01 [] = some .query ∧ (queued .reset (remote 0x01 [])).senderHas (.lp 3) 0x0C000002 .query = false) ∧
    (sent 0x01 []).port = .np ∧ (remote 0x01 []).port = .lp 3 ∧
    (∀ k : Fin 8, State.reset.spu.sources[k].valid = false) ∧
    (listed.spu.sources[(7 : Fin 8)].valid = true ∧ listed.spu.sources[(7 : Fin 8)].address = 0x0C000002 ∧
      ∀ j : Fin 8, j < 7 → listed.spu.sources[j].valid = true → listed.spu.sources[j].address ≠ 0x0C000002) :=
  ⟨⟨queued_atHead _ _ rfl, rfl, rfl, rfl⟩, rfl, rfl, by decide +kernel, by decide +kernel⟩

/-- A state with a payload in the intake queue. -/
def payloadQueued (payload : List Byte) : State :=
  { State.reset with spu := { State.reset.spu with
      intake := [{ port := .np, frame := frameOf 0x7F000000 0x50 payload }] } }

theorem witness_UnknownOrMalformedIsAnswered :
    (payloadQueued [1, 2, 3]).spu.hold = none ∧
    (payloadQueued [1, 2, 3]).spu.intake = ⟨.np, frameOf 0x7F000000 0x50 [1, 2, 3]⟩ :: [] ∧
    (frameOf 0x7F000000 0x50 [1, 2, 3]).payload.length = 3 ∧
    (frameOf 0x7F000000 0x50 [0x41, 0, 0, 0]).payload.length = 4 ∧ rowOfCode 0x41 = none :=
  ⟨rfl, rfl, rfl, rfl, rfl⟩

theorem witness_StatusAndConfigAreRead :
    Meets (queued .reset (sent 0x01 [])) (sent 0x01 []) 0x01 .query ∧
    Meets (queued .reset (sent 0x02 [0x15])) (sent 0x02 [0x15]) 0x02 .query ∧
    itemOfCode 0x15 = some .eventEnable ∧ itemOfCode 0x16 = none :=
  ⟨sent_meets _ _ _ _ rfl, sent_meets _ _ _ _ rfl, rfl, rfl⟩

theorem witness_SetConfigRefusesInOrder :
    Meets (queued (inPart .operate) (sent 0x03 [0x01, 0, 0, 0, 0])) (sent 0x03 [0x01, 0, 0, 0, 0]) 0x03 .configure ∧
    (sent 0x03 [0x01, 0, 0, 0, 0]).params.length = 5 ∧ itemOfCode 0x00 = none ∧ itemOfCode 0x16 = none ∧
    (itemOfCode 0x01 = some .engineAddress ∧ standbyOnly .engineAddress = true ∧
      (inPart .operate).stc.part ≠ .standby) ∧
    (judgeItem (Settings.cold 0) .np .engineAddress 0 = none ∧ State.reset.stc.part = .standby) ∧
    (standbyOnly .twoWay = false ∧ judgeItem (Settings.cold 0) .np .twoWay 2 = none) :=
  ⟨sent_meets _ _ _ _ rfl, rfl, rfl, rfl, ⟨rfl, rfl, by decide⟩, ⟨rfl, rfl⟩, rfl, rfl⟩

theorem witness_NumericItemsClampAndTakeEffect :
    Meets (queued .reset (sent 0x03 [0x11, 0, 1, 0, 0])) (sent 0x03 [0x11, 0, 1, 0, 0]) 0x03 .configure ∧
    fieldNat [0x11, 0, 1, 0, 0] 1 4 = 65536 ∧
    [0x06, 0x07, 0x08, 0x09, 0x0A, 0x0F, 0x11, 0x12].map itemOfCode =
      [some .ageDiv, some .settleTime, some .defaultLifetime, some .holdDown, some .defaultLinkQ,
        some .degradePenalty, some .expansionLimit, some .reserveHold] :=
  ⟨sent_meets _ _ _ _ rfl, rfl, rfl⟩

theorem witness_MonitorItemsClampAndResetFilters :
    Meets (queued .reset (sent 0x03 [0x0B, 0, 0, 1, 0x91])) (sent 0x03 [0x0B, 0, 0, 1, 0x91]) 0x03 .configure ∧
    Meets (queued .reset (sent 0x03 [0x0C, 0, 0, 0, 179])) (sent 0x03 [0x0C, 0, 0, 0, 179]) 0x03 .configure ∧
    Meets (queued .reset (sent 0x03 [0x0D, 0, 0, 0, 3])) (sent 0x03 [0x0D, 0, 0, 0, 3]) 0x03 .configure ∧
    fieldNat [0x0B, 0, 0, 1, 0x91] 1 4 = 401 ∧
    [0x0B, 0x0C, 0x0D].map itemOfCode = [some .degradeLow, some .degradeHigh, some .filterDepth] :=
  ⟨sent_meets _ _ _ _ rfl, sent_meets _ _ _ _ rfl, sent_meets _ _ _ _ rfl, rfl, rfl⟩

theorem witness_DisabledPortIsEmptiedAndCounted :
    State.reset.spu.hold = none ∧ Port.lp 7 ≠ .np ∧ (withHold .reset).spu.hold = some heldOnNp ∧
    ({ State.reset with engA := completing }).engA.waitsFor = some .np ∧
    State.reset.engB.waitsFor ≠ some .np := by decide +kernel

theorem witness_SetStateOperateAndRefusals :
    Meets (queued .reset (sent 0x04 [1])) (sent 0x04 [1]) 0x04 .configure ∧
    (State.reset.stc.part = .standby ∧ State.reset.cfg.settleTime ≠ 0 ∧
      ({ State.reset with cfg := { Settings.cold 0 with settleTime := 0 } }).cfg.settleTime = 0 ∧
      (inPart .settling).stc.part ≠ .standby ∧ (2 : Byte) ≠ 0 ∧ (2 : Byte) ≠ 1) :=
  ⟨sent_meets _ _ _ _ rfl, by decide⟩

theorem witness_SetStateStandby :
    Meets (queued (inPart .settling) (sent 0x04 [0])) (sent 0x04 [0]) 0x04 .configure ∧
    (sent 0x04 [0]).params = 0 :: [] ∧ (inPart .settling).stc.part ≠ .standby ∧
    searching.searching = true ∧ searching.endOrder = .none :=
  ⟨sent_meets _ _ _ _ rfl, rfl, by decide, by decide +kernel, by decide +kernel⟩

theorem witness_RestartWarmClearsAndKeeps :
    Meets (queued (inPart .operate) (sent 0x05 [])) (sent 0x05 []) 0x05 .configure ∧
    (inPart .operate).atr.handed = none :=
  ⟨sent_meets _ _ _ _ rfl, rfl⟩

theorem witness_ReadCountersReadsThenClears :
    Meets (queued .reset (sent 0x06 [4, 8, 1])) (sent 0x06 [4, 8, 1]) 0x06 .configure ∧
    Meets (queued .reset (sent 0x06 [4, 9, 0])) (sent 0x06 [4, 9, 0]) 0x06 .query ∧
    (groupOfCode 4 8).isSome = true ∧ groupOfCode 4 9 = none ∧ groupOfCode 5 0 = none :=
  ⟨sent_meets _ _ _ _ rfl, sent_meets _ _ _ _ rfl, rfl, rfl, rfl⟩

theorem witness_SourceEntriesAreWrittenAndRead :
    Meets (queued .reset (sent 0x07 [7, 1, 0x0C, 0, 0, 2, 3])) (sent 0x07 [7, 1, 0x0C, 0, 0, 2, 3]) 0x07 .configure ∧
    (param1 [7, 1, 0x0C, 0, 0, 2, 3] 0 = (7 : Fin 8).val ∧ field32 [7, 1, 0x0C, 0, 0, 2, 3] 2 = 0x0C000002) ∧
    field32 [7, 1, 0xFF, 0xFF, 0xFF, 0xFF, 3] 2 = 0xFFFFFFFF ∧
    Meets (queued .reset (sent 0x08 [8])) (sent 0x08 [8]) 0x08 .query ∧ 8 ≤ (8 : Byte).toNat :=
  ⟨sent_meets _ _ _ _ rfl, by decide +kernel, by decide +kernel, sent_meets _ _ _ _ rfl, by decide⟩

theorem witness_StoreQueriesReadTheTables :
    Meets (queued network (sent 0x10 [0x0A, 0, 0, 0x21])) (sent 0x10 [0x0A, 0, 0, 0x21]) 0x10 .query ∧
    Meets (queued network (sent 0x11 [0x0A, 0, 0, 0x21, 0, 1])) (sent 0x11 [0x0A, 0, 0, 0x21, 0, 1]) 0x11 .query ∧
    Meets (queued network (sent 0x12 [0, 255])) (sent 0x12 [0, 255]) 0x12 .query ∧
    ((findNode twoNodes 0x0A000021).isSome = true ∧ findNode twoNodes 0x0A000023 = none ∧
      reservedId 0x0A000021 = false ∧ reservedId 0xFFFFFFFF = true ∧
      (findLink twoNodes ⟨0x0A000021, 1⟩).isSome = true ∧ findLink twoNodes ⟨0x0A000021, 2⟩ = none) ∧
    fieldNat [0, 255] 0 2 < 256 ∧ 256 ≤ fieldNat [1, 0] 0 2 :=
  ⟨sent_meets _ _ _ _ rfl, sent_meets _ _ _ _ rfl, sent_meets _ _ _ _ rfl, by decide +kernel, by decide +kernel,
    by decide +kernel⟩

theorem witness_ClearCrossingsClearsAndCounts :
    Meets (queued network (sent 0x13 [1, 0x0A, 0, 0, 0x21, 0, 1])) (sent 0x13 [1, 0x0A, 0, 0, 0x21, 0, 1]) 0x13
      .configure ∧
    Meets (queued network (sent 0x13 [0, 0, 0, 0, 0, 0, 0])) (sent 0x13 [0, 0, 0, 0, 0, 0, 0]) 0x13 .configure ∧
    (findLink twoNodes (paramLinkRef [1, 0x0A, 0, 0, 0x21, 0, 1] 1)).isSome = true ∧
    findLink twoNodes (paramLinkRef [1, 0x0A, 0, 0, 0x21, 0, 0] 1) = none :=
  ⟨sent_meets _ _ _ _ rfl, sent_meets _ _ _ _ rfl, by decide +kernel, by decide +kernel⟩

/-- The network with a full request queue. -/
def fullQueue : State :=
  { network with rq := { network.rq with queue := List.replicate 64 { request with tag := 8 } } }

theorem witness_SubmitRefusesInOrder :
    Meets (queued .reset (sent 0x20 [])) (sent 0x20 []) 0x20 .request ∧
    Meets (queued network (sent 0x20 (submission 2 0))) (sent 0x20 (submission 2 0)) 0x20 .request ∧
    State.reset.stc.part = .standby ∧ network.stc.part ≠ .standby ∧
    (submission 2 0).length = 28 ∧ 28 + 4 * param1 (submission 2 0) 26 + 6 * param1 (submission 2 0) 27 = 28 ∧
    (submitCodes ((submission 2 0).set 3 2) = none) ∧
    (submitCodes (submission 2 0) = some submissionCodes ∧ submitValuesGood network request = true) ∧
    network.standing (.mgmt controller) 7 = .notLive ∧
    ({ network with engA := searching }).standing (.mgmt controller) 7 ≠ .notLive ∧
    fullQueue.standing (.mgmt controller) 7 = .notLive ∧ 64 ≤ fullQueue.rq.queue.length :=
  ⟨sent_meets _ _ _ _ rfl, sent_meets _ _ _ _ rfl, by decide +kernel⟩

/-- The network with both engines at other requests and one that waits. -/
def busy : State :=
  { network with
    engA := { searching with request := some { request with tag := 1 } }
    engB := { searching with request := some { request with tag := 2 } }
    rq := { network.rq with queue := [{ request with tag := 3 }] } }

theorem witness_AcceptedSubmitTakesItsPlace :
    Meets (queued busy (sent 0x20 (submission 2 0))) (sent 0x20 (submission 2 0)) 0x20 .request ∧
    busy.stc.part ≠ .standby ∧ submitCodes (submission 2 0) = some submissionCodes ∧
    submitValuesGood busy request = true ∧ busy.standing (.mgmt controller) 7 = .notLive ∧
    busy.rq.queue.length < 64 ∧ busy.engA.mode ≠ .idle ∧ busy.engB.mode ≠ .idle :=
  ⟨sent_meets _ _ _ _ rfl, by decide +kernel⟩

theorem witness_SubmissionIsDispatchedAtOnce :
    network.stc.part ≠ .standby ∧ network.rq.queue = [] ∧ network.engA.mode = .idle ∧
    (network.prb.active.classEntry request.cls).valid = true ∧
    liveNode network.tst.nodes request.source = true ∧ liveNode network.tst.nodes request.dest = true ∧
    windowStarts (adjustWindow request.window) request.width ≠ 0#320 := by decide +kernel

theorem witness_CancelActsByStanding :
    Meets (queued busy (sent 0x21 [0, 0, 0, 0, 0])) (sent 0x21 [0, 0, 0, 0, 0]) 0x21 .request ∧
    (AtHead (queued listed (remote 0x21 [1, 0x0B, 0, 0, 1])) (remote 0x21 [1, 0x0B, 0, 0, 1]) [] ∧
      listed.senderHas (.lp 3) 0x0C000002 .request = true ∧ listed.senderHas (.lp 3) 0x0C000002 .configure = false ∧
      field32 [1, 0x0B, 0, 0, 1] 1 ≠ 0x0C000002) ∧
    (busy.standing (.mgmt controller) 3 = .queued ∧ busy.standing (.mgmt controller) 2 = .searching .b ∧
      (busy.engine .b).endOrder = .none ∧
      ({ network with engA := completing }).standing (.mgmt controller) 7 = .completing .a ∧
      busy.standing (.mgmt controller) 4 = .notLive) :=
  ⟨sent_meets _ _ _ _ rfl, ⟨queued_atHead _ _ rfl, by decide +kernel⟩, by decide +kernel⟩

theorem witness_WatchCommandsActOnTheEntry :
    Meets (queued (watched .reserved) (sent 0x22 [127])) (sent 0x22 [127]) 0x22 .request ∧
    Meets (queued (watched .reserved) (sent 0x23 [128])) (sent 0x23 [128]) 0x23 .query ∧
    128 ≤ (128 : Byte).toNat ∧ (127 : Byte).toNat < 128 ∧
    (findWatch (watched .reserved).pwl.entries 127 = some (watch .reserved) ∧
      findWatch (watched .reserved).pwl.entries 126 = none ∧ (watch .reserved).state ≠ .rerouting ∧
      (watch .reserved).requester ≠ controller) :=
  ⟨sent_meets _ _ _ _ rfl, sent_meets _ _ _ _ rfl, by decide, by decide, by decide +kernel⟩

theorem witness_WriteDialectEntryStagesTheEntry :
    Meets (queued .reset (sent 0x30 [8, 31, 1, 0x10, 8, 0, 0, 16, 0xFF, 0xFF]))
      (sent 0x30 [8, 31, 1, 0x10, 8, 0, 0, 16, 0xFF, 0xFF]) 0x30 .configure ∧
    (8 : Nat) = (7 : Fin 8).val + 1 ∧ (31 : Nat) = (31 : Fin 32).val ∧ targetOfCode 8 = some .linkAdmin ∧
    targetOfCode 9 = none ∧ (BitVec.ofNat 16 (fieldNat [0xFF, 0xFF] 0 2)).toInt = -1 :=
  ⟨sent_meets _ _ _ _ rfl, rfl, rfl, rfl, rfl, by decide⟩

theorem witness_ClearDialectAndWriteClass :
    Meets (queued .reset (sent 0x31 [8])) (sent 0x31 [8]) 0x31 .configure ∧
    (8 : Byte).toNat = (7 : Fin 8).val + 1 ∧ 9 ≤ (9 : Byte).toNat ∧
    Meets (queued .reset (sent 0x32 [15, 1, 1, 0x91, 0, 101, 0, 0])) (sent 0x32 [15, 1, 1, 0x91, 0, 101, 0, 0]) 0x32
      .configure ∧
    (15 : Nat) = (15 : Fin 16).val :=
  ⟨sent_meets _ _ _ _ rfl, rfl, by decide, sent_meets _ _ _ _ rfl, rfl⟩

theorem witness_ReadTableReturnsTheEntry :
    Meets (queued .reset (sent 0x33 [1, 0, 8, 31])) (sent 0x33 [1, 0, 8, 31]) 0x33 .query ∧
    Meets (queued .reset (sent 0x33 [0, 1, 15, 0])) (sent 0x33 [0, 1, 15, 0]) 0x33 .query ∧
    ((8 : Byte).toNat = (7 : Fin 8).val + 1 ∧ (31 : Byte).toNat = (31 : Fin 32).val ∧
      (15 : Byte).toNat = (15 : Fin 16).val ∧ 2 ≤ (2 : Byte).toNat ∧ 9 ≤ (9 : Byte).toNat ∧
      32 ≤ (32 : Byte).toNat ∧ 16 ≤ (16 : Byte).toNat) :=
  ⟨sent_meets _ _ _ _ rfl, sent_meets _ _ _ _ rfl, by decide⟩

/-- Three bytes: a class entry, and an unknown table. -/
theorem witness_ReadTableReturnsTheEntry_three :
    Meets (queued .reset (sent 0x33 [1, 1, 15])) (sent 0x33 [1, 1, 15]) 0x33 .query ∧
    Meets (queued .reset (sent 0x33 [0, 2, 0])) (sent 0x33 [0, 2, 0]) 0x33 .query ∧
    (1 : Byte) ≠ 0 ∧ (2 : Byte) ≠ 0 :=
  ⟨sent_meets _ _ _ _ rfl, sent_meets _ _ _ _ rfl, by decide⟩

theorem witness_CommitMarksAndDiscardCopiesBack :
    Meets (queued .reset (sent 0x34 [])) (sent 0x34 []) 0x34 .configure ∧
    Meets (queued .reset (sent 0x35 [])) (sent 0x35 []) 0x35 .configure :=
  ⟨sent_meets _ _ _ _ rfl, sent_meets _ _ _ _ rfl⟩

theorem witness_AckEventsReadsThenClears :
    Meets (queued .reset (sent 0x40 [0, 0, 8, 1])) (sent 0x40 [0, 0, 8, 1]) 0x40 .configure ∧
    (fieldNat [0, 0, 8, 1] 0 4).testBit (eventIndex .settled) = true :=
  ⟨sent_meets _ _ _ _ rfl, by decide +kernel⟩

theorem witness_RaisingAClass :
    EventClass.nodeAdded ≠ .settled ∧ State.reset.evu.queued .settled = false ∧
    ({ State.reset.evu with notices := [⟨.settled, 1, .none, .none⟩] }).queued .settled = true := by
  decide +kernel

theorem witness_FramesReadBackFromTheirBytes :
    (frameOf 1 0x60 (List.replicate 1500 0)).payload.length ≤ 1500 := by
  exact (List.length_replicate (n := 1500)).le

theorem witness_UnreadableFramesAreDiscarded :
    ({ State.reset with cfg := { Settings.cold 0 with portEnable := 0x1FE } }).enabled (.lp 0) = false ∧
    State.reset.enabled .np = true ∧ 8 ≤ (8 : Byte).toNat ∧ (8 : Byte) ≠ 0xFF ∧ State.reset.enabled (.lp 0) = true ∧
    (List.replicate 19 (0 : Byte)).length < 20 ∧
    (List.replicate 21 (0 : Byte)).length ≠ 20 + fieldNat (List.replicate 21 0) 10 2 := by decide +kernel

theorem witness_CommandsAreConsumed :
    State.reset.enabled (.lp 0) = true ∧ (frameOf 0x7F000000 0x50 [1, 0, 0, 0]).payload.length ≤ 1500 ∧
    (frameOf 0x7F000000 0x50 [1, 0, 0, 0]).goodCheck = true ∧
    (frameOf 0x7F000000 0x50 [1, 0, 0, 0]).dest = State.reset.cfg.engineAddress ∧
    (frameOf 0x7F000000 0x50 [1, 0, 0, 0]).cls = 0x50 := by decide +kernel

theorem witness_LinePortFramesPassToTheNodePort :
    (frameOf 1 0x41 [3]).goodCheck = true ∧ (frameOf 1 0x41 [3]).cls = 0x41 ∧
    ({ frameOf 1 0x50 [] with check := 0 }).goodCheck = false ∧ (frameOf 1 0x50 []).goodCheck = true ∧
    (frameOf 1 0x50 []).dest ≠ State.reset.cfg.engineAddress := by decide +kernel

/-- NP with a frame in both queues, as LOCAL was served last. -/
def bothQueues : State :=
  State.reset.setPort .np { State.reset.port .np with
    transit := [{ tag := some 2, frame := frameOf 1 0x60 [1] }]
    localQueue := [{ tag := some 0xF0, frame := frameOf 1 0x51 [2] }] }

theorem witness_EgressAlternates :
    bothQueues.enabled .np = true ∧ (bothQueues.port .np).transmitting = none ∧
    (bothQueues.port .np).transit = ⟨some 2, frameOf 1 0x60 [1]⟩ :: [] ∧
    (bothQueues.port .np).lastServed = .localQueue ∧
    ((filled .reset .np 1).port .np).localQueue = ⟨none, frameOf 1 0x60 []⟩ :: [] ∧
    ((filled .reset .np 1).port .np).transit = [] ∧
    ((after (.egressTake .np) bothQueues).port .np).transmitting.isSome = true := by decide +kernel

/-- A notice that waits, to an address. -/
def noticed : State :=
  { State.reset with
    cfg := { Settings.cold 0 with noticeAddress := controller }
    evu := (State.reset.evu.raise true .settled .none .none) }

theorem witness_FreedPlaceGoesInOrder :
    ((withHold .reset).spu.hold = some heldOnNp ∧ ((filled (withHold .reset) .np 15).port .np).localQueue.length < 16) ∧
    (completing.mode = .completing ∧ completing.request = some request ∧ request.ingress = some .np ∧
      request.requester = .mgmt controller ∧ completing.result.isSome = true) ∧
    (({ State.reset with engA := completing }).engA.waitsFor = some .np ∧
      State.reset.spu.hold.map (·.port) ≠ some .np ∧ State.reset.rq.queue = []) ∧
    (noticed.evu.notices = ⟨.settled, 1, .none, .none⟩ :: [] ∧ noticed.cfg.noticePort = .np ∧
      noticed.enabled .np = true ∧ noticed.waiters .np = 0 ∧ (withHold noticed).waiters .np ≠ 0) := by
  decide +kernel

theorem witness_TimebaseCountsIntervals :
    State.reset.stc.offered = TickOffer.none ∧ State.reset.cfg.ageDiv < 9 + 1 ∧ ¬ State.reset.cfg.ageDiv < 8 + 1 := by
  decide

theorem witness_TicksReachNoBlockInStandby :
    State.reset.stc.part = .standby ∧ Instr.settleTimerExpiry ∈ [Instr.timebaseInterval, .settleTimerExpiry] := by
  decide

/-- The network with B withdrawn at its last tick, and a tick owed. -/
def ageing : State :=
  owed { network with tst := { network.tst with nodes :=
    [nodeAt 0 0x0A000021#32 (.live 1) [lineTo 1 0x0A000022#32 300],
     nodeAt 255 0x0A000022#32 (.withdrawn 1) [lineTo 1 0x0A000021#32 300]] } }

theorem witness_StoreAgesItsNodes :
    ageing.stc.part ≠ .standby ∧ ageing.stc.offered.store = true ∧
    (nodeAt 0 0x0A000021#32 (.live 1) [lineTo 1 0x0A000022#32 300] ∈ ageing.tst.nodes) ∧
    nodeAt 255 0x0A000022#32 (.withdrawn 1) [lineTo 1 0x0A000021#32 300] ∈ ageing.tst.nodes :=
  ⟨by decide, rfl, by simp [ageing, owed, State.setOffered], by simp [ageing, owed, State.setOffered]⟩

theorem witness_ReservationExpires :
    (owed (watched .reserved)).stc.part ≠ .standby ∧ (owed (watched .reserved)).stc.offered.watch = true ∧
    (owed (watched .reserved)).pwl.entries = [watch .reserved] ∧ (watch .reserved).state = .reserved ∧
    (watch .reserved).timer ≤ 1 := ⟨by decide, rfl, rfl, rfl, by decide⟩

/-- The last tick of the epoch timer at the last epoch number, in LEAD. -/
def lastEpoch : State :=
  owed { inPart .settling with
    cfg := { Settings.cold 0 with epochMode := .lead }
    epc := { State.reset.epc with number := 65535, timer := 1 } }

theorem witness_EpochTimerTakesAnEpochEvent :
    lastEpoch.stc.part ≠ .standby ∧ lastEpoch.stc.offered.epoch = true ∧ lastEpoch.cfg.epochMode ≠ .follow ∧
    lastEpoch.epc.timer ≤ 1 ∧ lastEpoch.epc.number < 65536 ∧ lastEpoch.cfg.epochMode = .lead ∧
    lastEpoch.enabled lastEpoch.cfg.epochPort = true ∧ lastEpoch.hasPlace lastEpoch.cfg.epochPort = true := by
  decide +kernel

theorem witness_SettleTimerBringsOperate :
    (owed (inPart .settling)).stc.part = .settling ∧ (owed (inPart .settling)).stc.offered.settle = true ∧
    (owed (inPart .settling)).stc.settleTimer ≤ 1 := by decide

/-- The part in SETTLING and FOLLOW, with a tick owed by every block. -/
def following : State := owed { inPart .settling with cfg := { Settings.cold 0 with epochMode := .follow } }

theorem witness_AgeTickReachesTheFourBlocks :
    following.stc.offered = { store := true, watch := true, epoch := true, settle := true } ∧
    following.stc.part ≠ .standby ∧ following.pwl.entries = [] ∧ following.cfg.epochMode = .follow :=
  ⟨rfl, by decide, rfl, rfl⟩

/-- The network with a dialect of one valid entry, and copies that wait. -/
def translating (copy : List Byte) : State :=
  { network with
    atr := { network.atr with queue := [copy] }
    prb := { network.prb with active := { classBank with
      dialects := classBank.dialects.set 2 (classBank.dialects[2].set 31 (entry .linkQ 5 1 0)) } } }

/-- A copy of dialect 3 from A with this last byte of its sequence and no attributes or links. -/
def copyOf (seq : Byte) : List Byte := [3, 0x0A, 0, 0, 0x21, 0, 0, 0, seq, 0, 0]

theorem witness_TranslationTakesTheHeadCopy :
    (translating (copyOf 41)).stc.part ≠ .standby ∧ (translating (copyOf 41)).atr.handed = none ∧
    (translating [9]).atr.queue = (9 :: []) :: [] ∧ 9 ≤ (9 : Byte).toNat ∧
    Machine.translate (translating [3]) [3] = .malformed ∧
    Machine.translate (translating (copyOf 39)) (copyOf 39) = .stale ∧
    Machine.translate (translating (copyOf 40)) (copyOf 40) =
      .record (.refresh 0x0A000021 40 60) ⟨0, 0, false⟩ := by decide +kernel

/-- A FULL record of an unknown node with a lifetime. -/
def newNode (origin : NodeId) (lifetime : Nat) : FullRecord :=
  { origin, dialect := 3, seq := 1, lifetime, regens := none, transitQ := none, incomplete := false, items := [] }

/-- The network with a record handed over. -/
def handed (r : UpdateRecord) : State := { network with atr := { network.atr with handed := some r } }

theorem table_sound : TableSound twoNodes := by
  refine ⟨by decide +kernel, by decide +kernel, fun n hn => ?_⟩
  simp only [twoNodes, List.mem_cons, List.not_mem_nil, or_false] at hn
  rcases hn with rfl | rfl <;> simp [nodeAt, LifeSound, lineTo]

theorem witness_RecordOfAnUnknownOrigin :
    (handed (.full (newNode 0x0A000023 1))).atr.handed = some (.full (newNode 0x0A000023 1)) ∧
    TableSound (handed (.full (newNode 0x0A000023 1))).tst.nodes ∧
    reservedId 0x0A000023 = false ∧ findNode twoNodes 0x0A000023 = none ∧ lowestFree twoNodes = some 1 ∧
    reservedId 0xFFFFFFFF = true ∧ findNode twoNodes 0xFFFFFFFF = none :=
  ⟨rfl, table_sound, by decide +kernel⟩

theorem witness_RefreshAndFlushOfAKnownNode :
    (handed (.refresh 0x0A000021 40 1)).atr.handed = some (.refresh 0x0A000021 40 1) ∧
    TableSound (handed (.refresh 0x0A000021 40 1)).tst.nodes ∧ reservedId 0x0A000021 = false ∧
    findNode network.tst.nodes 0x0A000021 = some (nodeAt 0 0x0A000021#32 (.live 1) [lineTo 1 0x0A000022#32 300]) ∧
    findNode ageing.tst.nodes 0x0A000022 =
      some (nodeAt 255 0x0A000022#32 (.withdrawn 1) [lineTo 1 0x0A000021#32 300]) ∧
    (handed (.full (newNode 0x0A000021 0))).atr.handed = some (.full (newNode 0x0A000021 0)) :=
  ⟨rfl, table_sound, by decide, by decide +kernel, by decide +kernel, rfl⟩

theorem witness_EvaluationFollowsTheThresholds :
    (Settings.cold 0).degradeLow ≤ 180 ∧ 179 < (Settings.cold 0).degradeLow ∧ 0 + 1 ≠ (Settings.cold 0).filterDepth ∧
    1 + 1 = (Settings.cold 0).filterDepth ∧ 199 < (Settings.cold 0).degradeHigh ∧ (Settings.cold 0).degradeHigh ≤ 200 := by
  decide

/-- The network with engine A at the request. -/
def searchingA : State := { network with engA := searching }

/-- The root label and the label it makes at B. -/
def secondPool : List Label := (after (.expansion .a) searchingA).engA.pool

theorem witness_ExpansionTakesTheFirstLabel :
    (searchingA.engine .a).request = some request ∧ (searchingA.engine .a).mode = .primary ∧
    (searchingA.engine .a).endOrder = .none ∧
    (firstOpen request.order (searchingA.engine .a).pool).map (·.node) = some 0x0A000021 ∧
    (firstOpen request.order (after (.expansion .a) searchingA).engA.pool).map (·.node) = some request.dest ∧
    (request.diversity = .none ∧ request.hold = false ∧ request.requester = .mgmt controller ∧
      request.ingress = some .np ∧ searching.touched = [] ∧ searching.overflow = false ∧ searchingA.rq.queue = []) ∧
    (usable true twoNodes (nodeAt 0 0x0A000021#32 (.live 1) []) (lineTo 1 0x0A000022#32 300) = true ∧
      usable true twoNodes (nodeAt 0 0x0A000021#32 (.live 1) []) (lineTo 1 0x0A000023#32 300) = false ∧
      excludedLink searching request ⟨0x0A000021, 1⟩ (lineTo 1 0x0A000022#32 300) = false) := by
  decide +kernel

/-- The network with engine A at the request and an order to end. -/
def ordered (o : EndOrder) : State := { network with engA := { searching with endOrder := o } }

theorem witness_EngineTakesItsEndOrder :
    [EndOrder.release, .cancel, .standby].all (fun o =>
      ((ordered o).engine .a).request = some request && ((ordered o).engine .a).mode = .primary &&
      (ordered o).rq.queue.isEmpty && ((ordered o).engine .a).endOrder = o && (ordered o).enabled .np &&
      (((ordered o).port .np).localQueue.length + (ordered o).waiters .np < 16 : Bool)) = true ∧
    request.requester = .mgmt controller ∧ request.ingress = some .np := by decide +kernel

theorem witness_NoiseTermIsRounded : (400 : Nat) ≤ 400 := le_refl _

/-- With nothing held, the entry of a held response does not arise. -/
theorem steps_idle (s : State) (h : s.spu.hold = none) : Steps s s :=
  ⟨.heldResponseEnters, by simp [exec, execHeldResponseEnters, State.heldEnters, h]⟩

theorem reset_config_sound : ConfigSound State.reset.cfg := by unfold ConfigSound; decide +kernel

theorem witness_EveryStepKeepsTheConfigurationSound :
    ConfigSound State.reset.cfg ∧ Steps State.reset State.reset := ⟨reset_config_sound, steps_idle _ rfl⟩

theorem cold_codes_distinct : CodesDistinct Bank.cold := by
  intro d i j _ hi
  simp [Bank.cold, DialectEntry.cold] at hi

theorem witness_EveryStepKeepsDialectCodesDistinct :
    CodesDistinct State.reset.prb.active ∧ CodesDistinct State.reset.prb.staged ∧ Steps State.reset State.reset :=
  ⟨cold_codes_distinct, cold_codes_distinct, steps_idle _ rfl⟩

/-- A commit that waits for the epoch event of `lastEpoch`. -/
def committed : State := { lastEpoch with prb := { active := Bank.cold, staged := classBank, commitPending := true } }

theorem witness_ActiveBankChangesOnlyAtAnEpoch :
    ∃ t, exec .epochTimerExpiry committed = .next t ∧ t.prb.active ≠ committed.prb.active :=
  ⟨_, rfl, by decide +kernel⟩

theorem noticed_sound : NoticesSound noticed.evu := by unfold NoticesSound; decide +kernel

theorem witness_EveryStepKeepsTheNoticeQueueSound : NoticesSound noticed.evu ∧ Steps noticed noticed :=
  ⟨noticed_sound, steps_idle _ rfl⟩

theorem reset_queues_within : QueuesWithin State.reset := by
  refine ⟨by decide, by decide, by decide, fun p => ?_⟩
  cases p with
  | lp i => revert i; decide +kernel
  | np => decide +kernel

theorem witness_EveryStepKeepsTheQueuesWithin : QueuesWithin State.reset ∧ Steps State.reset State.reset :=
  ⟨reset_queues_within, steps_idle _ rfl⟩

theorem linkTable_sound : LinkTableSound network.cfg.filterDepth twoNodes := by
  refine ⟨by decide +kernel, fun n hn => ?_⟩
  simp only [twoNodes, List.mem_cons, List.not_mem_nil, or_false] at hn
  rcases hn with rfl | rfl <;>
    simp only [NodeInRange, LinkInRange, QInRange, SrlgInRange, nodeAt, lineTo, List.mem_singleton,
      forall_eq, Option.some.injEq, forall_eq'] <;> decide +kernel

theorem witness_EveryStepKeepsTheStoreSound : StoreSound network ∧ Steps network network :=
  ⟨⟨reset_config_sound, table_sound, linkTable_sound, fun _ h => nomatch h⟩, steps_idle _ rfl⟩

/-- A record with every value at the top of its range. -/
def topRecord : FullRecord :=
  { newNode 0x0A000023 255 with
    dialect := 8, regens := some 15, transitQ := some 400
    items := [{ lid := 0xFFFF, remote := 0x0A000021, remoteLid := some 0xFFFF, cost := some 65535, q := some 400
                occupied := some (slotRange 0 320), srlg := some [1, 2, 3, 4], admin := some .down }] }

theorem witness_EveryStepKeepsTheStoreSound_top :
    StoreSound (handed (.full topRecord)) ∧ ∃ t, exec .recordApplication (handed (.full topRecord)) = .next t ∧
      (t.tst.nodes.flatMap (·.links)).map (fun l => (l.cost, l.q, l.srlg.length)) =
        [(10, some 300, 0), (65535, some 400, 4), (10, some 300, 0)] := by
  refine ⟨⟨reset_config_sound, table_sound, linkTable_sound, fun r h => ?_⟩, _, rfl, by decide +kernel⟩
  cases h
  simp only [RecordSound, ItemInRange, QInRange, SrlgInRange, topRecord, newNode, List.mem_singleton,
    forall_eq, Option.some.injEq, forall_eq']
  decide +kernel

theorem watched_claims_stand : ClaimsStand (watched .reserved).pwl := by unfold ClaimsStand; decide +kernel

theorem witness_EveryStepKeepsReservedClaims :
    ClaimsStand (watched .reserved).pwl ∧ Steps (watched .reserved) (watched .reserved) :=
  ⟨watched_claims_stand, steps_idle _ rfl⟩

theorem witness_StandbyOnlyItemsChangeOnlyInStandby :
    ∃ t, exec .timebaseInterval network = .next t ∧ network.stc.part ≠ .standby := ⟨_, rfl, by decide⟩

theorem witness_PartStateChangesOnlyAsListed :
    ∃ t, exec .settleTimerExpiry (owed (inPart .settling)) = .next t ∧
      t.stc.part ≠ (owed (inPart .settling)).stc.part := ⟨_, rfl, by decide +kernel⟩

/-! ## Witnesses of further clauses, each named after its statement and the clause -/

theorem witness_UnknownOrMalformedIsAnswered_shortParameters :
    (Meets (queued .reset (sent 0x30 (List.replicate 9 1))) (sent 0x30 (List.replicate 9 1)) 0x30 .configure ∧
      rowOfCode 0x30 = some .writeDialectEntry ∧ (List.replicate 9 (1 : Byte)).length < 10) ∧
    (Meets (queued .reset (sent 0x33 [2, 2])) (sent 0x33 [2, 2]) 0x33 .query ∧ rowOfCode 0x33 = some .readTable) ∧
    (Meets (queued .reset (sent 0x33 [2, 0, 8])) (sent 0x33 [2, 0, 8]) 0x33 .query ∧
      (sent 0x33 [2, 0, 8]).params.length = 3 ∧ (sent 0x33 [2, 0, 8]).params.getD 1 0 = 0) ∧
    (∀ code params r, requiredRight code params = some r →
      Holds (queued .reset (sent code params)) (sent code params) r) :=
  ⟨⟨sent_meets _ _ _ _ rfl, rfl, by decide⟩, ⟨sent_meets _ _ _ _ rfl, rfl⟩, ⟨sent_meets _ _ _ _ rfl, rfl, rfl⟩,
    fun _ _ _ _ => rfl⟩

/-- A SET CONFIG of an item to a value. -/
def setItem (code : Byte) (v : Nat) : Taken := sent 0x03 (code :: enc4 v)

theorem setItem_meets (s : State) (code : Byte) (v : Nat) (h : s.spu.hold = none) :
    Meets (queued s (setItem code v)) (setItem code v) 0x03 .configure ∧ 5 ≤ (setItem code v).params.length :=
  ⟨sent_meets _ _ _ _ h, by simp [setItem, sent, enc4, encodeNat]⟩

theorem witness_NumericItemsClampAndTakeEffect_otherItems :
    (Meets (queued .reset (setItem 0x01 0xFFFFFFFE)) (setItem 0x01 0xFFFFFFFE) 0x03 .configure ∧
      (queued .reset (setItem 0x01 0xFFFFFFFE)).stc.part = .standby) ∧
    [setItem 0x01 0xFFFFFFFE, setItem 0x03 2, setItem 0x04 8, setItem 0x05 256, setItem 0x05 0, setItem 0x0E 2,
      setItem 0x14 8, setItem 0x10 0].map (fun t => (t.params.getD 0 0, fieldNat t.params 1 4)) =
        [(0x01, 0xFFFFFFFE), (0x03, 2), (0x04, 8), (0x05, 256), (0x05, 0), (0x0E, 2), (0x14, 8), (0x10, 0)] ∧
    (portIndex .np).val = 8 ∧
    (Meets (queued network (setItem 0x10 0)) (setItem 0x10 0) 0x03 .configure ∧
      (queued network (setItem 0x10 0)).tst.nodes = twoNodes) :=
  ⟨⟨(setItem_meets _ _ _ rfl).1, rfl⟩, by decide +kernel, rfl, (setItem_meets _ _ _ rfl).1, rfl⟩

theorem witness_EventItemsChangeTheNoticeQueue_setConfig :
    (Meets (queued .reset (setItem 0x15 0x1FFF)) (setItem 0x15 0x1FFF) 0x03 .configure ∧
      (setItem 0x15 0x1FFF).params.getD 0 0 = 0x15 ∧ fieldNat (setItem 0x15 0x1FFF).params 1 4 = 0x1FFF) ∧
    (Meets (queued .reset (setItem 0x13 0)) (setItem 0x13 0) 0x03 .configure ∧
      (setItem 0x13 0).params.getD 0 0 = 0x13) :=
  ⟨⟨(setItem_meets _ _ _ rfl).1, rfl, by decide +kernel⟩, (setItem_meets _ _ _ rfl).1, rfl⟩

theorem witness_DisabledPortIsEmptiedAndCounted_setConfig :
    Meets (queued .reset (setItem 0x02 0x100)) (setItem 0x02 0x100) 0x03 .configure ∧
    (setItem 0x02 0x100).params.getD 0 0 = 0x02 ∧ (queued .reset (setItem 0x02 0x100)).stc.part = .standby ∧
    BitVec.ofNat 9 (fieldNat (setItem 0x02 0x100).params 1 4) = 0x100#9 ∧ portIn 0x100#9 .np = true ∧
    (portIn State.reset.cfg.portEnable (.lp 7) && !portIn 0x100#9 (.lp 7)) = true ∧
    (portIn State.reset.cfg.portEnable .np && !portIn 0x100#9 .np) = false :=
  ⟨(setItem_meets _ _ _ rfl).1, rfl, rfl, by decide +kernel⟩

theorem witness_AcceptedSubmitTakesItsPlace_idleEngine :
    Meets (queued network (sent 0x20 (submission 8 2))) (sent 0x20 (submission 8 2)) 0x20 .request ∧
    network.stc.part ≠ .standby ∧ submitCodes (submission 8 2) = some submissionCodes ∧
    submitValuesGood network (submitDescriptor (sent 0x20 (submission 8 2)) submissionCodes) = true ∧
    network.standing (.mgmt controller) 7 = .notLive ∧ network.rq.queue = [] ∧ network.engA.mode = .idle ∧
    submitClamped (submission 8 2) = true ∧ submitClamped (submission 7 2) = false :=
  ⟨sent_meets _ _ _ _ rfl, by decide +kernel⟩

theorem witness_SubmissionIsDispatchedAtOnce_completed :
    (network.engine .a).mode = .idle ∧ ({ network with engA := searching }).engA.mode ≠ .idle ∧
    (network.engine .b).mode = .idle ∧ request.requester = .mgmt controller ∧ request.ingress = some .np ∧
    network.enabled .np = true ∧ ((filled network .np 15).port .np).localQueue.length < 16 ∧
    (filled network .np 15).waiters .np = 0 ∧
    (network.prb.active.classEntry 4).valid = false ∧ (network.prb.active.classEntry 3).valid = true ∧
    ¬(liveNode network.tst.nodes 0x0A000021#32 = true ∧ liveNode network.tst.nodes 0x0A000023#32 = true) ∧
    windowStarts (adjustWindow (some ⟨40, 3⟩)) 4 = 0#320 := by decide +kernel

/-- The request that waits in `busy`. -/
def queuedRequest : Descriptor := { request with tag := 3 }

theorem witness_CancelActsByStanding_queued :
    (sent 0x21 [0, 0, 0, 0, 0]).params.length = 5 ∧
    busy.rq.queue.find? (fun x => x.requester == .mgmt controller && x.tag == 3) = some queuedRequest ∧
    queuedRequest.ingress = some .np ∧
    (filled busy .np 15).enabled .np = true ∧
    (((filled busy .np 15).port .np).localQueue.length + (filled busy .np 15).waiters .np < 16) ∧
    16 ≤ ((filled busy .np 16).port .np).localQueue.length + (filled busy .np 16).waiters .np ∧
    ({ busy with cfg := { busy.cfg with portEnable := 0x0FF } }).enabled .np = false := by decide +kernel

theorem witness_CommandsAreConsumed_nodePort :
    State.reset.enabled .np = true ∧ (7 : Byte).toNat < 8 ∧ (List.replicate 8 (arrived (sent 1 []))).length = 8 := by
  decide +kernel

/-- The part in FOLLOW, its EPOCH_PORT LP0. -/
def followingMarks : State := { network with cfg := { network.cfg with epochMode := .follow } }

theorem witness_LinePortFramesPassToTheNodePort_everyPort :
    (network.enabled .np = true ∧ (frameOf 1 0x60 []).payload.length ≤ 1500 ∧ (frameOf 1 0x60 []).cls ≠ 0x50 ∧
      PassesTo network .np (some 0xFF) (.lp 7) none ∧ PassesTo network .np (some 7) (.lp 7) none ∧
      PassesTo network (.lp 7) none .np (some 7)) ∧
    ((frameOf 1 0x41 []).goodCheck = true ∧ (frameOf 1 0x41 []).cls = 0x41 ∧ network.stc.part ≠ .standby ∧
      network.atr.queue.length < 32) ∧
    (followingMarks.cfg.epochMode = .follow ∧ followingMarks.cfg.epochPort = .lp 0 ∧
      followingMarks.stc.part ≠ .standby ∧
      [[5], [0, 0], [0, 1]].map (fun p => ((frameOf 1 0x5E p).goodCheck, p.length)) =
        [(true, 1), (true, 2), (true, 2)] ∧
      followingMarks.epc.number = fieldNat [0, 0] 0 2 ∧ fieldNat [0, 1] 0 2 ≠ followingMarks.epc.number) := by
  refine ⟨⟨by decide +kernel, by decide, by decide, ?_, ?_, ?_⟩, by decide +kernel, by decide +kernel⟩
  · exact Or.inr ⟨0xFF, 7, rfl, rfl, rfl, rfl, Or.inr ⟨rfl, by decide +kernel⟩⟩
  · exact Or.inr ⟨7, 7, rfl, rfl, rfl, rfl, Or.inl rfl⟩
  · exact Or.inl ⟨7, rfl, rfl, rfl⟩

theorem ageing_sound : TableSound ageing.tst.nodes := by
  refine ⟨by decide +kernel, by decide +kernel, fun n hn => ?_⟩
  simp only [ageing, owed, State.setOffered, List.mem_cons, List.not_mem_nil, or_false] at hn
  rcases hn with rfl | rfl <;> simp [nodeAt, LifeSound, lineTo]

theorem witness_StoreAgesItsNodes_event :
    TableSound ageing.tst.nodes ∧
    (ageing.tst.nodes.filter (fun n => match n.life with
      | .live a => decide (a ≤ 1)
      | .withdrawn _ => false)).map (·.id) = [0x0A000021#32] ∧
    (ageing.tst.nodes.filter (fun n => match n.life with
      | .live _ => false
      | .withdrawn h => decide (h ≤ 1))).map (·.id) = [0x0A000022#32] :=
  ⟨ageing_sound, by decide +kernel, by decide +kernel⟩

/-- Watch entries 0 and 127 in the states given, the first with its timer at 2. -/
def watchedTwo (first last : WatchState) : State :=
  { network with pwl :=
      { entries := [{ watch first with id := 0, timer := 2 }, watch last]
        overlay := Overlay.claim (Overlay.claim { slots := [], regens := [] } { watch first with id := 0 }) (watch last) } }

theorem watchedTwo_sound (a b : WatchState) : WatchIdsSound (watchedTwo a b).pwl := by
  refine ⟨by simp [watchedTwo, watch], fun e he => ?_⟩
  simp only [watchedTwo, List.mem_cons, List.not_mem_nil, or_false] at he
  rcases he with rfl | rfl <;> simp [watch]

theorem witness_ReservationExpires_ticks :
    (WatchIdsSound (owed (watchedTwo .reserved .reserved)).pwl ∧
      (owed (watchedTwo .reserved .reserved)).stc.offered.watch = true ∧
      ((owed (watchedTwo .reserved .reserved)).pwl.entries.filter
        (fun w => w.state == .reserved && decide (w.timer ≤ 1))).map (·.id) = [127] ∧
      ∀ w ∈ (owed (watchedTwo .reserved .reserved)).pwl.entries, w.state = .rerouting → w.submitPending = false) ∧
    (let s := (watchedTwo .reserved .rerouting).withEntries
        [{ watch .reserved with id := 0, timer := 2 }, { watch .rerouting with submitPending := true }]
     s.pwl.entries.filter (fun x => x.state == .rerouting && x.submitPending) =
        [{ watch .rerouting with submitPending := true }] ∧
      (∀ x ∈ s.pwl.entries, x.state = .reserved → 2 ≤ x.timer) ∧ s.rq.queue.length < 64) ∧
    64 ≤ fullQueue.rq.queue.length :=
  ⟨⟨watchedTwo_sound _ _, rfl, by decide +kernel, by decide +kernel⟩, by decide +kernel, by decide +kernel⟩

/-- The report of A's link's occupancy, and of its link freed. -/
def occupancyReport : Report := { element := .link ⟨0x0A000021#32, 1⟩, kind := .occupancy }

/-- The network with the watch entry and an occupied, or a freed, link. -/
def relinked (links : List Link) (state : WatchState) : State :=
  { watchedTwo .stalled state with tst := { network.tst with nodes :=
      [nodeAt 0 0x0A000021#32 (.live 1) links,
       nodeAt 255 0x0A000022#32 (.live 60) [lineTo 1 0x0A000021#32 300]] } }

theorem witness_ReservationExpires_batch :
    (relinked [] .active).pwl.entries = [{ watch .stalled with id := 0, timer := 2 }] ++ watch .active :: [] ∧
    (({ watch .stalled with id := 0, timer := 2 }).state ≠ .reserved ∧
      ({ watch .stalled with id := 0, timer := 2 }).state ≠ .active) ∧
    Concerned [occupancyReport] (watch .active) ∧ ¬Concerned [] (watch .active) ∧
    (violationCheck (relinked [] .active) (watch .active) = some .linkGone ∧ (watch .active).desc.action = .notice ∧
      ({ request with action := .recompute }).action = .recompute ∧
      (relinked [] .active).stc.part ≠ .standby ∧ busy.engA.mode ≠ .idle ∧ busy.engB.mode ≠ .idle) ∧
    (let s := relinked [{ lineTo 1 0x0A000022#32 300 with occupied := slotRange 0 4 }] .reserved
     violationCheck s (watch .reserved) = none ∧ occupancyReported [occupancyReport] (watch .reserved) = true ∧
       confirmed s (watch .reserved) = true) :=
  ⟨rfl, by decide, ⟨occupancyReport, List.mem_singleton.2 rfl, Or.inr (Or.inr
    ⟨⟨⟨0x0A000021#32, 1⟩, 0x0A000022#32, false⟩, by simp [watch, WatchEntry.paths, pathHops], Or.inl rfl⟩)⟩,
    by simp [Concerned], by decide +kernel, by decide +kernel⟩

/-- The path of the watch entry. -/
def heldPath : HeldPath := [{ start := 0, width := 4, hops := [⟨⟨0x0A000021#32, 1⟩, 0x0A000022#32, false⟩] }]

/-- All 128 watch ids in use. -/
def fullWatch : State := network.withEntries ((List.range 128).map (fun k => { watch .active with id := k }))

theorem witness_ReservationExpires_holds :
    (request.requester = .mgmt controller ∧ reservationCheck network [heldPath] = true ∧
      reservationCheck (watched .reserved) [heldPath] = false ∧ (0 : Nat) < 128 ∧
      ∀ w ∈ (watched .reserved).pwl.entries, w.id ≠ 0) ∧
    (∀ k, k < 128 → ∃ w ∈ fullWatch.pwl.entries, w.id = k) ∧
    (WatchIdsSound (watchedTwo .active .rerouting).pwl ∧ (watch .rerouting).request.requester = .watchList ∧
      (watch .rerouting).request.tag.toNat = (watch .rerouting).id ∧ (watch .rerouting).state = .rerouting) :=
  ⟨by decide +kernel, fun k h => ⟨{ watch .active with id := k },
    List.mem_map.2 ⟨k, List.mem_range.2 h, rfl⟩, rfl⟩, watchedTwo_sound _ _, by decide +kernel⟩

theorem witness_ReservationExpires_rerouteResults :
    WatchIdsSound (watchedTwo .active .rerouting).pwl ∧
    (watchedTwo .active .rerouting).pwl.entries =
      [{ watch .active with id := 0, timer := 2 }] ++ watch .rerouting :: [] ∧
    (watch .rerouting).request.tag.toNat = (watch .rerouting).id ∧
    (watch .rerouting).desc.rerouteLimit = 0 ∧ ({ request with rerouteLimit := 3 }).rerouteLimit ≠ 0 ∧
    (watch .rerouting).rerouteLeft ≤ 1 ∧ 2 ≤ ({ watch .rerouting with rerouteLeft := 2 }).rerouteLeft ∧
    (unrunResult network request .stale).primary ∈
      [Status.noPath, .exhausted, .unknownEndpoint, .badClass, .stale] :=
  ⟨watchedTwo_sound _ _, rfl, by decide +kernel⟩

/-- A state with nothing at its last tick: nodes, watch entry and epoch timer. -/
def quiet (mode : EpochMode) (timer : Nat) : State :=
  owed { watchedTwo .reserved .active with
    cfg := { network.cfg with epochMode := mode }
    epc := { network.epc with timer }
    tst := { network.tst with nodes := [nodeAt 0 0x0A000021#32 (.live 2) [], nodeAt 9 0x0A000022#32 (.withdrawn 255) []] } }

theorem witness_AgeTickReachesTheFourBlocks_acts :
    ((quiet .lead 2).stc.offered = { store := true, watch := true, epoch := true, settle := true } ∧
      (quiet .lead 2).stc.part ≠ .standby ∧ (quiet .lead 2).cfg.epochMode ≠ .follow ∧ 2 ≤ (quiet .lead 2).epc.timer ∧
      (quiet .internal 1).epc.timer ≤ 1) ∧
    (∀ n ∈ (quiet .lead 2).tst.nodes, ∃ k, 2 ≤ k ∧ (n.life = .live k ∨ n.life = .withdrawn k)) ∧
    TableSound (quiet .lead 2).tst.nodes ∧ WatchIdsSound (quiet .lead 2).pwl ∧
    (∀ w ∈ (quiet .lead 2).pwl.entries, w.state = .rerouting → w.submitPending = false) ∧
    (let s := { network with stc := { network.stc with timebase := 9 } }
     s.stc.offered = TickOffer.none ∧ s.cfg.ageDiv < s.stc.timebase + 1 ∧ network.stc.timebase + 1 ≤ network.cfg.ageDiv) := by
  refine ⟨by decide +kernel, fun n hn => ?_, ⟨by decide +kernel, by decide +kernel, fun n hn => ?_⟩,
    watchedTwo_sound _ _, by decide +kernel, by decide +kernel⟩ <;>
  · simp only [quiet, owed, State.setOffered, List.mem_cons, List.not_mem_nil, or_false] at hn
    rcases hn with rfl | rfl <;> simp [nodeAt, LifeSound]

theorem witness_TranslationTakesTheHeadCopy_counters :
    (∀ i : Fin 32, (translating [8]).prb.active.dialects[(7 : Fin 8)][i].valid = false) ∧
    (8 : Byte).toNat = (7 : Fin 8).val + 1 ∧
    Machine.translate (translating (copyOf 41)) (copyOf 41) =
      .record (.full { newNode 0x0A000021 60 with seq := 41 }) ⟨0, 0, false⟩ ∧
    (walkCopy (copyOf 41)).isSome = true ∧
    ((translating (copyOf 41)).prb.active.dialect 3).isSome = true := by decide +kernel

/-- A link item from an unknown node to A. -/
def itemTo (lid : Word16) : LinkItem :=
  { lid, remote := 0x0A000021#32, remoteLid := none, cost := none, q := some 100, occupied := none, srlg := none
    admin := none }

/-- A FULL record with two valid items and one invalid. -/
def linkedNode (origin : NodeId) : FullRecord :=
  { newNode origin 1 with items := [itemTo 2, itemTo 0, itemTo 0xFFFF] }

/-- A table of 256 nodes. -/
def fullTable : List NodeEntry :=
  (List.range 256).map (fun k => nodeAt k (BitVec.ofNat 32 (k + 1)) (.live 1) [])

theorem fullTable_sound : TableSound fullTable := by
  refine ⟨by decide +kernel, by decide +kernel, fun n hn => ?_⟩
  obtain ⟨k, hk, rfl⟩ := List.mem_map.1 hn
  simpa [nodeAt, LifeSound] using hk

theorem witness_RecordOfAnUnknownOrigin_links :
    ((handed (.full (linkedNode 0x0A000023))).atr.handed = some (.full (linkedNode 0x0A000023)) ∧
      TableSound (handed (.full (linkedNode 0x0A000023))).tst.nodes ∧
      reservedId (linkedNode 0x0A000023).origin = false ∧ findNode twoNodes (linkedNode 0x0A000023).origin = none ∧
      1 ≤ (linkedNode 0x0A000023).lifetime ∧ lowestFree twoNodes = some 1 ∧
      ((linkedNode 0x0A000023).goodItems.map (·.lid)).Nodup ∧ (linkedNode 0x0A000023).goodItems.length = 2) ∧
    (TableSound fullTable ∧ findNode fullTable (linkedNode 0x0A000023).origin = none ∧
      ∀ k, k < 256 → ∃ n ∈ fullTable, n.index = k) :=
  ⟨⟨rfl, table_sound, by decide +kernel⟩, fullTable_sound, by decide +kernel, fun k h =>
    ⟨nodeAt k (BitVec.ofNat 32 (k + 1)) (.live 1) [], List.mem_map.2 ⟨k, List.mem_range.2 h, rfl⟩, rfl⟩⟩

theorem witness_RefreshAndFlushOfAKnownNode_full :
    (TableSound ageing.tst.nodes ∧ (findNode ageing.tst.nodes 0x0A000021).map (·.isLive) = some true ∧
      (findNode ageing.tst.nodes 0x0A000022).map (·.isLive) = some false ∧
      reservedId (linkedNode 0x0A000022).origin = false ∧ 1 ≤ (linkedNode 0x0A000022).lifetime ∧
      ((linkedNode 0x0A000022).goodItems.map (·.lid)).Nodup ∧
      1 + [lineTo 1 0x0A000021#32 300].length = (ageing.tst.nodes.map (fun n => n.links.length)).sum) ∧
    (newNode 0x0A000022 0).lifetime = 0 ∧ (newNode 0x0A000021 0).lifetime = 0 :=
  ⟨⟨ageing_sound, by decide +kernel⟩, rfl, rfl⟩

/-- A label at B that was reached with the root's starts. -/
def labelAtB : Label := { rootLabel 0x0A000022#32 1#320 with pred := some 0, number := 1, hops := 1, cost := 10 }

/-- The entry of A as the search reads it, with a regenerator. -/
def nodeA : NodeEntry := { nodeAt 0 0x0A000021#32 (.live 1) [lineTo 1 0x0A000022#32 300] with regens := 1 }

/-- A pool of 2048 labels that no label at another node dominates, the last of them open. -/
def fullPool : List Label :=
  List.replicate 2047 { labelAtB with closed := true } ++ [{ labelAtB with number := 2 }]

theorem witness_ExpansionTakesTheFirstLabel_extends :
    (usable true twoNodes nodeA (lineTo 1 0x0A000022#32 300) = true ∧
      excludedLink searching request ⟨nodeA.id, 1⟩ (lineTo 1 0x0A000022#32 300) = false ∧
      (0x0A000022#32 : NodeId) ∉ ([0x0A000021#32] : List NodeId) ∧
      ¬((lineTo 1 0x0A000022#32 300).cond.condition = .degraded ∧ request.policy = .avoid) ∧
      (rootLabel 0x0A000021#32 1#320).hops + 1 ≤ request.maxHops) ∧
    ((1#320 &&& freeStarts 0#320 4 ≠ 0#320 ∧ noiseTerm 300 ≤ searching.budget) ∧
      1#320 &&& freeStarts 1#320 4 = 0#320 ∧ searching.starts &&& freeStarts 1#320 4 ≠ 0#320 ∧ 0 < nodeA.regens) ∧
    (Dominates .cost labelAtB { labelAtB with hops := 2 } ∧
      ¬Dominates .hops { labelAtB with hops := 2 } labelAtB ∧
      KeyBefore .cost { labelAtB with cost := 9 } labelAtB ∧ ¬KeyBefore .hops labelAtB labelAtB) ∧
    (2048 ≤ fullPool.length ∧ ∃ w ∈ fullPool, w.closed = false) := by
  refine ⟨by decide +kernel, by decide +kernel, ⟨?_, ?_, ?_, ?_⟩, ?_, { labelAtB with number := 2 }, ?_, rfl⟩
  · simp [Dominates, labelAtB]
  · simp [Dominates, labelAtB, rootLabel]
  · simp [KeyBefore, labelAtB]
  · simp [KeyBefore]
  · simp only [fullPool, List.length_append, List.length_replicate, List.length_singleton, Nat.le_refl]
  · exact List.mem_append_right _ (List.mem_singleton.2 rfl)

/-- Engine A at B's label, for a request with diversity. -/
def arriving (d : Descriptor) (mode : EngineMode) : State :=
  { network with engA := { searching with
      request := some d, mode
      pool := [{ rootLabel 0x0A000021#32 1#320 with closed := true },
        { labelAtB with via := some ⟨0x0A000021#32, 1⟩ }]
      primary := some (primaryRecord twoNodes (reconstruct [] 4 labelAtB) PhaseCounts.zero) } }

theorem witness_ExpansionTakesTheFirstLabel_protection :
    (let s := arriving { request with diversity := .link } .primary
     (s.engine .a).request = some { request with diversity := .link } ∧ (s.engine .a).mode = .primary ∧
      (s.engine .a).endOrder = .none ∧
      (firstOpen request.order (s.engine .a).pool).map (·.node) = some request.dest ∧ (s.engine .a).starts ≠ 0#320) ∧
    ((arriving request .protection).engine .a).mode = .protection ∧
    ((arriving request .protection).engine .a).primary.isSome = true ∧
    ([Diversity.link, .node, .srlg].all (· ≠ .none)) = true := by decide +kernel

theorem witness_EngineTakesItsEndOrder_protection :
    ({ arriving request .protection with engA := { (arriving request .protection).engA with endOrder := .cancel } }.engine
        .a).endOrder = .cancel ∧
    ((arriving request .protection).engine .a).primary.isSome = true ∧ (arriving request .protection).rq.queue = [] ∧
    (arriving request .protection).enabled .np = true ∧
    ((filled (arriving request .protection) .np 15).port .np).localQueue.length < 16 ∧
    (filled (arriving request .protection) .np 15).waiters .np = 0 := by decide +kernel

/-- Engine A at the root label, with B's link gone, so that its frontier empties. -/
def stranded : State := { searchingA with tst := { network.tst with nodes := [nodeAt 0 0x0A000021#32 (.live 1) []] } }

theorem witness_EngineTakesItsEndOrder_noPath :
    (searchingA.engine .a).request = some request ∧ (searchingA.engine .a).endOrder = .none ∧
    ((firstOpen request.order (searchingA.engine .a).pool).map (fun x =>
      (x.node != request.dest, (firstOpen request.order ((searching.takeLabel x).examineLinks stranded request x).pool).isNone,
        (firstOpen request.order ((searching.takeLabel x).examineLinks searchingA request x).pool).isSome,
        ((searching.takeLabel x).examineLinks searchingA request x).counts.expansions))) =
      some (true, true, true, 1) ∧ ({ searching with limit := 1 }).limit = 1 ∧
    request.hold = false ∧ searching.touched = [] ∧ searching.overflow = false := by decide +kernel

theorem witness_EngineTakesItsEndOrder_found :
    (let s := arriving request .primary
     (firstOpen request.order (s.engine .a).pool).map (·.node) = some request.dest ∧ request.diversity = .none ∧
      s.rq.queue.length < 64 ∧ (s.engine .a).overflow = false ∧ (s.engine .a).touched = []) ∧
    (Element.node request.source ∈ ({ searching with touched := [.node request.source] }).touched) ∧
    (request.retryLimit = 0 ∧ ({ request with retryLimit := 3, retries := 0 }).retryLimit ≠ 0) ∧
    64 ≤ fullQueue.rq.queue.length ∧
    (network.offerHold .a request heldPath none).1 = .held 0 ∧
    ((watched .reserved).offerHold .a request heldPath none).1 = .conflict ∧
    (fullWatch.offerHold .a request heldPath none).1 = .full := by decide +kernel

theorem witness_EveryStepKeepsReservedClaims_ids :
    WatchIdsSound (watchedTwo .reserved .active).pwl ∧
      Steps (watchedTwo .reserved .active) (watchedTwo .reserved .active) :=
  ⟨watchedTwo_sound _ _, steps_idle _ rfl⟩

/-- A request of the node controller and a reroute request in the queue, as SET STATE STANDBY comes. -/
def queuedTwo : State :=
  { watchedTwo .stalled .rerouting with
    engA := searching
    rq := { network.rq with queue := [{ request with tag := 8 }, (watch .rerouting).request] } }

theorem witness_SetStateStandby_aborted :
    Meets (queued queuedTwo (sent 0x04 [0])) (sent 0x04 [0]) 0x04 .configure ∧
    (queuedTwo.stc.part ≠ .standby ∧ WatchIdsSound queuedTwo.pwl ∧ (queuedTwo.engA.mode = .primary ∧
      queuedTwo.engA.endOrder = .none)) ∧
    (queuedTwo.rq.queue.map (·.requester) = [.mgmt controller, .watchList] ∧ request.ingress = some .np ∧
      ({ request with ingress := none }).ingress = none) ∧
    ((filled queuedTwo .np 15).enabled .np = true ∧
      ((filled queuedTwo .np 15).port .np).localQueue.length + (filled queuedTwo .np 15).waiters .np < 16) ∧
    16 ≤ ((filled queuedTwo .np 16).port .np).localQueue.length + (filled queuedTwo .np 16).waiters .np ∧
    ({ queuedTwo with cfg := { queuedTwo.cfg with portEnable := 0x0FF } }).enabled .np = false :=
  ⟨sent_meets _ _ _ _ rfl, ⟨by decide, watchedTwo_sound _ _, by decide +kernel, by decide +kernel⟩, by decide +kernel⟩

theorem witness_RestartWarmClearsAndKeeps_handed :
    Meets (queued (handed (.full (newNode 0x0A000023 1))) (sent 0x05 [])) (sent 0x05 []) 0x05 .configure ∧
    (queued (handed (.full (newNode 0x0A000023 1))) (sent 0x05 [])).atr.handed = some (.full (newNode 0x0A000023 1)) :=
  ⟨sent_meets _ _ _ _ rfl, rfl⟩

theorem witness_ReadCountersReadsThenClears_groups :
    (∀ g : Byte, Meets (queued .reset (sent 0x06 [g, 8, 1])) (sent 0x06 [g, 8, 1]) 0x06 .configure) ∧
    (8 : Byte).toNat = (portIndex .np).val ∧ (0 : Byte).toNat = (portIndex (.lp 0)).val ∧ 5 ≤ (5 : Byte).toNat ∧
    9 ≤ (9 : Byte).toNat :=
  ⟨fun _ => sent_meets _ _ _ _ rfl, rfl, rfl, by decide, by decide⟩

/-- Section 9.1.2: slot 0 is the most significant bit of the first byte, slot 319 the least of the last. -/
theorem witness_StoreQueriesReadTheTables_slots :
    (encodeSlots (slotRange 0 1)).getD 0 0 = 0x80 ∧ (encodeSlots (slotRange 319 1)).getD 39 0 = 0x01 ∧
    (39 : Nat) < 40 ∧ (7 : Nat) < 8 := by decide +kernel

theorem witness_SubmissionIsDispatchedAtOnce_engineB :
    (searchingA.stc.part ≠ .standby ∧ (searchingA.engine .b).mode = .idle ∧ searchingA.engA.mode ≠ .idle ∧
      searchingA.rq.queue = []) ∧
    (({ busy with engB := Engine.idle }).rq.queue = queuedRequest :: [] ∧
      (({ busy with engB := Engine.idle }).engine .b).mode = .idle ∧ busy.engA.mode ≠ .idle ∧ busy.engB.mode ≠ .idle) ∧
    (windowStarts (adjustWindow (some ⟨96, 32⟩)) 4 ≠ 0#320 ∧ (adjustWindow (some ⟨319, 320⟩)).stop ≤ 320) := by
  decide +kernel

/-- The network with the watch entry REROUTING and its request searching in engine B. -/
def rerouting : State :=
  { watched .rerouting with engB := { searching with request := some (watch .rerouting).request } }

theorem witness_WatchCommandsActOnTheEntry_rerouting :
    Meets (queued rerouting (sent 0x22 [127])) (sent 0x22 [127]) 0x22 .request ∧
    (Holds (queued rerouting (sent 0x22 [127])) (sent 0x22 [127]) .configure ∧
      findWatch rerouting.pwl.entries 127 = some (watch .rerouting) ∧ (watch .rerouting).state = .rerouting) ∧
    ((rerouting.engine .b).mode = .primary ∧ (rerouting.engine .b).endOrder ≠ .release ∧
      (rerouting.engine .b).request = some (watch .rerouting).request ∧
      (watch .rerouting).request.requester = .watchList ∧ (watch .rerouting).request.tag = BitVec.ofNat 16 127 ∧
      (rerouting.engine .a).mode = .idle ∧ rerouting.rq.queue = []) ∧
    ((queuedTwo.rq.queue.any (fun d => d.requester == .watchList && d.tag == BitVec.ofNat 16 127)) = true ∧
      ∀ e, ((watched .rerouting).engine e).mode = .idle) ∧
    ((watch .reserved).state = .reserved ∧ (watch .active).state ≠ .reserved ∧
      (watch .reserved).primary.map (fun g => g.hops.length) = [1]) :=
  ⟨sent_meets _ _ _ _ rfl, ⟨rfl, by decide +kernel⟩, by decide +kernel, ⟨by decide +kernel, fun e => by cases e <;> rfl⟩,
    by decide +kernel⟩

theorem witness_EpochTimerTakesAnEpochEvent_notSent :
    ((filled lastEpoch (.lp 0) 15).enabled (.lp 0) = true ∧
      ((filled lastEpoch (.lp 0) 15).port (.lp 0)).localQueue.length + (filled lastEpoch (.lp 0) 15).waiters (.lp 0) < 16) ∧
    16 ≤ ((filled lastEpoch (.lp 0) 16).port (.lp 0)).localQueue.length + (filled lastEpoch (.lp 0) 16).waiters (.lp 0) ∧
    ({ lastEpoch with cfg := { lastEpoch.cfg with portEnable := 0x1FE } }).enabled lastEpoch.cfg.epochPort = false ∧
    ({ lastEpoch with cfg := { lastEpoch.cfg with epochMode := .internal } }).cfg.epochMode = .internal := by
  decide +kernel

/-- The advertisement of a copy from A with one link, at a sequence. -/
def advertised (seq : Word32) : Advertisement :=
  { dialect := 3, origin := 0x0A000021, seq, nodeAttrs := []
    links := [{ lid := 1, remote := 0x0A000022, attrs := [{ code := 0, value := [60] }] }] }

theorem advertised_fits (seq : Word32) : (advertised seq).Fits :=
  by simp [Advertisement.Fits, advertised]

theorem translating_knows (copy : List Byte) : KnownDialect (translating copy).prb.active 3
    ((translating copy).prb.active.dialects[(2 : Fin 8)]).toList :=
  ⟨2, rfl, rfl, entry .linkQ 5 1 0,
    List.getElem_mem (l := ((translating copy).prb.active.dialects[(2 : Fin 8)]).toList) (n := 31) (by simp), rfl⟩

theorem witness_TranslationTakesTheHeadCopy_fates :
    (∀ seq, (advertised seq).Fits) ∧ (∀ copy, ∃ entries, KnownDialect (translating copy).prb.active 3 entries) ∧
    (∀ (a : Advertisement) (unread : List Byte), a.Fits → [(3 : Byte)] ≠ a.bytes ++ unread) ∧
    (findNode twoNodes 0x0A000021).map (fun n => (n.seq, n.isLive)) = some (40, true) ∧
    (findNode (twoNodes.map (fun n => { n with life := .withdrawn 3 })) 0x0A000021).map (·.isLive) = some false ∧
    findNode twoNodes 0x0A000023 = none ∧
    [(41 : Word32), 40 + 0x7FFFFFFF, 40 + 0x80000000, 39, 40].map (fun q => (q.toNat + 4294967296 - 40) % 4294967296) =
      [1, 2147483647, 2147483648, 4294967295, 0] :=
  ⟨advertised_fits, fun copy => ⟨_, translating_knows copy⟩, fun a unread _ h => by
    have := congrArg List.length h
    simp [Advertisement.bytes, enc4, encByte, encodeNat] at this, by decide +kernel⟩

/-- R39: a raw value is read most significant byte first. -/
theorem witness_TranslationTakesTheHeadCopy_fields :
    (0 + 4 ≤ ([1, 2, 3, 4] : List Byte).length ∧ 2 + 2 ≤ ([1, 2, 3, 4] : List Byte).length) ∧
    decodeNat [1, 2, 3, 4] = 0x01020304 ∧ fieldNat [1, 2, 3, 4] 2 2 = 0x0304 := by decide +kernel

/-- A FULL record whose first two items name one link. -/
def repeatedLink (origin : NodeId) : FullRecord :=
  { newNode origin 1 with items := [itemTo 2, { itemTo 2 with q := some 300, cost := some 7 }, itemTo 3] }

theorem witness_RecordOfAnUnknownOrigin_repeatedLink :
    (reservedId (repeatedLink 0x0A000023).origin = false ∧ findNode twoNodes (repeatedLink 0x0A000023).origin = none ∧
      1 ≤ (repeatedLink 0x0A000023).lifetime ∧ ¬((repeatedLink 0x0A000023).goodItems.map (·.lid)).Nodup) ∧
    (repeatedLink 0x0A000023).createdLids [] 2 = [2, 3] ∧ (repeatedLink 0x0A000023).droppedItems [] 2 = [] ∧
    (linkAfter (Settings.cold 0) [] ((repeatedLink 0x0A000023).madeItems [] 2) 2).map (fun l => (l.q, l.cost)) =
      some (some 300, 7) ∧
    (repeatedLink 0x0A000023).createdLids [] 2047 = [2] ∧
    ((repeatedLink 0x0A000023).droppedItems [] 2047).map (·.lid) = [3] ∧
    ItemChanged (Settings.cold 0) (repeatedLink 0x0A000023) [] 2 ⟨.link ⟨0x0A000023, 2⟩, .q⟩ := by
  refine ⟨by decide +kernel, by decide +kernel, by decide +kernel, by decide +kernel, by decide +kernel,
    by decide +kernel, [itemTo 2], { itemTo 2 with q := some 300, cost := some 7 }, [itemTo 3], _, _, ?_, rfl, rfl, rfl, ?_⟩
  · decide +kernel
  · simp [FieldChanged, linkOfItem, itemTo]

theorem witness_RefreshAndFlushOfAKnownNode_repeatedLink :
    TableSound ageing.tst.nodes ∧ (findNode ageing.tst.nodes (repeatedLink 0x0A000022).origin).isSome = true ∧
    reservedId (repeatedLink 0x0A000022).origin = false ∧ 1 ≤ (repeatedLink 0x0A000022).lifetime ∧
    ¬((repeatedLink 0x0A000022).goodItems.map (·.lid)).Nodup :=
  ⟨ageing_sound, by decide +kernel⟩

/-- B's label, reached over A's link. -/
def viaLabel : Label := { labelAtB with via := some ⟨0x0A000021#32, 1⟩ }

/-- The root label, closed. -/
def closedRoot : Label := { rootLabel 0x0A000021#32 1#320 with closed := true }

theorem witness_ExpansionTakesTheFirstLabel_chain :
    (([closedRoot, viaLabel].map (·.number)).Nodup ∧ ChainOf [closedRoot, viaLabel] viaLabel [viaLabel, closedRoot] ∧
      ∀ l ∈ [viaLabel, closedRoot].dropLast, l.via ≠ none) ∧
    (firstOpen .cost [closedRoot, viaLabel] = some viaLabel ∧ firstOpen .hops [closedRoot] = none) ∧
    ((findNode twoNodes viaLabel.node).map (·.links) = some (lineTo 1 0x0A000021#32 300 :: []) ∧
      findNode twoNodes 0x0A000023 = none) ∧
    (findLink twoNodes ⟨0x0A000021#32, 1⟩ = some (lineTo 1 0x0A000022#32 300) ∧
      findLink twoNodes ⟨0x0A000021#32, 2⟩ = none) := by
  refine ⟨⟨by decide, ⟨rfl, ?_, closedRoot, rfl, rfl, rfl⟩, by decide⟩, by decide +kernel⟩
  simp [viaLabel, labelAtB, closedRoot, rootLabel]

theorem witness_FreedPlaceGoesInOrder_waitingRequests :
    (({ busy with engA := completing }).engine .a).mode = .completing ∧ busy.spu.hold.map (·.port) ≠ some .np ∧
    busy.rq.queue ≠ [] ∧ ((filled busy .np 15).port .np).localQueue.length < 16 := by decide +kernel

theorem witness_EngineTakesItsEndOrder_payload :
    (∀ x, (statusCode x, x) ∈ [(0, Status.notRequested), (1, .found), (2, .noPath), (3, .exhausted),
      (4, .unknownEndpoint), (5, .badClass), (6, .cancelled), (7, .aborted), (8, .stale), (9, .notAttempted)]) ∧
    (∀ k c, encPresent (encPhase k) none = [] ∧ encPresent (encPhase k) (some c) = encPhase k c) ∧
    ∀ k p, encPresent (encFoundPath k) none = [] ∧ encPresent (encFoundPath k) (some p) = encFoundPath k p :=
  ⟨fun x => by cases x <;> decide, fun _ _ => ⟨rfl, rfl⟩, fun _ _ => ⟨rfl, rfl⟩⟩

theorem witness_EngineTakesItsEndOrder_delivers :
    (((withHold network).Waited .np ∧ ({ network with engB := completing }).Waited .np) ∧ ¬busy.Waited .np) ∧
    (((filled busy .np 15).port .np).localQueue.length < 16 ∧ 16 ≤ ((filled busy .np 16).port .np).localQueue.length ∧
      busy.enabled .np = true ∧ ({ busy with cfg := { busy.cfg with portEnable := 0x0FF } }).enabled .np = false) := by
  refine ⟨⟨⟨.inl ⟨heldOnNp, rfl, rfl⟩, .inr ⟨.b, request, by decide +kernel⟩⟩, ?_⟩, by decide +kernel⟩
  rintro (⟨h, h1, -⟩ | ⟨e, d, h, -⟩)
  · cases h1
  · cases e <;> exact absurd h (by decide +kernel)

/-- The requests of a head that completes at its dispatch: no class, no endpoint, no window start. -/
def unrun : List Descriptor :=
  [{ request with cls := 4 }, { request with dest := 0x0A000023#32 }, { request with window := some ⟨318, 2⟩ }]

theorem witness_SubmissionIsDispatchedAtOnce_handedOn :
    (unrun.map (fun d => ((network.prb.active.classEntry d.cls).valid, liveNode network.tst.nodes d.dest,
      windowStarts (adjustWindow d.window) d.width == 0#320)) =
        [(false, true, false), (true, false, false), (true, true, true)]) ∧
    (({ busy with engB := Engine.idle }).rq.queue = queuedRequest :: [] ∧ busy.stc.part ≠ .standby ∧
      (network.engine .a).mode = .idle ∧ busy.engA.mode ≠ .idle) ∧
    (16 ≤ ((filled network .np 16).port .np).localQueue.length ∧ network.enabled .np = true ∧
      ({ network with cfg := { network.cfg with portEnable := 0x0FF } }).enabled .np = false) := by
  decide +kernel

/-- Two entries over the link that is gone, both to be rerouted, with both engines IDLE. -/
def brokenTwo : State :=
  let w : WatchEntry := { watch .active with desc := { request with action := .recompute } }
  { relinked [] .active with pwl := { network.pwl with entries := [{ w with id := 0 }, w] } }

theorem witness_ReservationExpires_several :
    (WatchIdsSound brokenTwo.pwl ∧ brokenTwo.pwl.entries.map (·.id) = [0, 127]) ∧
    (brokenTwo.pwl.entries.all (fun w => violationCheck brokenTwo w == some .linkGone &&
      concerns [occupancyReport] w && w.desc.action == .recompute) = true ∧
      brokenTwo.stc.part ≠ .standby ∧ brokenTwo.engA.mode = .idle ∧ brokenTwo.rq.queue.length < 64) ∧
    ((owed (watchedTwo .reserved .reserved)).stc.part ≠ .standby ∧
      ((watchedTwo .rerouting .rerouting).withEntries [{ watch .rerouting with id := 0, submitPending := true },
        { watch .rerouting with submitPending := true }]).pwl.entries.map
          (fun w => w.state == .rerouting && w.submitPending) = [true, true]) ∧
    ((findLink twoNodes ⟨0x0A000021#32, 1⟩).isSome = true ∧
      (findNode twoNodes 0x0A000021#32).map (·.transitQ) = some none ∧
      (findNode [{ nodeA with transitQ := some 400 }] 0x0A000021#32).map (·.transitQ) = some (some 400)) := by
  refine ⟨⟨⟨?_, ?_⟩, rfl⟩, by decide +kernel, by decide +kernel, by decide +kernel⟩
  · simp [brokenTwo, watch]
  · simp [brokenTwo, watch]

theorem witness_RecordOfAnUnknownOrigin_index :
    ((1 < 256 ∧ ∀ n ∈ twoNodes, n.index ≠ 1) ∧ ∀ j, j < 1 → ∃ n ∈ twoNodes, n.index = j) ∧
    (∀ n ∈ fullTable.take 255, n.index ≠ 255) ∧ ∀ j, j < 255 → ∃ n ∈ fullTable.take 255, n.index = j := by
  refine ⟨by decide +kernel, by decide +kernel, fun j hj => ?_⟩
  refine ⟨nodeAt j (BitVec.ofNat 32 (j + 1)) (.live 1) [], ?_, rfl⟩
  rw [fullTable, ← List.map_take, List.take_range]
  exact List.mem_map.2 ⟨j, List.mem_range.2 (by omega), rfl⟩

theorem witness_EngineTakesItsEndOrder_waiting :
    ([EndOrder.release, .cancel, .standby].all (fun o =>
      let s := { busy with engA := { busy.engA with mode := .protection, endOrder := o } }
      (s.engine .a).endOrder = o && !s.rq.queue.isEmpty && (s.engine .a).mode = .protection)) = true ∧
    (rerouting.engB.request = some (watch .rerouting).request ∧
      (watch .rerouting).request.requester = .watchList ∧
      rerouting.pwl.entries = [] ++ watch .rerouting :: [] ∧
      (watch .rerouting).request.tag.toNat = (watch .rerouting).id) := by decide +kernel

theorem witness_EngineTakesItsEndOrder_partial :
    (let s := { arriving request .protection with
        tst := stranded.tst
        engA := { (arriving request .protection).engA with pool := [rootLabel 0x0A000021#32 1#320] } }
     (s.engine .a).mode = .protection ∧ (s.engine .a).primary.isSome = true ∧ (s.engine .a).endOrder = .none ∧
      (firstOpen request.order (s.engine .a).pool).map (fun x =>
        (x.node != request.dest,
          (firstOpen request.order ((s.engA.takeLabel x).examineLinks s request x).pool).isNone)) =
        some (true, true)) ∧
    (Element.node request.source ∈ ({ searching with touched := [.node request.source] }).touched ∧
      ({ searching with overflow := true }).overflow = true) ∧
    (({ (arriving { request with diversity := .link } .primary).engA with starts := 0#320 }).starts = 0#320 ∧
      ({ request with diversity := .link }).diversity ≠ .none) := by decide +kernel

theorem watched_exact : OverlayExact (watched .reserved).pwl := by
  unfold OverlayExact; decide +kernel

theorem witness_EveryStepKeepsReservedClaims_exact :
    WatchIdsSound (watched .reserved).pwl ∧ OverlayExact (watched .reserved).pwl ∧
      Steps (watched .reserved) (watched .reserved) :=
  ⟨⟨by simp [watched], fun e he => by rw [List.mem_singleton.1 he]; decide⟩, watched_exact, steps_idle _ rfl⟩

/-- Two classes pending and none queued, the later one raised first. -/
def twoPending : EventUnit :=
  (EventUnit.clear.raise false .settled .none .none).raise false .nodeAdded (.node 1) .none

theorem witness_EventItemsChangeTheNoticeQueue_order :
    let old := { Settings.cold 0 with noticeAddress := controller, eventEnable := 0x000 }
    (noticesAfterEnable twoPending old { old with eventEnable := 0xFFF }).notices =
      [⟨.nodeAdded, 1, .node 1, .none⟩, ⟨.settled, 1, .none, .none⟩] ∧
    (noticesAfterAddress twoPending { old with noticeAddress := 0, eventEnable := 0xFFF }
        { old with eventEnable := 0xFFF }).notices =
      [⟨.nodeAdded, 1, .node 1, .none⟩, ⟨.settled, 1, .none, .none⟩] := by decide +kernel

/-- R99 and R112: a request is not live once its engine holds an order of release or is IDLE, and one that
is queued as well stands in the queue. -/
theorem witness_CancelActsByStanding_engines :
    ({ busy with engB := { busy.engB with endOrder := .release } }).standing (.mgmt controller) 2 = .notLive ∧
    ({ busy with engB := { busy.engB with mode := .idle } }).standing (.mgmt controller) 2 = .notLive ∧
    ({ busy with engB := { busy.engB with mode := .protection } }).standing (.mgmt controller) 2 = .searching .b ∧
    ({ busy with engB := { busy.engB with mode := .completing } }).standing (.mgmt controller) 2 = .completing .b ∧
    (busy.setQueue [{ request with tag := 2 }]).standing (.mgmt controller) 2 = .queued := by decide +kernel

theorem witness_FreedPlaceGoesInOrder_nothing :
    (State.reset.spu.hold = none ∧ (withHold .reset).spu.hold = some heldOnNp ∧
      16 ≤ ((filled (withHold .reset) .np 16).port heldOnNp.port).localQueue.length) ∧
    (State.reset.engine .b).mode ≠ .completing ∧ State.reset.evu.notices = [] := by decide +kernel

/-- R22's full set: of two new elements the first takes the last place, the second sets overflow. -/
theorem witness_StoreAgesItsNodes_touched :
    let full : Engine := { searching with touched := (List.range 511).map (fun k => .node (BitVec.ofNat 32 k)) }
    ((full.touchAll [.node 1000, .node 1001]).touched.getLast? = some (.node 1000) ∧
      (full.touchAll [.node 1000, .node 1001]).touched.length = 512 ∧
      (full.touchAll [.node 1000, .node 1001]).overflow = true) ∧
    ageing.tst.nodes.flatMap tickReports =
      [⟨.node 0x0A000021, .withdrawn⟩, ⟨.node 0x0A000022, .freed⟩, ⟨.link ⟨0x0A000022, 1⟩, .freed⟩] := by
  decide +kernel

/-! ## Single steps with the results the spec gives -/

/-- Section 10.7, step 0: straps 0101b. -/
theorem test_cold_reset_address : (after (.coldReset 5) State.reset).cfg.engineAddress = 0x7F000005#32 := by
  decide +kernel

/-- Section 10.7, step 3: SETTLE_TIME 300 is answered CLAMPED with 255. -/
theorem test_set_config_clamps :
    waiting (after .setConfig (queued .reset (sent 0x03 [0x07, 0, 0, 0x01, 0x2C]))) .np =
      [[0x03, 0x01, 0, 7, 0x07, 0, 0, 0, 255]] := by decide +kernel

/-- Section 10.7, step 5: SUBMIT in STANDBY is answered NOT_READY. -/
theorem test_submit_in_standby :
    waiting (after .submit (queued .reset (sent 0x20 (submission 2 0)))) .np = [[0x20, 0x02, 0, 7]] := by
  decide +kernel

/-- Section 10.7, step 6: SET STATE OPERATE enters SETTLING (code 2). -/
theorem test_set_state_settles :
    waiting (after .setState (queued .reset (sent 0x04 [1]))) .np = [[0x04, 0x00, 0, 7, 2]] := by decide +kernel

/-- Section 10.7, step 1: a line port's READ STATUS with no source entry is DENIED, on its port. -/
theorem test_line_port_denied :
    waiting (after .readStatus (queued .reset (remote 0x01 []))) (.lp 3) = [[0x01, 0x0A, 0, 7]] := by
  decide +kernel

/-- R155 and R157: a frame of LP2 leaves NP's transit FIFO with tag 2. -/
theorem test_line_frame_passes :
    ((after (.frameArrival (.lp 2) none (frameOf 1 0x60 [9]).wire) State.reset).port .np).transit =
      [{ tag := some 2, frame := frameOf 1 0x60 [9] }] := by decide +kernel

/-- R89: an expansion of the root makes a label at B with q 300's noise (R60) and the link's cost. -/
theorem test_expansion_extends :
    secondPool.map (fun l => (l.node, l.cost, l.noise, l.hops)) =
      [(0x0A000021#32, 0, 0, 0), (0x0A000022#32, 10, 16777, 1)] := by decide +kernel

/-- R16: A, at its last tick, is WITHDRAWN with HOLD_DOWN; R17: B, at its last tick, is freed. -/
theorem test_tick_ages :
    (after .nodeAgeExpiry ageing).tst.nodes.map (fun n => (n.id, n.life)) =
      [(0x0A000021#32, .withdrawn 16)] := by decide +kernel

end Sys2Proof.Tests
end

/-! LEMMAS. One evaluation of a link by the Link Condition Monitor (R51 to R55). -/

namespace Sys2Proof.Machine

/-! ## The indicator (R52) and what counts (R53 to R55), per condition -/

@[simp] theorem belowThreshold_absent (cfg : Settings) (c : Condition) : belowThreshold cfg c none = false := rfl

@[simp] theorem belowThreshold_normal (cfg : Settings) (v : Nat) :
    belowThreshold cfg .normal (some v) = decide (v < cfg.degradeLow) := rfl

@[simp] theorem belowThreshold_degraded (cfg : Settings) (v : Nat) :
    belowThreshold cfg .degraded (some v) = decide (v < cfg.degradeHigh) := rfl

@[simp] theorem countsTowards_absent (cfg : Settings) (c : Condition) : countsTowards cfg c none = false := rfl

@[simp] theorem countsTowards_normal (cfg : Settings) (v : Nat) :
    countsTowards cfg .normal (some v) = decide (v < cfg.degradeLow) := rfl

@[simp] theorem countsTowards_degraded (cfg : Settings) (v : Nat) :
    countsTowards cfg .degraded (some v) = decide (cfg.degradeHigh ≤ v) := rfl

@[simp] theorem otherCondition_normal : otherCondition .normal = .degraded := rfl

@[simp] theorem otherCondition_degraded : otherCondition .degraded = .normal := rfl

/-! ## The three ways an evaluation ends -/

section
variable {cfg : Settings} {f : CondFields} {q : Option Nat}

/-- A q that does not count ends the filter's run. -/
theorem evaluate_of_not_counts (hq : countsTowards cfg f.condition q = false) :
    evaluate cfg f q = ({ f with count := 0, below := belowThreshold cfg f.condition q }, false) := by
  simp [evaluate, hq]

/-- A q that counts, short of FILTER_DEPTH, only lengthens the run. -/
theorem evaluate_of_counts_short (hq : countsTowards cfg f.condition q = true)
    (hd : f.count + 1 ≠ cfg.filterDepth) :
    evaluate cfg f q = ({ f with count := f.count + 1, below := belowThreshold cfg f.condition q }, false) := by
  simp [evaluate, hq, hd]

/-- A q that counts and reaches FILTER_DEPTH makes the crossing. -/
theorem evaluate_of_counts_full (hq : countsTowards cfg f.condition q = true)
    (hd : f.count + 1 = cfg.filterDepth) :
    evaluate cfg f q =
      ({ condition := otherCondition f.condition, count := 0, below := belowThreshold cfg f.condition q
         crossed := true }, true) := by
  simp [evaluate, hq, hd]

/-- The indicator is set from the condition at the start, however the evaluation ends. -/
theorem evaluate_below : (evaluate cfg f q).1.below = belowThreshold cfg f.condition q := by
  cases hq : countsTowards cfg f.condition q with
  | false => rw [evaluate_of_not_counts hq]
  | true =>
    by_cases hd : f.count + 1 = cfg.filterDepth
    · rw [evaluate_of_counts_full hq hd]
    · rw [evaluate_of_counts_short hq hd]

/-- R53 and R54 in one: what an evaluation does to each field, for either condition. -/
theorem evaluate_fields {g : CondFields} {crossing : Bool} (h : evaluate cfg f q = (g, crossing)) :
    g.below = belowThreshold cfg f.condition q ∧
    (countsTowards cfg f.condition q = false →
      g.condition = f.condition ∧ g.count = 0 ∧ g.crossed = f.crossed ∧ crossing = false) ∧
    (countsTowards cfg f.condition q = true → f.count + 1 ≠ cfg.filterDepth →
      g.condition = f.condition ∧ g.count = f.count + 1 ∧ g.crossed = f.crossed ∧ crossing = false) ∧
    (countsTowards cfg f.condition q = true → f.count + 1 = cfg.filterDepth →
      g.condition = otherCondition f.condition ∧ g.count = 0 ∧ g.crossed = true ∧ crossing = true) := by
  refine ⟨?below, fun hq => ?ends, fun hq hd => ?counts, fun hq hd => ?crosses⟩
  case below => simpa [h] using evaluate_below (cfg := cfg) (f := f) (q := q)
  case ends =>
    obtain ⟨rfl, rfl⟩ := Prod.mk.inj ((evaluate_of_not_counts hq).symm.trans h)
    exact ⟨rfl, rfl, rfl, rfl⟩
  case counts =>
    obtain ⟨rfl, rfl⟩ := Prod.mk.inj ((evaluate_of_counts_short hq hd).symm.trans h)
    exact ⟨rfl, rfl, rfl, rfl⟩
  case crosses =>
    obtain ⟨rfl, rfl⟩ := Prod.mk.inj ((evaluate_of_counts_full hq hd).symm.trans h)
    exact ⟨rfl, rfl, rfl, rfl⟩

end

/-- Settles O47: an ABSENT q never counts (R55); for a NORMAL and a DEGRADED link, `evaluate_fields` with
that condition's threshold. -/
theorem evaluationFollowsTheThresholds : Obligations.EvaluationFollowsTheThresholds := by
  unfold Obligations.EvaluationFollowsTheThresholds
  intro cfg f q g crossing h
  refine ⟨?absent, ?normal, ?degraded⟩
  case absent =>
    rintro rfl
    obtain ⟨rfl, rfl⟩ := Prod.mk.inj ((evaluate_of_not_counts (countsTowards_absent ..)).symm.trans h)
    exact ⟨by rw [belowThreshold_absent], rfl⟩
  case normal =>
    rintro v rfl hc
    simpa [hc] using evaluate_fields h
  case degraded =>
    rintro v rfl hc
    simpa [hc] using evaluate_fields h

end Sys2Proof.Machine

/-! LEMMAS. The noise term of a q value (R60). -/

namespace Sys2Proof.Machine

/-! ## The search from the top bit down -/

/-- The number `noiseTerm` builds on `a`: bit by bit from bit `n - 1`, each bit kept where the number
with it passes `P`. -/
def bitSearch (P : Nat → Bool) (n a : Nat) : Nat :=
  (List.range n).foldr (fun b m => if P (m + 2 ^ b) then m + 2 ^ b else m) a

theorem noiseTerm_eq_bitSearch (q : Nat) : noiseTerm q = bitSearch (noiseFits q) 25 0 := rfl

theorem bitSearch_succ (P : Nat → Bool) (n a : Nat) :
    bitSearch P (n + 1) a = bitSearch P n (if P (a + 2 ^ n) then a + 2 ^ n else a) := by
  rw [bitSearch, List.range_succ, List.foldr_append]
  rfl

/-- Where `P` passes at `a` and fails at `a + 2^n`, the search ends on a number that passes and whose
successor fails: each bit halves the gap between the two. -/
theorem bitSearch_boundary (P : Nat → Bool) (n a : Nat) (pass : P a = true) (fail : P (a + 2 ^ n) = false) :
    P (bitSearch P n a) = true ∧ P (bitSearch P n a + 1) = false := by
  induction n generalizing a with
  | zero => exact ⟨pass, fail⟩
  | succ n ih =>
    rw [bitSearch_succ]
    cases mid : P (a + 2 ^ n) with
    | true =>
      have top : P (a + 2 ^ n + 2 ^ n) = false := by rwa [Nat.add_assoc, ← Nat.two_mul, ← Nat.pow_succ']
      simpa using ih (a + 2 ^ n) mid top
    | false => simpa using ih a pass mid

/-! ## What fits -/

theorem noiseFits_iff {q m : Nat} : noiseFits q m = true ↔ (2 * m - 1) ^ 100 * 10 ^ q ≤ 2 ^ 2500 := by
  simp only [noiseFits, decide_eq_true_eq]

/-- What fits still fits when the number or the q value is smaller. -/
theorem noiseFits_mono {q r k m : Nat} (hq : q ≤ r) (hk : k ≤ m) (h : noiseFits r m = true) :
    noiseFits q k = true := by
  rw [noiseFits_iff] at h ⊢
  calc (2 * k - 1) ^ 100 * 10 ^ q
      ≤ (2 * m - 1) ^ 100 * 10 ^ r := by gcongr; omega
    _ ≤ 2 ^ 2500 := h

/-- 0 fits at every q value, because `2 * 0 - 1` is 0 in the natural numbers. -/
theorem noiseFits_zero (q : Nat) : noiseFits q 0 = true := by
  rw [noiseFits_iff, Nat.mul_zero, Nat.zero_sub, Nat.zero_pow (by decide), Nat.zero_mul]
  exact Nat.zero_le _

/-- No number of 26 bits fits, at any q value. -/
theorem noiseFits_top (q : Nat) : noiseFits q (2 ^ 25) = false := by
  have atZero : noiseFits 0 (2 ^ 25) = false := by decide +kernel
  refine Bool.eq_false_iff.2 fun h => ?_
  exact Bool.eq_false_iff.1 atZero (noiseFits_mono (Nat.zero_le q) le_rfl h)

/-- A rise of at most 2% multiplies a 100th power by less than 10. -/
theorem pow_hundred_le_ten_mul {x y : Nat} (h : 50 * x ≤ 51 * y) : x ^ 100 ≤ y ^ 100 * 10 := by
  have powers : 50 ^ 100 * x ^ 100 ≤ 51 ^ 100 * y ^ 100 := by
    rw [← Nat.mul_pow, ← Nat.mul_pow]
    exact Nat.pow_le_pow_left h 100
  generalize x ^ 100 = u, y ^ 100 = v at powers ⊢
  omega

/-- One step of q divides the term by the 100th root of 10, a fall of more than 2%: from 51 on it leaves
room for one more. -/
theorem noiseFits_succ_of_noiseFits_next {q m : Nat} (hm : 51 ≤ m) (h : noiseFits (q + 1) m = true) :
    noiseFits q (m + 1) = true := by
  rw [noiseFits_iff] at h ⊢
  have room : (2 * (m + 1) - 1) ^ 100 ≤ (2 * m - 1) ^ 100 * 10 := pow_hundred_le_ten_mul (by omega)
  calc (2 * (m + 1) - 1) ^ 100 * 10 ^ q
      ≤ (2 * m - 1) ^ 100 * 10 * 10 ^ q := Nat.mul_le_mul_right _ room
    _ = (2 * m - 1) ^ 100 * 10 ^ (q + 1) := by ring
    _ ≤ 2 ^ 2500 := h

/-! ## The noise term -/

/-- The noise term is the greatest number that fits. -/
theorem le_noiseTerm_iff {q m : Nat} : m ≤ noiseTerm q ↔ noiseFits q m = true := by
  obtain ⟨fits, tooBig⟩ := bitSearch_boundary (noiseFits q) 25 0 (noiseFits_zero q) (by simpa using noiseFits_top q)
  rw [← noiseTerm_eq_bitSearch] at fits tooBig
  constructor
  · exact fun h => noiseFits_mono le_rfl h fits
  · intro h
    refine Nat.le_of_not_lt fun beyond => ?_
    exact Bool.eq_false_iff.1 tooBig (noiseFits_mono le_rfl beyond h)

theorem noiseTerm_eq {q m : Nat} (fits : noiseFits q m = true) (tooBig : noiseFits q (m + 1) = false) :
    noiseTerm q = m := by
  refine le_antisymm (Nat.le_of_lt_succ (Nat.lt_of_not_le fun h => ?_)) (le_noiseTerm_iff.2 fits)
  exact Bool.eq_false_iff.1 tooBig (le_noiseTerm_iff.1 h)

theorem noiseTerm_at_zero : noiseTerm 0 = 16777216 := noiseTerm_eq (by decide +kernel) (by decide +kernel)

theorem noiseTerm_at_qMax : noiseTerm 400 = 1678 := noiseTerm_eq (by decide +kernel) (by decide +kernel)

theorem noiseTerm_antitone {q r : Nat} (h : q ≤ r) : noiseTerm r ≤ noiseTerm q :=
  le_noiseTerm_iff.2 (noiseFits_mono h le_rfl (le_noiseTerm_iff.1 le_rfl))

/-- Up to the end of the scale the term is at least 1678, so the next q value's term, and one more, still
fit. -/
theorem noiseTerm_succ_lt {q : Nat} (h : q < 400) : noiseTerm (q + 1) < noiseTerm q := by
  have large : 1678 ≤ noiseTerm (q + 1) := noiseTerm_at_qMax ▸ noiseTerm_antitone h
  have next : noiseFits (q + 1) (noiseTerm (q + 1)) = true := le_noiseTerm_iff.1 le_rfl
  exact le_noiseTerm_iff.2 (noiseFits_succ_of_noiseFits_next (by omega) next)

theorem noiseTerm_strictAnti {q r : Nat} (hqr : q < r) (hr : r ≤ 400) : noiseTerm r < noiseTerm q :=
  calc noiseTerm r ≤ noiseTerm (q + 1) := noiseTerm_antitone hqr
    _ < noiseTerm q := noiseTerm_succ_lt (by omega)

/-- Settles O50: the search finds the greatest number that fits, and the fall over one step of q is never
rounded away. -/
theorem noiseTermIsRounded : Obligations.NoiseTermIsRounded := by
  unfold Obligations.NoiseTermIsRounded
  refine ⟨fun q m _ => ?rounded, fun _ _ => noiseTerm_strictAnti, noiseTerm_at_zero, noiseTerm_at_qMax⟩
  case rounded =>
    have zero : m = 0 → noiseFits q m = true := by
      rintro rfl
      exact noiseFits_zero q
    rw [le_noiseTerm_iff, ← noiseFits_iff, or_iff_right_of_imp zero]

end Sys2Proof.Machine

/-! LEMMAS. SUBMIT's tests in the order of R100. -/

namespace Sys2Proof.Machine

/-! ## Test 3's enumerations (section 9.1.5) -/

theorem orderOfCode_eq_none_iff : ∀ {n : Nat}, orderOfCode n = none ↔ 2 ≤ n
  | 0 | 1 => by decide
  | n + 2 => by simp [orderOfCode]

theorem policyOfCode_eq_none_iff : ∀ {n : Nat}, policyOfCode n = none ↔ 3 ≤ n
  | 0 | 1 | 2 => by decide
  | n + 3 => by simp [policyOfCode]

theorem diversityOfCode_eq_none_iff : ∀ {n : Nat}, diversityOfCode n = none ↔ 4 ≤ n
  | 0 | 1 | 2 | 3 => by decide
  | n + 4 => by simp [diversityOfCode]

theorem actionOfCode_eq_none_iff : ∀ {n : Nat}, actionOfCode n = none ↔ 2 ≤ n
  | 0 | 1 => by decide
  | n + 2 => by simp [actionOfCode]

/-- The enumerations are unknown as soon as one of the four codes is. -/
theorem submitCodes_eq_none_iff {ps : List Byte} : submitCodes ps = none ↔
    2 ≤ param1 ps 3 ∨ 3 ≤ param1 ps 4 ∨ 4 ≤ param1 ps 5 ∨ 2 ≤ param1 ps 10 := by
  rw [← orderOfCode_eq_none_iff, ← policyOfCode_eq_none_iff, ← diversityOfCode_eq_none_iff,
    ← actionOfCode_eq_none_iff]
  unfold submitCodes
  split
  next ho hp hd ha => simp [ho, hp, hd, ha]
  next unknown =>
    simp only [true_iff]
    by_contra known
    simp only [not_or, ← ne_eq, Option.ne_none_iff_exists'] at known
    obtain ⟨⟨o, ho⟩, ⟨p, hp⟩, ⟨d, hd⟩, ⟨a, ha⟩⟩ := known
    exact unknown o p d a ho hp hd ha

/-! ## Test 3's values -/

theorem reservedId_eq_false_iff {id : Word32} :
    reservedId id = false ↔ id ≠ 0x00000000#32 ∧ id ≠ 0xFFFFFFFF#32 := by
  simp [reservedId]

theorem windowGood_iff {o : Option Window} :
    windowGood o = true ↔ ∀ w, o = some w → w.start ≤ 319 ∧ 1 ≤ w.width ∧ w.width ≤ 320 := by
  cases o <;> simp [windowGood, and_assoc]

/-- A bank has an entry for each class number up to 15. -/
theorem classEntry_fin (b : Bank) (k : Fin 16) : b.classEntry k.val = b.classes[k] := by
  simp [Bank.classEntry]

theorem le_and_classEntry_valid_iff {b : Bank} {n : Nat} :
    n ≤ 15 ∧ (b.classEntry n).valid = true ↔ ∃ k : Fin 16, n = k.val ∧ b.classes[k].valid = true := by
  constructor
  · rintro ⟨hn, hv⟩
    exact ⟨⟨n, by omega⟩, rfl, classEntry_fin b ⟨n, by omega⟩ ▸ hv⟩
  · rintro ⟨k, rfl, hv⟩
    exact ⟨by omega, (classEntry_fin b k).symm ▸ hv⟩

/-- Test 3 on a descriptor: its endpoints, width, class and window, then its exclusion lists. -/
theorem submitValuesGood_iff {s : State} {d : Descriptor} : submitValuesGood s d = true ↔
    d.source ≠ 0x00000000#32 ∧ d.source ≠ 0xFFFFFFFF#32 ∧ d.dest ≠ 0x00000000#32 ∧ d.dest ≠ 0xFFFFFFFF#32 ∧
    d.source ≠ d.dest ∧ 1 ≤ d.width ∧ d.width ≤ 16 ∧
    (∃ k : Fin 16, d.cls = k.val ∧ s.prb.active.classes[k].valid = true) ∧
    (∀ w, d.window = some w → w.start ≤ 319 ∧ 1 ≤ w.width ∧ w.width ≤ 320) ∧
    d.exNodes.length ≤ 8 ∧ d.exLinks.length ≤ 8 ∧
    (∀ n ∈ d.exNodes, n ≠ 0x00000000#32 ∧ n ≠ 0xFFFFFFFF#32) ∧ (∀ r ∈ d.exLinks, r.lid ≠ 0#16) ∧
    d.source ∉ d.exNodes ∧ d.dest ∉ d.exNodes := by
  rw [← le_and_classEntry_valid_iff, ← windowGood_iff]
  simp only [submitValuesGood, Bool.and_eq_true, Bool.not_eq_true', reservedId_eq_false_iff, bne_iff_ne,
    decide_eq_true_eq, List.all_eq_true, and_assoc]

/-! ## Test 4 -/

theorem hasLive_iff {s : State} {r : Requester} {tag : Word16} :
    s.hasLive r tag = true ↔ s.standing r tag ≠ .notLive := by
  unfold State.hasLive
  cases s.standing r tag <;> simp

/-- Taking a command moves no request. -/
@[simp] theorem standing_withIntake (s : State) (rest : List IntakeFrame) (r : Requester) (tag : Word16) :
    (s.withIntake rest).standing r tag = s.standing r tag := standing_congr rfl rfl rfl r tag

/-! ## SUBMIT's answer, by the first test that fails -/

section
variable {t : Taken} {s : State} {c : SubmitCodes}

theorem submit_standby (hp : s.stc.part = .standby) : submit t s = Answer.refuse .notReady s := by
  simp [submit, State.standby, hp]

theorem submit_short (hp : s.stc.part ≠ .standby)
    (hl : t.params.length < submitFixed ∨ t.params.length < submitLength t.params) :
    submit t s = Answer.refuse .malformed s := by
  simp [submit, State.standby, hp, hl]

theorem submit_badValue (hp : s.stc.part ≠ .standby) (hf : submitFixed ≤ t.params.length)
    (hl : submitLength t.params ≤ t.params.length)
    (bad : ∀ c, submitCodes t.params = some c → submitValuesGood s (submitDescriptor t c) = false) :
    submit t s = Answer.refuse .badValue s := by
  cases hc : submitCodes t.params with
  | none => simp [submit, State.standby, hp, hf.not_gt, hl.not_gt, hc]
  | some c => simp [submit, State.standby, hp, hf.not_gt, hl.not_gt, hc, bad c hc]

theorem submit_duplicate (hp : s.stc.part ≠ .standby) (hf : submitFixed ≤ t.params.length)
    (hl : submitLength t.params ≤ t.params.length) (hc : submitCodes t.params = some c)
    (good : submitValuesGood s (submitDescriptor t c) = true)
    (live : s.standing (.mgmt t.source) t.tag ≠ .notLive) :
    submit t s = Answer.refuse .duplicate s := by
  have live' : s.hasLive (submitDescriptor t c).requester (submitDescriptor t c).tag = true :=
    hasLive_iff.2 live
  simp [submit, State.standby, hp, hf.not_gt, hl.not_gt, hc, good, live']

theorem submit_queueFull (hp : s.stc.part ≠ .standby) (hf : submitFixed ≤ t.params.length)
    (hl : submitLength t.params ≤ t.params.length) (hc : submitCodes t.params = some c)
    (good : submitValuesGood s (submitDescriptor t c) = true)
    (unused : s.standing (.mgmt t.source) t.tag = .notLive)
    (full : Config.requestQueue ≤ s.rq.queue.length) :
    submit t s = Answer.refuse .queueFull s := by
  have unused' : s.hasLive (submitDescriptor t c).requester (submitDescriptor t c).tag = false :=
    Bool.eq_false_iff.2 fun h => hasLive_iff.1 h unused
  rw [Config.requestQueue_eq] at full
  simp [submit, State.standby, hp, hf.not_gt, hl.not_gt, hc, good, unused', full]

end

/-- A SUBMIT that its block refuses is answered with that response, and only the intake queue loses its
head. -/
theorem exec_submit_refused {s : State} {t : Taken} {rest : List IntakeFrame} {r : Response}
    (h : AtHead s t rest) (hc : t.code = 0x20) (hh : Holds s t .request)
    (refused : submit t (s.withIntake rest) = Answer.refuse r (s.withIntake rest)) :
    exec .submit s = .next ((s.withIntake rest).respond t { code := r, data := [] }) := by
  rw [exec_submit h hc hh, refused, Answer.run_refuse]

/-- Settles O20: the two readings of test 3, then SUBMIT's answer for each test, asked of the part whose
intake queue has lost its head: it has the same part state, active bank, request queue and engines. -/
theorem submitRefusesInOrder : Obligations.SubmitRefusesInOrder := by
  unfold Obligations.SubmitRefusesInOrder
  refine ⟨fun _ => submitCodes_eq_none_iff, fun _ _ => submitValuesGood_iff, fun s t rest h hc hh => ?_⟩
  refine ⟨fun hp => ?notReady, fun hp hl => ?malformed, fun hp hf hl bad => ?badValue,
    fun c hp hf hl hcodes good => ⟨fun live => ?duplicate, fun unused full => ?queueFull⟩⟩
  all_goals refine exec_submit_refused h hc hh ?_
  case notReady => exact submit_standby hp
  case malformed => exact submit_short hp hl
  case badValue => exact submit_badValue hp hf hl bad
  case duplicate => exact submit_duplicate hp hf hl hcodes good ((standing_withIntake ..).trans_ne live)
  case queueFull => exact submit_queueFull hp hf hl hcodes good ((standing_withIntake ..).trans unused) full

end Sys2Proof.Machine

/-! ## COMMIT and DISCARD STAGED (R145, R146) -/

namespace Sys2Proof.Machine

section
variable {s : State} {t u : Taken}

/-- COMMIT's answer, given: the mark is set, both banks stand (R145). -/
@[simp] theorem commit_run : (commit t s).run u =
    ({ s with prb := { s.prb with commitPending := true } }).respond u { code := .ok, data := [] } :=
  Answer.run_done ..

/-- DISCARD STAGED's answer, given: the staged bank is the active one, the mark is clear (R146). -/
@[simp] theorem discardStaged_run : (discardStaged t s).run u =
    ({ s with prb := { s.prb with staged := s.prb.active, commitPending := false } }).respond u
      { code := .ok, data := [] } :=
  Answer.run_done ..

end

/-- Settles O28: each row is its block's answer, run on the part whose intake queue has lost its head; that
part's banks and mark are those of the part before. -/
theorem commitMarksAndDiscardCopiesBack : Obligations.CommitMarksAndDiscardCopiesBack := by
  unfold Obligations.CommitMarksAndDiscardCopiesBack
  refine ⟨fun s t rest h hc hh => ?commit, fun s t rest h hc hh => ?discard⟩
  case commit => rw [exec_commit h hc hh, commit_run]; rfl
  case discard => rw [exec_discardStaged h hc hh, discardStaged_run]; rfl

end Sys2Proof.Machine

/-! LEMMAS. The Event Unit: a raise (R179) and ACK EVENTS (R182). -/

namespace Sys2Proof.Machine

/-! ## Raising a class (R179) -/

theorem wantsNotice_iff {cfg : Settings} {c : EventClass} :
    cfg.wantsNotice c = true ↔ eventIn cfg.eventEnable c = true ∧ cfg.noticeAddress ≠ 0#32 := by
  simp [Settings.wantsNotice]

section
variable {u : EventUnit} {wanted : Bool} {c : EventClass} {x : Subject} {r : Reason}

/-- The notice queue after a raise of a class that has an entry there (R179, step 3). -/
theorem raise_notices_of_queued (queued : u.queued c = true) : (u.raise wanted c x r).notices =
    u.notices.map (fun n => if n.cls = c then
      { cls := c, count := min ((u.get c).count + 1) 255, subject := x, reason := r } else n) := by
  simp [EventUnit.raise, queued, EventUnit.entryOf]

/-- The notice queue after a raise of a class that has no entry there (R179, step 4). -/
theorem raise_notices_of_not_queued (unqueued : u.queued c = false) : (u.raise wanted c x r).notices =
    u.notices ++ if (u.get c).pending = false ∧ wanted = true then
      [{ cls := c, count := min ((u.get c).count + 1) 255, subject := x, reason := r }] else [] := by
  by_cases first : (u.get c).pending = false ∧ wanted = true
  · simp [EventUnit.raise, unqueued, first, EventUnit.entryOf]
  · rw [if_neg first, List.append_nil]
    simp [EventUnit.raise, unqueued, first]

end

/-- Settles O30: the class raised and the classes beside it, then the notice queue with and without an entry
of the class. -/
theorem raisingAClass : Obligations.RaisingAClass := by
  unfold Obligations.RaisingAClass
  refine fun s c k x r => ⟨?raised, fun other => ?beside, fun queued => ?inPlace, fun unqueued => ?appended⟩
  case raised => exact (raise_get ..).trans (if_pos rfl)
  case beside => exact (raise_get ..).trans (if_neg other)
  case inPlace => exact raise_notices_of_queued queued
  case appended =>
    simp only [← wantsNotice_iff]
    exact raise_notices_of_not_queued unqueued

/-! ## ACK EVENTS (R182) -/

/-- Bits above bit 11 of a set of classes are ignored, for no class's position reaches them. -/
theorem eventIn_ofNat (n : Nat) (c : EventClass) :
    eventIn (BitVec.ofNat 12 n) c = n.testBit (eventIndex c) := by
  rw [eventIn, BitVec.getLsbD_ofNat, decide_eq_true (eventIndex c).isLt, Bool.true_and]

theorem ackClasses_eq (ps : List Byte) :
    ackClasses ps = allEvents.filter (fun c => (fieldNat ps 0 4).testBit (eventIndex c)) :=
  List.filter_congr fun c _ => eventIn_ofNat _ c

theorem mem_ackClasses_iff {ps : List Byte} {c : EventClass} :
    c ∈ ackClasses ps ↔ (fieldNat ps 0 4).testBit (eventIndex c) = true := by
  simp [ackClasses_eq, mem_allEvents]

/-- What ACK EVENTS with its four bytes answers and leaves: the classes as they stood, then acknowledged. -/
theorem ackEvents_run {s : State} {t u : Taken} (h : 4 ≤ t.params.length) : (ackEvents t s).run u =
    ({ s with evu := s.evu.acknowledgeAll (ackClasses t.params) }).respond u
      { code := .ok, data := encList (encAcked s.evu) (ackClasses t.params) } := by
  rw [ackEvents, if_neg h.not_gt, Answer.run_done]

/-- Settles O29: the bytes of the list, then the row as its block's answer on the part whose intake queue
has lost its head, the classes listed being those whose bit is set. -/
theorem ackEventsReadsThenClears : Obligations.AckEventsReadsThenClears := by
  unfold Obligations.AckEventsReadsThenClears
  refine ⟨fun u cs => ?bytes, fun s t rest h hc hh hl =>
    ⟨s.evu.acknowledgeAll (ackClasses t.params), ?answer, fun c => ?classes, ?notices⟩⟩
  case bytes => rfl
  case answer =>
    rw [exec_ackEvents h hc hh, ackEvents_run hl, ← ackClasses_eq]
    rfl
  case classes => simp only [acknowledgeAll_get, mem_ackClasses_iff]
  case notices => simp [acknowledgeAll_notices, mem_ackClasses_iff]

end Sys2Proof.Machine

/-! LEMMAS. What each operation that stands under a row leaves unchanged, and how a property is carried over a
step. -/

namespace Sys2Proof.Machine

/-! ## What the rows' operations leave unchanged -/

/-- An epoch event (R147) reaches the ports, the banks, Epoch Control and the Event Unit alone. -/
@[simp] theorem epochEvent_unchanged (s : State) (n : Nat) :
    (s.epochEvent n).pending = s.pending ∧ (s.epochEvent n).cfg = s.cfg ∧ (s.epochEvent n).stc = s.stc ∧
      (s.epochEvent n).atr = s.atr ∧ (s.epochEvent n).tst = s.tst ∧ (s.epochEvent n).rq = s.rq ∧
      (s.epochEvent n).engA = s.engA ∧ (s.epochEvent n).engB = s.engB ∧ (s.epochEvent n).pwl = s.pwl := by
  have h := epochEvent_footprint s n
  tauto

@[simp] theorem tickEpoch_unchanged (s : State) :
    s.tickEpoch.pending = s.pending ∧ s.tickEpoch.cfg = s.cfg ∧ s.tickEpoch.stc = s.stc ∧
      s.tickEpoch.atr = s.atr ∧ s.tickEpoch.tst = s.tst ∧ s.tickEpoch.rq = s.rq ∧
      s.tickEpoch.engA = s.engA ∧ s.tickEpoch.engB = s.engB ∧ s.tickEpoch.pwl = s.pwl := by
  rcases tickEpoch_cases s with e | e | e <;> simp [e]

@[simp] theorem takeMark_unchanged (s : State) (p : List Byte) :
    (s.takeMark p).pending = s.pending ∧ (s.takeMark p).cfg = s.cfg ∧ (s.takeMark p).stc = s.stc ∧
      (s.takeMark p).atr = s.atr ∧ (s.takeMark p).tst = s.tst ∧ (s.takeMark p).rq = s.rq ∧
      (s.takeMark p).engA = s.engA ∧ (s.takeMark p).engB = s.engB ∧ (s.takeMark p).pwl = s.pwl := by
  rcases takeMark_cases s p with e | ⟨f, e⟩ | ⟨-, f, e⟩ <;> simp [e]

@[simp] theorem offerCopy_unchanged (s : State) (copy : List Byte) :
    (s.offerCopy copy).pending = s.pending ∧ (s.offerCopy copy).cfg = s.cfg ∧
      (s.offerCopy copy).stc = s.stc ∧ (s.offerCopy copy).spu = s.spu ∧ (s.offerCopy copy).prb = s.prb ∧
      (s.offerCopy copy).epc = s.epc ∧ (s.offerCopy copy).tst = s.tst ∧ (s.offerCopy copy).rq = s.rq ∧
      (s.offerCopy copy).engA = s.engA ∧ (s.offerCopy copy).engB = s.engB ∧
      (s.offerCopy copy).pwl = s.pwl := by
  rcases offerCopy_cases s copy with e | ⟨-, e⟩ | ⟨f, e⟩ <;> simp [e]

@[simp] theorem passFrame_unchanged (s : State) (p : Port) (tag : Option Byte) (f : Frame) :
    (s.passFrame p tag f).pending = s.pending ∧ (s.passFrame p tag f).cfg = s.cfg ∧
      (s.passFrame p tag f).stc = s.stc ∧ (s.passFrame p tag f).atr = s.atr ∧
      (s.passFrame p tag f).prb = s.prb ∧ (s.passFrame p tag f).epc = s.epc ∧
      (s.passFrame p tag f).tst = s.tst ∧ (s.passFrame p tag f).rq = s.rq ∧
      (s.passFrame p tag f).engA = s.engA ∧ (s.passFrame p tag f).engB = s.engB ∧
      (s.passFrame p tag f).pwl = s.pwl ∧ (s.passFrame p tag f).evu = s.evu := by
  obtain ⟨ports, e⟩ := passFrame_footprint s p tag f
  simp [e]

@[simp] theorem consume_unchanged (s : State) (p : Port) (f : Frame) :
    (s.consume p f).pending = s.pending ∧ (s.consume p f).cfg = s.cfg ∧ (s.consume p f).stc = s.stc ∧
      (s.consume p f).atr = s.atr ∧ (s.consume p f).prb = s.prb ∧ (s.consume p f).epc = s.epc ∧
      (s.consume p f).tst = s.tst ∧ (s.consume p f).rq = s.rq ∧ (s.consume p f).engA = s.engA ∧
      (s.consume p f).engB = s.engB ∧ (s.consume p f).pwl = s.pwl ∧ (s.consume p f).evu = s.evu := by
  unfold State.consume
  split <;> simp

/-- A frame's arrival reaches the ports, the translator, the banks, Epoch Control and the Event Unit alone. -/
@[simp] theorem frameArrival_unchanged (s : State) (p : Port) (tag : Option Byte) (bytes : List Byte) :
    (s.frameArrival p tag bytes).pending = s.pending ∧ (s.frameArrival p tag bytes).cfg = s.cfg ∧
      (s.frameArrival p tag bytes).stc = s.stc ∧ (s.frameArrival p tag bytes).tst = s.tst ∧
      (s.frameArrival p tag bytes).rq = s.rq ∧ (s.frameArrival p tag bytes).engA = s.engA ∧
      (s.frameArrival p tag bytes).engB = s.engB ∧ (s.frameArrival p tag bytes).pwl = s.pwl := by
  obtain ⟨f, e | ⟨fr, e | ⟨g, e⟩ | e | e | e⟩⟩ := frameArrival_cases s p tag bytes <;> simp [e]

/-- The settle timer's tick reaches State Control and the Event Unit alone. -/
@[simp] theorem tickSettle_unchanged (s : State) :
    s.tickSettle.pending = s.pending ∧ s.tickSettle.cfg = s.cfg ∧ s.tickSettle.spu = s.spu ∧
      s.tickSettle.atr = s.atr ∧ s.tickSettle.prb = s.prb ∧ s.tickSettle.epc = s.epc ∧
      s.tickSettle.tst = s.tst ∧ s.tickSettle.rq = s.rq ∧ s.tickSettle.engA = s.engA ∧
      s.tickSettle.engB = s.engB ∧ s.tickSettle.pwl = s.pwl := by
  unfold State.tickSettle
  split
  · split <;> simp
  · simp

/-- A translation event reaches the translator and the Event Unit alone. -/
@[simp] theorem translationEvent_unchanged (s : State) :
    s.translationEvent.pending = s.pending ∧ s.translationEvent.cfg = s.cfg ∧
      s.translationEvent.stc = s.stc ∧ s.translationEvent.spu = s.spu ∧ s.translationEvent.prb = s.prb ∧
      s.translationEvent.epc = s.epc ∧ s.translationEvent.tst = s.tst ∧ s.translationEvent.rq = s.rq ∧
      s.translationEvent.engA = s.engA ∧ s.translationEvent.engB = s.engB ∧
      s.translationEvent.pwl = s.pwl := by
  rcases translationEvent_cases s with e | ⟨q, -, ⟨f, r, e⟩ | ⟨f, e⟩ | ⟨r, m, -, e⟩⟩ <;> simp [e]

@[simp] theorem egressTake_unchanged (s : State) (p : Port) :
    (s.egressTake p).pending = s.pending ∧ (s.egressTake p).cfg = s.cfg ∧ (s.egressTake p).stc = s.stc ∧
      (s.egressTake p).atr = s.atr ∧ (s.egressTake p).prb = s.prb ∧ (s.egressTake p).epc = s.epc ∧
      (s.egressTake p).tst = s.tst ∧ (s.egressTake p).rq = s.rq ∧ (s.egressTake p).engA = s.engA ∧
      (s.egressTake p).engB = s.engB ∧ (s.egressTake p).pwl = s.pwl ∧ (s.egressTake p).evu = s.evu := by
  unfold State.egressTake
  split
  · split <;> simp
  · simp

@[simp] theorem transmissionEnd_unchanged (s : State) (p : Port) :
    (s.transmissionEnd p).pending = s.pending ∧ (s.transmissionEnd p).cfg = s.cfg ∧
      (s.transmissionEnd p).stc = s.stc ∧ (s.transmissionEnd p).atr = s.atr ∧
      (s.transmissionEnd p).prb = s.prb ∧ (s.transmissionEnd p).epc = s.epc ∧
      (s.transmissionEnd p).tst = s.tst ∧ (s.transmissionEnd p).rq = s.rq ∧
      (s.transmissionEnd p).engA = s.engA ∧ (s.transmissionEnd p).engB = s.engB ∧
      (s.transmissionEnd p).pwl = s.pwl ∧ (s.transmissionEnd p).evu = s.evu := by
  unfold State.transmissionEnd
  split <;> simp

@[simp] theorem heldEnters_unchanged (s : State) :
    s.heldEnters.pending = s.pending ∧ s.heldEnters.cfg = s.cfg ∧ s.heldEnters.stc = s.stc ∧
      s.heldEnters.atr = s.atr ∧ s.heldEnters.prb = s.prb ∧ s.heldEnters.epc = s.epc ∧
      s.heldEnters.tst = s.tst ∧ s.heldEnters.rq = s.rq ∧ s.heldEnters.engA = s.engA ∧
      s.heldEnters.engB = s.engB ∧ s.heldEnters.pwl = s.pwl ∧ s.heldEnters.evu = s.evu := by
  unfold State.heldEnters
  split
  · simp
  · split <;> simp

@[simp] theorem noticeSend_unchanged (s : State) :
    s.noticeSend.pending = s.pending ∧ s.noticeSend.cfg = s.cfg ∧ s.noticeSend.stc = s.stc ∧
      s.noticeSend.atr = s.atr ∧ s.noticeSend.prb = s.prb ∧ s.noticeSend.epc = s.epc ∧
      s.noticeSend.tst = s.tst ∧ s.noticeSend.rq = s.rq ∧ s.noticeSend.engA = s.engA ∧
      s.noticeSend.engB = s.engB ∧ s.noticeSend.pwl = s.pwl := by
  rcases noticeSend_cases s with e | ⟨n, rest, f, -, -, e⟩ <;> simp [e]

/-- SET STATE OPERATE in STANDBY reaches State Control and the Event Unit alone. -/
@[simp] theorem leaveStandby_unchanged (s : State) :
    s.leaveStandby.pending = s.pending ∧ s.leaveStandby.cfg = s.cfg ∧ s.leaveStandby.spu = s.spu ∧
      s.leaveStandby.atr = s.atr ∧ s.leaveStandby.prb = s.prb ∧ s.leaveStandby.epc = s.epc ∧
      s.leaveStandby.tst = s.tst ∧ s.leaveStandby.rq = s.rq ∧ s.leaveStandby.engA = s.engA ∧
      s.leaveStandby.engB = s.engB ∧ s.leaveStandby.pwl = s.pwl := by
  unfold State.leaveStandby
  split <;> simp

/-- The entry into STANDBY clears two queues and orders the engines, and leaves the rest. -/
@[simp] theorem intoStandby_unchanged (s : State) :
    s.intoStandby.pending = s.pending ∧ s.intoStandby.cfg = s.cfg ∧ s.intoStandby.spu = s.spu ∧
      s.intoStandby.prb = s.prb ∧ s.intoStandby.epc = s.epc ∧ s.intoStandby.tst = s.tst ∧
      s.intoStandby.pwl = s.pwl ∧ s.intoStandby.evu = s.evu ∧ s.intoStandby.atr.handed = s.atr.handed := by
  simp [State.intoStandby]

@[simp] theorem clearWarm_unchanged (s : State) :
    s.clearWarm.pending = s.pending ∧ s.clearWarm.cfg = s.cfg ∧ s.clearWarm.prb = s.prb ∧
      s.clearWarm.tst = s.tst := by
  simp [State.clearWarm]

/-- Clearing a group of counters touches no queue, table or configuration. -/
@[simp] theorem clearGroup_unchanged (s : State) (g : CounterGroup) :
    (s.clearGroup g).pending = s.pending ∧ (s.clearGroup g).cfg = s.cfg ∧ (s.clearGroup g).stc = s.stc ∧
      (s.clearGroup g).prb = s.prb ∧ (s.clearGroup g).tst.nodes = s.tst.nodes ∧
      (s.clearGroup g).rq.queue = s.rq.queue ∧ (s.clearGroup g).atr.queue = s.atr.queue ∧
      (s.clearGroup g).atr.handed = s.atr.handed ∧ (s.clearGroup g).engA = s.engA ∧
      (s.clearGroup g).engB = s.engB ∧ (s.clearGroup g).pwl = s.pwl ∧ (s.clearGroup g).evu = s.evu := by
  cases g <;> simp [State.clearGroup]

theorem Steps.keeps {P : State → Prop} {s : State} (rows : ∀ c, ∃ u, exec c s = .next u ∧ P u) {t : State}
    (step : Steps s t) : P t := by
  obtain ⟨c, hc⟩ := step
  obtain ⟨u, hu, hP⟩ := rows c
  obtain rfl : u = t := Host.Outcome.next.inj (hu.symm.trans hc)
  exact hP

end Sys2Proof.Machine

/-! LEMMAS. Every step keeps the configuration in its ranges (section 10.5), the dialect codes distinct (R141) and
the notice queue sound (R179, R180). -/

namespace Sys2Proof.Machine

/-! ## The configuration (section 10.5) -/

theorem cold_config_sound (straps : BitVec 4) : ConfigSound (State.cold straps).cfg := by
  revert straps; unfold ConfigSound; decide

theorem clampDepth_mem (v : Nat) : clampDepth v ∈ [1, 2, 4, 8] := by
  unfold clampDepth
  split_ifs <;> decide

/-- What R174 lets pass is in its range. -/
theorem judgeItem_sound {cfg new : Settings} {p : Port} {i : ConfigItem} {v : Nat} {cl : Bool}
    (h : ConfigSound cfg) (judged : judgeItem cfg p i v = some (new, cl)) : ConfigSound new := by
  have depth := clampDepth_mem v
  unfold ConfigSound at h ⊢
  cases i <;>
    simp only [judgeItem, Option.ite_none_left_eq_some, Option.ite_none_right_eq_some, Option.map_eq_some_iff,
      Option.some.injEq, Prod.mk.injEq, setDegradeLow, setDegradeHigh, Bool.not_eq_true] at judged
  case engineAddress => obtain ⟨good, rfl, -⟩ := judged; exact ⟨good, h.2⟩
  case portEnable | twoWay => obtain ⟨-, rfl, -⟩ := judged; exact h
  case epochMode | epochPort | crossNotice | noticePort => obtain ⟨_, -, rfl, -⟩ := judged; exact h
  all_goals
    obtain ⟨rfl, -⟩ := judged
    simp only [clampNat, Config.qMax_eq]
    simp_all <;> omega

/-- Settles O51: only SET CONFIG changes an item, and what R174 lets pass is in its range. -/
theorem everyStepKeepsTheConfigurationSound : Obligations.EveryStepKeepsTheConfigurationSound := by
  unfold Obligations.EveryStepKeepsTheConfigurationSound
  intro s t h step
  refine step.keeps (P := fun s => ConfigSound s.cfg) fun c => ?_
  apply exec_keeps (P := fun s => ConfigSound s.cfg) h
  case hcold => exact cold_config_sound
  case hserv => exact fun u v hu serves => by rwa [serves.cfg]
  case hcfg =>
    refine setConfig_keeps fun u p i v new cl hu _ judged => ?_
    apply configure_keeps (P := fun s => ConfigSound s.cfg) u i new hu (judgeItem_sound hu judged)
    case hserv => exact fun u v hu serves => by rwa [serves.cfg]
    all_goals intros; simpa [disablePort_footprint]
  all_goals intros; simpa

/-! ## The dialect codes (R141) and the active bank (R140) -/

/-- The banks and the epoch number stand, or a pending commit was applied under a new epoch number (R147). -/
def EpochApplied (s t : State) : Prop :=
  t.prb = s.prb ∨ s.prb.commitPending = true ∧ t.epc.number ≠ s.epc.number ∧
    t.prb = { s.prb with active := s.prb.staged, commitPending := false }

theorem epochEvent_applied {s : State} {n : Nat} (h : n ≠ s.epc.number) : EpochApplied s (s.epochEvent n) := by
  unfold EpochApplied
  rw [epochEvent_prb, epochEvent_number]
  split
  next pending => exact .inr ⟨pending, h, rfl⟩
  next => exact .inl rfl

theorem takeMark_applied (s : State) (p : List Byte) : EpochApplied s (s.takeMark p) := by
  rcases takeMark_cases s p with e | ⟨f, e⟩ | ⟨hn, f, e⟩ <;> rw [e]
  · exact .inl rfl
  · exact .inl (State.countEpc_prb ..)
  · exact epochEvent_applied hn

theorem nextEpoch_ne (n : Nat) : nextEpoch n ≠ n := by
  unfold nextEpoch
  split <;> omega

theorem tickEpoch_applied (s : State) : EpochApplied s s.tickEpoch := by
  rcases tickEpoch_cases s with e | e | e <;> rw [e]
  · exact .inl rfl
  · exact .inl rfl
  · exact epochEvent_applied (s := { s with epc := { s.epc with timer := s.cfg.epochInterval } }) (nextEpoch_ne _)

theorem frameArrival_applied (s : State) (p : Port) (tag : Option Byte) (bytes : List Byte) :
    EpochApplied s (s.frameArrival p tag bytes) := by
  obtain ⟨f, e | ⟨fr, e | ⟨g, e⟩ | e | e | e⟩⟩ := frameArrival_cases s p tag bytes <;> rw [e]
  case inr.inr.inr.inr.inl =>
    simpa [EpochApplied] using takeMark_applied (s.countPort p f) fr.payload
  all_goals exact .inl (by simp)

@[simp] theorem configure_unchanged (s : State) (i : ConfigItem) (new : Settings) :
    (s.configure i new).stc = s.stc ∧ (s.configure i new).atr = s.atr ∧ (s.configure i new).prb = s.prb := by
  apply configure_keeps (P := fun t => t.stc = s.stc ∧ t.atr = s.atr ∧ t.prb = s.prb) s i new
  case hserv => exact fun u v hu serves => by rwa [serves.stc, serves.atr, serves.prb]
  all_goals intros; simp [disablePort_footprint, *]

theorem EpochApplied.codesDistinct {s t : State} (h : EpochApplied s t)
    (hs : CodesDistinct s.prb.active ∧ CodesDistinct s.prb.staged) :
    CodesDistinct t.prb.active ∧ CodesDistinct t.prb.staged := by
  rcases h with e | ⟨-, -, e⟩ <;> rw [e]
  · exact hs
  · exact ⟨hs.2, hs.2⟩

/-- Settles O52: a write that DUPLICATE does not refuse, a clear, and the copies between the banks keep both banks'
codes distinct. -/
theorem everyStepKeepsDialectCodesDistinct : Obligations.EveryStepKeepsDialectCodesDistinct := by
  unfold Obligations.EveryStepKeepsDialectCodesDistinct
  intro s t active staged step
  refine step.keeps (P := fun s => CodesDistinct s.prb.active ∧ CodesDistinct s.prb.staged) fun c => ?_
  apply exec_keeps (P := fun s => CodesDistinct s.prb.active ∧ CodesDistinct s.prb.staged) ⟨active, staged⟩
  case hcold => exact fun _ => ⟨cold_distinct, cold_distinct⟩
  case harr => exact fun u p tag bytes hu => (frameArrival_applied u p tag bytes).codesDistinct hu
  case hserv => exact fun u v hu serves => by rwa [serves.prb]
  case hepoch => exact fun u hu => (tickEpoch_applied u).codesDistinct hu
  case hcfg =>
    exact setConfig_keeps (P := fun s => CodesDistinct s.prb.active ∧ CodesDistinct s.prb.staged)
      fun u p i v new cl hu _ _ => by simpa using hu
  case hdial => exact fun u d i e hu free => ⟨hu.1, putDialectEntry_distinct hu.2 free⟩
  case hclr => exact fun u d hu => ⟨hu.1, clearDialect_distinct hu.2 d⟩
  case hdis => exact fun u hu => ⟨hu.1, hu.1⟩
  all_goals intros; simpa

/-! ## The notice queue (R179, R180) -/

theorem noticesAfterAddress_sound {u : EventUnit} (h : NoticesSound u) (old new : Settings) :
    NoticesSound (noticesAfterAddress u old new) := by
  unfold noticesAfterAddress
  split
  · exact unqueueAll_sound h _
  · split
    · exact queuePending_sound h _
    · exact h

theorem noticesAfterEnable_sound {u : EventUnit} (h : NoticesSound u) (old new : Settings) :
    NoticesSound (noticesAfterEnable u old new) := by
  unfold noticesAfterEnable
  dsimp only
  split
  · exact unqueueAll_sound h _
  · exact queuePending_sound (unqueueAll_sound h _) _

/-- Settles O54: a raise, an acknowledgement, a removal and an entry's sending each keep the notice queue sound. -/
theorem everyStepKeepsTheNoticeQueueSound : Obligations.EveryStepKeepsTheNoticeQueueSound := by
  unfold Obligations.EveryStepKeepsTheNoticeQueueSound
  intro s t h step
  refine step.keeps (P := fun s => NoticesSound s.evu) fun c => ?_
  apply exec_keeps (P := fun s => NoticesSound s.evu) h
  case hcold => exact fun _ => clear_sound
  case harr =>
    apply frameArrival_keeps (P := fun s => NoticesSound s.evu) (fun u x hu => hu)
    case hm =>
      intro u p hu
      rcases takeMark_cases u p with e | ⟨f, e⟩ | ⟨-, f, e⟩ <;> rw [e]
      · exact hu
      · exact hu
      · exact epochEvent_notices hu _
    case ho =>
      intro u copy hu
      rcases offerCopy_cases u copy with e | ⟨-, e⟩ | ⟨f, e⟩ <;> rw [e]
      · exact hu
      · exact hu
      · exact raise_sound hu _ _ _ _
  case hserv => exact fun u v hu serves => serves.noticesSound hu
  case hepoch =>
    intro u hu
    rcases tickEpoch_cases u with e | e | e <;> rw [e]
    · exact hu
    · exact hu
    · exact epochEvent_notices (s := { u with epc := { u.epc with timer := u.cfg.epochInterval } }) hu _
  case hsettle =>
    intro u hu
    unfold State.tickSettle
    split_ifs
    · exact raise_sound hu _ _ _ _
    · exact hu
    · exact hu
  case htrans =>
    intro u hu
    rcases translationEvent_cases u with e | ⟨q, -, ⟨f, r, e⟩ | ⟨f, e⟩ | ⟨r, m, -, e⟩⟩ <;> rw [e]
    · exact hu
    · exact raise_sound hu _ _ _ _
    · exact hu
    · exact hu
  case hnot =>
    intro u hu
    rcases noticeSend_cases u with e | ⟨n, rest, f, hn, -, e⟩ <;> rw [e]
    · exact hu
    · exact tail_sound hu hn
  case hcfg =>
    refine setConfig_keeps fun u p i v new cl hu _ _ => ?_
    apply configure_keeps (P := fun s => NoticesSound s.evu) u i new hu hu
    case hserv => exact fun u v hu serves => serves.noticesSound hu
    case hna => exact fun u a b hu => noticesAfterAddress_sound hu a b
    case hne => exact fun u a b hu => noticesAfterEnable_sound hu a b
    all_goals intros; simpa [disablePort_footprint]
  case hleave =>
    intro u hu
    unfold State.leaveStandby
    split
    · exact raise_sound hu _ _ _ _
    · exact hu
  case hwarm => exact fun _ _ => clear_sound
  case hack => exact fun u cs hu => acknowledgeAll_sound hu cs
  all_goals intros; simpa

end Sys2Proof.Machine

/-! LEMMAS. Every step keeps the queues within their capacities. -/

namespace Sys2Proof.Machine

/-! ## The queues (R29, R103, R157, R159, R162) -/

theorem setPort_within {s : State} (h : QueuesWithin s) (p : Port) {x : PortState}
    (transit : x.transit.length ≤ 64) (egress : x.localQueue.length ≤ 16) : QueuesWithin (s.setPort p x) := by
  obtain ⟨intake, atr, rq, ports⟩ := h
  refine ⟨intake, atr, rq, fun q => ?_⟩
  by_cases hq : q = p
  · subst hq; simpa using ⟨transit, egress⟩
  · rw [State.setPort_port_ne _ _ hq]; exact ports q

theorem consume_within {s : State} (h : QueuesWithin s) (p : Port) (f : Frame) :
    QueuesWithin (s.consume p f) := by
  unfold State.consume
  split
  next room =>
    refine countPort_within (s := { s with spu := { s.spu with intake := s.spu.intake ++ [⟨p, f⟩] } }) ?_ _ _
    obtain ⟨-, rest⟩ := h
    simp only [Config.intakeQueue_eq] at room
    exact ⟨by simp only [List.length_append, List.length_singleton]; omega, rest⟩
  next => exact countPort_within h _ _

theorem takeMark_within {s : State} (h : QueuesWithin s) (p : List Byte) : QueuesWithin (s.takeMark p) := by
  rcases takeMark_cases s p with e | ⟨f, e⟩ | ⟨-, f, e⟩ <;> rw [e]
  · exact h
  · exact h
  · exact epochEvent_within h _

theorem offerCopy_within {s : State} (h : QueuesWithin s) (copy : List Byte) : QueuesWithin (s.offerCopy copy) := by
  rcases offerCopy_cases s copy with e | ⟨room, e⟩ | ⟨f, e⟩ <;> rw [e]
  · exact h
  · obtain ⟨intake, -, rest⟩ := h
    simp only [Config.translatorQueue_eq] at room
    exact ⟨intake, by simp only [List.length_append, List.length_singleton]; omega, rest⟩
  · exact h

theorem frameArrival_within {s : State} (h : QueuesWithin s) (p : Port) (tag : Option Byte) (bytes : List Byte) :
    QueuesWithin (s.frameArrival p tag bytes) := by
  obtain ⟨f, e | ⟨fr, e | ⟨g, e⟩ | e | e | e⟩⟩ := frameArrival_cases s p tag bytes <;> rw [e]
  · exact countPort_within h _ _
  · exact consume_within (countPort_within h _ _) _ _
  · exact passFrame_within (countPort_within (countPort_within h _ _) _ _) _ _ _
  · exact passFrame_within (countPort_within h _ _) _ _ _
  · exact passFrame_within (takeMark_within (countPort_within h _ _) _) _ _ _
  · exact passFrame_within (offerCopy_within (countPort_within h _ _) _) _ _ _

theorem egressTake_within {s : State} (h : QueuesWithin s) (p : Port) : QueuesWithin (s.egressTake p) := by
  have ports := h.2.2.2 p
  unfold State.egressTake
  split
  · split
    · exact h
    next kind f _ =>
      apply setPort_within h p <;> cases kind <;> simp [PortState.begin] <;> omega
  · exact h

theorem transmissionEnd_within {s : State} (h : QueuesWithin s) (p : Port) :
    QueuesWithin (s.transmissionEnd p) := by
  obtain ⟨transit, egress⟩ := h.2.2.2 p
  unfold State.transmissionEnd
  split
  · exact h
  · exact setPort_within h p transit egress

theorem heldEnters_within {s : State} (h : QueuesWithin s) : QueuesWithin s.heldEnters := by
  unfold State.heldEnters
  split
  · exact h
  next r _ =>
    split
    next room => exact enterLocal_within (s := { s with spu := { s.spu with hold := none } }) h r.port r.frame room
    next => exact h

theorem noticeSend_within {s : State} (h : QueuesWithin s) : QueuesWithin s.noticeSend := by
  rcases noticeSend_cases s with e | ⟨n, rest, f, -, free, e⟩ <;> rw [e]
  · exact h
  · exact enterLocal_within (s := { s with evu := { s.evu with notices := rest } }) h _ _ (wayFree_iff.1 free).1

theorem disablePort_within {s : State} (h : QueuesWithin s) (p : Port) : QueuesWithin (s.disablePort p) := by
  have record : ∀ (u : State) e, QueuesWithin u → QueuesWithin (u.discardRecord e p) := by
    intro u e hu
    unfold State.discardRecord
    split
    · cases e <;> exact hu
    · exact hu
  have held : ∀ u : State, QueuesWithin u → QueuesWithin (u.discardHeld p) := by
    intro u hu
    unfold State.discardHeld
    split
    · exact countPort_within (s := { u with spu := { u.spu with hold := none } }) hu _ _
    · exact hu
  exact record _ _ (record _ _ (held _ (setPort_within h p (by simp [PortState.emptied]) (by simp [PortState.emptied]))))

theorem clearGroup_within {s : State} (h : QueuesWithin s) (g : CounterGroup) : QueuesWithin (s.clearGroup g) := by
  cases g with
  | port p => exact countPort_within h _ _
  | _ => exact h

theorem clearWarm_within {s : State} (h : QueuesWithin s) : QueuesWithin s.clearWarm := by
  refine ⟨by simp [State.clearWarm], by simp [State.clearWarm], by simp [State.clearWarm], fun p => ?_⟩
  simpa [State.clearWarm, State.port] using h.2.2.2 p

theorem cold_within (straps : BitVec 4) (q : List Instr) :
    QueuesWithin { State.cold straps with pending := q } := by
  refine ⟨by simp [State.cold], by simp [State.cold], by simp [State.cold], fun p => ?_⟩
  simp [State.cold, State.port, PortState.cold]

/-- Settles O55: each place a queue gives was free, and every other operation only empties queues. -/
theorem everyStepKeepsTheQueuesWithin : Obligations.EveryStepKeepsTheQueuesWithin := by
  unfold Obligations.EveryStepKeepsTheQueuesWithin
  intro s t h step
  refine step.keeps (P := QueuesWithin) fun c => ?_
  apply exec_keeps (P := QueuesWithin) h
  case hcold => exact fun straps => cold_within straps _
  case hpop => 
    intro u ⟨intake, rest⟩ 
    exact ⟨by simp only [State.popIntake, List.length_tail]; omega, rest⟩
  case hresp =>
    exact respond_keeps (fun u p f room hu => enterLocal_within hu p f room) (fun _ _ hu => hu)
      (fun u p hu => countPort_within hu p _)
  case harr => exact fun u p tag bytes hu => frameArrival_within hu p tag bytes
  case hserv => exact fun u v hu serves => serves.queuesWithin hu
  case hepoch =>
    intro u hu
    rcases tickEpoch_cases u with e | e | e <;> rw [e]
    · exact hu
    · exact hu
    · exact epochEvent_within (s := { u with epc := { u.epc with timer := u.cfg.epochInterval } }) hu _
  case htrans =>
    intro u hu
    rcases translationEvent_cases u with e | ⟨q, hq, e⟩
    · rwa [e]
    · obtain ⟨intake, atr, rest⟩ := hu
      rcases e with ⟨f, r, e⟩ | ⟨f, e⟩ | ⟨r, m, -, e⟩ <;> rw [e] <;> exact ⟨intake, hq.trans atr, rest⟩
  case heg => exact fun u p hu => egressTake_within hu p
  case hte => exact fun u p hu => transmissionEnd_within hu p
  case hheld => exact fun u hu => heldEnters_within hu
  case hnot => exact fun u hu => noticeSend_within hu
  case hcfg =>
    refine setConfig_keeps fun u p i v new cl hu _ _ => ?_
    apply configure_keeps (P := QueuesWithin) u i new hu hu
    case hdis => exact fun u p hu => disablePort_within hu p
    case hserv => exact fun u v hu serves => serves.queuesWithin hu
    all_goals intros; assumption
  case hsettle => intro u hu; simpa [QueuesWithin, State.port] using hu
  case hleave => intro u hu; simpa [QueuesWithin, State.port] using hu
  case hinto => exact fun u ⟨intake, _, _, ports⟩ => ⟨intake, Nat.zero_le _, Nat.zero_le _, ports⟩
  case hwarm => exact fun u hu => clearWarm_within hu
  case hctr => exact fun u g hu => clearGroup_within hu g
  all_goals intros; assumption

end Sys2Proof.Machine

/-! LEMMAS. Every step keeps the node table, the link table and the watch list's claims sound. -/

namespace Sys2Proof.Machine

/-! ## The node table and the link table (R1 to R4, R50) -/

/-- Links changed in their condition fields only, each filter count below the new depth, leave the tables sound. -/
theorem mapConds_sound {nodes : List NodeEntry} {d d' : Nat} (g : NodeEntry → Link → CondFields)
    (count : ∀ n l, l.cond.count < d → (g n l).count < d') (h : TableSound nodes ∧ LinkTableSound d nodes) :
    TableSound (nodes.map (fun n => { n with links := n.links.map (fun l => { l with cond := g n l }) })) ∧
    LinkTableSound d'
      (nodes.map (fun n => { n with links := n.links.map (fun l => { l with cond := g n l }) })) := by
  obtain ⟨table, links⟩ := h
  constructor
  · refine mapNodes_sound _ table (fun _ _ => rfl) (fun _ _ => rfl) fun n hn => ?_
    obtain ⟨index, life, length, sorted⟩ := table.2.2 n hn
    exact ⟨index, life, by simpa using length, List.pairwise_map.2 sorted⟩
  · refine mapLinks_linkTable (fun n l => { l with cond := g n l }) (fun n l hl => ?_) links
    obtain ⟨lid, remote, other, rlid, low, high, q, srlg, filter⟩ := hl
    exact ⟨lid, remote, other, rlid, low, high, q, srlg, count n l filter⟩

theorem ConfigSound.depth_pos {c : Settings} (h : ConfigSound c) : 0 < c.filterDepth := by
  obtain ⟨-, -, -, -, -, -, -, -, -, -, -, -, depth, -⟩ := h
  revert depth
  simp only [List.mem_cons, List.not_mem_nil, or_false]
  omega

/-- A new configuration starts every filter again (R57), so the depth may change with it. -/
theorem rethreshold_storeSound {s : State} (h : StoreSound s) {new : Settings} (hn : ConfigSound new) :
    StoreSound ({ s with cfg := new } : State).rethreshold := by
  obtain ⟨-, table, links, handed⟩ := h
  exact ⟨hn, (mapConds_sound (d' := new.filterDepth)
    (fun _ l => { l.cond with count := 0, below := belowThreshold new l.cond.condition l.q })
    (fun _ _ _ => hn.depth_pos) ⟨table, links⟩).imp id fun k => ⟨k, handed⟩⟩

theorem Serves.storeSound {s t : State} (serves : Serves s t) (h : StoreSound s) : StoreSound t := by
  unfold StoreSound at h ⊢
  rwa [serves.cfg, serves.tst, serves.atr]

theorem configure_storeSound {s : State} {p : Port} {i : ConfigItem} {v : Nat} {new : Settings} {cl : Bool}
    (h : StoreSound s) (judged : judgeItem s.cfg p i v = some (new, cl)) : StoreSound (s.configure i new) := by
  have good := judgeItem_sound h.1 judged
  by_cases hi : i = .filterDepth
  · rw [configure_rethreshold (.inr (.inr hi))]
    split
    · exact h
    · exact rethreshold_storeSound h good
  · have still : StoreSound { s with cfg := new } := by
      obtain ⟨-, table, links, handed⟩ := h
      exact ⟨good, table, judgeItem_filterDepth judged hi ▸ links, handed⟩
    apply configure_keeps (P := StoreSound) s i new h still
    case hre => exact fun u hu => rethreshold_storeSound hu hu.1
    case hserv => exact fun u v hu serves => serves.storeSound hu
    case hdis => intro u p hu; simpa [StoreSound, disablePort_footprint] using hu
    all_goals intros; assumption

theorem cold_storeSound (straps : BitVec 4) (q : List Instr) :
    StoreSound { State.cold straps with pending := q } := by
  refine ⟨cold_config_sound straps, ?_, ?_, fun r hr => ?_⟩
  · simp [State.cold, TableSound]
  · simp [State.cold, LinkTableSound]
  · simp [State.cold] at hr

theorem translationEvent_storeSound {s : State} (h : StoreSound s) : StoreSound s.translationEvent := by
  rcases translationEvent_cases s with e | ⟨q, -, ⟨f, r, e⟩ | ⟨f, e⟩ | ⟨r, m, translated, e⟩⟩ <;> rw [e]
  · exact h
  · exact h
  · exact h
  · obtain ⟨cfg, table, links, -⟩ := h
    exact ⟨cfg, table, links, fun x hx => Option.some.inj hx ▸ translate_sound cfg translated⟩

/-- Settles O56: a record's application and a tick keep the tables sound; a new FILTER_DEPTH starts every filter again. -/
theorem everyStepKeepsTheStoreSound : Obligations.EveryStepKeepsTheStoreSound := by
  unfold Obligations.EveryStepKeepsTheStoreSound
  intro s t h step
  refine step.keeps (P := StoreSound) fun c => ?_
  apply exec_keeps (P := StoreSound) h
  case hcold => exact fun straps => cold_storeSound straps _
  case hresp => intro u t r hu; simpa [StoreSound] using hu
  case harr =>
    apply frameArrival_keeps (P := StoreSound) (fun u x hu => hu)
    case hm => intro u p hu; simpa [StoreSound] using hu
    case ho =>
      intro u copy hu
      rcases offerCopy_cases u copy with e | ⟨-, e⟩ | ⟨f, e⟩ <;> rw [e] <;> exact hu
  case hserv => exact fun u v hu serves => serves.storeSound hu
  case hstore =>
    exact fun u ⟨cfg, table, links, handed⟩ =>
      ⟨cfg, tickStore_sound cfg table, tickStore_range links, handed⟩
  case happly =>
    intro u r ⟨cfg, table, links, handed⟩ hr
    exact ⟨cfg, applyRecord_sound cfg table (handed r hr), applyRecord_range cfg table links (handed r hr),
      fun x hx => by cases hx⟩
  case htrans => exact fun u hu => translationEvent_storeSound hu
  case hcfg => exact setConfig_keeps fun u p i v new cl hu _ judged => configure_storeSound hu judged
  case hnodes =>
    intro u f ⟨cfg, table, links, handed⟩
    exact ⟨cfg, (mapConds_sound (fun n l => { l.cond with crossed := f n l }) (fun _ _ hl => hl)
      ⟨table, links⟩).imp id fun k => ⟨k, handed⟩⟩
  case hctr => intro u g hu; simpa [StoreSound] using hu
  case hepoch | hsettle | hheld | hnot | hleave | hinto => intro u hu; simpa [StoreSound] using hu
  case heg | hte => intro u p hu; simpa [StoreSound] using hu
  case hwarm => 
    intro u ⟨cfg, table, links, handed⟩
    exact ⟨cfg, table, links, fun x hx => by cases hx⟩
  all_goals intros; assumption

/-! ## The watch list and its overlay (R119, R120) -/

@[simp] theorem restarted_id (w : WatchEntry) : w.restarted.id = w.id := by
  unfold WatchEntry.restarted; split <;> rfl

@[simp] theorem restarted_state (w : WatchEntry) : w.restarted.state = w.state := by
  unfold WatchEntry.restarted; split <;> rfl

@[simp] theorem restarted_slotClaims (w : WatchEntry) : w.restarted.slotClaims = w.slotClaims := by
  unfold WatchEntry.restarted; split <;> rfl

@[simp] theorem restarted_regenClaims (w : WatchEntry) : w.restarted.regenClaims = w.regenClaims := by
  unfold WatchEntry.restarted; split <;> rfl

theorem configure_watch {P : WatchList → Prop} (serving : ∀ u v : State, P u.pwl → Serves u v → P v.pwl)
    (u : State) (i : ConfigItem) (new : Settings) (h : P u.pwl) : P (u.configure i new).pwl := by
  apply configure_keeps (P := fun s => P s.pwl) u i new h h
  case hserv => exact serving
  all_goals intros; simpa [disablePort_footprint]

/-- A property of the watch list that serving and a warm restart keep, and that an empty list has, is kept by
every step: no other operation reaches the watch list. -/
theorem Steps.keeps_watch {P : WatchList → Prop} (empty : P ⟨[], [], []⟩)
    (serving : ∀ u v : State, P u.pwl → Serves u v → P v.pwl)
    (restart : ∀ w : WatchList, P w → P { w with entries := w.entries.map WatchEntry.restarted })
    {s t : State} (h : P s.pwl) (step : Steps s t) : P t.pwl := by
  refine step.keeps (P := fun s => P s.pwl) fun c => ?_
  apply exec_keeps (P := fun s => P s.pwl) h
  case hcold => exact fun _ => empty
  case hserv => exact serving
  case hwarm => exact fun u hu => restart u.pwl hu
  case hcfg => exact setConfig_keeps fun u p i v new cl hu _ _ => configure_watch serving u i new hu
  all_goals intros; simpa

theorem restarted_claimsStand {w : WatchList} (h : ClaimsStand w) :
    ClaimsStand { w with entries := w.entries.map WatchEntry.restarted } := by
  simpa [ClaimsStand] using h

theorem restarted_watchIdsSound {w : WatchList} (h : WatchIdsSound w) :
    WatchIdsSound { w with entries := w.entries.map WatchEntry.restarted } := by
  simpa [WatchIdsSound, List.pairwise_map] using h

theorem restarted_overlayExact {w : WatchList} (h : OverlayExact w) :
    OverlayExact { w with entries := w.entries.map WatchEntry.restarted } := by
  simpa [OverlayExact, List.filter_map, List.flatMap_map, Function.comp_def] using h

theorem empty_claimsStand : ClaimsStand ⟨[], [], []⟩ := by simp [ClaimsStand]

theorem empty_watchIdsSound : WatchIdsSound ⟨[], [], []⟩ := by simp [WatchIdsSound]

theorem empty_overlayExact : OverlayExact ⟨[], [], []⟩ := by simp [OverlayExact]

/-- Settles O57: the three invariants of the watch list are kept by serving and by a warm restart. -/
theorem everyStepKeepsReservedClaims : Obligations.EveryStepKeepsReservedClaims := by
  unfold Obligations.EveryStepKeepsReservedClaims
  refine ⟨fun s t claims => ?stand, fun s t ids => ?distinct, fun s t ids exact step => ?exact⟩
  case stand =>
    exact Steps.keeps_watch empty_claimsStand (fun _ _ hu serves => serves.claimsStand hu)
      (fun _ => restarted_claimsStand) claims
  case distinct =>
    exact Steps.keeps_watch empty_watchIdsSound (fun _ _ hu serves => serves.watchIdsSound hu)
      (fun _ => restarted_watchIdsSound) ids
  case exact =>
    refine (step.keeps_watch (P := fun w => WatchIdsSound w ∧ OverlayExact w)
      ⟨empty_watchIdsSound, empty_overlayExact⟩ ?_ ?_ ⟨ids, exact⟩).2
    · exact fun u v hu serves => ⟨serves.watchIdsSound hu.1, serves.overlayExact hu.1 hu.2⟩
    · exact fun w hw => ⟨restarted_watchIdsSound hw.1, restarted_overlayExact hw.2⟩

/-! ## The state after a cold reset -/

/-- Settles O60. -/
theorem resetMeetsTheInvariants : Obligations.ResetMeetsTheInvariants := by
  unfold Obligations.ResetMeetsTheInvariants
  exact ⟨rfl, fun straps => ⟨cold_config_sound straps, cold_distinct, cold_distinct, clear_sound,
    cold_within straps [], cold_storeSound straps [], empty_claimsStand, empty_watchIdsSound,
    empty_overlayExact⟩⟩

end Sys2Proof.Machine

/-! LEMMAS. What one step may do to the standby-only items, the part state and the active bank. -/

namespace Sys2Proof.Machine

/-! ## What one step may do to the configuration, the part state and the active bank -/

/-- From `s` to `t` neither the configuration nor the part state nor the active bank changed. -/
def Calm (s t : State) : Prop :=
  t.cfg = s.cfg ∧ t.stc.part = s.stc.part ∧ t.prb.active = s.prb.active

theorem Calm.refl (s : State) : Calm s s := ⟨rfl, rfl, rfl⟩

theorem Calm.trans {s t u : State} (h : Calm s t) (k : Calm t u) : Calm s u :=
  ⟨k.1.trans h.1, k.2.1.trans h.2.1, k.2.2.trans h.2.2⟩

theorem Serves.calm {s t : State} (h : Serves s t) : Calm s t := ⟨h.cfg, by rw [h.stc], by rw [h.prb]⟩

theorem respond_calm (s : State) (t : Taken) (r : Reply) : Calm s (s.respond t r) := by simp [Calm]

theorem Answer.still.calm {a : Answer} {s : State} (h : a.still s) (t : Taken) : Calm s (a.run t) := by
  obtain ⟨state, later⟩ := h
  rw [Answer.run, state, later]
  exact respond_calm s t a.reply

/-- A command whose block answers calmly is calm. -/
theorem takeCommand_calm (s : State) {code : Byte} {body : Taken → State → Answer}
    (calm : ∀ t u, Calm u ((body t u).run t)) : Calm s (s.takeCommand code body) := by
  have pop : Calm s s.popIntake := by simp [Calm]
  rcases takeCommand_cases s code body with e | ⟨t, e⟩ | ⟨t, -, e⟩ <;> rw [e]
  · exact .refl s
  · exact pop.trans (respond_calm ..)
  · exact pop.trans (calm t s.popIntake)

section
variable (t : Taken) (u : State)

theorem readCounters_calm : Calm u ((readCounters t u).run t) := by
  unfold readCounters
  split
  · simp [Calm]
  · split
    · simp [Calm]
    · split <;> simp [Calm]

theorem writeSource_calm : Calm u ((writeSource t u).run t) := by
  unfold writeSource
  split_ifs <;> simp [Calm]

theorem clearCrossings_calm : Calm u ((clearCrossings t u).run t) := by
  unfold clearCrossings clearOne clearAll
  split_ifs
  · simp [Calm]
  · split <;> simp [Calm]
  · simp [Calm]

theorem submit_calm : Calm u ((submit t u).run t) := by
  rcases submit_cases t u with still | ⟨r, d, e, -, room⟩
  · exact still.calm t
  · rw [e]
    exact (respond_calm u t r).trans (accept_serves _ _ (by simpa using room)).calm

theorem cancel_calm : Calm u ((cancel t u).run t) := by
  rcases cancel_cases t u with still | ⟨r, tag, e⟩ | ⟨e, he⟩
  · exact still.calm t
  · rw [e]
    exact (respond_calm ..).trans (cancelQueued_serves ..).calm
  · rw [he]
    refine (respond_calm u t (Reply.bare .ok)).trans ?_
    change Calm _ (State.cancelSearch _ e)
    unfold State.cancelSearch State.orderEnd
    split <;> simp [Calm]

theorem releaseWatch_calm : Calm u ((releaseWatch t u).run t) := by
  unfold releaseWatch
  split
  · simp [Calm]
  · split_ifs
    · simp [Calm]
    · split
      · simp [Calm]
      · split_ifs
        · simp [Calm]
        · rw [Answer.run_done]
          exact (releaseWatch_serves ..).calm.trans (respond_calm ..)

theorem writeDialect_calm : Calm u ((writeDialect t u).run t) := by
  unfold writeDialect
  split_ifs
  · simp [Calm]
  · simp [Calm]
  · split
    · simp [Calm]
    · dsimp only
      split_ifs <;> simp [Calm, State.setStaged]

theorem clearDialect_calm : Calm u ((clearDialect t u).run t) := by
  unfold clearDialect
  split
  · simp [Calm]
  · split_ifs <;> simp [Calm, State.setStaged]

theorem writeClass_calm : Calm u ((writeClass t u).run t) := by
  unfold writeClass
  split_ifs <;> simp [Calm, State.setStaged]

theorem ackEvents_calm : Calm u ((ackEvents t u).run t) := by
  unfold ackEvents
  split_ifs <;> simp [Calm]

end

theorem takeUnknown_calm (s : State) : Calm s s.takeUnknown :=
  takeUnknown_keeps (P := Calm s) (fun h => h.trans (by simp [Calm]))
    (fun u t r hu => hu.trans (respond_calm u t r)) (.refl s)

/-- A store event changes neither the configuration nor the part state nor the banks. -/
theorem storeEvent_calm (s : State) (o : StoreOutcome) : Calm s (s.storeEvent o) :=
  (storeEvent_serves s o).calm

theorem applyHanded_calm (s : State) : Calm s s.applyHanded := by
  unfold State.applyHanded
  split
  · exact .refl s
  · exact storeEvent_calm { s with atr := { s.atr with handed := none } } _

/-! ## What one step may change of them -/

/-- Two configurations agree on the standby-only items (section 10.5). -/
def SameStandbyItems (c d : Settings) : Prop :=
  c.engineAddress = d.engineAddress ∧ c.portEnable = d.portEnable ∧ c.epochMode = d.epochMode ∧
    c.epochPort = d.epochPort

@[simp] theorem SameStandbyItems.refl (c : Settings) : SameStandbyItems c c := ⟨rfl, rfl, rfl, rfl⟩

theorem SameStandbyItems.trans {c d e : Settings} (h : SameStandbyItems c d) (k : SameStandbyItems d e) :
    SameStandbyItems c e :=
  ⟨h.1.trans k.1, h.2.1.trans k.2.1, h.2.2.1.trans k.2.2.1, h.2.2.2.trans k.2.2.2⟩

/-- What a step that is no cold reset may do to the standby-only items (R152, R164, R174), to the part state
(R168) and to the active bank (R140). -/
structure Scope (c : Instr) (s t : State) : Prop where
  items : s.stc.part ≠ .standby → SameStandbyItems t.cfg s.cfg
  part : t.stc.part = s.stc.part ∨
    (s.stc.part = .standby ∧ c = .setState ∧
      t.stc.part = if s.cfg.settleTime = 0 then .operate else .settling) ∨
    (s.stc.part = .settling ∧ t.stc.part = .operate ∧
      c ∈ [Instr.settleTimerExpiry, .ageTick, .timebaseInterval]) ∨
    (t.stc.part = .standby ∧ (c = .setState ∨ c = .restartWarm))
  bank : t.prb.active = s.prb.active ∨
    (s.prb.commitPending = true ∧ t.prb.active = s.prb.staged ∧ t.prb.commitPending = false ∧
      t.epc.number ≠ s.epc.number)

theorem Calm.scope {s t : State} (h : Calm s t) (c : Instr) : Scope c s t := by
  obtain ⟨cfg, part, bank⟩ := h
  exact ⟨fun _ => by simp [cfg], .inl part, .inl bank⟩

/-- A row that reaches State Control no further and the banks only through an epoch event. -/
theorem EpochApplied.scope {s t : State} (h : EpochApplied s t) (cfg : t.cfg = s.cfg)
    (part : t.stc.part = s.stc.part) (c : Instr) : Scope c s t := by
  refine ⟨fun _ => by simp [cfg], .inl part, ?_⟩
  rcases h with e | ⟨pending, number, e⟩
  · exact .inl (by rw [e])
  · exact .inr ⟨pending, by rw [e], by rw [e], number⟩

/-! ### SET CONFIG, SET STATE and RESTART WARM -/

/-- An item that is not standby-only leaves the standby-only items as they are. -/
theorem judgeItem_items {cfg new : Settings} {p : Port} {i : ConfigItem} {v : Nat} {cl : Bool}
    (free : standbyOnly i = false) (judged : judgeItem cfg p i v = some (new, cl)) :
    SameStandbyItems new cfg := by
  cases i <;>
    simp only [judgeItem, Option.ite_none_right_eq_some, Option.map_eq_some_iff,
      Option.some.injEq, Prod.mk.injEq, setDegradeLow, setDegradeHigh, standbyOnly, Bool.true_eq_false] at judged free
  case twoWay => obtain ⟨-, rfl, -⟩ := judged; exact ⟨rfl, rfl, rfl, rfl⟩
  case crossNotice | noticePort => obtain ⟨_, -, rfl, -⟩ := judged; exact ⟨rfl, rfl, rfl, rfl⟩
  all_goals obtain ⟨rfl, -⟩ := judged; exact ⟨rfl, rfl, rfl, rfl⟩

/-- From `s` to `u` State Control and the banks stand, and outside STANDBY the standby-only items too. -/
def ConfiguredOnly (s u : State) : Prop :=
  u.stc = s.stc ∧ u.prb = s.prb ∧ (s.stc.part ≠ .standby → SameStandbyItems u.cfg s.cfg)

theorem configure_only {s u : State} {p : Port} {i : ConfigItem} {v : Nat} {new : Settings} {cl : Bool}
    (h : ConfiguredOnly s u) (inStandby : standbyOnly i = true → u.standby = true)
    (judged : judgeItem u.cfg p i v = some (new, cl)) : ConfiguredOnly s (u.configure i new) := by
  obtain ⟨stc, prb, items⟩ := h
  refine ⟨by simpa using stc, by simpa using prb, fun outside => ?_⟩
  have free : standbyOnly i = false := by
    refine Bool.eq_false_iff.2 fun only => outside ?_
    simpa [State.standby, stc] using inStandby only
  have kept : SameStandbyItems new s.cfg := (judgeItem_items free judged).trans (items outside)
  apply configure_keeps (P := fun t => SameStandbyItems t.cfg s.cfg) u i new (items outside) kept
  case hserv => exact fun u v hu serves => by rwa [serves.cfg]
  all_goals intros; simpa [disablePort_footprint]

/-- What SET CONFIG keeps: State Control and the banks, and outside STANDBY the standby-only items. -/
theorem setConfig_scope (s : State) : Scope .setConfig s (s.takeCommand codeSetConfig setConfig) := by
  have kept : ConfiguredOnly s (s.takeCommand codeSetConfig setConfig) := by
    apply takeCommand_done (P := ConfiguredOnly s)
    case hb => exact setConfig_keeps fun u p i v new cl hu inStandby judged => configure_only hu inStandby judged
    case h => exact ⟨rfl, rfl, fun _ => .refl _⟩
    all_goals intros; simp_all [ConfiguredOnly]
  obtain ⟨stc, prb, items⟩ := kept
  exact ⟨items, .inl (by rw [stc]), .inl (by rw [prb])⟩

@[simp] theorem leaveStandby_part (s : State) :
    s.leaveStandby.stc.part = if s.cfg.settleTime = 0 then .operate else .settling := by
  unfold State.leaveStandby
  split <;> simp

/-- SET STATE moves the part state as R169 says. -/
theorem setState_scope (s : State) : Scope .setState s (s.takeCommand codeSetState setState) := by
  rcases takeCommand_cases s codeSetState setState with e | ⟨t, e⟩ | ⟨t, -, e⟩
  · rw [e]; exact (Calm.refl s).scope _
  · rw [e]; exact Calm.scope (by simp [Calm]) _
  · rw [e]
    rcases setState_cases t s.popIntake with still | ⟨inStandby, r, e⟩ | ⟨-, r, e⟩
    · exact Calm.scope (.trans (by simp [Calm]) (still.calm t)) _
    · rw [e]
      refine ⟨fun _ => by simp [Answer.done], .inr (.inl ⟨?_, rfl, ?_⟩), .inl (by simp [Answer.done])⟩
      · simpa [State.standby] using inStandby
      · exact (congrArg (·.part) (respond_stc ..)).trans (leaveStandby_part s.popIntake)
    · rw [e]
      have serves := foldl_serves _ abortQueued_serves (s.popIntake.respond t r).rq.queue
        (s.popIntake.respond t r).intoStandby
      refine ⟨fun _ => ?_, .inr (.inr (.inr ⟨?_, .inl rfl⟩)), .inl ?_⟩
      · simp [State.enterStandby, -respond_rq, serves.cfg]
      · exact congrArg (·.part) serves.stc
      · simp [State.enterStandby, -respond_rq, serves.prb]

theorem restartWarm_scope (s : State) : Scope .restartWarm s (s.takeCommand codeRestartWarm restartWarm) := by
  rcases takeCommand_cases s codeRestartWarm restartWarm with e | ⟨t, e⟩ | ⟨t, -, e⟩ <;> rw [e]
  · exact (Calm.refl s).scope _
  · exact Calm.scope (by simp [Calm]) _
  · obtain ⟨cfg, -, bank⟩ := applyHanded_calm (s.popIntake.respond t (Reply.bare .ok))
    refine ⟨fun _ => ?_, .inr (.inr (.inr ⟨rfl, .inr rfl⟩)), .inl ?_⟩
    · simp [restartWarm, State.warmRestart, cfg]
    · simp [restartWarm, State.warmRestart, bank]

/-! ### The tick rows -/

/-- What the store's action on a tick leaves unchanged. -/
@[simp] theorem actStore_unchanged (s : State) :
    s.actStore.pending = s.pending ∧ s.actStore.cfg = s.cfg ∧ s.actStore.stc.part = s.stc.part ∧
      s.actStore.stc.settleTimer = s.stc.settleTimer ∧ s.actStore.prb = s.prb ∧ s.actStore.epc = s.epc ∧
      s.actStore.atr = s.atr := by
  unfold State.actStore
  split
  · have serves := storeEvent_serves (s.setOffered { s.stc.offered with store := false }) (tickStore s.cfg s.tst)
    simp [serves.pending, serves.cfg, serves.stc, serves.prb, serves.epc, serves.atr]
    exact ⟨rfl, rfl⟩
  · simp

@[simp] theorem actWatch_unchanged (s : State) :
    s.actWatch.pending = s.pending ∧ s.actWatch.cfg = s.cfg ∧ s.actWatch.stc.part = s.stc.part ∧
      s.actWatch.stc.settleTimer = s.stc.settleTimer ∧ s.actWatch.prb = s.prb ∧ s.actWatch.epc = s.epc ∧
      s.actWatch.atr = s.atr ∧ s.actWatch.tst = s.tst := by
  unfold State.actWatch
  split
  · have serves := tickWatch_serves (s.setOffered { s.stc.offered with watch := false })
    simp [serves.pending, serves.cfg, serves.stc, serves.prb, serves.epc, serves.atr, serves.tst]
    exact ⟨rfl, rfl⟩
  · simp

@[simp] theorem actEpoch_unchanged (s : State) :
    s.actEpoch.pending = s.pending ∧ s.actEpoch.cfg = s.cfg ∧ s.actEpoch.stc.part = s.stc.part ∧
      s.actEpoch.stc.settleTimer = s.stc.settleTimer ∧ s.actEpoch.atr = s.atr ∧ s.actEpoch.tst = s.tst ∧
      s.actEpoch.rq = s.rq ∧ s.actEpoch.engA = s.engA ∧ s.actEpoch.engB = s.engB ∧ s.actEpoch.pwl = s.pwl := by
  unfold State.actEpoch
  split
  · simp [State.setOffered]
  · simp

@[simp] theorem actSettle_unchanged (s : State) :
    s.actSettle.pending = s.pending ∧ s.actSettle.cfg = s.cfg ∧ s.actSettle.spu = s.spu ∧
      s.actSettle.atr = s.atr ∧ s.actSettle.prb = s.prb ∧ s.actSettle.epc = s.epc ∧
      s.actSettle.tst = s.tst ∧ s.actSettle.rq = s.rq ∧ s.actSettle.engA = s.engA ∧
      s.actSettle.engB = s.engB ∧ s.actSettle.pwl = s.pwl := by
  unfold State.actSettle
  split
  · simp
  · simp

theorem actEpoch_applied (s : State) : EpochApplied s s.actEpoch := by
  unfold State.actEpoch
  split
  · exact tickEpoch_applied (s.setOffered { s.stc.offered with epoch := false })
  · exact .inl rfl

/-- State Control's tick moves the part at most from SETTLING to OPERATE (R170). -/
theorem actSettle_part (s : State) : s.actSettle.stc.part = s.stc.part ∨
    s.stc.part = .settling ∧ s.actSettle.stc.part = .operate := by
  unfold State.actSettle State.tickSettle
  split_ifs with offered settling last
  · exact .inr ⟨settling, by simp⟩
  · exact .inl rfl
  · exact .inl rfl
  · exact .inl rfl

/-- The blocks' actions on a tick, and what else leaves these items as they are (R167). -/
theorem finishTick_scope {s t : State} {c : Instr} (hc : c ∈ [Instr.settleTimerExpiry, .ageTick, .timebaseInterval])
    (cfg : t.cfg = s.finishTick.cfg) (part : t.stc.part = s.finishTick.stc.part) (prb : t.prb = s.finishTick.prb)
    (epc : t.epc = s.finishTick.epc) : Scope c s t := by
  refine ⟨fun _ => ?_, ?_, ?_⟩
  · simp [cfg, State.finishTick]
  · rw [part]
    rcases actSettle_part s.actStore.actWatch.actEpoch with e | ⟨settling, operate⟩
    · exact .inl (by simpa [State.finishTick] using e)
    · exact .inr (.inr (.inl ⟨by simpa using settling, operate, hc⟩))
  · rw [prb, epc]
    rcases actEpoch_applied s.actStore.actWatch with e | ⟨pending, number, e⟩
    · exact .inl (by simp [State.finishTick, e])
    · exact .inr ⟨by simpa using pending, by simp [State.finishTick, e], by simp [State.finishTick, e],
        by simpa [State.finishTick] using number⟩

theorem timebaseInterval_scope (s : State) : Scope .timebaseInterval s s.timebaseInterval := by
  unfold State.timebaseInterval State.takeTick
  dsimp only
  split <;> exact finishTick_scope (by simp) rfl rfl rfl rfl

theorem ageTick_scope (s : State) : Scope .ageTick s s.ageTick := by
  unfold State.ageTick
  split
  · exact finishTick_scope (by simp) rfl rfl rfl rfl
  · split
    · obtain ⟨items, part, bank⟩ :=
        finishTick_scope (s := s.takeTick) (c := .ageTick) (by simp) rfl rfl rfl rfl
      exact ⟨items, part, bank⟩
    · exact (Calm.refl s).scope _

theorem settleTimerExpiry_scope (s : State) : Scope .settleTimerExpiry s s.settleTimerExpiry := by
  unfold State.settleTimerExpiry
  split
  · refine ⟨fun _ => by simp, ?_, .inl (by simp)⟩
    exact (actSettle_part s).imp id fun ⟨settling, operate⟩ => .inr (.inl ⟨settling, operate, by simp⟩)
  · exact (Calm.refl s).scope _

theorem actStore_calm (s : State) : Calm s s.actStore := by simp [Calm]

theorem actWatch_calm (s : State) : Calm s s.actWatch := by simp [Calm]

/-! ### Every row -/

/-- R140, R152, R164, R168 and R174 in one: what a step may do to these items, row by row. -/
theorem exec_scope {c : Instr} {s t : State} (h : exec c s = .next t) :
    (∃ straps, c = .coldReset straps) ∨ Scope c s t := by
  have calm {u : State} (hu : Calm s u) (e : Host.Outcome.next u = (.next t : Host.Outcome State Fault Refusal)) :
      (∃ straps, c = .coldReset straps) ∨ Scope c s t := by
    cases e; exact .inr (hu.scope c)
  cases c with
  | coldReset straps => exact .inl ⟨straps, rfl⟩
  | frameArrival p tag bytes =>
    cases h; exact .inr ((frameArrival_applied s p tag bytes).scope (by simp) (by simp) _)
  | readStatus => exact calm (takeCommand_calm s fun t u => (readStatus_still t u).calm t) h
  | readConfig => exact calm (takeCommand_calm s fun t u => (readConfig_still t u).calm t) h
  | setConfig => cases h; exact .inr (setConfig_scope s)
  | setState => cases h; exact .inr (setState_scope s)
  | restartWarm => cases h; exact .inr (restartWarm_scope s)
  | readCounters => exact calm (takeCommand_calm s readCounters_calm) h
  | writeSourceEntry => exact calm (takeCommand_calm s writeSource_calm) h
  | readSourceEntry => exact calm (takeCommand_calm s fun t u => (readSource_still t u).calm t) h
  | queryNode => exact calm (takeCommand_calm s fun t u => (queryNode_still t u).calm t) h
  | queryLink => exact calm (takeCommand_calm s fun t u => (queryLink_still t u).calm t) h
  | listNodes => exact calm (takeCommand_calm s fun t u => (listNodes_still t u).calm t) h
  | clearCrossings => exact calm (takeCommand_calm s clearCrossings_calm) h
  | submit => exact calm (takeCommand_calm s submit_calm) h
  | cancel => exact calm (takeCommand_calm s cancel_calm) h
  | releaseWatch => exact calm (takeCommand_calm s releaseWatch_calm) h
  | queryWatch => exact calm (takeCommand_calm s fun t u => (queryWatch_still t u).calm t) h
  | writeDialectEntry => exact calm (takeCommand_calm s writeDialect_calm) h
  | clearDialect => exact calm (takeCommand_calm s clearDialect_calm) h
  | writeClass => exact calm (takeCommand_calm s writeClass_calm) h
  | readTable => exact calm (takeCommand_calm s fun t u => (readTable_still t u).calm t) h
  | commit => exact calm (takeCommand_calm s fun t u => by simp [Calm]) h
  | discardStaged => exact calm (takeCommand_calm s fun t u => by simp [Calm]) h
  | ackEvents => exact calm (takeCommand_calm s ackEvents_calm) h
  | timebaseInterval => cases h; exact .inr (timebaseInterval_scope s)
  | ageTick => cases h; exact .inr (ageTick_scope s)
  | nodeAgeExpiry =>
    refine calm ?_ h; unfold State.nodeAgeExpiry; split
    · exact actStore_calm s
    · exact .refl s
  | holdDownExpiry =>
    refine calm ?_ h; unfold State.holdDownExpiry; split
    · exact actStore_calm s
    · exact .refl s
  | reservationExpiry =>
    refine calm ?_ h; unfold State.reservationExpiry; split
    · exact actWatch_calm s
    · exact .refl s
  | epochTimerExpiry =>
    cases h
    refine .inr ?_
    unfold State.epochTimerExpiry; split
    · exact (actEpoch_applied s).scope (by simp) (by simp) _
    · exact (Calm.refl s).scope _
  | settleTimerExpiry => cases h; exact .inr (settleTimerExpiry_scope s)
  | translationEvent => exact calm (by simp [Calm]) h
  | recordApplication => exact calm (applyHanded_calm s) h
  | expansion e => exact calm (expand_serves s e).calm h
  | engineEndOrder e => exact calm (takeOrder_serves s e).calm h
  | egressTake p => exact calm (by simp [Calm]) h
  | transmissionEnd p => exact calm (by simp [Calm]) h
  | heldResponseEnters => exact calm (by simp [Calm]) h
  | completingResultEnters e => exact calm (completingEnters_serves s e).calm h
  | noticeSend => exact calm (by simp [Calm]) h
  | unknownOrMalformedCommand => exact calm (takeUnknown_calm s) h

/-- Settles O53: the bank's part of `exec_scope`. -/
theorem activeBankChangesOnlyAtAnEpoch : Obligations.ActiveBankChangesOnlyAtAnEpoch := by
  unfold Obligations.ActiveBankChangesOnlyAtAnEpoch
  exact fun c s t h changed => (exec_scope h).imp id fun scope => scope.bank.resolve_left changed

/-- Settles O58: the items' part of `exec_scope`. -/
theorem standbyOnlyItemsChangeOnlyInStandby : Obligations.StandbyOnlyItemsChangeOnlyInStandby := by
  unfold Obligations.StandbyOnlyItemsChangeOnlyInStandby
  exact fun c s t h outside => (exec_scope h).imp id fun scope => scope.items outside

/-- Settles O59: the part state's part of `exec_scope`, and a cold reset's STANDBY. -/
theorem partStateChangesOnlyAsListed : Obligations.PartStateChangesOnlyAsListed := by
  unfold Obligations.PartStateChangesOnlyAsListed
  intro c s t h changed
  rcases exec_scope h with ⟨straps, rfl⟩ | scope
  · cases h; exact .inr (.inr ⟨rfl, .inr (.inr ⟨straps, rfl⟩)⟩)
  · rcases scope.part.resolve_left changed with left | settled | ⟨standby, row⟩
    · exact .inl left
    · exact .inr (.inl settled)
    · exact .inr (.inr ⟨standby, row.imp id .inl⟩)

end Sys2Proof.Machine

/-!
LEMMAS. The part's steps: the front row, the cold reset, the response hold, the senders' rights and malformed
commands (O1 to O6).
-/
namespace Sys2Proof.Machine

/-- Settles O1. -/
theorem stepRunsTheFrontCommand : Obligations.StepRunsTheFrontCommand := by
  unfold Obligations.StepRunsTheFrontCommand
  intro c rest s front
  simp [step, front]

/-! ## The cold reset (R172) -/

/-- After a cold reset every port is enabled. -/
theorem portIn_all (p : Port) : portIn 0x1FF#9 p = true := by
  cases p with
  | lp i => revert i; decide
  | np => decide

/-- Every port after a cold reset is a cold port. -/
theorem cold_port (straps : BitVec 4) (p : Port) : (State.cold straps).port p = PortState.cold := by
  simp [State.port, State.cold]

theorem clear_get (c : EventClass) : EventUnit.clear.get c = EventClassState.clear := by
  simp [EventUnit.get, EventUnit.clear]

/-- Settles O2: each item is read off `State.cold`. -/
theorem coldResetTakesResetValues : Obligations.ColdResetTakesResetValues := by
  unfold Obligations.ColdResetTakesResetValues
  intro straps s
  refine ⟨_, rfl, rfl, rfl, rfl, rfl, rfl, rfl, rfl, portIn_all, rfl, rfl, rfl, rfl, rfl, rfl, rfl, rfl, rfl, rfl,
    rfl, rfl, rfl, rfl, rfl, rfl, rfl, rfl, rfl, fun p => ?ports, rfl, rfl, fun i => ?sources, rfl, fun b hb => ?banks,
    rfl, rfl, rfl, rfl, fun e => ?engines, rfl, rfl, fun c => ?classes, rfl⟩
  case ports =>
    have port : State.port { State.cold straps with pending := s.pending } p = PortState.cold := cold_port straps p
    rw [port]
    exact ⟨rfl, rfl, rfl, rfl, rfl⟩
  case sources => simp [State.cold, SourceEntry.empty]
  case banks =>
    have : b = Bank.cold := by simpa [State.cold] using hb
    subst this
    exact ⟨fun d i => by simp [Bank.cold, DialectEntry.cold], fun k => by simp [Bank.cold, ClassEntry.cold]⟩
  case engines => cases e <;> rfl
  case classes => exact clear_get c

/-! ## Offering a response (R161) -/

theorem waitsFor_iff {x : Engine} {p : Port} : x.waitsFor = some p ↔
    (x.mode == .completing && x.request.any (fun d => d.ingress == some p)) = true := by
  unfold Engine.waitsFor
  cases x.mode <;> cases x.request <;> simp

/-- The frames that wait on a port, counted off (R162). -/
theorem waiters_count (s : State) (p : Port) : s.waiters p =
    (s.spu.hold.any (fun h => h.port == p) :: [EngineId.a, EngineId.b].map (fun e =>
      (s.engine e).mode == .completing && (s.engine e).request.any (fun d => d.ingress == some p))).count true := by
  have hold : s.spu.hold.map (·.port) = some p ↔ s.spu.hold.any (fun h => h.port == p) = true := by
    cases s.spu.hold <;> simp
  have tally (a b c : Bool) : (if a = true then 1 else 0) + (if b = true then 1 else 0)
      + (if c = true then 1 else 0) = [a, b, c].count true := by
    cases a <;> cases b <;> cases c <;> rfl
  simp only [State.waiters, hold, waitsFor_iff]
  exact tally _ _ _

/-- Settles O3: the three branches of `State.offerResponse`, the waiting frames counted off, and the bytes of the
response frame. -/
theorem responseEntersIsHeldOrDiscarded : Obligations.ResponseEntersIsHeldOrDiscarded := by
  unfold Obligations.ResponseEntersIsHeldOrDiscarded
  refine ⟨fun s p f => ⟨fun on room => ?enters, fun on full => ?held, fun off => ?discarded⟩, waiters_count,
    fun s t r => ⟨responseCode r.code, ?code, ?bytes⟩⟩
  case enters => simp [State.offerResponse, on, State.hasPlace, room, State.enterLocal]
  case held => simp [State.offerResponse, on, State.hasPlace, full.not_gt]
  case discarded => simp [State.offerResponse, off, State.countLocalDiscard, State.countPort, bump, addSat]
  case code => cases r.code <;> decide
  case bytes => simp [State.respond, responseFrame, classResponse]

/-! ## The occupied hold (R161) -/

/-- Settles O4. -/
theorem occupiedHoldBlocksCommands : Obligations.OccupiedHoldBlocksCommands := by
  unfold Obligations.OccupiedHoldBlocksCommands
  rintro s r code c held (row | rfl)
  · obtain ⟨body, run⟩ := exec_of_row row
    rw [run, takeCommand_hold held]
  · exact congrArg _ (takeUnknown_hold held)

/-! ## Senders and rights (R160, R166) -/

/-- The listed commands and their rights, but for READ COUNTERS, whose right its clear option decides (R166). -/
def listedRights : List (Nat × Right) :=
  [(0x01, .query), (0x02, .query), (0x08, .query), (0x10, .query), (0x11, .query), (0x12, .query), (0x23, .query),
   (0x33, .query), (0x20, .request), (0x21, .request), (0x22, .request), (0x03, .configure), (0x04, .configure),
   (0x05, .configure), (0x07, .configure), (0x13, .configure), (0x30, .configure), (0x31, .configure),
   (0x32, .configure), (0x34, .configure), (0x35, .configure), (0x40, .configure)]

theorem requiredRight_of_ne {code : Byte} (other : code ≠ codeReadCounters) (params : List Byte) :
    requiredRight code params = requiredRight code [] := by
  simp [requiredRight, other]

theorem requiredRight_listed (r : Right) : ∀ code : Byte, code ≠ codeReadCounters →
    (requiredRight code [] = some r ↔ (code.toNat, r) ∈ listedRights) := by
  cases r <;> decide +kernel

/-- READ COUNTERS' clear option is set by a third byte other than 0. -/
theorem clearOption_iff (params : List Byte) : (params.length ≥ 3 ∧ paramMark params 2 = true) ↔
    3 ≤ params.length ∧ params.getD 2 0 ≠ 0 := by
  simp [paramMark, fieldByte]

theorem requiredRight_iff {code : Byte} {params : List Byte} {r : Right} : requiredRight code params = some r ↔
    (code.toNat, r) ∈ listedRights ∨
    (code = 0x06 ∧ r = if 3 ≤ params.length ∧ params.getD 2 0 ≠ 0 then .configure else .query) := by
  by_cases counters : code = codeReadCounters
  · subst counters
    have unlisted : (codeReadCounters.toNat, r) ∉ listedRights := by cases r <;> decide
    rw [requiredRight, if_pos rfl, or_iff_right unlisted, and_iff_right (show codeReadCounters = 0x06 from rfl)]
    simp only [clearOption_iff, Option.some.injEq]
    exact eq_comm
  · rw [requiredRight_of_ne counters, requiredRight_listed r code counters]
    exact (or_iff_left fun h => counters h.1).symm

theorem lookupSource_none {sources : Vector SourceEntry 8} {a : Address}
    (h : ∀ k : Fin 8, sources[k].valid = true → sources[k].address ≠ a) : lookupSource sources a = none := by
  unfold lookupSource
  rw [List.find?_eq_none]
  intro x hx
  obtain ⟨k, hk, rfl⟩ := List.getElem_of_mem hx
  simpa using h ⟨k, by simpa using hk⟩

/-- The lowest-indexed valid entry of an address decides (R160). -/
theorem lookupSource_some {sources : Vector SourceEntry 8} {a : Address} {k : Fin 8}
    (valid : sources[k].valid = true) (address : sources[k].address = a)
    (lowest : ∀ j : Fin 8, j < k → sources[j].valid = true → sources[j].address ≠ a) :
    lookupSource sources a = some sources[k] := by
  unfold lookupSource
  rw [List.find?_eq_some_iff_getElem]
  refine ⟨by simpa using ⟨valid, address⟩, k, by simp, by simp, fun j hj => ?_⟩
  have other := lowest ⟨j, hj.trans k.isLt⟩ hj
  simpa [← Bool.not_eq_true, imp_iff_not_or] using other

/-- Settles O5: every row's command is refused alike; the rest reads the source list and R166's table of rights. -/
theorem senderWithoutTheRightIsDenied : Obligations.SenderWithoutTheRightIsDenied := by
  unfold Obligations.SenderWithoutTheRightIsDenied
  refine ⟨fun s t rest c r head row required lacks => ?denied, fun s t r np => ?np, fun s t r i lp absent => ?absent,
    fun s t r i k lp valid address lowest => ?entry, fun x => ⟨rfl, rfl, rfl⟩, fun _ _ _ => requiredRight_iff⟩
  case denied =>
    obtain ⟨body, run⟩ := exec_of_row row
    rw [run, takeCommand_denied head rfl required lacks]
    rfl
  case np => simp [Holds, State.senderHas, np]
  case absent => simp [Holds, State.senderHas, lp, lookupSource_none absent]
  case entry => simp [Holds, State.senderHas, lp, lookupSource_some valid address lowest]

/-! ## Short payloads, unknown codes and short parameter lists (R160) -/

/-- Two bytes read as a tag are sent as those two bytes (section 9.1). -/
theorem enc2_append (x y : Byte) : enc2 (x ++ y).toNat = [x, y] := by
  have hx := x.isLt
  have hy := y.isLt
  have value : (x ++ y).toNat = 256 * x.toNat + y.toNat := by
    rw [BitVec.toNat_append, ← Nat.shiftLeft_add_eq_or_of_lt hy, Nat.shiftLeft_eq, mul_comm]
  simp only [enc2, encodeNat, value]
  congr
  · apply BitVec.eq_of_toNat_eq; simp; omega
  · apply BitVec.eq_of_toNat_eq; simp; omega

/-- The port unit's answer to a frame at the head: the code and the tag from the bytes present, with 0 for the
missing ones. -/
theorem respond_commandOf (s : State) (p : Port) (f : Frame) (c : Response) :
    s.respond (commandOf ⟨p, f⟩) (Reply.bare c) = s.offerResponse p (originated s.cfg.engineAddress f.src
      classResponse [f.payload.getD 0 0, responseCode c, f.payload.getD 2 0, f.payload.getD 3 0]) := by
  simp [State.respond, responseFrame, commandOf, enc2_append, Reply.bare, fieldByte]

theorem takeUnknown_of_head {s : State} {p : Port} {f : Frame} {rest : List IntakeFrame}
    (hold : s.spu.hold = none) (head : s.spu.intake = { port := p, frame := f } :: rest) :
    s.takeUnknown = if f.payload.length < 4 then
        (s.withIntake rest).respond (commandOf ⟨p, f⟩) (Reply.bare .malformed)
      else if (requiredRight (commandOf ⟨p, f⟩).code (commandOf ⟨p, f⟩).params).isNone then
        (s.withIntake rest).respond (commandOf ⟨p, f⟩) (Reply.bare .unknownCommand)
      else s := by
  have popped : s.popIntake = s.withIntake rest := by simp [State.popIntake, State.withIntake, head]
  simp [State.takeUnknown, State.intakeHead, hold, head, popped]

section
variable {t : Taken} {u : State}

theorem params_nil (h : t.params.length < 1) : t.params = [] := List.length_eq_zero_iff.1 (by omega)

theorem readConfig_short (h : t.params.length < 1) : readConfig t u = Answer.refuse .malformed u := by
  simp [readConfig, params_nil h]

theorem setConfig_short (h : t.params.length < 5) : setConfig t u = Answer.refuse .malformed u := if_pos h

theorem setState_short (h : t.params.length < 1) : setState t u = Answer.refuse .malformed u := by
  simp [setState, params_nil h]

theorem readCounters_short (h : t.params.length < 3) : readCounters t u = Answer.refuse .malformed u := if_pos h

theorem writeSource_short (h : t.params.length < 7) : writeSource t u = Answer.refuse .malformed u := if_pos h

theorem readSource_short (h : t.params.length < 1) : readSource t u = Answer.refuse .malformed u := by
  simp [readSource, params_nil h]

theorem queryNode_short (h : t.params.length < 4) : queryNode t u = Answer.refuse .malformed u := if_pos h

theorem queryLink_short (h : t.params.length < 6) : queryLink t u = Answer.refuse .malformed u := if_pos h

theorem listNodes_short (h : t.params.length < 2) : listNodes t u = Answer.refuse .malformed u := if_pos h

theorem clearCrossings_short (h : t.params.length < 7) : clearCrossings t u = Answer.refuse .malformed u := if_pos h

theorem cancel_short (h : t.params.length < 5) : cancel t u = Answer.refuse .malformed u := if_pos h

theorem releaseWatch_short (h : t.params.length < 1) : releaseWatch t u = Answer.refuse .malformed u := by
  simp [releaseWatch, params_nil h]

theorem queryWatch_short (h : t.params.length < 1) : queryWatch t u = Answer.refuse .malformed u := by
  simp [queryWatch, params_nil h]

theorem writeDialect_short (h : t.params.length < 10) : writeDialect t u = Answer.refuse .malformed u := if_pos h

theorem clearDialect_short (h : t.params.length < 1) : clearDialect t u = Answer.refuse .malformed u := by
  simp [clearDialect, params_nil h]

theorem writeClass_short (h : t.params.length < 8) : writeClass t u = Answer.refuse .malformed u := if_pos h

theorem readTable_short (h : t.params.length < 3 ∨ (param1 t.params 1 = 0 ∧ t.params.length < 4)) :
    readTable t u = Answer.refuse .malformed u := if_pos h

theorem ackEvents_short (h : t.params.length < 4) : ackEvents t u = Answer.refuse .malformed u := if_pos h

end

theorem bitVec_of_toNat {b : Byte} {k : Nat} (h : b.toNat = k) : b = BitVec.ofNat 8 k := by
  simp [← h]

theorem requiredRight_of_row {code : Byte} {c : Instr} (h : rowOfCode code = some c) (params : List Byte) :
    ∃ r, requiredRight code params = some r := by
  by_cases counters : code = codeReadCounters
  · exact ⟨_, if_pos counters⟩
  · have listed : ∀ code : Byte, (rowOfCode code).isSome = true → (requiredRight code []).isSome = true := by
      decide +kernel
    rw [requiredRight_of_ne counters, ← Option.isSome_iff_exists]
    exact listed code (by simp [h])

/-- A command that its sender may give, with too few parameters for its row's body (R160). -/
theorem malformed_of_short {s : State} {t : Taken} {rest : List IntakeFrame} {c c' : Instr} {code : Byte}
    {body : Taken → State → Answer} (head : AtHead s t rest) (row : rowOfCode t.code = some c)
    (right : ∀ r, requiredRight t.code t.params = some r → Holds s t r) (hc : t.code = code)
    (row' : rowOfCode code = some c') (run : ∀ s, exec c' s = .next (s.takeCommand code body))
    (short : body t (s.withIntake rest) = Answer.refuse .malformed (s.withIntake rest)) :
    exec c s = .next ((s.withIntake rest).respond t { code := .malformed, data := [] }) := by
  obtain ⟨r, required⟩ := requiredRight_of_row row t.params
  subst hc
  obtain rfl : c = c' := Option.some.inj (row.symm.trans row')
  rw [run, takeCommand_held head rfl required (right r required), short]
  rfl

/-- Settles O6: the port unit answers short payloads and unlisted codes, and each row's body its short parameters. -/
theorem unknownOrMalformedIsAnswered : Obligations.UnknownOrMalformedIsAnswered := by
  unfold Obligations.UnknownOrMalformedIsAnswered
  refine ⟨fun s p f rest hold head => ⟨fun short => ?short, fun long unlisted => ?unknown⟩,
    fun s t rest c n head row size short right => ?params, fun s t rest head code right length table => ?dialect⟩
  case short =>
    refine congrArg _ ((takeUnknown_of_head hold head).trans ?_)
    rw [if_pos short, respond_commandOf]; rfl
  case unknown =>
    have none : requiredRight (commandOf ⟨p, f⟩).code (commandOf ⟨p, f⟩).params = none := requiredRight_none unlisted _
    refine congrArg _ ((takeUnknown_of_head hold head).trans ?_)
    rw [if_neg long.not_gt, none, Option.isNone_none, if_pos rfl, respond_commandOf]; rfl
  case dialect =>
    rw [exec_readTable head code right, readTable_short (.inr ⟨?_, ?_⟩)]
    · rfl
    · rw [param1, fieldByte, table]; rfl
    · omega
  case params =>
    simp only [List.mem_cons, Prod.mk.injEq, List.not_mem_nil, or_false] at size
    rcases size with ⟨code, rfl⟩ | ⟨code, rfl⟩ | ⟨code, rfl⟩ | ⟨code, rfl⟩ | ⟨code, rfl⟩ | ⟨code, rfl⟩ | ⟨code, rfl⟩ |
      ⟨code, rfl⟩ | ⟨code, rfl⟩ | ⟨code, rfl⟩ | ⟨code, rfl⟩ | ⟨code, rfl⟩ | ⟨code, rfl⟩ | ⟨code, rfl⟩ | ⟨code, rfl⟩ |
      ⟨code, rfl⟩ | ⟨code, rfl⟩ | ⟨code, rfl⟩
    · exact malformed_of_short (body := readConfig) head row right (bitVec_of_toNat code) rfl (fun _ => rfl) (readConfig_short short)
    · exact malformed_of_short (body := setConfig) head row right (bitVec_of_toNat code) rfl (fun _ => rfl) (setConfig_short short)
    · exact malformed_of_short (body := setState) head row right (bitVec_of_toNat code) rfl (fun _ => rfl) (setState_short short)
    · exact malformed_of_short (body := readCounters) head row right (bitVec_of_toNat code) rfl (fun _ => rfl) (readCounters_short short)
    · exact malformed_of_short (body := writeSource) head row right (bitVec_of_toNat code) rfl (fun _ => rfl) (writeSource_short short)
    · exact malformed_of_short (body := readSource) head row right (bitVec_of_toNat code) rfl (fun _ => rfl) (readSource_short short)
    · exact malformed_of_short (body := queryNode) head row right (bitVec_of_toNat code) rfl (fun _ => rfl) (queryNode_short short)
    · exact malformed_of_short (body := queryLink) head row right (bitVec_of_toNat code) rfl (fun _ => rfl) (queryLink_short short)
    · exact malformed_of_short (body := listNodes) head row right (bitVec_of_toNat code) rfl (fun _ => rfl) (listNodes_short short)
    · exact malformed_of_short (body := clearCrossings) head row right (bitVec_of_toNat code) rfl (fun _ => rfl) (clearCrossings_short short)
    · exact malformed_of_short (body := cancel) head row right (bitVec_of_toNat code) rfl (fun _ => rfl) (cancel_short short)
    · exact malformed_of_short (body := releaseWatch) head row right (bitVec_of_toNat code) rfl (fun _ => rfl) (releaseWatch_short short)
    · exact malformed_of_short (body := queryWatch) head row right (bitVec_of_toNat code) rfl (fun _ => rfl) (queryWatch_short short)
    · exact malformed_of_short (body := writeDialect) head row right (bitVec_of_toNat code) rfl (fun _ => rfl) (writeDialect_short short)
    · exact malformed_of_short (body := clearDialect) head row right (bitVec_of_toNat code) rfl (fun _ => rfl) (clearDialect_short short)
    · exact malformed_of_short (body := writeClass) head row right (bitVec_of_toNat code) rfl (fun _ => rfl) (writeClass_short short)
    · exact malformed_of_short (body := readTable) head row right (bitVec_of_toNat code) rfl (fun _ => rfl) (readTable_short (.inl short))
    · exact malformed_of_short (body := ackEvents) head row right (bitVec_of_toNat code) rfl (fun _ => rfl) (ackEvents_short short)

end Sys2Proof.Machine

/-!
LEMMAS. The timebase, the ticks' blocks and Epoch Control's tick (O37, O38, O41, O42).
-/
namespace Sys2Proof.Machine

/-! ## The rows that no command asks for -/

section
variable (s : State)

theorem exec_frameArrival (p : Port) (tag : Option Byte) (bytes : List Byte) : exec (.frameArrival p tag bytes) s = .next (s.frameArrival p tag bytes) := rfl

theorem exec_timebaseInterval : exec .timebaseInterval s = .next (s.timebaseInterval) := rfl

theorem exec_ageTick : exec .ageTick s = .next (s.ageTick) := rfl

theorem exec_nodeAgeExpiry : exec .nodeAgeExpiry s = .next (s.nodeAgeExpiry) := rfl

theorem exec_holdDownExpiry : exec .holdDownExpiry s = .next (s.holdDownExpiry) := rfl

theorem exec_reservationExpiry : exec .reservationExpiry s = .next (s.reservationExpiry) := rfl

theorem exec_epochTimerExpiry : exec .epochTimerExpiry s = .next (s.epochTimerExpiry) := rfl

theorem exec_settleTimerExpiry : exec .settleTimerExpiry s = .next (s.settleTimerExpiry) := rfl

theorem exec_translationEvent : exec .translationEvent s = .next (s.translationEvent) := rfl

theorem exec_recordApplication : exec .recordApplication s = .next (s.applyHanded) := rfl

theorem exec_expansion (e : EngineId) : exec (.expansion e) s = .next (s.expand e) := rfl

theorem exec_engineEndOrder (e : EngineId) : exec (.engineEndOrder e) s = .next (s.takeOrder e) := rfl

theorem exec_egressTake (p : Port) : exec (.egressTake p) s = .next (s.egressTake p) := rfl

theorem exec_transmissionEnd (p : Port) : exec (.transmissionEnd p) s = .next (s.transmissionEnd p) := rfl

theorem exec_heldResponseEnters : exec .heldResponseEnters s = .next (s.heldEnters) := rfl

theorem exec_completingResultEnters (e : EngineId) : exec (.completingResultEnters e) s = .next (s.completingEnters e) := rfl

theorem exec_noticeSend : exec .noticeSend s = .next (s.noticeSend) := rfl

end

/-! ## What a block does with the tick it is owed (R167) -/

theorem standby_iff {s : State} : s.standby = true ↔ s.stc.part = .standby := by simp [State.standby]

theorem standby_eq_false {s : State} : s.standby = false ↔ s.stc.part ≠ .standby := by simp [State.standby]

theorem actStore_idle {s : State} (h : s.stc.offered.store = false) : s.actStore = s := by simp [State.actStore, h]

theorem actWatch_idle {s : State} (h : s.stc.offered.watch = false) : s.actWatch = s := by simp [State.actWatch, h]

theorem actEpoch_idle {s : State} (h : s.stc.offered.epoch = false) : s.actEpoch = s := by simp [State.actEpoch, h]

theorem actSettle_idle {s : State} (h : s.stc.offered.settle = false) : s.actSettle = s := by
  simp [State.actSettle, h]

theorem actStore_standby {s : State} (h : s.standby = true) : s.actStore = s := by simp [State.actStore, h]

theorem actWatch_standby {s : State} (h : s.standby = true) : s.actWatch = s := by simp [State.actWatch, h]

theorem actEpoch_standby {s : State} (h : s.standby = true) : s.actEpoch = s := by simp [State.actEpoch, h]

theorem actSettle_standby {s : State} (h : s.standby = true) : s.actSettle = s := by simp [State.actSettle, h]

theorem actStore_owed {s : State} (owed : s.stc.offered.store = true) (h : s.standby = false) : s.actStore =
    (s.setOffered { s.stc.offered with store := false }).storeEvent (tickStore s.cfg s.tst) := by
  simp [State.actStore, owed, h]

theorem actWatch_owed {s : State} (owed : s.stc.offered.watch = true) (h : s.standby = false) : s.actWatch =
    (s.setOffered { s.stc.offered with watch := false }).tickWatch := by
  simp [State.actWatch, owed, h]

theorem actEpoch_owed {s : State} (owed : s.stc.offered.epoch = true) (h : s.standby = false) : s.actEpoch =
    (s.setOffered { s.stc.offered with epoch := false }).tickEpoch := by
  simp [State.actEpoch, owed, h]

theorem actSettle_owed {s : State} (owed : s.stc.offered.settle = true) (h : s.standby = false) : s.actSettle =
    (s.setOffered { s.stc.offered with settle := false }).tickSettle := by
  simp [State.actSettle, owed, h]

theorem finishTick_idle {s : State} (h : s.stc.offered = TickOffer.none) : s.finishTick = s := by
  have : s.stc.offered.store = false ∧ s.stc.offered.watch = false ∧ s.stc.offered.epoch = false ∧
      s.stc.offered.settle = false := by rw [h]; exact ⟨rfl, rfl, rfl, rfl⟩
  obtain ⟨store, watch, epoch, settle⟩ := this
  rw [State.finishTick, actStore_idle store, actWatch_idle watch, actEpoch_idle epoch, actSettle_idle settle]

theorem finishTick_standby {s : State} (h : s.standby = true) : s.finishTick = s := by
  rw [State.finishTick, actStore_standby h, actWatch_standby h, actEpoch_standby h, actSettle_standby h]

/-! ## The timebase (R167) and STANDBY (R18, R138, R149, R170) -/

/-- Settles O37. -/
theorem timebaseCountsIntervals : Obligations.TimebaseCountsIntervals := by
  unfold Obligations.TimebaseCountsIntervals
  intro s none
  rw [exec_timebaseInterval]
  simp only [State.timebaseInterval, finishTick_idle none, State.tickDue, State.takeTick]
  by_cases due : s.cfg.ageDiv < s.stc.timebase + 1 <;> by_cases standby : s.stc.part = .standby <;>
    simp [due, standby, State.standby, ← none]

/-- Only the timebase count and what is owed on a tick may differ. -/
def SameButTimebase (s t : State) : Prop :=
  t = { s with stc := { s.stc with timebase := t.stc.timebase, offered := t.stc.offered } }

theorem SameButTimebase.refl (s : State) : SameButTimebase s s := rfl

/-- Settles O38: in STANDBY each block's action on a tick leaves the state as it is. -/
theorem ticksReachNoBlockInStandby : Obligations.TicksReachNoBlockInStandby := by
  unfold Obligations.TicksReachNoBlockInStandby
  intro s c part listed
  have standby := standby_iff.2 part
  have finished := finishTick_standby standby
  have taken : s.takeTick.finishTick = s.takeTick := finishTick_standby standby
  simp only [List.mem_cons, List.not_mem_nil, or_false] at listed
  rcases listed with rfl | rfl | rfl | rfl | rfl | rfl | rfl
  case inl =>
    refine ⟨s.timebaseInterval, rfl, ?_⟩
    rw [State.timebaseInterval, finished]
    split <;> rfl
  case inr.inl =>
    refine ⟨s.ageTick, rfl, ?_⟩
    rw [State.ageTick, finished, taken]
    split
    · rfl
    · split <;> rfl
  · exact ⟨s, by simp [exec_nodeAgeExpiry, State.nodeAgeExpiry, actStore_standby standby], SameButTimebase.refl s⟩
  · exact ⟨s, by simp [exec_holdDownExpiry, State.holdDownExpiry, actStore_standby standby], SameButTimebase.refl s⟩
  · exact ⟨s, by simp [exec_reservationExpiry, State.reservationExpiry, actWatch_standby standby], SameButTimebase.refl s⟩
  · exact ⟨s, by simp [exec_epochTimerExpiry, State.epochTimerExpiry, actEpoch_standby standby], SameButTimebase.refl s⟩
  · exact ⟨s, by simp [exec_settleTimerExpiry, State.settleTimerExpiry, actSettle_standby standby], SameButTimebase.refl s⟩

/-! ## The settle timer (R170) -/

theorem tickSettle_last {s : State} (part : s.stc.part = .settling) (last : s.stc.settleTimer ≤ 1) :
    s.tickSettle = ({ s with stc := { s.stc with part := .operate, settleTimer := 0 } }).raise .settled .none .none := by
  rw [State.tickSettle, if_pos part, if_pos last]

/-- Settles O42. -/
theorem settleTimerBringsOperate : Obligations.SettleTimerBringsOperate := by
  unfold Obligations.SettleTimerBringsOperate
  intro s part owed last
  have standby : s.standby = false := standby_eq_false.2 (by simp [part])
  rw [exec_settleTimerExpiry, State.settleTimerExpiry, if_pos ⟨part, last⟩, actSettle_owed owed standby]
  exact congrArg _ (tickSettle_last (s := s.setOffered { s.stc.offered with settle := false }) part last)

/-! ## The epoch timer (R149, R147, R150) -/

theorem nextEpoch_mod {n : Nat} (h : n < 65536) : nextEpoch n = (n + 1) % 65536 := by
  unfold nextEpoch
  split <;> omega

theorem tickEpoch_follow {s : State} (h : s.cfg.epochMode = .follow) : s.tickEpoch = s := if_pos h

theorem tickEpoch_last {s : State} (h : s.cfg.epochMode ≠ .follow) (last : s.epc.timer ≤ 1) : s.tickEpoch =
    ({ s with epc := { s.epc with timer := s.cfg.epochInterval } }).epochEvent (nextEpoch s.epc.number) := by
  rw [State.tickEpoch, if_neg h, if_pos last]

theorem tickEpoch_counts {s : State} (h : s.cfg.epochMode ≠ .follow) (more : 2 ≤ s.epc.timer) :
    s.tickEpoch = { s with epc := { s.epc with timer := s.epc.timer - 1 } } := by
  rw [State.tickEpoch, if_neg h, if_neg (by omega)]

/-- The part after steps 1 and 2 of an epoch event, written out (R147). -/
theorem applyEpoch_eq (s : State) (n : Nat) : s.applyEpoch n = { s with
    epc := { s.epc with number := n }
    prb := if s.prb.commitPending = true
      then { active := s.prb.staged, staged := s.prb.staged, commitPending := false } else s.prb
    evu := if s.prb.commitPending = true then (s.raise .epochApplied (.epoch n) .none).evu else s.evu } := by
  unfold State.applyEpoch
  split <;> rfl

theorem epochEvent_quiet {s : State} (h : s.cfg.epochMode ≠ .lead) (n : Nat) : s.epochEvent n = s.applyEpoch n := by
  have : (s.applyEpoch n).cfg = s.cfg := by rw [applyEpoch_eq]
  simp [State.epochEvent, h]

theorem epochEvent_lead {s : State} (h : s.cfg.epochMode = .lead) (n : Nat) :
    s.epochEvent n = (s.applyEpoch n).sendMark n := by
  simp [State.epochEvent, h]

/-- The mark enters EPOCH_PORT's queue (R150). -/
theorem sendMark_sent {s : State} {n : Nat} (on : s.enabled s.cfg.epochPort = true)
    (room : s.hasPlace s.cfg.epochPort = true) : s.sendMark n =
      (s.enterLocal s.cfg.epochPort (outgoing s.cfg.epochPort (markFrame s n))).countEpc
        (fun c => { c with sent := bump c.sent }) := by
  rw [State.sendMark, if_pos (by simp [on, room])]

/-- No mark is made, and Epoch Control and the port count it (R150, R153). -/
theorem sendMark_not {s : State} {n : Nat}
    (h : s.enabled s.cfg.epochPort = false ∨ s.hasPlace s.cfg.epochPort = false) : s.sendMark n =
      (s.countEpc (fun c => { c with notSent := bump c.notSent })).countLocalDiscard s.cfg.epochPort := by
  rw [State.sendMark, if_neg (by simpa [Bool.and_eq_true, imp_iff_not_or] using h)]

theorem hasPlace_iff {s : State} {p : Port} :
    s.hasPlace p = true ↔ (s.port p).localQueue.length + s.waiters p < 16 := decide_eq_true_iff

section
variable (s : State) (n : Nat)

@[simp] theorem applyEpoch_cfg : (s.applyEpoch n).cfg = s.cfg := by rw [applyEpoch_eq]

@[simp] theorem applyEpoch_spu : (s.applyEpoch n).spu = s.spu := by rw [applyEpoch_eq]

@[simp] theorem applyEpoch_counters : (s.applyEpoch n).epc.counters = s.epc.counters := by rw [applyEpoch_eq]

@[simp] theorem applyEpoch_port (p : Port) : (s.applyEpoch n).port p = s.port p := by rw [applyEpoch_eq]; rfl

@[simp] theorem applyEpoch_enabled (p : Port) : (s.applyEpoch n).enabled p = s.enabled p := by
  rw [applyEpoch_eq]; rfl

@[simp] theorem applyEpoch_hasPlace (p : Port) : (s.applyEpoch n).hasPlace p = s.hasPlace p := by
  rw [applyEpoch_eq]; rfl

theorem sendMark_keeps : s.sendMark n = { s with
    spu := { s.spu with ports := (s.sendMark n).spu.ports }
    epc := { s.epc with counters := (s.sendMark n).epc.counters } } := by
  unfold State.sendMark
  split <;> rfl

/-- What an epoch event changes in the part (R147, R150). -/
theorem epochEvent_keeps : s.epochEvent n = { s with
    spu := { s.spu with ports := (s.epochEvent n).spu.ports }
    prb := (s.applyEpoch n).prb
    epc := { s.epc with number := n, counters := (s.epochEvent n).epc.counters }
    evu := (s.applyEpoch n).evu } := by
  by_cases lead : s.cfg.epochMode = .lead
  · rw [epochEvent_lead lead, sendMark_keeps, applyEpoch_eq]
  · rw [epochEvent_quiet lead, applyEpoch_eq]

end

section
variable {s : State} (lead : s.cfg.epochMode = .lead) (n : Nat)
include lead

/-- A mark sent at an epoch event stands at EPOCH_PORT's tail and is counted (R150). -/
theorem epochEvent_sent (on : s.enabled s.cfg.epochPort = true) (room : s.hasPlace s.cfg.epochPort = true) :
    (s.epochEvent n).epc.counters = { s.epc.counters with sent := bump s.epc.counters.sent } ∧
    (s.epochEvent n).port s.cfg.epochPort = { s.port s.cfg.epochPort with
      localQueue := (s.port s.cfg.epochPort).localQueue ++ [outgoing s.cfg.epochPort (markFrame s n)] } := by
  rw [epochEvent_lead lead, sendMark_sent (by simpa using on) (by simpa using room), applyEpoch_cfg]
  constructor
  · exact congrArg (fun c : EpochCounters => { c with sent := bump c.sent }) (applyEpoch_counters s n)
  · have frame : markFrame (s.applyEpoch n) n = markFrame s n := by simp [markFrame]
    rw [frame]
    exact (State.enterLocal_port ..).trans (by rw [applyEpoch_port])

/-- A mark that is not sent is counted by Epoch Control and by the port (R150, R153). -/
theorem epochEvent_notSent (h : s.enabled s.cfg.epochPort = false ∨ s.hasPlace s.cfg.epochPort = false) :
    (s.epochEvent n).epc.counters = { s.epc.counters with notSent := bump s.epc.counters.notSent } ∧
    (s.epochEvent n).port s.cfg.epochPort = { s.port s.cfg.epochPort with
      counters := { (s.port s.cfg.epochPort).counters with
        localDiscarded := bump (s.port s.cfg.epochPort).counters.localDiscarded } } := by
  rw [epochEvent_lead lead, sendMark_not (by simpa using h), applyEpoch_cfg]
  constructor
  · exact congrArg (fun c : EpochCounters => { c with notSent := bump c.notSent }) (applyEpoch_counters s n)
  · exact (State.countPort_port ..).trans
      (congrArg (fun x : PortState => { x with counters :=
        { x.counters with localDiscarded := bump x.counters.localDiscarded } }) (applyEpoch_port s n _))

theorem epochEvent_port_ne {q : Port} (other : q ≠ s.cfg.epochPort) : (s.epochEvent n).port q = s.port q := by
  rw [epochEvent_lead lead, State.sendMark]
  split
  · exact (State.enterLocal_port_ne _ _ (by simpa using other)).trans (applyEpoch_port s n q)
  · exact (State.countPort_port_ne _ _ (by simpa using other)).trans (applyEpoch_port s n q)

end

/-- Settles O41: the timer's last tick is the epoch event of the next number. -/
theorem epochTimerTakesAnEpochEvent : Obligations.EpochTimerTakesAnEpochEvent := by
  unfold Obligations.EpochTimerTakesAnEpochEvent
  intro s part owed mode last bound
  have run : exec .epochTimerExpiry s = .next (({ (s.setOffered { s.stc.offered with epoch := false }) with
      epc := { s.epc with timer := s.cfg.epochInterval } } : State).epochEvent ((s.epc.number + 1) % 65536)) := by
    rw [exec_epochTimerExpiry, State.epochTimerExpiry, if_pos ⟨mode, last⟩,
      actEpoch_owed owed (standby_eq_false.2 part), ← nextEpoch_mod bound]
    exact congrArg _ (tickEpoch_last (s := s.setOffered { s.stc.offered with epoch := false }) mode last)
  generalize (s.epc.number + 1) % 65536 = n at run ⊢
  refine ⟨_, run, ?_⟩
  set u : State := { (s.setOffered { s.stc.offered with epoch := false }) with
      epc := { s.epc with timer := s.cfg.epochInterval } }
  have keeps := epochEvent_keeps u n
  have prb : (u.epochEvent n).prb = if s.prb.commitPending = true
      then { active := s.prb.staged, staged := s.prb.staged, commitPending := false } else s.prb :=
    (congrArg State.prb keeps).trans (congrArg State.prb (applyEpoch_eq u n))
  have evu : (u.epochEvent n).evu =
      if s.prb.commitPending = true then (s.raise .epochApplied (.epoch n) .none).evu else s.evu :=
    (congrArg State.evu keeps).trans (congrArg State.evu (applyEpoch_eq u n))
  have quiet (h : s.cfg.epochMode = .internal) : u.epochEvent n = u.applyEpoch n :=
    epochEvent_quiet (s := u) (by rw [show u.cfg = s.cfg from rfl, h]; decide) n
  refine ⟨congrArg (·.epc.timer) keeps, congrArg (·.epc.number) keeps, ?staged, ?pending, ?active, evu, ?internal,
    fun lead on room => congrArg PortState.localQueue (epochEvent_sent (s := u) lead n on room).2,
    (congrArg State.cfg keeps).trans rfl, (congrArg State.tst keeps).trans rfl, (congrArg State.pwl keeps).trans rfl,
    ?keeps, ?counters,
    fun lead => ⟨fun q other => epochEvent_port_ne (s := u) lead n other, fun on room => ?sent, fun h => ?notSent⟩⟩
  case staged => rw [prb]; split <;> rfl
  case pending =>
    rw [prb]; split
    · rfl
    · exact Bool.eq_false_iff.2 ‹_›
  case active => rw [prb]; split <;> rfl
  case internal => exact fun h => by rw [quiet h, applyEpoch_spu]; rfl
  case keeps => rw [keeps]; rfl
  case counters => exact fun h => by rw [quiet h, applyEpoch_counters]
  case sent =>
    obtain ⟨counters, port⟩ := epochEvent_sent (s := u) lead n on (hasPlace_iff.2 room)
    have queue := congrArg PortState.localQueue port
    exact ⟨counters, port.trans (congrArg (fun q => ({ s.port s.cfg.epochPort with localQueue := q } : PortState))
      queue.symm), queue⟩
  case notSent =>
    refine epochEvent_notSent (s := u) lead n (h.imp_right fun full => ?_)
    exact Bool.eq_false_iff.2 fun room => (hasPlace_iff.1 room).not_ge full

end Sys2Proof.Machine

/-!
LEMMAS. Frames as bytes, a frame's arrival and the egress arbiter (O31, O32, O33, O35).
-/
namespace Sys2Proof.Machine

/-! ## A frame's bytes (section 9.1.1) -/

/-- The 16 bytes of a frame's header. -/
def Frame.header (f : Frame) : List Byte :=
  encodeNat 4 f.dest.toNat ++ encodeNat 4 f.src.toNat ++ [f.cls, f.flags] ++ encodeNat 2 f.payload.length ++
    encodeNat 4 f.reserved.toNat

theorem header_length (f : Frame) : f.header.length = 16 := by simp [Frame.header]

theorem wire_eq (f : Frame) : f.wire = f.header ++ (f.payload ++ encodeNat 4 f.check.toNat) := by
  simp [Frame.wire, Frame.body, Frame.header]

/-- A field read where it stands in a longer list of bytes. -/
theorem fieldNat_of_split {bs xs ys zs : List Byte} {off n : Nat} (h : bs = xs ++ (ys ++ zs)) (hx : xs.length = off)
    (hy : ys.length = n) : fieldNat bs off n = decodeNat ys := by
  subst h hx hy
  exact fieldNat_append xs ys zs

theorem field32_of_split {bs xs zs : List Byte} {off : Nat} {w : Word32} (h : bs = xs ++ (encodeNat 4 w.toNat ++ zs))
    (hx : xs.length = off) : field32 bs off = w := by
  have := w.isLt
  rw [field32, fieldNat_of_split h hx (encodeNat_length ..), decodeNat_encodeNat]
  exact BitVec.eq_of_toNat_eq (by rw [BitVec.toNat_ofNat]; omega)

section
variable (f : Frame)

theorem wire_fields : f.wire = encodeNat 4 f.dest.toNat ++ (encodeNat 4 f.src.toNat ++ ([f.cls, f.flags] ++
    (encodeNat 2 f.payload.length ++ (encodeNat 4 f.reserved.toNat ++ (f.payload ++ encodeNat 4 f.check.toNat))))) := by
  simp only [Frame.wire, Frame.body, List.append_assoc]

theorem wire_dest : field32 f.wire 0 = f.dest :=
  field32_of_split (xs := []) (wire_fields f) rfl

theorem wire_src : field32 f.wire 4 = f.src :=
  field32_of_split (xs := encodeNat 4 f.dest.toNat) (wire_fields f) rfl

theorem wire_cls : fieldByte f.wire 8 = f.cls := rfl

theorem wire_flags : fieldByte f.wire 9 = f.flags := rfl

theorem wire_payloadLength (short : f.payload.length ≤ 1500) : fieldNat f.wire 10 2 = f.payload.length := by
  rw [fieldNat_of_split (xs := encodeNat 4 f.dest.toNat ++ (encodeNat 4 f.src.toNat ++ [f.cls, f.flags]))
    (ys := encodeNat 2 f.payload.length) (off := 10) (n := 2) (wire_fields f) rfl rfl,
    decodeNat_encodeNat]
  omega

theorem wire_reserved : field32 f.wire 12 = f.reserved :=
  field32_of_split (xs := encodeNat 4 f.dest.toNat ++ (encodeNat 4 f.src.toNat ++ ([f.cls, f.flags] ++
    encodeNat 2 f.payload.length))) (wire_fields f) rfl

theorem wire_payload : (f.wire.drop 16).take f.payload.length = f.payload := by
  rw [wire_eq, List.drop_left' (header_length f), List.take_left]

theorem wire_check : field32 f.wire (16 + f.payload.length) = f.check :=
  field32_of_split (xs := f.header ++ f.payload) (zs := []) (by rw [wire_eq]; simp) (by simp [header_length])

/-- The length check passes a frame's own bytes and reads that frame (R154). -/
theorem ofWire_wire (short : f.payload.length ≤ 1500) : Frame.ofWire f.wire = some f := by
  have sized : ¬ (f.wire.length < Config.frameOverhead || decide (fieldNat f.wire 10 2 > Config.payloadMax)
      || f.wire.length != Config.frameOverhead + fieldNat f.wire 10 2) = true := by
    simp [wire_payloadLength f short, wire_length, short]
  rw [Frame.ofWire, if_neg sized, wire_payloadLength f short, wire_dest, wire_src, wire_cls, wire_flags,
    wire_reserved, wire_payload, wire_check]

end

/-- The frame check, bit by bit (section 9.1.1). -/
theorem crc32_divided (bs : List Byte) : crc32 bs = dividedBytes bs := by
  have fold (r : Word32) : bs.foldl crcByte r =
      (bs.flatMap (fun b => (List.range 8).map b.getMsbD)).foldl divideBit r := by
    induction bs generalizing r with
    | nil => rfl
    | cons b bs ih => rw [List.foldl_cons, ih, List.flatMap_cons, List.foldl_append, crcByte_divide]
  rw [crc32, dividedBytes, fold]

/-- Settles O31. -/
theorem framesReadBackFromTheirBytes : Obligations.FramesReadBackFromTheirBytes := by
  unfold Obligations.FramesReadBackFromTheirBytes
  refine ⟨ofWire_wire, fun src dest cls payload _ => ?good, fun _ => rfl, fun f body hb => ?check, fun _ _ => ⟨rfl, rfl⟩⟩
  case good => exact beq_self_eq_true _
  case check =>
    have hb : body = f.body := hb
    subst hb
    refine ⟨?_, fun src dest cls payload made => ?_⟩
    · rw [Frame.goodCheck, beq_iff_eq, crc32_divided, eq_comm]
    · subst made
      rw [← crc32_divided]
      rfl

/-! ## Arrivals that are discarded (R154, R155, R164) -/

section
variable {s : State} {p : Port} {tag : Option Byte} {bytes : List Byte}

theorem validTag_iff : validTag tag = true ↔ ∃ b : Byte, tag = some b ∧ (b.toNat < 8 ∨ b = 0xFF) := by
  cases tag <;> simp [validTag, tagAllPorts]

theorem frameArrival_disabled (off : s.enabled p = false) : s.frameArrival p tag bytes =
    s.countPort p (fun c => { c with receivedDisabled := bump c.receivedDisabled }) := by
  simp [State.frameArrival, off]

theorem frameArrival_badTag (on : s.enabled .np = true) (bad : validTag tag = false) : s.frameArrival .np tag bytes =
    s.countPort .np (fun c => { c with badTag := bump c.badTag }) := by
  simp [State.frameArrival, on, bad]

section
variable (on : s.enabled p = true) (good : p = .np → ∃ b : Byte, tag = some b ∧ (b.toNat < 8 ∨ b = 0xFF))
include on good

/-- Past the port's and the tag's tests, a length error is counted (R154). -/
theorem frameArrival_unread (h : Frame.ofWire bytes = none) : s.frameArrival p tag bytes =
    s.countPort p (fun c => { c with lengthErrors := bump c.lengthErrors }) := by
  have tagged : ¬ (p = .np ∧ validTag tag = false) := fun ⟨np, bad⟩ => by simp [validTag_iff.2 (good np)] at bad
  simp [State.frameArrival, on, tagged, h]

/-- Past the port's and the tag's tests, a frame that was read is received (R156). -/
theorem frameArrival_read {f : Frame} (h : Frame.ofWire bytes = some f) :
    s.frameArrival p tag bytes = s.receive p tag f := by
  have tagged : ¬ (p = .np ∧ validTag tag = false) := fun ⟨np, bad⟩ => by simp [validTag_iff.2 (good np)] at bad
  simp [State.frameArrival, on, tagged, h]

end

theorem ofWire_none (h : bytes.length < 20 ∨ 1500 < fieldNat bytes 10 2 ∨ bytes.length ≠ 20 + fieldNat bytes 10 2) :
    Frame.ofWire bytes = none := by
  rcases h with short | large | other
  · simp [Frame.ofWire, short]
  · simp [Frame.ofWire, large]
  · simp [Frame.ofWire, other]

end

/-- Settles O32. -/
theorem unreadableFramesAreDiscarded : Obligations.UnreadableFramesAreDiscarded := by
  unfold Obligations.UnreadableFramesAreDiscarded
  refine fun s p tag bytes => ⟨fun off => ?disabled, fun b on np tagged above all => ?tag, fun on good error => ?length⟩
  case disabled => rw [exec_frameArrival, frameArrival_disabled off]; rfl
  case tag =>
    subst np tagged
    have bad : validTag (some b) = false := by simpa [validTag, tagAllPorts, above] using all
    rw [exec_frameArrival, frameArrival_badTag on bad]; rfl
  case length => rw [exec_frameArrival, frameArrival_unread on good (ofWire_none error)]; rfl

/-- A command received with a place in the intake queue (R159). -/
theorem consume_taken {s : State} {p : Port} {f : Frame} {g : PortCounters → PortCounters}
    (room : s.spu.intake.length < 8) : (s.countPort p g).consume p f =
      (s.setPort p { s.port p with counters := { g (s.port p).counters with
        commandsTakenIn := bump (g (s.port p).counters).commandsTakenIn } }).withIntake
          (s.spu.intake ++ [{ port := p, frame := f }]) := by
  simp [State.consume, room, State.countPort, State.setPort, State.port, State.withIntake]

/-- A command received while 8 wait (R159). -/
theorem consume_dropped {s : State} {p : Port} {f : Frame} {g : PortCounters → PortCounters}
    (full : ¬ s.spu.intake.length < 8) : (s.countPort p g).consume p f =
      s.setPort p { s.port p with counters := { g (s.port p).counters with
        commandsDropped := bump (g (s.port p).counters).commandsDropped } } := by
  simp [State.consume, full, State.countPort, State.setPort, State.port]

/-- Settles O33. -/
theorem commandsAreConsumed : Obligations.CommandsAreConsumed := by
  unfold Obligations.CommandsAreConsumed
  intro s p tag f on good short check dest cls
  have run : exec (.frameArrival p tag f.wire) s = .next ((s.countPort p
      (fun c => { c with framesReceived := bump c.framesReceived })).consume p f) := by
    rw [exec_frameArrival, frameArrival_read on good (ofWire_wire f short)]
    simp [State.receive, check, State.classify, dest, cls, classCommand]
  refine ⟨_, run, ?_⟩
  by_cases room : s.spu.intake.length < 8
  · have port := (State.withIntake_port _ (s.spu.intake ++ [{ port := p, frame := f }]) p).trans
      (State.setPort_port s p { s.port p with counters := { (s.port p).counters with
        framesReceived := bump (s.port p).counters.framesReceived
        commandsTakenIn := bump (s.port p).counters.commandsTakenIn } })
    rw [consume_taken room, port]
    exact ⟨(if_pos room).symm, rfl, by simp [room, bump, addSat]⟩
  · rw [consume_dropped room, State.setPort_port]
    exact ⟨(if_neg room).symm, rfl, by simp [room, bump, addSat]⟩

/-! ## The egress arbiter (R163) -/

theorem begin_transit {x : PortState} {f : OutFrame} {more : List OutFrame} (h : x.transit = f :: more) :
    x.begin .transit f = { x with
      transit := more, lastServed := .transit, transmitting := some { kind := .transit, frame := f } } := by
  simp [PortState.begin, h]

theorem begin_local {x : PortState} {f : OutFrame} {more : List OutFrame} (h : x.localQueue = f :: more) :
    x.begin .localQueue f = { x with
      localQueue := more, lastServed := .localQueue, transmitting := some { kind := .localQueue, frame := f } } := by
  simp [PortState.begin, h]

theorem arbiterChoice_transit {x : PortState} {f : OutFrame} {more : List OutFrame} (h : x.transit = f :: more)
    (turn : x.localQueue = [] ∨ x.lastServed = .localQueue) : arbiterChoice x = some (.transit, f) := by
  rcases turn with empty | served
  · simp [arbiterChoice, h, empty]
  · cases hq : x.localQueue <;> simp [arbiterChoice, h, hq, served]

theorem arbiterChoice_local {x : PortState} {f : OutFrame} {more : List OutFrame} (h : x.localQueue = f :: more)
    (turn : x.transit = [] ∨ x.lastServed = .transit) : arbiterChoice x = some (.localQueue, f) := by
  rcases turn with empty | served
  · simp [arbiterChoice, h, empty]
  · cases hq : x.transit <;> simp [arbiterChoice, h, hq, served]

/-- Settles O35. -/
theorem egressAlternates : Obligations.EgressAlternates := by
  unfold Obligations.EgressAlternates
  refine ⟨fun s p on free => ⟨fun f more head turn => ?transit, fun f more head turn => ?own⟩,
    fun s p x sending => ?ends⟩
  case transit =>
    rw [exec_egressTake, State.egressTake, if_pos (by simp [on, free]), arbiterChoice_transit head turn]
    exact congrArg (fun y => Host.Outcome.next (s.setPort p y)) (begin_transit head)
  case own =>
    rw [exec_egressTake, State.egressTake, if_pos (by simp [on, free]), arbiterChoice_local head turn]
    exact congrArg (fun y => Host.Outcome.next (s.setPort p y)) (begin_local head)
  case ends =>
    rw [exec_transmissionEnd, State.transmissionEnd, sending]
    obtain ⟨kind, frame⟩ := x
    cases kind <;> rfl

end Sys2Proof.Machine

/-!
LEMMAS. Frames that pass the part: what is taken from them on the way and where they go (O34).
-/
namespace Sys2Proof.Machine

/-! ## Where a frame is passed to (R155, R157) -/

theorem mem_linePorts (p : Port) : p ∈ linePorts ↔ p ≠ .np := by
  cases p with
  | np => simp [linePorts]
  | lp i => revert i; simp only [ne_eq, reduceCtorEq, not_false_eq_true, iff_true]; decide

theorem passPorts_all (s : State) : passPorts s .np (some 0xFF) = (linePorts.filter s.enabled).map (fun p => (p, none)) :=
  rfl

theorem passPorts_one (s : State) {b : Byte} (h : b.toNat < 8) :
    passPorts s .np (some b) = [(.lp ⟨b.toNat, h⟩, none)] := by
  have other : b ≠ tagAllPorts := fun e => by simp [e, tagAllPorts] at h
  simp [passPorts, other, h]

theorem passesTo_np {s : State} {b : Byte} {q : Port} {out : Option Byte} : PassesTo s .np (some b) q out ↔
    ∃ i : Fin 8, q = .lp i ∧ out = none ∧ (b.toNat = i.val ∨ (b = 0xFF ∧ s.enabled (.lp i) = true)) := by
  simp only [PassesTo, reduceCtorEq, false_and, exists_false, false_or, true_and, Option.some.injEq]
  exact ⟨fun ⟨_, i, same, rest⟩ => ⟨i, same ▸ rest⟩, fun ⟨i, rest⟩ => ⟨b, i, rfl, rest⟩⟩

theorem mem_passPorts {s : State} {p q : Port} {tag out : Option Byte}
    (good : p = .np → ∃ b : Byte, tag = some b ∧ (b.toNat < 8 ∨ b = 0xFF)) :
    (q, out) ∈ passPorts s p tag ↔ PassesTo s p tag q out := by
  cases p with
  | lp i => simp [passPorts, PassesTo]
  | np =>
    obtain ⟨b, rfl, valid⟩ := good rfl
    rw [passesTo_np]
    rcases valid with small | rfl
    · have other : b ≠ 0xFF := fun e => by simp [e] at small
      rw [passPorts_one s small, List.mem_singleton, Prod.mk.injEq]
      constructor
      · rintro ⟨rfl, rfl⟩
        exact ⟨_, rfl, rfl, .inl rfl⟩
      · rintro ⟨i, rfl, rfl, same | ⟨all, -⟩⟩
        · exact ⟨congrArg Port.lp (Fin.ext same.symm), rfl⟩
        · exact absurd all other
    · rw [passPorts_all]
      simp only [List.mem_map, List.mem_filter, mem_linePorts, Prod.mk.injEq]
      constructor
      · rintro ⟨p, ⟨line, on⟩, rfl, rfl⟩
        cases p with
        | np => exact absurd rfl line
        | lp i => exact ⟨i, rfl, rfl, .inr ⟨trivial, on⟩⟩
      · rintro ⟨i, rfl, rfl, far | ⟨-, on⟩⟩
        · exact absurd far.symm (by simp; omega)
        · exact ⟨.lp i, ⟨by simp, on⟩, rfl, rfl⟩

theorem passPorts_nodup (s : State) (p : Port) (tag : Option Byte) : ((passPorts s p tag).map Prod.fst).Nodup := by
  unfold passPorts
  split
  · simp
  · split
    · simp
    · split
      · rw [List.map_map]
        exact ((List.map_id' _).symm ▸ (by decide : linePorts.Nodup).filter _)
      · split <;> simp

/-! ## What the egress ports do with a passed frame (R157) -/

section
variable {s : State} {f : Frame} {q : Port} {out : Option Byte}

theorem enterTransit_cfg (x : Port × Option Byte) : (s.enterTransit f x).cfg = s.cfg := by
  unfold State.enterTransit
  split
  · split <;> rfl
  · rfl

theorem enterTransit_port_ne (x : Port × Option Byte) (other : q ≠ x.1) : (s.enterTransit f x).port q = s.port q := by
  unfold State.enterTransit
  split
  · split
    · exact State.setPort_port_ne _ _ other
    · exact State.countPort_port_ne _ _ other
  · exact State.countPort_port_ne _ _ other

/-- The port's state after a frame was offered to its transit FIFO, the port being enabled or not. -/
def PortState.offered (x : PortState) (on : Bool) (out : Option Byte) (f : Frame) : PortState :=
  if on then
    if x.transit.length < 64 then { x with transit := x.transit ++ [{ tag := out, frame := f }] }
    else { x with counters := { x.counters with transitDropped := bump x.counters.transitDropped } }
  else { x with counters := { x.counters with transitToDisabled := bump x.counters.transitToDisabled } }

theorem enterTransit_port : (s.enterTransit f (q, out)).port q = (s.port q).offered (s.enabled q) out f := by
  unfold State.enterTransit PortState.offered
  split
  · by_cases room : (s.port q).transit.length < 64
    · simp [room]
    · simp [room]
  · simp

/-- Over different ports, each takes or counts the frame for itself. -/
theorem passFrame_foldl (l : List (Port × Option Byte)) (apart : (l.map Prod.fst).Nodup) (s : State) :
    (∀ q out, (q, out) ∈ l → (l.foldl (fun s x => s.enterTransit f x) s).port q =
      (s.port q).offered (s.enabled q) out f) ∧
    (∀ q, q ∉ l.map Prod.fst → (l.foldl (fun s x => s.enterTransit f x) s).port q = s.port q) := by
  induction l generalizing s with
  | nil => simp
  | cons x l ih =>
    obtain ⟨fresh, apart⟩ := List.nodup_cons.1 apart
    obtain ⟨taken, kept⟩ := ih apart (s.enterTransit f x)
    refine ⟨fun q out hq => ?_, fun q hq => ?_⟩
    · rcases List.mem_cons.1 hq with rfl | hq
      · exact (kept _ fresh).trans enterTransit_port
      · have other : q ≠ x.1 := fun e => fresh (e ▸ List.mem_map_of_mem hq)
        have enabled : (s.enterTransit f x).enabled q = s.enabled q := by
          simp [State.enabled, enterTransit_cfg]
        rw [List.foldl_cons, taken q out hq, enterTransit_port_ne x other, enabled]
    · rw [List.map_cons, List.mem_cons, not_or] at hq
      rw [List.foldl_cons, kept q hq.2, enterTransit_port_ne x hq.1]

end

section
variable {s : State} {p : Port} {tag : Option Byte} {f : Frame}
  (good : p = .np → ∃ b : Byte, tag = some b ∧ (b.toNat < 8 ∨ b = 0xFF))
include good

theorem passFrame_port {q : Port} {out : Option Byte} (h : PassesTo s p tag q out) :
    (s.passFrame p tag f).port q = (s.port q).offered (s.enabled q) out f :=
  (passFrame_foldl _ (passPorts_nodup s p tag) s).1 q out ((mem_passPorts good).2 h)

theorem passFrame_port_ne {q : Port} (h : ∀ out, ¬ PassesTo s p tag q out) :
    (s.passFrame p tag f).port q = s.port q := by
  refine (passFrame_foldl _ (passPorts_nodup s p tag) s).2 q fun mem => ?_
  obtain ⟨x, mem, eq⟩ := List.mem_map.1 mem
  have mem : (q, x.2) ∈ passPorts s p tag := eq ▸ mem
  exact h x.2 ((mem_passPorts good).1 mem)

end

theorem not_passesTo_self {s : State} {p : Port} {tag : Option Byte} (out : Option Byte) : ¬ PassesTo s p tag p out := by
  rintro (⟨i, rfl, same, -⟩ | ⟨b, i, rfl, -, same, -⟩) <;> exact Port.noConfusion same

theorem passFrame_keeps (s : State) (p : Port) (tag : Option Byte) (f : Frame) :
    s.passFrame p tag f = { s with spu := { s.spu with ports := (s.passFrame p tag f).spu.ports } } := by
  obtain ⟨ports, h⟩ := passFrame_footprint s p tag f
  rw [h]

/-! ## What is taken from a frame on the way (R156 rows 5 and 6, R147, R151) -/

/-- The arrival's counters of a frame without a length error (R154, R156). -/
def arrivalCounters (f : Frame) (c : PortCounters) : PortCounters :=
  { c with
    framesReceived := bump c.framesReceived
    badCheck := if f.goodCheck then c.badCheck else bump c.badCheck }

/-- The frame is a mark that Epoch Control is handed (R151). -/
def State.marks (s : State) (p : Port) (f : Frame) : Prop :=
  f.goodCheck = true ∧ f.cls = classEpochMark ∧ p = s.cfg.epochPort ∧ s.cfg.epochMode = .follow

/-- The frame is an advertisement that is copied to the translator (R29). -/
def Frame.copies (f : Frame) : Prop := f.goodCheck = true ∧ f.cls = classAdvertisement

section
variable {s : State} {p : Port} {tag : Option Byte} {f : Frame}

theorem receive_good (good : f.goodCheck = true) :
    s.receive p tag f = (s.countPort p (arrivalCounters f)).classify p tag f := by
  have : arrivalCounters f = fun c => { c with framesReceived := bump c.framesReceived } :=
    funext fun c => by simp [arrivalCounters, good]
  rw [State.receive, if_pos good, this]

theorem receive_mark (h : s.marks p f) : s.receive p tag f =
    ((s.countPort p (arrivalCounters f)).takeMark f.payload).passFrame p tag f := by
  obtain ⟨good, cls, port⟩ := h
  rw [receive_good good, State.classify, if_neg (by simp [cls, classEpochMark, classCommand]), if_pos ⟨cls, port⟩]

theorem receive_copy (h : f.copies) : s.receive p tag f =
    ((s.countPort p (arrivalCounters f)).offerCopy f.payload).passFrame p tag f := by
  obtain ⟨good, cls⟩ := h
  rw [receive_good good, State.classify, if_neg (by simp [cls, classAdvertisement, classCommand]),
    if_neg (by simp [cls, classAdvertisement, classEpochMark]), if_pos cls]

/-- A frame of which nothing is taken and that is no command for the part. -/
theorem receive_plain (command : ¬ (f.goodCheck = true ∧ f.cls = classCommand ∧ f.dest = s.cfg.engineAddress))
    (mark : ¬ s.marks p f) (copy : ¬ f.copies) :
    s.receive p tag f = (s.countPort p (arrivalCounters f)).passFrame p tag f := by
  by_cases good : f.goodCheck = true
  · rw [receive_good good, State.classify, if_neg fun h => command ⟨good, h.2, h.1⟩, if_neg fun h => mark ⟨good, h.1, h.2.1, h.2.2⟩,
      if_neg fun h => copy ⟨good, h⟩]
  · simp [State.receive, good, arrivalCounters, State.countPort]

end

/-! ## The two takers (R29, R147, R151) -/

section
variable (s : State) (payload : List Byte)

theorem offerCopy_keeps : s.offerCopy payload =
    { s with atr := (s.offerCopy payload).atr, evu := (s.offerCopy payload).evu } := by
  unfold State.offerCopy
  split
  · rfl
  · split <;> rfl

theorem offerCopy_standby (h : s.stc.part = .standby) : s.offerCopy payload = s := by
  simp [State.offerCopy, State.standby, h]

theorem offerCopy_queued (h : s.stc.part ≠ .standby) (room : s.atr.queue.length < 32) :
    s.offerCopy payload = { s with atr := { s.atr with queue := s.atr.queue ++ [payload] } } := by
  simp [State.offerCopy, State.standby, h, room]

theorem offerCopy_dropped (h : s.stc.part ≠ .standby) (full : 32 ≤ s.atr.queue.length) : s.offerCopy payload =
    { s with
      atr := { s.atr with counters := { s.atr.counters with queueFull := bump s.atr.counters.queueFull } }
      evu := (s.raise .advertDropped .none .queue).evu } := by
  simp [State.offerCopy, State.standby, h, full.not_gt, State.raiseDropped, State.countAtr, State.raise]

theorem takeMark_standby (h : s.stc.part = .standby) : s.takeMark payload = s := by
  simp [State.takeMark, State.standby, h]

theorem takeMark_short (h : s.stc.part ≠ .standby) (short : payload.length < 2) : s.takeMark payload =
    s.countEpc (fun c => { c with short := bump c.short }) := by
  simp [State.takeMark, State.standby, h, short]

theorem takeMark_repeated (h : s.stc.part ≠ .standby) (whole : 2 ≤ payload.length)
    (same : fieldNat payload 0 2 = s.epc.number) : s.takeMark payload =
    s.countEpc (fun c => { c with repeated := bump c.repeated }) := by
  simp [State.takeMark, State.standby, h, whole.not_gt, same]

/-- In FOLLOW a new number's mark is an epoch event, of which no mark is sent (R147, R151). -/
theorem takeMark_taken (h : s.stc.part ≠ .standby) (whole : 2 ≤ payload.length)
    (other : fieldNat payload 0 2 ≠ s.epc.number) (mode : s.cfg.epochMode = .follow) : s.takeMark payload =
    (s.applyEpoch (fieldNat payload 0 2)).countEpc (fun c => { c with taken := bump c.taken }) := by
  simp [State.takeMark, State.standby, h, whole.not_gt, other, epochEvent_quiet (s := s) (by simp [mode])]

theorem takeMark_keeps (mode : s.cfg.epochMode = .follow) : s.takeMark payload =
    { s with prb := (s.takeMark payload).prb, epc := (s.takeMark payload).epc, evu := (s.takeMark payload).evu } := by
  unfold State.takeMark
  rw [epochEvent_quiet (s := s) (by simp [mode]), applyEpoch_eq]
  split
  · rfl
  · split
    · rfl
    · split <;> rfl

end

/-! ## A frame that passes -/

section
variable {s : State} {p : Port} {tag : Option Byte} {f : Frame}

theorem PortState.offered_cases (x : PortState) (out : Option Byte) (f : Frame) (on : Bool) :
    (on = true → x.transit.length < 64 →
      x.offered on out f = { x with transit := x.transit ++ [{ tag := out, frame := f }] }) ∧
    (on = true → 64 ≤ x.transit.length →
      x.offered on out f = { x with counters := { x.counters with
        transitDropped := min (x.counters.transitDropped + 1) 4294967295 } }) ∧
    (on = false → x.offered on out f = { x with counters := { x.counters with
      transitToDisabled := min (x.counters.transitToDisabled + 1) 4294967295 } }) := by
  refine ⟨fun h room => ?_, fun h full => ?_, fun h => ?_⟩
  · simp [PortState.offered, h, room]
  · simp [PortState.offered, h, full.not_gt, bump, addSat]
  · simp [PortState.offered, h, bump, addSat]

/-- What passes through a state that has the frame counted already, and else the part's ports as they were. -/
theorem passed_of_counted {u : State} (good : p = .np → ∃ b : Byte, tag = some b ∧ (b.toNat < 8 ∨ b = 0xFF))
    (ports : u.spu = (s.countPort p (arrivalCounters f)).spu) (cfg : u.cfg = s.cfg) :
    Passed s (u.passFrame p tag f) p tag f := by
  have port (q : Port) : u.port q = (s.countPort p (arrivalCounters f)).port q :=
    congrArg (fun x : PortUnit => x.ports[portIndex q]) ports
  have reach {q : Port} {out : Option Byte} : PassesTo s p tag q out ↔ PassesTo u p tag q out := by
    simp [PassesTo, State.enabled, cfg]
  refine ⟨?_, fun q other => ⟨fun none => ?_, fun out passes => ?_⟩⟩
  · rw [passFrame_port_ne good not_passesTo_self, port, State.countPort_port]
    rfl
  · rw [passFrame_port_ne good fun out h => none out (reach.2 h), port, State.countPort_port_ne _ _ other]
  · have enabled : u.enabled q = s.enabled q := by simp [State.enabled, cfg]
    rw [passFrame_port good (reach.1 passes), port, State.countPort_port_ne _ _ other, enabled]
    exact PortState.offered_cases _ out f _

end

/-! ## What arrives and is no command (R154 to R158) -/

theorem takeMark_counted {s : State} (mode : s.cfg.epochMode = .follow) (p : Port) (g : PortCounters → PortCounters)
    (payload : List Byte) : (s.countPort p g).takeMark payload =
      { s.takeMark payload with spu := (s.countPort p g).spu } := by
  let u := s.countPort p g
  by_cases standby : s.stc.part = .standby
  · rw [takeMark_standby s _ standby, takeMark_standby u _ standby]; rfl
  by_cases whole : 2 ≤ payload.length
  · by_cases same : fieldNat payload 0 2 = s.epc.number
    · rw [takeMark_repeated s _ standby whole same, takeMark_repeated u _ standby whole same]; rfl
    · rw [takeMark_taken s _ standby whole same mode, takeMark_taken u _ standby whole same mode, applyEpoch_eq,
        applyEpoch_eq]
      rfl
  · rw [takeMark_short s _ standby (not_le.1 whole), takeMark_short u _ standby (not_le.1 whole)]; rfl

theorem offerCopy_counted (s : State) (p : Port) (g : PortCounters → PortCounters) (payload : List Byte) :
    (s.countPort p g).offerCopy payload = { s.offerCopy payload with spu := (s.countPort p g).spu } := by
  let u := s.countPort p g
  by_cases standby : s.stc.part = .standby
  · rw [offerCopy_standby s _ standby, offerCopy_standby u _ standby]; rfl
  by_cases full : 32 ≤ s.atr.queue.length
  · rw [offerCopy_dropped s _ standby full, offerCopy_dropped u _ standby full]; rfl
  · rw [offerCopy_queued s _ standby (not_le.1 full), offerCopy_queued u _ standby (not_le.1 full)]; rfl

/-- The part after a frame that passes was taken note of, its ports aside: Epoch Control is handed a mark, the
translator a copy (R156). -/
def State.examine (s : State) (p : Port) (f : Frame) : State :=
  if f.goodCheck = true ∧ f.cls = classEpochMark ∧ p = s.cfg.epochPort ∧ s.cfg.epochMode = .follow then
    s.takeMark f.payload
  else if f.goodCheck = true ∧ f.cls = classAdvertisement then s.offerCopy f.payload
  else s

section
variable {s : State} {p : Port} {tag : Option Byte} {f : Frame}

theorem examine_mark (h : s.marks p f) : s.examine p f = s.takeMark f.payload := if_pos h

theorem examine_copy (h : f.copies) : s.examine p f = s.offerCopy f.payload := by
  obtain ⟨good, cls⟩ := h
  rw [State.examine, if_neg (by simp [cls, classAdvertisement, classEpochMark]), if_pos ⟨good, cls⟩]

theorem examine_plain (mark : ¬ s.marks p f) (copy : ¬ f.copies) : s.examine p f = s := by
  unfold State.examine
  exact (if_neg mark).trans (if_neg copy)

theorem examine_keeps : s.examine p f = { s with
    atr := (s.examine p f).atr, prb := (s.examine p f).prb, epc := (s.examine p f).epc
    evu := (s.examine p f).evu } := by
  by_cases mark : s.marks p f
  · rw [examine_mark mark, takeMark_keeps s f.payload mark.2.2.2]
  · by_cases copy : f.copies
    · rw [examine_copy copy, offerCopy_keeps]
    · rw [examine_plain mark copy]

/-- In STANDBY nothing is taken from a frame. -/
theorem examine_standby (h : s.stc.part = .standby) : s.examine p f = s := by
  unfold State.examine
  rw [takeMark_standby s _ h, offerCopy_standby s _ h]
  simp

theorem examine_not_copied (h : ¬ (f.copies ∧ s.stc.part ≠ .standby)) : (s.examine p f).atr = s.atr := by
  by_cases standby : s.stc.part = .standby
  · rw [examine_standby standby]
  · by_cases mark : s.marks p f
    · rw [examine_mark mark, takeMark_keeps s _ mark.2.2.2]
    · rw [examine_plain mark fun copy => h ⟨copy, standby⟩]

theorem examine_not_marked (h : ¬ (s.marks p f ∧ s.stc.part ≠ .standby)) :
    (s.examine p f).epc = s.epc ∧ (s.examine p f).prb = s.prb := by
  by_cases standby : s.stc.part = .standby
  · rw [examine_standby standby]; exact ⟨rfl, rfl⟩
  · have mark : ¬ s.marks p f := fun mark => h ⟨mark, standby⟩
    by_cases copy : f.copies
    · rw [examine_copy copy, offerCopy_keeps]; exact ⟨rfl, rfl⟩
    · rw [examine_plain mark copy]; exact ⟨rfl, rfl⟩

theorem examine_neither (hc : ¬ (f.copies ∧ s.stc.part ≠ .standby)) (hm : ¬ (s.marks p f ∧ s.stc.part ≠ .standby)) :
    s.examine p f = s := by
  by_cases standby : s.stc.part = .standby
  · exact examine_standby standby
  · exact examine_plain (fun mark => hm ⟨mark, standby⟩) (fun copy => hc ⟨copy, standby⟩)

/-- From `s` to `t` a frame passed: the part is left as `State.examine` says, and its ports as `Passed` says. -/
structure Crossed (s t : State) (p : Port) (tag : Option Byte) (f : Frame) : Prop where
  atr : t.atr = (s.examine p f).atr
  prb : t.prb = (s.examine p f).prb
  epc : t.epc = (s.examine p f).epc
  evu : t.evu = (s.examine p f).evu
  keeps : t = { s with
    spu := { s.spu with ports := t.spu.ports }
    atr := t.atr, epc := t.epc, prb := t.prb, evu := t.evu }
  passed : Passed s t p tag f

theorem receive_crossed (good : p = .np → ∃ b : Byte, tag = some b ∧ (b.toNat < 8 ∨ b = 0xFF))
    (command : ¬(f.goodCheck = true ∧ f.cls = classCommand ∧ f.dest = s.cfg.engineAddress)) :
    Crossed s (s.receive p tag f) p tag f := by
  have counted (u : State) (h : s.receive p tag f = u.passFrame p tag f)
      (hu : u = { s.examine p f with spu := (s.countPort p (arrivalCounters f)).spu }) :
      Crossed s (s.receive p tag f) p tag f := by
    have left : u.passFrame p tag f =
        { s.examine p f with spu := { s.spu with ports := (u.passFrame p tag f).spu.ports } } := by
      rw [passFrame_keeps, hu]; rfl
    rw [h]
    refine ⟨(congrArg State.atr left).trans rfl, (congrArg State.prb left).trans rfl, (congrArg State.epc left).trans rfl,
      (congrArg State.evu left).trans rfl, ?_,
      passed_of_counted good (by rw [hu]) (by rw [hu, examine_keeps])⟩
    rw [left, examine_keeps]
  by_cases mark : s.marks p f
  · exact counted _ (receive_mark mark) (by rw [takeMark_counted mark.2.2.2, examine_mark mark])
  · by_cases copy : f.copies
    · exact counted _ (receive_copy copy) (by rw [offerCopy_counted, examine_copy copy])
    · exact counted _ (receive_plain command mark copy) (by rw [examine_plain mark copy]; rfl)

/-- A readable frame that is no command for the part crosses it. -/
theorem frameArrival_crossed (on : s.enabled p = true)
    (good : p = .np → ∃ b : Byte, tag = some b ∧ (b.toNat < 8 ∨ b = 0xFF)) (short : f.payload.length ≤ 1500)
    (command : ¬(f.goodCheck = true ∧ f.cls = classCommand ∧ f.dest = s.cfg.engineAddress)) :
    ∃ t, exec (.frameArrival p tag f.wire) s = .next t ∧ Crossed s t p tag f :=
  ⟨_, by rw [exec_frameArrival, frameArrival_read on good (ofWire_wire f short)], receive_crossed good command⟩

/-- What NP's transit FIFO and counters take of a frame that a line port passes to it. -/
theorem PortState.offered_fields (x : PortState) (on : Bool) (out : Option Byte) (f : Frame) :
    (x.offered on out f).transit = x.transit ++
      (if on = true ∧ x.transit.length < 64 then [{ tag := out, frame := f }] else []) ∧
    (x.offered on out f).counters.transitDropped =
      (if on = true ∧ 64 ≤ x.transit.length then min (x.counters.transitDropped + 1) 4294967295
        else x.counters.transitDropped) ∧
    (x.offered on out f).counters.transitToDisabled =
      (if on = true then x.counters.transitToDisabled else min (x.counters.transitToDisabled + 1) 4294967295) := by
  cases on with
  | false => simp [PortState.offered, bump, addSat]
  | true =>
    by_cases room : x.transit.length < 64
    · simp [PortState.offered, room]
    · simp [PortState.offered, room, not_lt.1 room, bump, addSat]

/-- A frame from a line port is offered to NP with the line port's number, and to no other port. -/
theorem Crossed.line {t : State} {i : Fin 8} (h : Crossed s t (.lp i) none f) :
    t.port .np = (s.port .np).offered (s.enabled .np) (some (BitVec.ofNat 8 i.val)) f ∧
    ∀ j, j ≠ i → t.port (.lp j) = s.port (.lp j) := by
  obtain ⟨-, others⟩ := h.passed
  constructor
  · obtain ⟨-, offered⟩ := others .np (by simp)
    obtain ⟨enters, drops, off⟩ := offered _ (.inl ⟨i, rfl, rfl, rfl⟩)
    obtain ⟨enters', drops', off'⟩ :=
      PortState.offered_cases (s.port .np) (some (BitVec.ofNat 8 i.val)) f (s.enabled .np)
    cases on : s.enabled .np with
    | false => rw [off on, ← on, off' on]
    | true =>
      by_cases room : (s.port .np).transit.length < 64
      · rw [enters on room, ← on, enters' on room]
      · rw [drops on (not_lt.1 room), ← on, drops' on (not_lt.1 room)]
  · intro j other
    refine (others (.lp j) (by simpa using other)).1 fun out => ?_
    rintro (⟨k, -, np, -⟩ | ⟨b, k, np, -⟩)
    · exact Port.noConfusion np
    · exact Port.noConfusion np

end

/-- Settles O34: the frame crosses the part; what that leaves reads off the two takers. -/
theorem linePortFramesPassToTheNodePort : Obligations.LinePortFramesPassToTheNodePort := by
  unfold Obligations.LinePortFramesPassToTheNodePort
  refine ⟨fun s i f on short taken => ?line, fun s p tag f copied marked on good short command hc hm => ?any⟩
  case line =>
    obtain ⟨t, run, crossed⟩ := frameArrival_crossed (tag := none) on nofun short
      (fun h => (taken h.1).2 h.2.1 h.2.2)
    have mark : ¬ s.marks (.lp i) f := fun h => (taken h.1).1 h.2.1
    have kept := examine_not_marked fun h => mark h.1
    obtain ⟨np, others⟩ := crossed.line
    obtain ⟨transit, dropped, off⟩ :=
      PortState.offered_fields (s.port .np) (s.enabled .np) (some (BitVec.ofNat 8 i.val)) f
    refine ⟨t, run, by rw [crossed.keeps], by rw [crossed.epc, kept.1], by rw [crossed.prb, kept.2], by rw [crossed.keeps],
      fun good cls => ?copied, fun no => ?plain, by rw [np, transit], by rw [np, dropped], by rw [np, off],
      congrArg (·.counters.badCheck) crossed.passed.1, others⟩
    case copied => rw [crossed.atr, crossed.evu, examine_copy ⟨good, cls⟩]; exact ⟨rfl, rfl⟩
    case plain =>
      have copy : ¬ f.copies := fun ⟨good, cls⟩ => no.elim (by simp [good]) (fun other => other cls)
      rw [crossed.atr, crossed.evu, examine_plain mark copy]; exact ⟨rfl, rfl⟩
  case any =>
    obtain ⟨t, run, crossed⟩ := frameArrival_crossed on good short command
    have marks : marked ↔ s.marks p f ∧ s.stc.part ≠ .standby := by
      rw [hm]; simp [State.marks, and_assoc, classEpochMark]
    have copies : copied ↔ f.copies ∧ s.stc.part ≠ .standby := by
      rw [hc]; simp [Frame.copies, and_assoc, classAdvertisement]
    rw [copies, marks]
    refine ⟨t, run, crossed.passed, crossed.keeps, fun no => crossed.atr.trans (examine_not_copied no), ?unmarked,
      fun no no' => crossed.evu.trans (by rw [examine_neither no no']), ?copied, ?marked⟩
    case unmarked =>
      intro no
      obtain ⟨epc, prb⟩ := examine_not_marked no
      exact ⟨crossed.epc.trans epc, crossed.prb.trans prb⟩
    case copied =>
      rintro ⟨copy, part⟩
      rw [crossed.atr, crossed.evu, examine_copy copy]
      exact ⟨fun room => by rw [offerCopy_queued s _ part room]; exact ⟨rfl, rfl⟩,
        fun full => by rw [offerCopy_dropped s _ part full]; exact ⟨rfl, rfl⟩⟩
    case marked =>
      rintro ⟨mark, part⟩ number rfl
      rw [crossed.prb, crossed.evu, crossed.epc, examine_mark mark]
      refine ⟨fun short => ?_, fun whole same => ?_, fun whole other => ?_⟩
      · rw [takeMark_short s _ part short]; exact ⟨rfl, rfl, rfl⟩
      · rw [takeMark_repeated s _ part whole same]; exact ⟨rfl, rfl, rfl⟩
      · rw [takeMark_taken s _ part whole other mark.2.2.2, applyEpoch_eq]; exact ⟨rfl, rfl, rfl⟩

end Sys2Proof.Machine

/-!
LEMMAS. A freed place of a local egress queue, and the bytes of a notice (O36).
-/
namespace Sys2Proof.Machine

/-! ## The three that a freed place goes to (R161, R162, R111, R180) -/

theorem heldEnters_enters {s : State} {r : HeldResponse} (held : s.spu.hold = some r)
    (room : (s.port r.port).localQueue.length < 16) : s.heldEnters =
      ({ s with spu := { s.spu with hold := none } } : State).enterLocal r.port r.frame := by
  simp [State.heldEnters, held, room]

theorem heldEnters_still {s : State} (h : ∀ r, s.spu.hold = some r → 16 ≤ (s.port r.port).localQueue.length) :
    s.heldEnters = s := by
  unfold State.heldEnters
  split
  · rfl
  · rename_i r held
    exact if_neg (h r held).not_gt

theorem waitsFor_of_completing {x : Engine} {d : Descriptor} (mode : x.mode = .completing) (request : x.request = some d) :
    x.waitsFor = d.ingress := by
  simp [Engine.waitsFor, mode, request]

theorem completingEnters_idle {s : State} {e : EngineId} (h : (s.engine e).mode ≠ .completing) :
    s.completingEnters e = s := by
  have : (s.engine e).waitsFor = none := by simp [Engine.waitsFor, h]
  simp [State.completingEnters, this]

section
variable {s : State} {e : EngineId} {p : Port} {d : Descriptor} {a : Address} {x : ResultRecord}
  (mode : (s.engine e).mode = .completing) (request : (s.engine e).request = some d) (ingress : d.ingress = some p)
  (requester : d.requester = .mgmt a) (result : (s.engine e).result = some x)
include mode request ingress requester result

theorem completingEnters_waits (h : (s.spu.hold.map (·.port)) = some p ∨ (e = .b ∧ s.engA.waitsFor = some p) ∨
    16 ≤ (s.port p).localQueue.length) : s.completingEnters e = s := by
  have waits := (waitsFor_of_completing mode request).trans ingress
  simp only [State.completingEnters, waits, request, result, requester]
  exact if_pos h

theorem completingEnters_enters (free : (s.spu.hold.map (·.port)) ≠ some p)
    (first : ¬(e = .b ∧ s.engA.waitsFor = some p)) (room : (s.port p).localQueue.length < 16) :
    s.completingEnters e = ((s.setEngine e Engine.idle).enterLocal p (outgoing p (resultFrame s a x))).runArbiter := by
  have waits := (waitsFor_of_completing mode request).trans ingress
  simp only [State.completingEnters, waits, request, result, requester]
  exact if_neg fun h => h.elim free fun h => h.elim first room.not_ge

end

theorem noticeSend_enters {s : State} {n : NoticeEntry} {more : List NoticeEntry} (head : s.evu.notices = n :: more)
    (on : s.enabled s.cfg.noticePort = true) (room : (s.port s.cfg.noticePort).localQueue.length < 16)
    (free : s.waiters s.cfg.noticePort = 0) : s.noticeSend =
      ({ s with evu := { s.evu with notices := more } } : State).enterLocal s.cfg.noticePort
        (outgoing s.cfg.noticePort (noticeFrame s n)) := by
  simp [State.noticeSend, head, on, State.wayFree, room, free]

theorem noticeSend_still {s : State} {p : Port} (hp : p = s.cfg.noticePort)
    (h : s.enabled p = false ∨ s.waiters p ≠ 0 ∨ 16 ≤ (s.port p).localQueue.length) : s.noticeSend = s := by
  subst hp
  unfold State.noticeSend
  split
  · rfl
  · refine if_neg fun way => ?_
    simp only [State.wayFree, Bool.and_eq_true, decide_eq_true_eq, beq_iff_eq] at way
    obtain ⟨on, room, free⟩ := way
    exact h.elim (by simp [on]) fun h => h.elim (absurd free) room.not_ge

/-! ## A notice's bytes (section 9.1.7) -/

theorem encSubject_values (id : NodeId) (ref : LinkRef) (w : Nat) (tag : Word16) (number : Nat) :
    encSubject .none = [0, 0, 0, 0, 0, 0] ∧ encSubject (.node id) = enc4 id.toNat ++ [0, 0] ∧
    encSubject (.link ref) = enc4 ref.origin.toNat ++ enc2 ref.lid.toNat ∧
    encSubject (.watch w tag) = encByte w ++ enc2 tag.toNat ++ [0, 0, 0] ∧
    encSubject (.epoch number) = enc2 number ++ [0, 0, 0, 0] := ⟨rfl, rfl, rfl, rfl, rfl⟩

theorem eventIndex_iff (k : Nat) (c : EventClass) : (eventIndex c).val + 1 = k ↔
    (k, c) ∈ [(1, EventClass.nodeAdded), (2, .nodeExpired), (3, .tableFull), (4, .linkDegraded),
      (5, .linkRecovered), (6, .advertDropped), (7, .watchViolated), (8, .watchRerouted), (9, .watchStalled),
      (10, .reservationExpired), (11, .epochApplied), (12, .settled)] := by
  rw [eq_comm]
  cases c <;> simp [eventIndex]

theorem reasonCode_iff (k : Nat) (r : Reason) : reasonCode r = k ↔
    (k, r) ∈ [(0, Reason.none), (1, .aged), (2, .flushed), (3, .nodes), (4, .links), (5, .queue),
      (6, .dialect), (7, .malformed)] := by
  rw [eq_comm]
  cases r <;> simp [reasonCode]

/-- Settles O36. -/
theorem freedPlaceGoesInOrder : Obligations.FreedPlaceGoesInOrder := by
  unfold Obligations.FreedPlaceGoesInOrder
  refine ⟨fun s r held room => ?held, fun s h => ?still, fun s e h => ?idle, fun s none => ?none,
    fun s e p d a x mode request ingress requester result => ⟨fun h => ?waits, fun free first room empty => ?alone,
      fun free first room => ?enters⟩, fun s n more p head hp => ⟨fun h => ?quiet, fun on room free => ?sends⟩,
    fun k c => ?classes, fun k r => ?reasons, fun id ref w tag number => ?subjects⟩
  case held => rw [exec_heldResponseEnters, heldEnters_enters held room]; rfl
  case still => rw [exec_heldResponseEnters, heldEnters_still h]
  case idle => rw [exec_completingResultEnters, completingEnters_idle h]
  case none => rw [exec_noticeSend]; simp [State.noticeSend, none]
  case waits => rw [exec_completingResultEnters, completingEnters_waits mode request ingress requester result h]
  case alone =>
    rw [exec_completingResultEnters, completingEnters_enters mode request ingress requester result free first room,
      runArbiter_empty (by simpa using empty), State.enterLocal, State.setEngine_port]
    rfl
  case enters =>
    rw [exec_completingResultEnters, completingEnters_enters mode request ingress requester result free first room,
      State.enterLocal, State.setEngine_port]
    rfl
  case quiet => rw [exec_noticeSend, noticeSend_still hp h]
  case sends =>
    subst hp
    rw [exec_noticeSend, noticeSend_enters head on room free]
    rfl
  case classes => exact eventIndex_iff k c
  case reasons => exact reasonCode_iff k r
  case subjects =>
    obtain ⟨none, node, link, watch, epoch⟩ := encSubject_values id ref w tag number
    exact ⟨⟨rfl, none⟩, ⟨rfl, node⟩, ⟨rfl, link⟩, ⟨rfl, watch⟩, ⟨rfl, epoch⟩⟩

end Sys2Proof.Machine

/-!
LEMMAS. SET STATE's refusals, the counter groups, the source entries, CLEAR CROSSINGS and the banks' commands
(O13, O16, O17, O19, O25, O26, O27).
-/
namespace Sys2Proof.Machine

/-! ## SET STATE (R169) -/

section
variable {t : Taken} {u : State} {target : Byte} {more : List Byte}

theorem setState_operate (params : t.params = 1 :: more) (standby : u.stc.part = .standby) :
    setState t u = Answer.done (stateReply u.leaveStandby.stc.part) u.leaveStandby := by
  simp [setState, params, State.standby, standby]

theorem setState_operating (params : t.params = 1 :: more) (running : u.stc.part ≠ .standby) :
    setState t u = Answer.done (stateReply u.stc.part) u := by
  simp [setState, params, State.standby, running]

theorem setState_resting (params : t.params = 0 :: more) (standby : u.stc.part = .standby) :
    setState t u = Answer.done (stateReply .standby) u := by
  simp [setState, params, State.standby, standby]

theorem setState_refused (params : t.params = target :: more) (zero : target ≠ 0) (one : target ≠ 1) :
    setState t u = Answer.refuse .badValue u := by
  simp only [setState, params, if_neg zero, if_neg one]

end

theorem stateReply_settling : stateReply .settling = { code := .ok, data := [2] } := by
  simp [stateReply, encByte, encodeNat, partCode]

theorem stateReply_operate : stateReply .operate = { code := .ok, data := [1] } := by
  simp [stateReply, encByte, encodeNat, partCode]

theorem leaveStandby_timed {s : State} (h : s.cfg.settleTime ≠ 0) : s.leaveStandby =
    { s with stc := { s.stc with part := .settling, settleTimer := s.cfg.settleTime } } := if_neg h

theorem leaveStandby_untimed {s : State} (h : s.cfg.settleTime = 0) : s.leaveStandby =
    ({ s with stc := { s.stc with part := .operate, settleTimer := 0 } }).raise .settled .none .none := if_pos h

/-- Settles O13. -/
theorem setStateOperateAndRefusals : Obligations.SetStateOperateAndRefusals := by
  unfold Obligations.SetStateOperateAndRefusals
  intro s t rest target more head code right params
  rw [exec_setState head code right]
  refine ⟨fun one standby timed => ?settles, fun one standby untimed => ?operates, fun one running => ?running,
    fun zero standby => ?resting, fun zero one => ?other⟩
  case settles =>
    subst one
    rw [setState_operate (u := s.withIntake rest) params standby, Answer.run_done, leaveStandby_timed (s := s.withIntake rest) timed]
    exact congrArg (fun r => Host.Outcome.next (State.respond _ t r)) stateReply_settling
  case operates =>
    subst one
    rw [setState_operate (u := s.withIntake rest) params standby, Answer.run_done, leaveStandby_untimed (s := s.withIntake rest) untimed]
    exact congrArg (fun r => Host.Outcome.next (State.respond _ t r)) stateReply_operate
  case running =>
    subst one
    rw [setState_operating (u := s.withIntake rest) params running, Answer.run_done]
    have part : s.stc.part = .settling ∨ s.stc.part = .operate := by
      cases h : s.stc.part with
      | standby => exact absurd h running
      | settling => exact .inl rfl
      | operate => exact .inr rfl
    have code : stateReply (s.withIntake rest).stc.part =
        { code := .ok, data := [if s.stc.part = .settling then 2 else 1] } := by
      rcases part with h | h
      · rw [if_pos h]; exact (congrArg stateReply h).trans stateReply_settling
      · rw [if_neg (by simp [h])]; exact (congrArg stateReply h).trans stateReply_operate
    rw [code]
  case resting =>
    subst zero
    rw [setState_resting (u := s.withIntake rest) params standby, Answer.run_done]
    rfl
  case other => rw [setState_refused params zero one, Answer.run_refuse]

/-! ## READ COUNTERS (R176) -/

theorem portOfCode_portIndex (p : Port) : portOfCode (portIndex p).val = some p := by
  cases p with
  | lp i => simp [portOfCode, portIndex]
  | np => rfl

theorem groupOfCode_unknown {group port : Nat} (h : 5 ≤ group ∨ (group = 4 ∧ 9 ≤ port)) :
    groupOfCode group port = none := by
  rcases h with above | ⟨rfl, above⟩
  · obtain ⟨n, rfl⟩ := Nat.exists_eq_add_of_le' above
    rfl
  · simp [groupOfCode, portOfCode, show ¬ port < 8 by omega, show port ≠ 8 by omega]

section
variable {t : Taken} {u : State} {group port clear : Byte} {more : List Byte}

theorem readCounters_unknown (params : t.params = group :: port :: clear :: more)
    (h : groupOfCode group.toNat port.toNat = none) : readCounters t u = Answer.refuse .badIndex u := by
  simp [readCounters, params, param1, fieldByte, h]

theorem readCounters_group (params : t.params = group :: port :: clear :: more) {g : CounterGroup}
    (h : groupOfCode group.toNat port.toNat = some g) : readCounters t u =
      Answer.done { code := .ok, data := (u.groupValues g).flatMap enc4 } (if clear = 0 then u else u.clearGroup g) := by
  simp only [readCounters, params, param1, fieldByte, List.getD_cons_zero, List.getD_cons_succ, h, paramMark]
  rw [if_neg (by simp)]
  by_cases zero : clear = 0 <;> simp [zero]

end

/-- Settles O16. -/
theorem readCountersReadsThenClears : Obligations.ReadCountersReadsThenClears := by
  unfold Obligations.ReadCountersReadsThenClears
  intro s t rest group port clear more head code params right
  have held : Holds s t (if t.params.length ≥ 3 ∧ paramMark t.params 2 = true then .configure else .query) := by
    have option : (t.params.length ≥ 3 ∧ paramMark t.params 2 = true) ↔ clear ≠ 0 := by
      rw [clearOption_iff, params]; simp
    by_cases zero : clear = 0
    · rw [if_pos zero] at right
      rwa [if_neg fun h => option.1 h zero]
    · rw [if_neg zero] at right
      rwa [if_pos (option.2 zero)]
  have known (g : CounterGroup) (h : groupOfCode group.toNat port.toNat = some g) : exec .readCounters s = .next
      ((if clear = 0 then s.withIntake rest else (s.withIntake rest).clearGroup g).respond t
        { code := .ok, data := (s.groupValues g).flatMap (encodeNat 4) }) := by
    rw [exec_readCounters head code held, readCounters_group params h, Answer.run_done]
    cases g <;> rfl
  have unknown (h : groupOfCode group.toNat port.toNat = none) : exec .readCounters s = .next
      ((s.withIntake rest).respond t { code := .badIndex, data := [] }) := by
    rw [exec_readCounters head code held, readCounters_unknown params h, Answer.run_refuse]
  refine ⟨unknown, known, fun h => unknown (groupOfCode_unknown (h.imp_right fun ⟨four, above⟩ => ⟨by rw [four]; rfl, above⟩)),
    fun values cleared h => ?_⟩
  rcases h with ⟨rfl, ⟨c, rfl, rfl⟩, rfl⟩ | ⟨rfl, ⟨c, rfl, rfl⟩, rfl⟩ | ⟨rfl, ⟨c, rfl, rfl⟩, rfl⟩ |
    ⟨rfl, ⟨c, rfl, rfl⟩, rfl⟩ | ⟨p, rfl, number, ⟨c, rfl, rfl⟩, rfl⟩
  · exact known .store rfl
  · exact known .translator rfl
  · exact known .requestQueue rfl
  · exact known .epochControl rfl
  · exact known (.port p) (by rw [number]; exact congrArg (Option.map CounterGroup.port) (portOfCode_portIndex p))

/-! ## The source entries (R177) -/

theorem reservedId_iff {a : Word32} : reservedId a = true ↔ a = 0x00000000#32 ∨ a = 0xFFFFFFFF#32 := by
  simp [reservedId]

section
variable {t : Taken} {u : State}

theorem writeSource_badIndex (whole : 7 ≤ t.params.length) (above : 8 ≤ (t.params.getD 0 0).toNat) :
    writeSource t u = Answer.refuse .badIndex u := by
  rw [writeSource, if_neg whole.not_gt, if_pos (show 7 < param1 t.params 0 from above)]

theorem writeSource_badValue (whole : 7 ≤ t.params.length) {k : Fin 8} (index : (t.params.getD 0 0).toNat = k.val)
    (marked : t.params.getD 1 0 ≠ 0) (reserved : reservedId (field32 t.params 2) = true) :
    writeSource t u = Answer.refuse .badValue u := by
  have below : ¬ param1 t.params 0 > 7 := by rw [param1, fieldByte, index]; omega
  rw [writeSource, if_neg whole.not_gt, if_neg below, if_pos]
  simpa [sourceOfParams, paramMark, fieldByte, reserved] using marked

theorem writeSource_written (whole : 7 ≤ t.params.length) {k : Fin 8} (index : (t.params.getD 0 0).toNat = k.val)
    (good : t.params.getD 1 0 = 0 ∨ reservedId (field32 t.params 2) = false) : writeSource t u =
      Answer.done (Reply.bare .ok) { u with spu := { u.spu with
        sources := u.spu.sources.set k (sourceOfParams t.params) } } := by
  have number : param1 t.params 0 = k.val := by rw [param1, fieldByte, index]
  have accepted : ¬ ((sourceOfParams t.params).valid && reservedId (sourceOfParams t.params).address) = true := by
    rcases good with unmarked | free
    · simp only [sourceOfParams, paramMark, fieldByte, unmarked, bne_self_eq_false, Bool.false_and]
      exact Bool.false_ne_true
    · simp [sourceOfParams, free]
  rw [writeSource, if_neg whole.not_gt, if_neg (by omega), if_neg accepted]
  simp [number, Vector.setIfInBounds, Vector.set, Array.setIfInBounds]

theorem readSource_badIndex {index : Byte} {more : List Byte} (params : t.params = index :: more)
    (above : 8 ≤ index.toNat) : readSource t u = Answer.refuse .badIndex u := by
  have none : u.spu.sources[index.toNat]? = none := Vector.getElem?_eq_none above
  simp only [readSource, params, none]

theorem readSource_entry {index : Byte} {more : List Byte} (params : t.params = index :: more) {k : Fin 8}
    (number : index.toNat = k.val) : readSource t u =
      Answer.done { code := .ok, data := encSource u.spu.sources[k] } u := by
  have entry : u.spu.sources[index.toNat]? = some u.spu.sources[k] := by simp [number]
  simp only [readSource, params, entry]

end

/-- The three rights stand in the low bits of their byte (section 9.1). -/
theorem encRights_bits (x : Rights) : ∃ b : Byte, encRights x = [b] ∧ ∀ k, k < 8 → b.getLsbD k =
    (if k = 0 then x.query else if k = 1 then x.request else if k = 2 then x.configure else false) := by
  obtain ⟨q, r, c⟩ := x
  refine ⟨_, rfl, ?_⟩
  cases q <;> cases r <;> cases c <;> decide

/-- Settles O17. -/
theorem sourceEntriesAreWrittenAndRead : Obligations.SourceEntriesAreWrittenAndRead := by
  unfold Obligations.SourceEntriesAreWrittenAndRead
  refine ⟨fun s t rest head code right whole => ⟨fun above => ?outside, fun k index =>
      ⟨fun marked reserved => ?reserved, fun good => ?written⟩⟩,
    fun s t rest index more head code right params => ⟨fun above => ?unread, fun k number => ?read⟩, encRights_bits⟩
  case outside =>
    rw [exec_writeSourceEntry head code right, writeSource_badIndex whole above, Answer.run_refuse]
  case reserved =>
    rw [exec_writeSourceEntry head code right, writeSource_badValue whole index marked (reservedId_iff.2 reserved),
      Answer.run_refuse]
  case written =>
    rw [exec_writeSourceEntry head code right,
      writeSource_written whole index (good.imp_right reservedId_eq_false_iff.2), Answer.run_done]
    rfl
  case unread => rw [exec_readSourceEntry head code right, readSource_badIndex params above, Answer.run_refuse]
  case read => rw [exec_readSourceEntry head code right, readSource_entry params number, Answer.run_done]; rfl

/-! ## CLEAR CROSSINGS (R58) -/

/-- Settles O19. -/
theorem clearCrossingsClearsAndCounts : Obligations.ClearCrossingsClearsAndCounts := by
  unfold Obligations.ClearCrossingsClearsAndCounts
  intro s t rest clear hclear head code right whole
  have uncross : clear = Link.uncross := hclear
  subst uncross
  rw [exec_clearCrossings head code right, clearCrossings, if_neg whole.not_gt]
  refine ⟨fun all => ?all, fun one absent => ?absent, fun l one found => ?one⟩
  case all =>
    have unnamed : paramMark t.params 0 = false := by rw [paramMark, fieldByte, all]; rfl
    rw [unnamed, if_neg Bool.false_ne_true]
    rfl
  case absent =>
    have named : paramMark t.params 0 = true := bne_iff_ne.2 one
    have absent : findLink (s.withIntake rest).tst.nodes (paramLinkRef t.params 1) = none := absent
    rw [if_pos named, clearOne, absent]
    rfl
  case one =>
    have named : paramMark t.params 0 = true := bne_iff_ne.2 one
    have found : findLink (s.withIntake rest).tst.nodes (paramLinkRef t.params 1) = some l := found
    rw [if_pos named, clearOne, found]
    rfl

/-! ## The banks' commands (R141 to R144) -/

theorem targetOfCode_iff (n : Nat) (x : Target) : targetOfCode n = some x ↔
    (n, x) ∈ [(0, Target.nodeLifetime), (1, .nodeRegens), (2, .nodeTransitQ), (3, .linkCost), (4, .linkQ),
      (5, .linkRemoteId), (6, .linkOccupancy), (7, .linkSrlg), (8, .linkAdmin)] := by
  unfold targetOfCode
  split <;> simp_all [eq_comm]

theorem putDialectEntry_at (b : Bank) (d : Fin 8) (i : Fin 32) (e : DialectEntry) :
    b.putDialectEntry (d.val + 1) i.val e = { b with dialects := b.dialects.set d (b.dialects[d].set i e) } := by
  simp [Bank.putDialectEntry, Vector.setIfInBounds, Vector.set, Array.setIfInBounds]

theorem clearDialect_at (b : Bank) (d : Fin 8) : b.clearDialect (d.val + 1) =
    { b with dialects := b.dialects.set d (b.dialects[d].map (fun e => { e with valid := false })) } := by
  simp [Bank.clearDialect, Vector.setIfInBounds, Vector.set, Array.setIfInBounds]

theorem putClass_at (b : Bank) (k : Fin 16) (c : ClassEntry) :
    b.putClass k.val c = { b with classes := b.classes.set k c } := by
  simp [Bank.putClass, Vector.setIfInBounds, Vector.set, Array.setIfInBounds]

theorem dialectGood_iff {n : Nat} : dialectGood n = true ↔ 1 ≤ n ∧ n ≤ 8 := by simp [dialectGood]

section
variable {t : Taken} {u : State}

theorem writeDialect_badIndex (whole : 10 ≤ t.params.length) (h : param1 t.params 0 = 0 ∨ 9 ≤ param1 t.params 0 ∨
    32 ≤ param1 t.params 1 ∨ 9 ≤ param1 t.params 4) : writeDialect t u = Answer.refuse .badIndex u := by
  rw [writeDialect, if_neg whole.not_gt]
  by_cases place : !dialectGood (param1 t.params 0) || decide (param1 t.params 1 > 31)
  · rw [if_pos place]
  · simp only [Bool.or_eq_true, Bool.not_eq_true', ← Bool.not_eq_true, dialectGood_iff, decide_eq_true_eq] at place
    have unknown : targetOfCode (param1 t.params 4) = none := by
      obtain ⟨n, hn⟩ := Nat.exists_eq_add_of_le' (show 9 ≤ param1 t.params 4 by omega)
      rw [hn]; rfl
    rw [unknown, if_neg]
    simp [dialectGood]
    omega

variable {d : Fin 8} {i : Fin 32} {target : Target} (whole : 10 ≤ t.params.length)
  (dialect : param1 t.params 0 = d.val + 1) (index : param1 t.params 1 = i.val)
  (known : targetOfCode (param1 t.params 4) = some target)
include whole dialect index known

/-- WRITE DIALECT ENTRY at a place of the table with a known target (R141). -/
theorem writeDialect_placed : writeDialect t u =
    if paramMark t.params 2 && u.prb.staged.codeTaken (d.val + 1) i.val (fieldByte t.params 3) then
      Answer.refuse .duplicate u
    else Answer.done (okUnlessClamped (dialectClamped t.params)) (u.setStaged { u.prb.staged with
      dialects := u.prb.staged.dialects.set d (u.prb.staged.dialects[d].set i (dialectOfParams t.params target)) }) := by
  have place : ¬ (!dialectGood (param1 t.params 0) || decide (param1 t.params 1 > 31)) = true := by
    simp [dialectGood, dialect, index]
    omega
  rw [writeDialect, if_neg whole.not_gt, if_neg place, known, dialect, index]
  simp only [putDialectEntry_at]
  rfl

end

theorem okUnlessClamped_eq (b : Bool) : okUnlessClamped b = { code := if b then .clamped else .ok, data := [] } := rfl

theorem clampMul_eq (v : Nat) : clampMul v = max 1 v := by
  unfold clampMul
  split <;> omega

/-- Settles O25. -/
theorem writeDialectEntryStagesTheEntry : Obligations.WriteDialectEntryStagesTheEntry := by
  unfold Obligations.WriteDialectEntryStagesTheEntry
  refine ⟨targetOfCode_iff, fun s t rest head code right whole => ⟨fun h => ?_, ?_⟩⟩
  · rw [exec_writeDialectEntry head code right, writeDialect_badIndex whole h, Answer.run_refuse]
  intro d i target taken e dialect index known ht valid hcode htarget mul shift offset
  have entry : dialectOfParams t.params target = e := by
    rcases e with ⟨_, _, _, _, _, _⟩
    simp only at valid hcode htarget mul shift offset
    subst valid hcode htarget mul shift offset
    simp only [dialectOfParams, clampMul_eq]
    rfl
  have duplicate : (paramMark t.params 2 && (s.withIntake rest).prb.staged.codeTaken (d.val + 1) i.val
      (fieldByte t.params 3)) = true ↔ taken := by
    rw [ht, Bool.and_eq_true, codeTaken_iff, paramMark, bne_iff_ne]
    simp only [Fin.val_ne_iff]
    rfl
  have clamped : dialectClamped t.params = true ↔ fieldNat t.params 5 2 = 0 ∨ 15 < param1 t.params 7 := by
    simp [dialectClamped]
  rw [exec_writeDialectEntry head code right, writeDialect_placed whole dialect index known, entry]
  refine ⟨fun h => ?_, fun h => ?_⟩
  · rw [if_pos (duplicate.2 h), Answer.run_refuse]
  · rw [if_neg fun h' => h (duplicate.1 h'), Answer.run_done, okUnlessClamped_eq]
    simp only [clamped]
    rfl

/-- Settles O26. -/
theorem clearDialectAndWriteClass : Obligations.ClearDialectAndWriteClass := by
  unfold Obligations.ClearDialectAndWriteClass
  refine ⟨fun s t rest dialect more head code right params => ⟨fun h => ?outside, fun d number => ?clears⟩,
    fun s t rest head code right whole => ⟨fun above => ?above, fun k e number valid qReq margin cost => ?writes⟩⟩
  case outside =>
    have bad : ¬ dialectGood dialect.toNat = true := by rw [dialectGood_iff]; omega
    rw [exec_clearDialect head code right]
    simp only [clearDialect, params, if_neg bad, Answer.run_refuse]
  case clears =>
    have good : dialectGood (d.val + 1) = true := by rw [dialectGood_iff]; omega
    rw [exec_clearDialect head code right]
    simp only [clearDialect, params, number, if_pos good, clearDialect_at, Answer.run_done]
    rfl
  case above =>
    rw [exec_writeClass head code right, writeClass, if_neg whole.not_gt, if_pos (show 15 < param1 t.params 0 from above),
      Answer.run_refuse]
  case writes =>
    have entry : classOfParams t.params = e := by
      rcases e with ⟨_, _, _, _⟩
      simp only at valid qReq margin cost
      subst valid qReq margin cost
      rfl
    have clamped : classClamped t.params = true ↔ 400 < fieldNat t.params 2 2 ∨ 100 < fieldNat t.params 4 2 := by
      simp [classClamped]
    rw [exec_writeClass head code right, writeClass, if_neg whole.not_gt, if_neg (by omega), number, putClass_at, entry,
      Answer.run_done, okUnlessClamped_eq]
    simp only [clamped]
    rfl

/-! ## READ TABLE (R144) -/

section
variable {t : Taken} {u : State} {bank table x : Byte} {more : List Byte} (params : t.params = bank :: table :: x :: more)
  (whole : table = 0 → more ≠ [])
include params whole

theorem readTable_enough : ¬ (t.params.length < 3 ∨ (param1 t.params 1 = 0 ∧ t.params.length < 4)) := by
  rw [params]
  simp only [List.length_cons]
  rintro (short | ⟨zero, short⟩)
  · omega
  · exact whole (BitVec.eq_of_toNat_eq zero) (List.length_eq_zero_iff.1 (by omega))

theorem readTable_noBank (h : bankOfCode u bank.toNat = none) : readTable t u = Answer.refuse .badIndex u := by
  have bank : bankOfCode u (param1 t.params 0) = none := by rw [params]; exact h
  rw [readTable, if_neg (readTable_enough params whole), bank]

variable {b : Bank} (hb : bankOfCode u bank.toNat = some b)
include hb

theorem readTable_dialect (h : table = 0) : readTable t u = readDialectEntry u b x.toNat (param1 t.params 3) := by
  have bank : bankOfCode u (param1 t.params 0) = some b := by rw [params]; exact hb
  have table : param1 t.params 1 = 0 := by rw [params, h]; rfl
  have dialect : param1 t.params 2 = x.toNat := by rw [params]; rfl
  rw [readTable, if_neg (readTable_enough params whole), bank, table, dialect]
  rfl

theorem readTable_class (h : table = 1) : readTable t u = readClassEntry u b x.toNat := by
  have bank : bankOfCode u (param1 t.params 0) = some b := by rw [params]; exact hb
  have table : param1 t.params 1 = 1 := by rw [params, h]; rfl
  have number : param1 t.params 2 = x.toNat := by rw [params]; rfl
  rw [readTable, if_neg (readTable_enough params whole), bank, table, number]
  rfl

theorem readTable_noTable (h : 2 ≤ table.toNat) : readTable t u = Answer.refuse .badIndex u := by
  have bank : bankOfCode u (param1 t.params 0) = some b := by rw [params]; exact hb
  obtain ⟨n, hn⟩ := Nat.exists_eq_add_of_le' h
  have table : param1 t.params 1 = n + 2 := by rw [params]; exact hn
  rw [readTable, if_neg (readTable_enough params whole), bank, table]
  rfl

end

theorem bankOfCode_unknown {u : State} {n : Nat} (h : 2 ≤ n) : bankOfCode u n = none := by
  obtain ⟨n, rfl⟩ := Nat.exists_eq_add_of_le' h
  rfl

theorem bankOfCode_known {u : State} {n : Nat} (h : ¬ 2 ≤ n) : ∃ b, bankOfCode u n = some b := by
  obtain rfl | rfl : n = 0 ∨ n = 1 := by omega
  · exact ⟨_, rfl⟩
  · exact ⟨_, rfl⟩

theorem readDialectEntry_none (u : State) (b : Bank) {dialect index : Nat}
    (h : dialect = 0 ∨ 9 ≤ dialect ∨ 32 ≤ index) :
    readDialectEntry u b dialect index = Answer.refuse .badIndex u := by
  have none : b.dialectEntry dialect index = none := by
    unfold Bank.dialectEntry
    split
    · rfl
    · rcases h with zero | above | beyond
      · contradiction
      · rw [Vector.getElem?_eq_none (by omega)]; rfl
      · cases b.dialects[dialect - 1]? with
        | none => rfl
        | some d => exact Vector.getElem?_eq_none beyond
  rw [readDialectEntry, none]

theorem readDialectEntry_some (u : State) (b : Bank) (d : Fin 8) (i : Fin 32) :
    readDialectEntry u b (d.val + 1) i.val =
      Answer.done { code := .ok, data := encDialectEntry b.dialects[d][i] } u := by
  have entry : b.dialectEntry (d.val + 1) i.val = some b.dialects[d][i] := by simp [Bank.dialectEntry]
  rw [readDialectEntry, entry]

theorem readClassEntry_none (u : State) (b : Bank) {n : Nat} (h : 16 ≤ n) :
    readClassEntry u b n = Answer.refuse .badIndex u := by
  rw [readClassEntry, Vector.getElem?_eq_none h]

theorem readClassEntry_some (u : State) (b : Bank) (k : Fin 16) :
    readClassEntry u b k.val = Answer.done { code := .ok, data := encClassEntry b.classes[k] } u := by
  have entry : b.classes[k.val]? = some b.classes[k] := by simp
  rw [readClassEntry, entry]

theorem targetOfCode_targetCode (x : Target) : targetOfCode (targetCode x) = some x := by
  cases x <;> rfl

/-- Settles O27. -/
theorem readTableReturnsTheEntry : Obligations.ReadTableReturnsTheEntry := by
  unfold Obligations.ReadTableReturnsTheEntry
  refine ⟨fun e => ⟨_, targetOfCode_targetCode e.target, rfl⟩, fun _ => rfl,
    fun s t rest bank table x more head code right params => ⟨fun whole h => ?refused, fun b hb =>
      ⟨fun d i index zero second dialect number => ?entry, fun k one number => ?cls⟩⟩⟩
  case refused =>
    rw [exec_readTable head code right, ← Answer.run_refuse]
    refine congrArg (fun a : Answer => Host.Outcome.next (a.run t)) ?_
    by_cases known : 2 ≤ bank.toNat
    · exact readTable_noBank params whole (bankOfCode_unknown known)
    obtain ⟨b, hb⟩ := bankOfCode_known (u := s.withIntake rest) known
    rcases h with outside | outside | ⟨zero, place⟩ | ⟨one, above⟩
    · exact absurd outside known
    · exact readTable_noTable params whole hb outside
    · rw [readTable_dialect params whole hb zero]
      refine readDialectEntry_none _ b ?_
      rcases place with rfl | above | ⟨index, second, beyond⟩
      · exact .inl rfl
      · exact .inr (.inl above)
      · obtain ⟨more, rfl⟩ := List.head?_eq_some_iff.1 second
        exact .inr (.inr (by rw [params]; exact beyond))
    · rw [readTable_class params whole hb one]
      exact readClassEntry_none _ b above
  case entry =>
    have known : bankOfCode (s.withIntake rest) bank.toNat = some b := by
      rcases hb with ⟨rfl, rfl⟩ | ⟨rfl, rfl⟩ <;> rfl
    obtain ⟨more, rfl⟩ := List.head?_eq_some_iff.1 second
    have place : param1 t.params 3 = i.val := by rw [params]; exact number
    rw [exec_readTable head code right, readTable_dialect params (by simp) known zero, place, dialect,
      readDialectEntry_some, Answer.run_done]
  case cls =>
    have known : bankOfCode (s.withIntake rest) bank.toNat = some b := by
      rcases hb with ⟨rfl, rfl⟩ | ⟨rfl, rfl⟩ <;> rfl
    have whole : table = 0 → more ≠ [] := fun zero => by rw [one] at zero; exact absurd zero (by decide)
    rw [exec_readTable head code right, readTable_class params whole known one, number, readClassEntry_some,
      Answer.run_done]

end Sys2Proof.Machine

/-!
LEMMAS. READ STATUS, READ CONFIG and SET CONFIG's judgement (O7, O8), and the items of the monitor and of the
events (O10, O11).
-/
namespace Sys2Proof.Machine

/-! ## READ STATUS and READ CONFIG (R175, R174) -/

theorem itemOfCode_eq_none {n : Nat} : itemOfCode n = none ↔ n = 0 ∨ 22 ≤ n := by
  constructor
  · intro h
    by_contra inside
    have listed : ∀ k : Fin 22, k.val ≠ 0 → itemOfCode k.val ≠ none := by decide
    exact listed ⟨n, by omega⟩ (by simp; omega) h
  · rintro (rfl | above)
    · rfl
    · obtain ⟨n, rfl⟩ := Nat.exists_eq_add_of_le' above
      rfl

theorem crossNoticeCode_eq (m : CrossNotice) :
    crossNoticeCode m = if m = .falling then 0 else if m = .rising then 1 else 2 := by
  cases m <;> rfl

theorem watchCount_eq (entries : List WatchEntry) (w : WatchState) :
    watchCount entries w = (entries.map (·.state)).count w := by
  rw [watchCount, List.count, List.countP_map, List.countP_eq_length_filter]
  rfl

theorem readConfig_known {t : Taken} {u : State} {code : Byte} {more : List Byte} (params : t.params = code :: more)
    {i : ConfigItem} (h : itemOfCode code.toNat = some i) :
    readConfig t u = Answer.done { code := .ok, data := code :: enc4 (valueInForce u.cfg i) } u := by
  simp only [readConfig, params, h, itemData]

theorem readConfig_unknown {t : Taken} {u : State} {code : Byte} {more : List Byte} (params : t.params = code :: more)
    (h : itemOfCode code.toNat = none) : readConfig t u = Answer.refuse .badIndex u := by
  simp only [readConfig, params, h]

/-- Settles O7. -/
theorem statusAndConfigAreRead : Obligations.StatusAndConfigAreRead := by
  unfold Obligations.StatusAndConfigAreRead
  refine ⟨fun s t rest head code right => ?status, fun s t rest code more head hc right params =>
      ⟨fun i known => ?known, fun unknown => ?unknown⟩, fun c n => ⟨?items, itemOfCode_eq_none⟩,
    ⟨rfl, fun _ => rfl⟩, ⟨rfl, rfl, rfl, rfl, rfl, rfl⟩, fun x => ?engine, watchCount_eq⟩
  case status =>
    rw [exec_readStatus head code right, readStatus, Answer.run_done]
    refine congrArg (fun d => Host.Outcome.next ((s.withIntake rest).respond t { code := .ok, data := d })) ?_
    simp only [statusData, allWatchStates, List.flatMap_cons, List.flatMap_nil, List.append_nil, List.append_assoc]
    rfl
  case known => rw [exec_readConfig head hc right, readConfig_known params known, Answer.run_done]; rfl
  case unknown => rw [exec_readConfig head hc right, readConfig_unknown params unknown, Answer.run_refuse]
  case items => simp only [← crossNoticeCode_eq]; rfl
  case engine =>
    unfold encEngineStatus
    refine congrArg₂ (· ++ ·) (by cases x.mode <;> rfl) ?_
    cases (if x.mode = .idle then none else x.request) with
    | none => rfl
    | some d => cases h : d.requester <;> simp [encOptional, encRequester, h, enc4, encodeNat]

/-! ## SET CONFIG's judgement (R174) -/

theorem epochModeOfCode_none {n : Nat} : epochModeOfCode n = none ↔ 3 ≤ n := by
  unfold epochModeOfCode
  split <;> simp_all
  omega

theorem crossNoticeOfCode_none {n : Nat} : crossNoticeOfCode n = none ↔ 3 ≤ n := by
  unfold crossNoticeOfCode
  split <;> simp_all
  omega

theorem portOfCode_none {n : Nat} : portOfCode n = none ↔ 9 ≤ n := by
  unfold portOfCode
  split
  · simp; omega
  · split <;> simp <;> omega

theorem reservedId_ofNat {v : Nat} (h : v < 4294967296) :
    reservedId (BitVec.ofNat 32 v) = true ↔ v = 0 ∨ v = 0xFFFFFFFF := by
  rw [reservedId_iff]
  constructor
  · rintro (e | e)
    · exact .inl (by simpa [Nat.mod_eq_of_lt h] using congrArg BitVec.toNat e)
    · exact .inr (by simpa [Nat.mod_eq_of_lt h] using congrArg BitVec.toNat e)
  · rintro (rfl | rfl)
    · exact .inl rfl
    · exact .inr rfl

theorem judgeItem_eq_none {cfg : Settings} {p : Port} {i : ConfigItem} {v : Nat} (h : v < 4294967296) :
    judgeItem cfg p i v = none ↔
      match i with
      | .engineAddress => v = 0 ∨ v = 0xFFFFFFFF
      | .portEnable => v.testBit (portIndex p) = false
      | .epochMode => 3 ≤ v
      | .epochPort => 9 ≤ v
      | .crossNotice => 3 ≤ v
      | .twoWay => 2 ≤ v
      | .noticePort => 9 ≤ v
      | _ => False := by
  cases i with
  | engineAddress => simp only [judgeItem, ite_eq_left_iff, reduceCtorEq, imp_false, not_not, reservedId_ofNat h]
  | portEnable => simp [judgeItem, testBit_portIn]
  | epochMode => simp [judgeItem, epochModeOfCode_none]
  | epochPort => simp [judgeItem, portOfCode_none]
  | crossNotice => simp [judgeItem, crossNoticeOfCode_none]
  | noticePort => simp [judgeItem, portOfCode_none]
  | twoWay => simp [judgeItem]; omega
  | _ => simp [judgeItem]

theorem standbyOnly_iff (i : ConfigItem) :
    standbyOnly i = true ↔ i ∈ [ConfigItem.engineAddress, .portEnable, .epochMode, .epochPort] := by
  cases i <;> decide

section
variable {s : State} {t : Taken} {rest : List IntakeFrame} {i : ConfigItem} (head : AtHead s t rest)
  (code : t.code = 0x03) (right : Holds s t .configure) (whole : 5 ≤ t.params.length)
include head code right whole

theorem setConfig_unknown (h : itemOfCode (t.params.getD 0 0).toNat = none) :
    exec .setConfig s = .next ((s.withIntake rest).respond t { code := .badIndex, data := [] }) := by
  have h : itemOfCode (param1 t.params 0) = none := h
  rw [exec_setConfig head code right, setConfig, if_neg whole.not_gt, h]
  rfl

variable (item : itemOfCode (t.params.getD 0 0).toNat = some i)
include item

theorem setConfig_notInStandby (fixed : standbyOnly i = true) (running : s.stc.part ≠ .standby) :
    exec .setConfig s = .next ((s.withIntake rest).respond t { code := .notInStandby, data := [] }) := by
  have item : itemOfCode (param1 t.params 0) = some i := item
  have refused : (standbyOnly i && !(s.withIntake rest).standby) = true := by
    rw [fixed, standby_eq_false.2 (show (s.withIntake rest).stc.part ≠ .standby from running)]; rfl
  rw [exec_setConfig head code right, setConfig, if_neg whole.not_gt, item]
  exact congrArg (fun a : Answer => Host.Outcome.next (a.run t)) (if_pos refused)

variable (free : standbyOnly i = false ∨ s.stc.part = .standby)
include free

theorem setConfig_badValue (judged : judgeItem s.cfg t.port i (fieldNat t.params 1 4) = none) :
    exec .setConfig s = .next ((s.withIntake rest).respond t { code := .badValue, data := [] }) := by
  have judged : judgeItem (s.withIntake rest).cfg t.port i (fieldNat t.params 1 4) = none := judged
  rw [exec_setConfig head code right, setConfig_judged (s := s.withIntake rest) whole item free, judged]
  rfl

/-- Step 4 of R174: an item judged good takes effect and its value in force is answered. -/
theorem setConfig_accepted {new : Settings} {clamped : Bool}
    (judged : judgeItem s.cfg t.port i (fieldNat t.params 1 4) = some (new, clamped)) :
    exec .setConfig s = .next (((s.withIntake rest).configure i new).respond t
      { code := if clamped then .clamped else .ok, data := t.params.getD 0 0 :: enc4 (valueInForce new i) }) := by
  have judged : judgeItem (s.withIntake rest).cfg t.port i (fieldNat t.params 1 4) = some (new, clamped) := judged
  rw [exec_setConfig head code right, setConfig_judged (s := s.withIntake rest) whole item free, judged]
  rfl

end

/-- Settles O8. -/
theorem setConfigRefusesInOrder : Obligations.SetConfigRefusesInOrder := by
  unfold Obligations.SetConfigRefusesInOrder
  exact ⟨fun s t rest head code right whole => ⟨setConfig_unknown head code right whole, fun i item =>
      ⟨setConfig_notInStandby head code right whole item, setConfig_badValue head code right whole item⟩⟩,
    fun cfg p i v h => judgeItem_eq_none h, standbyOnly_iff⟩

/-! ## The monitor's items (R57) -/

theorem clampDepth_eq (v : Nat) : clampDepth v = if 8 ≤ v then 8 else if 4 ≤ v then 4 else if 2 ≤ v then 2 else 1 := by
  rfl

theorem bne_decide (x y : Nat) : (x != y) = decide (x ≠ y) := by
  rw [Bool.eq_iff_iff]; simp

theorem clampDepth_ne (v : Nat) : (clampDepth v != v) = decide (v ∉ [1, 2, 4, 8]) := by
  rw [bne_decide]
  refine decide_eq_decide.2 (not_congr ?_)
  simp only [clampDepth_eq, List.mem_cons, List.not_mem_nil, or_false]
  split
  · omega
  · split
    · omega
    · split <;> omega

theorem setDegradeLow_eq (cfg : Settings) (v : Nat) : setDegradeLow cfg v =
    ({ cfg with degradeLow := min 400 v, degradeHigh := max cfg.degradeHigh (min 400 v) },
      decide (400 < v ∨ cfg.degradeHigh < min 400 v)) := by
  have clamp : ((min 400 v != v) || decide (min 400 v > cfg.degradeHigh)) =
      decide (400 < v ∨ cfg.degradeHigh < min 400 v) := by
    rw [bne_decide, ← Bool.decide_or]
    exact decide_eq_decide.2 (or_congr (by omega) Iff.rfl)
  rw [setDegradeLow, Config.qMax_eq, min_comm v 400, clamp]

theorem setDegradeHigh_eq (cfg : Settings) (v : Nat) : setDegradeHigh cfg v =
    ({ cfg with degradeHigh := max cfg.degradeLow (min 400 v) },
      decide (max cfg.degradeLow (min 400 v) ≠ v)) := by
  rw [setDegradeHigh, Config.qMax_eq, min_comm v 400, bne_decide]

/-- Settles O10. -/
theorem monitorItemsClampAndResetFilters : Obligations.MonitorItemsClampAndResetFilters := by
  unfold Obligations.MonitorItemsClampAndResetFilters
  intro s t rest i v low new clamped refilter head code right whole item hv hlow kinds hrefilter
  subst hlow hrefilter
  have judged : judgeItem s.cfg t.port i v = some (new, clamped) ∧ standbyOnly i = false ∧
      (i = .degradeLow ∨ i = .degradeHigh ∨ i = .filterDepth) := by
    rcases kinds with ⟨rfl, rfl, rfl⟩ | ⟨rfl, rfl, rfl⟩ | ⟨rfl, rfl, rfl⟩
    · exact ⟨congrArg some (setDegradeLow_eq s.cfg v), rfl, .inl rfl⟩
    · exact ⟨congrArg some (setDegradeHigh_eq s.cfg v), rfl, .inr (.inl rfl)⟩
    · refine ⟨?_, rfl, .inr (.inr rfl)⟩
      rw [judgeItem, clampDepth_ne, clampDepth_eq]
  obtain ⟨judged, free, monitor⟩ := judged
  subst hv
  rw [setConfig_accepted head code right whole item (.inl free) judged, configure_rethreshold monitor]
  rfl

/-! ## The events' items (R181) -/

theorem mem_classesOnlyIn {x y : BitVec 12} {c : EventClass} :
    c ∈ classesOnlyIn x y ↔ eventIn x c = true ∧ eventIn y c = false := by
  simp [classesOnlyIn, mem_allEvents]

theorem noticesAfterEnable_get (u : EventUnit) (old new : Settings) (c : EventClass) :
    (noticesAfterEnable u old new).get c = u.get c := by
  unfold noticesAfterEnable
  dsimp only
  split
  · exact unqueueAll_get u _ c
  · rw [queuePending_get, unqueueAll_get]

theorem noticesAfterAddress_get (u : EventUnit) (old new : Settings) (c : EventClass) :
    (noticesAfterAddress u old new).get c = u.get c := by
  unfold noticesAfterAddress
  split
  · exact unqueueAll_get u _ c
  · split
    · exact queuePending_get u _ c
    · rfl

theorem noticesAfterEnable_queued (u : EventUnit) (old new : Settings) (c : EventClass) :
    (noticesAfterEnable u old new).queued c = true ↔
      (u.queued c = true ∧ ¬(eventIn old.eventEnable c = true ∧ eventIn new.eventEnable c = false)) ∨
      (eventIn old.eventEnable c = false ∧ eventIn new.eventEnable c = true ∧ new.noticeAddress ≠ 0#32 ∧
        (u.get c).pending = true) := by
  unfold noticesAfterEnable
  by_cases silent : new.noticeAddress = 0#32
  · simp [silent, unqueueAll_queued, mem_classesOnlyIn]
  · simp only [if_neg silent, queuePending_queued, unqueueAll_queued, unqueueAll_get, mem_classesOnlyIn]
    tauto

theorem noticesAfterAddress_queued (u : EventUnit) (old new : Settings) (c : EventClass) :
    (noticesAfterAddress u old new).queued c = true ↔
      new.noticeAddress ≠ 0#32 ∧ (u.queued c = true ∨
        (old.noticeAddress = 0#32 ∧ eventIn new.eventEnable c = true ∧ (u.get c).pending = true)) := by
  unfold noticesAfterAddress
  by_cases silent : new.noticeAddress = 0#32
  · simp [silent, unqueueAll_queued, mem_allEvents]
  · by_cases quiet : old.noticeAddress = 0#32
    · simp [silent, quiet, queuePending_queued, mem_allEvents]
    · simp [silent, quiet]

/-- The notices that are queued for the classes of a set, in ascending class number (R181). -/
def EventUnit.addedFor (u : EventUnit) (asked : EventClass → Bool) : List NoticeEntry :=
  (allEvents.filter (fun c => asked c && (u.get c).pending && !u.notices.any (fun n => n.cls == c))).map (fun c =>
    { cls := c, count := (u.get c).count, subject := (u.get c).subject, reason := (u.get c).reason })

theorem queuePending_added (u : EventUnit) (asked : EventClass → Bool) :
    (u.queuePending (allEvents.filter asked)).notices = u.notices ++ u.addedFor asked := by
  rw [queuePending_notices (allEvents_nodup.filter _), EventUnit.addedFor, List.filter_filter]
  refine congrArg (fun l => u.notices ++ l.map u.entryOf) (List.filter_congr fun c _ => ?_)
  rw [Bool.and_comm, Bool.and_assoc]
  rfl

theorem addedFor_congr {u v : EventUnit} {asked : EventClass → Bool} (get : ∀ c, u.get c = v.get c)
    (queued : ∀ c, asked c = true → u.queued c = v.queued c) : u.addedFor asked = v.addedFor asked := by
  unfold EventUnit.addedFor
  simp only [get]
  refine congrArg _ (List.filter_congr fun c _ => ?_)
  cases h : asked c with
  | false => rfl
  | true =>
    have := queued c h
    simp only [EventUnit.queued] at this
    rw [this]

theorem noticesAfterEnable_notices (u : EventUnit) (old new : Settings) :
    (noticesAfterEnable u old new).notices =
      u.notices.filter (fun n => !eventIn old.eventEnable n.cls || eventIn new.eventEnable n.cls) ++
        (if new.noticeAddress = 0#32 then []
          else u.addedFor (fun c => eventIn new.eventEnable c && !eventIn old.eventEnable c)) := by
  have kept : (u.unqueueAll (classesOnlyIn old.eventEnable new.eventEnable)).notices =
      u.notices.filter (fun n => !eventIn old.eventEnable n.cls || eventIn new.eventEnable n.cls) := by
    rw [unqueueAll_notices]
    refine List.filter_congr fun n _ => ?_
    rw [Bool.eq_iff_iff]
    simp [mem_classesOnlyIn, imp_iff_not_or]
  unfold noticesAfterEnable
  by_cases silent : new.noticeAddress = 0#32
  · simp [silent, kept]
  · have asked : classesOnlyIn new.eventEnable old.eventEnable =
        allEvents.filter (fun c => eventIn new.eventEnable c && !eventIn old.eventEnable c) := rfl
    rw [if_neg silent, if_neg silent, asked, queuePending_added, kept]
    refine congrArg _ (addedFor_congr (unqueueAll_get u _) fun c asked => ?_)
    simp only [Bool.and_eq_true, Bool.not_eq_true'] at asked
    rw [Bool.eq_iff_iff, unqueueAll_queued, mem_classesOnlyIn]
    simp [asked]

theorem noticesAfterAddress_notices (u : EventUnit) (old new : Settings) :
    (noticesAfterAddress u old new).notices =
      if new.noticeAddress = 0#32 then []
      else if old.noticeAddress = 0#32 then u.notices ++ u.addedFor (eventIn new.eventEnable) else u.notices := by
  unfold noticesAfterAddress
  split
  · rw [unqueueAll_notices]
    simp [mem_allEvents]
  · split
    · exact queuePending_added u _
    · rfl

/-- A set of classes left as it was changes no notice (R174). -/
theorem noticesAfterEnable_same (u : EventUnit) (c : Settings) : noticesAfterEnable u c c = u := by
  have none : classesOnlyIn c.eventEnable c.eventEnable = [] := by simp [classesOnlyIn]
  unfold noticesAfterEnable
  simp [none, EventUnit.unqueueAll, EventUnit.queuePending]

theorem configure_eventEnable (s : State) (new : Settings) : s.configure .eventEnable new =
    { s with cfg := new, evu := noticesAfterEnable s.evu s.cfg new } := by
  unfold State.configure
  split
  next same => rw [same, noticesAfterEnable_same]
  next => rfl

theorem configure_noticeAddress (s : State) (new : Settings) : s.configure .noticeAddress new =
    { s with cfg := new, evu := if new = s.cfg then s.evu else noticesAfterAddress s.evu s.cfg new } := by
  unfold State.configure
  split
  next same => rw [same]
  next => rfl

/-- Settles O11. -/
theorem eventItemsChangeTheNoticeQueue : Obligations.EventItemsChangeTheNoticeQueue := by
  unfold Obligations.EventItemsChangeTheNoticeQueue
  refine ⟨fun u old new c => ⟨⟨noticesAfterEnable_get u old new c, noticesAfterAddress_get u old new c⟩,
      noticesAfterEnable_queued u old new c, noticesAfterAddress_queued u old new c⟩,
    fun u old new byClass added hb ha => ?queue,
    fun s t rest v new head code right whole hv => ⟨fun item hn => ?enable, fun item hn => ?address⟩⟩
  case queue =>
    subst hb ha
    exact ⟨noticesAfterEnable_notices u old new, noticesAfterAddress_notices u old new⟩
  case enable =>
    subst hv hn
    have known : itemOfCode (t.params.getD 0 0).toNat = some .eventEnable := by rw [item]; rfl
    have value : valueInForce { s.cfg with eventEnable := BitVec.ofNat 12 (fieldNat t.params 1 4) } .eventEnable =
        fieldNat t.params 1 4 % 4096 := BitVec.toNat_ofNat ..
    rw [setConfig_accepted head code right whole known (.inl rfl) rfl, value, item]
    refine congrArg (fun u : State => Host.Outcome.next (u.respond t _)) ?_
    exact configure_eventEnable (s.withIntake rest) _
  case address =>
    subst hv hn
    have known : itemOfCode (t.params.getD 0 0).toNat = some .noticeAddress := by rw [item]; rfl
    have value : valueInForce { s.cfg with noticeAddress := BitVec.ofNat 32 (fieldNat t.params 1 4) } .noticeAddress =
        fieldNat t.params 1 4 := (BitVec.toNat_ofNat ..).trans (Nat.mod_eq_of_lt (fieldNat_lt ..))
    rw [setConfig_accepted head code right whole known (.inl rfl) rfl, value, item]
    refine congrArg (fun u : State => Host.Outcome.next (u.respond t _)) ?_
    exact configure_noticeAddress (s.withIntake rest) _

end Sys2Proof.Machine

/-!
LEMMAS. SET CONFIG's numeric and coded items, TWO_WAY, and ports that leave PORT_ENABLE (O9, O12).
-/
namespace Sys2Proof.Machine

/-! ## A port that is disabled (R164) -/

section
variable (s : State) (e : EngineId) (p q : Port)

theorem discardRecord_engine : (s.discardRecord e p).engine e =
    if (s.engine e).waitsFor = some p then Engine.idle else s.engine e := by
  unfold State.discardRecord
  split <;> cases e <;> rfl

theorem discardRecord_otherEngine : (s.discardRecord e p).engine (otherEngine e) = s.engine (otherEngine e) := by
  unfold State.discardRecord
  split <;> cases e <;> rfl

/-- Results discarded, `k` more of them, where 0 changes nothing. -/
def discardedAfter (c k : Nat) : Nat := if k = 0 then c else min (c + k) 4294967295

theorem discardedAfter_add (c j k : Nat) : discardedAfter (discardedAfter c j) k = discardedAfter c (j + k) := by
  unfold discardedAfter
  split <;> split <;> split <;> omega

/-- 1 when the engine waits for the port, and 0 when it does not. -/
def Engine.waitingFor (x : Engine) (p : Port) : Nat := if x.waitsFor = some p then 1 else 0

/-- What an engine's discarded record leaves and changes. -/
theorem discardRecord_keeps : s.discardRecord e p = { s with
    rq := { s.rq with counters := { s.rq.counters with
      resultsDiscarded := discardedAfter s.rq.counters.resultsDiscarded ((s.engine e).waitingFor p) } }
    engA := (s.discardRecord e p).engA, engB := (s.discardRecord e p).engB } := by
  unfold State.discardRecord Engine.waitingFor
  split <;> cases e <;> rfl

theorem discardHeld_none (h : s.spu.hold = none) : s.discardHeld p = s := by
  simp [State.discardHeld, h]

theorem discardHeld_engine : (s.discardHeld p).engine e = s.engine e := by
  unfold State.discardHeld
  split <;> cases e <;> rfl

theorem disablePort_engine : (s.disablePort p).engine e =
    if (s.engine e).waitsFor = some p then Engine.idle else s.engine e := by
  have kept : ((s.setPort p (s.port p).emptied).discardHeld p).engine e = s.engine e := by
    rw [discardHeld_engine]; cases e <;> rfl
  unfold State.disablePort
  cases e with
  | a => rw [show EngineId.a = otherEngine .b from rfl, discardRecord_otherEngine, show otherEngine .b = .a from rfl,
      discardRecord_engine, kept]
  | b => rw [discardRecord_engine, show EngineId.b = otherEngine .a from rfl, discardRecord_otherEngine,
      show otherEngine .a = .b from rfl, kept]

theorem discardRecord_port : (s.discardRecord e p).port q = s.port q := by
  rw [discardRecord_keeps]; rfl

theorem disablePort_port_eq : (s.disablePort p).port q = ((s.setPort p (s.port p).emptied).discardHeld p).port q := by
  rw [State.disablePort, discardRecord_port, discardRecord_port]

theorem disablePort_port_ne (other : q ≠ p) : (s.disablePort p).port q = s.port q := by
  rw [disablePort_port_eq, State.discardHeld]
  split
  · exact (State.countPort_port_ne _ _ other).trans (State.setPort_port_ne _ _ other)
  · exact State.setPort_port_ne _ _ other

/-- The disabled port's own state: emptied, and its held response counted (R164). -/
theorem disablePort_port : (s.disablePort p).port p =
    if (s.spu.hold.map (·.port)) = some p then
      { (s.port p).emptied with counters := { (s.port p).emptied.counters with
        localDiscarded := bump (s.port p).emptied.counters.localDiscarded } }
    else (s.port p).emptied := by
  rw [disablePort_port_eq, State.discardHeld, State.setPort_spu_hold]
  split
  · refine (State.countPort_port ..).trans ?_
    rw [show State.port ({ (s.setPort p (s.port p).emptied) with
      spu := { (s.setPort p (s.port p).emptied).spu with hold := none } } : State) p =
        (s.setPort p (s.port p).emptied).port p from rfl, State.setPort_port]
  · exact State.setPort_port ..

theorem disablePort_hold : (s.disablePort p).spu.hold =
    if (s.spu.hold.map (·.port)) = some p then none else s.spu.hold := by
  rw [State.disablePort, discardRecord_keeps, discardRecord_keeps, State.discardHeld]
  split <;> split <;> simp_all

end

/-- What disabling a port leaves and changes while no response is held (R164). -/
theorem disablePort_keeps {s : State} (h : s.spu.hold = none) (p : Port) : s.disablePort p = { s with
    spu := { s.spu with ports := (s.disablePort p).spu.ports }
    rq := { s.rq with counters := { s.rq.counters with
      resultsDiscarded := discardedAfter s.rq.counters.resultsDiscarded
        (s.engA.waitingFor p + s.engB.waitingFor p) } }
    engA := (s.disablePort p).engA, engB := (s.disablePort p).engB } := by
  have hold : (s.setPort p (s.port p).emptied).discardHeld p = s.setPort p (s.port p).emptied :=
    discardHeld_none _ _ h
  have other : ((s.setPort p (s.port p).emptied).discardRecord .a p).engine .b = s.engB :=
    discardRecord_otherEngine _ .a p
  have first := discardRecord_keeps (s.setPort p (s.port p).emptied) .a p
  have second := discardRecord_keeps ((s.setPort p (s.port p).emptied).discardRecord .a p) .b p
  rw [other] at second
  rw [State.disablePort, hold, ← discardedAfter_add]
  generalize (s.setPort p (s.port p).emptied).discardRecord .a p = u at first second
  generalize u.discardRecord .b p = v at second
  refine second.trans ?_
  have ports : v.spu.ports = (s.setPort p (s.port p).emptied).spu.ports :=
    (congrArg (·.spu.ports) second).trans (congrArg (·.spu.ports) first)
  rw [ports, first]
  rfl

/-! ## The ports that leave PORT_ENABLE (R164) -/

/-- 1 when the engine waits for a port of the list, and 0 when it does not. -/
def Engine.waitingIn (x : Engine) (ports : List Port) : Nat :=
  if ∃ p ∈ ports, x.waitsFor = some p then 1 else 0

theorem waitsFor_idle : Engine.idle.waitsFor = none := rfl

/-- An engine left by a disabled port waits for one port less. -/
theorem waitingIn_cons (x : Engine) (p : Port) (ports : List Port) : x.waitingIn (p :: ports) =
    x.waitingFor p + (if x.waitsFor = some p then Engine.idle else x).waitingIn ports := by
  by_cases waits : x.waitsFor = some p
  · simp [Engine.waitingIn, Engine.waitingFor, waits, waitsFor_idle]
  · simp [Engine.waitingIn, Engine.waitingFor, waits]

theorem waitingIn_disablePort (s : State) (p : Port) (ports : List Port) :
    s.engA.waitingIn (p :: ports) + s.engB.waitingIn (p :: ports) = (s.engA.waitingFor p + s.engB.waitingFor p) +
      ((s.disablePort p).engA.waitingIn ports + (s.disablePort p).engB.waitingIn ports) := by
  have a : (s.disablePort p).engA = if s.engA.waitsFor = some p then Engine.idle else s.engA := disablePort_engine s .a p
  have b : (s.disablePort p).engB = if s.engB.waitsFor = some p then Engine.idle else s.engB := disablePort_engine s .b p
  rw [a, b, waitingIn_cons, waitingIn_cons]
  omega

/-- What disabling the ports of a list leaves and changes, no response being held. -/
theorem disablePorts_spec (ports : List Port) (apart : ports.Nodup) (s : State) (h : s.spu.hold = none) :
    (ports.foldl State.disablePort s = { s with
      spu := { s.spu with ports := (ports.foldl State.disablePort s).spu.ports }
      rq := { s.rq with counters := { s.rq.counters with
        resultsDiscarded := discardedAfter s.rq.counters.resultsDiscarded
          (s.engA.waitingIn ports + s.engB.waitingIn ports) } }
      engA := (ports.foldl State.disablePort s).engA, engB := (ports.foldl State.disablePort s).engB }) ∧
    (∀ q, (ports.foldl State.disablePort s).port q = if q ∈ ports then (s.port q).emptied else s.port q) ∧
    ∀ e, (ports.foldl State.disablePort s).engine e =
      if ∃ p ∈ ports, (s.engine e).waitsFor = some p then Engine.idle else s.engine e := by
  induction ports generalizing s with
  | nil => exact ⟨rfl, fun q => by simp, fun e => by simp⟩
  | cons p ports ih =>
    obtain ⟨fresh, apart⟩ := List.nodup_cons.1 apart
    have keeps := disablePort_keeps h p
    have hold : (s.disablePort p).spu.hold = none := (congrArg (·.spu.hold) keeps).trans h
    obtain ⟨kept, queues, engines⟩ := ih apart (s.disablePort p) hold
    have engine (e : EngineId) := disablePort_engine s e p
    rw [List.foldl_cons]
    refine ⟨?_, fun q => ?_, fun e => ?_⟩
    · rw [waitingIn_disablePort, ← discardedAfter_add]
      generalize s.disablePort p = u at keeps kept ⊢
      generalize ports.foldl State.disablePort u = v at kept ⊢
      refine kept.trans ?_
      rw [keeps]
    · rw [queues]
      by_cases same : q = p
      · subst same
        rw [if_neg fresh, if_pos (List.mem_cons_self ..), disablePort_port, if_neg (by simp [h])]
      · rw [disablePort_port_ne _ _ _ same]
        simp [same]
    · rw [engines, engine]
      by_cases waits : (s.engine e).waitsFor = some p
      · simp [waits, waitsFor_idle]
      · simp [waits]

theorem portsRemoved_nodup (old new : BitVec 9) : (portsRemoved old new).Nodup :=
  (by decide : allPorts.Nodup).filter _

theorem mem_portsRemoved {old new : BitVec 9} {p : Port} :
    p ∈ portsRemoved old new ↔ (portIn old p && !portIn new p) = true := by
  have listed : p ∈ allPorts := by
    cases p with
    | np => simp [allPorts]
    | lp i => revert i; decide
  simp [portsRemoved, listed]

theorem configure_portEnable (s : State) (new : Settings) : s.configure .portEnable new =
    (portsRemoved s.cfg.portEnable new.portEnable).foldl State.disablePort { s with cfg := new } := by
  unfold State.configure
  split
  next same =>
    subst same
    have none : portsRemoved s.cfg.portEnable s.cfg.portEnable = [] := by simp [portsRemoved]
    rw [none]; rfl
  next => rfl

/-- An engine waits for one of the ports removed. -/
theorem waitsFor_removed {x : Engine} {old new : BitVec 9} : (∃ p ∈ portsRemoved old new, x.waitsFor = some p) ↔
    (x.waitsFor.map (fun q => portIn old q && !portIn new q)).getD false = true := by
  cases h : x.waitsFor with
  | none => simp
  | some q => simp [mem_portsRemoved]

/-- The engines that wait for a port removed, counted. -/
theorem waiting_count (s : State) (old new : BitVec 9) :
    s.engA.waitingIn (portsRemoved old new) + s.engB.waitingIn (portsRemoved old new) =
      ([EngineId.a, .b].filter (fun e => ((s.engine e).waitsFor.map
        (fun q => portIn old q && !portIn new q)).getD false)).length := by
  unfold Engine.waitingIn
  simp only [waitsFor_removed]
  rw [← List.countP_eq_length_filter, List.countP_cons, List.countP_singleton, add_comm]
  rfl

/-- Settles O12. -/
theorem disabledPortIsEmptiedAndCounted : Obligations.DisabledPortIsEmptiedAndCounted := by
  unfold Obligations.DisabledPortIsEmptiedAndCounted
  refine ⟨fun s p q => ?one, fun s t rest new removed k head code right whole item hn standby arrived hr hk => ?all⟩
  case one =>
    have held (r : HeldResponse) (h : s.spu.hold = some r) : (s.disablePort p).spu.hold =
        if r.port = p then none else some r := by
      rw [disablePort_hold, h]
      simp
    refine ⟨?_, ?_, ?_, ?_, ?_, fun none => ?_, disablePort_port_ne s p q, held, fun e waits => ?_, fun e waits => ?_⟩
    · rw [disablePort_port]; split <;> rfl
    · rw [disablePort_port]; split <;> rfl
    · rw [disablePort_port]; split <;> rfl
    · rw [disablePort_port]; split <;> rfl
    · rw [disablePort_port]; split <;> rfl
    · rw [disablePort_port, if_neg (by simp [none])]; rfl
    · rw [disablePort_engine, if_pos waits]
    · rw [disablePort_engine, if_neg waits]
  case all =>
    subst hr
    have known : itemOfCode (t.params.getD 0 0).toNat = some .portEnable := by rw [item]; rfl
    have judged : judgeItem s.cfg t.port .portEnable (fieldNat t.params 1 4) =
        some ({ s.cfg with portEnable := new }, false) := by
      rw [judgeItem, ← hn, if_pos arrived]
    rw [setConfig_accepted head code right whole known (.inr standby) judged, configure_portEnable, item]
    have hold : s.spu.hold = none := head.1
    obtain ⟨kept, queues, engines⟩ := disablePorts_spec _ (portsRemoved_nodup s.cfg.portEnable new)
      { s.withIntake rest with cfg := { s.cfg with portEnable := new } } hold
    refine ⟨_, rfl, ?_, fun q out => ?_, fun q stays => ?_, fun e => ?_⟩
    · obtain rfl := hk.trans (waiting_count s s.cfg.portEnable new).symm
      exact kept.trans rfl
    · exact (queues q).trans (if_pos (mem_portsRemoved.2 out))
    · exact (queues q).trans (if_neg fun h => by simp [mem_portsRemoved.1 h] at stays)
    · exact (engines e).trans (if_congr waitsFor_removed rfl rfl)

/-! ## The items that take effect alone (R174, section 10.5) -/

theorem clampNat_same {lo hi v : Nat} (order : lo ≤ hi) : (clampNat lo hi v != v) = decide (¬ (lo ≤ v ∧ v ≤ hi)) := by
  rw [bne_decide, clampNat]
  exact decide_eq_decide.2 (by omega)

section
variable {s : State} {t : Taken} {rest : List IntakeFrame} {i : ConfigItem} (head : AtHead s t rest)
  (code : t.code = 0x03) (right : Holds s t .configure) (whole : 5 ≤ t.params.length)
  (item : itemOfCode (t.params.getD 0 0).toNat = some i) (free : standbyOnly i = false ∨ s.stc.part = .standby)
  (plain : ∀ (s : State) (old : Settings), s.itemEffect old i = s)
include head code right whole item free plain

/-- An item without effects of its own takes the value (R174). -/
theorem setConfig_plain {new : Settings} {clamped : Bool}
    (judged : judgeItem s.cfg t.port i (fieldNat t.params 1 4) = some (new, clamped)) :
    exec .setConfig s = .next (({ s.withIntake rest with cfg := new }).respond t
      { code := if clamped then .clamped else .ok, data := t.params.getD 0 0 :: enc4 (valueInForce new i) }) := by
  rw [setConfig_accepted head code right whole item free judged, configure_plain plain]

/-- An item that is clamped into a range, and has no effects of its own (R174, section 10.5). -/
theorem setConfig_clamped {lo hi : Nat} {put : Settings → Nat → Settings} (order : lo ≤ hi)
    (judged : ∀ (cfg : Settings) (p : Port) (v : Nat),
      judgeItem cfg p i v = some (put cfg (clampNat lo hi v), clampNat lo hi v != v))
    (value : ∀ (cfg : Settings) (v : Nat), valueInForce (put cfg v) i = v) :
    exec .setConfig s = .next
      (({ s.withIntake rest with cfg := put s.cfg (max lo (min hi (fieldNat t.params 1 4))) }).respond t
        { code := if lo ≤ fieldNat t.params 1 4 ∧ fieldNat t.params 1 4 ≤ hi then .ok else .clamped
          data := t.params.getD 0 0 :: enc4 (max lo (min hi (fieldNat t.params 1 4))) }) := by
  rw [setConfig_plain head code right whole item free plain (judged ..), value, clampNat_same order]
  by_cases inside : lo ≤ fieldNat t.params 1 4 ∧ fieldNat t.params 1 4 ≤ hi
  · simp [inside, clampNat]
  · simp [inside, clampNat]

end

/-! ## TWO_WAY (R19, R20, R22, R23) -/

/-- Between equal tables only USABILITY changes. -/
theorem changed_same_tables {b b' : Bool} {nodes : List NodeEntry} {r : Report} (h : Changed b b' nodes nodes r) :
    r.kind = .usability := by
  have same {α : Type} {o : Option α} {x y : α} (hx : o = some x) (hy : o = some y) : x = y :=
    Option.some.inj (hx.symm.trans hy)
  obtain ⟨el, kind⟩ := r
  cases el with
  | node id =>
    cases kind with
    | live => exact absurd (h.1.symm.trans h.2) Bool.false_ne_true
    | withdrawn =>
      obtain ⟨live, n, found, dead⟩ := h
      simp [liveNode, found, dead] at live
    | freed => exact absurd h.2 h.1
    | transitQ => obtain ⟨m, n, hm, hn, differ⟩ := h; exact absurd (congrArg _ (same hm hn)) differ
    | regens => obtain ⟨m, n, hm, hn, differ⟩ := h; exact absurd (congrArg _ (same hm hn)) differ
    | _ => exact h.elim
  | link ref =>
    cases kind with
    | usability => rfl
    | created => exact absurd h.1 h.2
    | freed => exact absurd h.2 h.1
    | cost => obtain ⟨k, l, hk, hl, differ⟩ := h; exact absurd (congrArg _ (same hk hl)) differ
    | q => obtain ⟨k, l, hk, hl, differ⟩ := h; exact absurd (congrArg _ (same hk hl)) differ
    | occupancy => obtain ⟨k, l, hk, hl, differ⟩ := h; exact absurd (congrArg _ (same hk hl)) differ
    | admin => obtain ⟨k, l, hk, hl, differ⟩ := h; exact absurd (congrArg _ (same hk hl)) differ
    | endpoints =>
      obtain ⟨k, l, hk, hl, differ⟩ := h
      exact differ.elim (absurd (congrArg _ (same hk hl))) (absurd (congrArg _ (same hk hl)))
    | srlg => obtain ⟨k, l, hk, hl, differ⟩ := h; exact absurd (congrArg _ (same hk hl)) differ
    | condition => obtain ⟨l, hl, differ⟩ := h; exact absurd (by rw [hl]; rfl) differ
    | _ => exact h.elim

/-- The reports of a change of TWO_WAY are the changes of usability (R20). -/
theorem twoWay_reports {b b' : Bool} {nodes : List NodeEntry} (sound : TableSound nodes) (r : Report) :
    r ∈ usabilityReports b b' nodes nodes ↔ Changed b b' nodes nodes r := by
  rw [mem_usabilityReports sound]
  exact ⟨fun h => h.2, fun h => ⟨changed_same_tables h, h⟩⟩

theorem batchEntry_of_not_concerned {rs : List Report} (s : State) (id : Nat)
    (h : ∀ w, findWatch s.pwl.entries id = some w → concerns rs w = false) : s.batchEntry rs id = s := by
  unfold State.batchEntry
  split
  · rfl
  next w found => rw [if_neg fun ⟨_, c⟩ => by simp [h w found] at c]

/-- Without reports the watch list does nothing (R127). -/
theorem batch_nil (s : State) : s.batch [] = s := by
  have still (ids : List Nat) : ids.foldl (State.batchEntry []) s = s := by
    induction ids with
    | nil => rfl
    | cons id ids ih =>
      rw [List.foldl_cons, batchEntry_of_not_concerned s id fun w _ => Bool.eq_false_iff.2 fun c => ?_, ih]
      simpa [Concerned] using (concerns_iff [] w).1 c
  exact still _

theorem touchReports_engine (s : State) (rs : List Report) (e : EngineId) :
    (s.touchReports rs).engine e = (s.engine e).touchAll (rs.map (·.element)) := by
  cases e <;> rfl

/-- The engines are marked with the elements of the reports, in their order (R22, R5). -/
theorem touchReports_marked (s : State) (rs : List Report) (e : EngineId) :
    Marked (s.engine e) ((s.touchReports rs).engine e) (fun el => ∃ r ∈ rs, r.element = el) ∧
    EnteredInOrder (s.engine e) ((s.touchReports rs).engine e) (rs.map (·.element)) := by
  rw [touchReports_engine]
  exact ⟨(touchAll_marked _ _).congr fun el => List.mem_map, touchAll_inOrder _ _⟩

theorem reportChanges_nil (s : State) : s.reportChanges [] = s := by
  rw [State.reportChanges, batch_nil]; rfl

theorem usabilityReports_same (b : Bool) {nodes : List NodeEntry} (sound : TableSound nodes) :
    usabilityReports b b nodes nodes = [] := by
  refine List.eq_nil_iff_forall_not_mem.2 fun r mem => ?_
  obtain ⟨kind, changed⟩ := (mem_usabilityReports sound).1 mem
  obtain ⟨el, k⟩ := r
  subst kind
  cases el with
  | node id => exact changed
  | link ref =>
    obtain ⟨m, n, k, l, hm, hn, hk, hl, differ⟩ := changed
    obtain rfl : m = n := Option.some.inj (hm.symm.trans hn)
    obtain rfl : k = l := Option.some.inj (hk.symm.trans hl)
    exact differ rfl

theorem configure_twoWay (s : State) (new : Settings) (sound : TableSound s.tst.nodes) : s.configure .twoWay new =
    ({ s with cfg := new } : State).reportChanges
      (usabilityReports s.cfg.twoWay new.twoWay s.tst.nodes s.tst.nodes) := by
  unfold State.configure
  split
  next same => subst same; rw [usabilityReports_same _ sound, reportChanges_nil]
  next => rfl

theorem configure_epochMode (s : State) (new : Settings) : s.configure .epochMode new = { s with
    cfg := new
    epc := { s.epc with timer := if new = s.cfg then s.epc.timer else timerAfterMode s.epc.timer s.cfg new } } := by
  unfold State.configure
  split
  next same => rw [same]
  next => rfl

theorem configure_epochInterval (s : State) (new : Settings) : s.configure .epochInterval new = { s with
    cfg := new
    epc := { s.epc with timer := if new = s.cfg then s.epc.timer else min s.epc.timer new.epochInterval } } := by
  unfold State.configure
  split
  next same => rw [same]
  next => rfl

/-- A mode equal to that in force starts no effect; one that leaves FOLLOW loads the timer (R149, R152). -/
theorem timer_after_mode (cfg : Settings) (m : EpochMode) (timer : Nat) :
    (if ({ cfg with epochMode := m } : Settings) = cfg then timer
      else timerAfterMode timer cfg { cfg with epochMode := m }) =
    if cfg.epochMode = .follow ∧ m ≠ .follow then cfg.epochInterval else timer := by
  by_cases same : m = cfg.epochMode
  · subst same
    rw [if_pos rfl, if_neg fun h => h.2 h.1]
  · rw [if_neg fun h => same (congrArg Settings.epochMode h), timerAfterMode]
    by_cases follow : cfg.epochMode = .follow
    · rw [if_pos follow, if_pos ⟨follow, fun h => same (h.trans follow.symm)⟩]
    · rw [if_neg follow, if_neg fun h => follow h.1]

/-- An interval equal to that in force starts no effect; a lower one lowers the timer (section 8.6). -/
theorem timer_after_interval (cfg : Settings) (w timer : Nat) :
    (if ({ cfg with epochInterval := w } : Settings) = cfg then timer else min timer w) =
    if w = cfg.epochInterval then timer else min timer w :=
  if_congr ⟨fun h => congrArg Settings.epochInterval h, fun h => by rw [h]⟩ rfl rfl

/-- Settles O9. -/
theorem numericItemsClampAndTakeEffect : Obligations.NumericItemsClampAndTakeEffect := by
  unfold Obligations.NumericItemsClampAndTakeEffect
  refine ⟨fun s t rest i lo hi put head code right whole item kinds => ?numeric,
    fun s t rest code v reply head hc right whole hcode hv hreply => ⟨fun standby => ⟨fun is zero ones => ?address,
      fun m timer is listed ht => ?mode, fun q is hq => ?port⟩, fun w is hw => ?interval, fun m is listed => ?cross,
      fun q is hq => ?notice, fun b is hb sound => ?twoWay⟩⟩
  case numeric =>
    obtain ⟨free, plain, order, judged, value⟩ : standbyOnly i = false ∧
        (∀ (s : State) (old : Settings), s.itemEffect old i = s) ∧ lo ≤ hi ∧
        (∀ (cfg : Settings) (p : Port) (v : Nat),
          judgeItem cfg p i v = some (put cfg (clampNat lo hi v), clampNat lo hi v != v)) ∧
        ∀ (cfg : Settings) (v : Nat), valueInForce (put cfg v) i = v := by
      rcases kinds with ⟨rfl, rfl, rfl, rfl⟩ | ⟨rfl, rfl, rfl, rfl⟩ | ⟨rfl, rfl, rfl, rfl⟩ | ⟨rfl, rfl, rfl, rfl⟩ |
        ⟨rfl, rfl, rfl, rfl⟩ | ⟨rfl, rfl, rfl, rfl⟩ | ⟨rfl, rfl, rfl, rfl⟩ | ⟨rfl, rfl, rfl, rfl⟩
      all_goals exact ⟨rfl, fun _ _ => rfl, by decide, fun _ _ _ => rfl, fun _ _ => rfl⟩
    exact setConfig_clamped head code right whole item (.inl free) plain order judged value
  all_goals subst hcode hv hreply
  case address =>
    have item : itemOfCode (t.params.getD 0 0).toNat = some .engineAddress := by rw [is]; rfl
    have bound : fieldNat t.params 1 4 < 4294967296 := fieldNat_lt ..
    have free : ¬ reservedId (BitVec.ofNat 32 (fieldNat t.params 1 4)) = true := fun h =>
      ((reservedId_ofNat bound).1 h).elim zero ones
    have value : (BitVec.ofNat 32 (fieldNat t.params 1 4)).toNat = fieldNat t.params 1 4 :=
      (BitVec.toNat_ofNat ..).trans (Nat.mod_eq_of_lt bound)
    rw [setConfig_plain head hc right whole item (.inr standby) (fun _ _ => rfl) (if_neg free)]
    simp only [valueInForce, value]
    rfl
  case mode =>
    have item : itemOfCode (t.params.getD 0 0).toNat = some .epochMode := by rw [is]; rfl
    obtain ⟨known, value⟩ : epochModeOfCode (fieldNat t.params 1 4) = some m ∧
        epochModeCode m = fieldNat t.params 1 4 := by
      simp only [List.mem_cons, Prod.mk.injEq, List.not_mem_nil, or_false] at listed
      rcases listed with ⟨hv, rfl⟩ | ⟨hv, rfl⟩ | ⟨hv, rfl⟩ <;> rw [hv] <;> exact ⟨rfl, rfl⟩
    rw [setConfig_accepted head hc right whole item (.inr standby) (congrArg (Option.map _) known), configure_epochMode]
    rw [ht, ← timer_after_mode]
    simp only [valueInForce, value]
    rfl
  case port =>
    have item : itemOfCode (t.params.getD 0 0).toNat = some .epochPort := by rw [is]; rfl
    have known : portOfCode (fieldNat t.params 1 4) = some q := by rw [hq]; exact portOfCode_portIndex q
    rw [setConfig_plain head hc right whole item (.inr standby) (fun _ _ => rfl) (congrArg (Option.map _) known)]
    rw [hq]; rfl
  case interval =>
    have item : itemOfCode (t.params.getD 0 0).toNat = some .epochInterval := by rw [is]; rfl
    have clamp : clampNat 1 255 (fieldNat t.params 1 4) = w := hw.symm
    have judged : judgeItem s.cfg t.port .epochInterval (fieldNat t.params 1 4) = some ({ s.cfg with epochInterval := w },
        decide (¬ (1 ≤ fieldNat t.params 1 4 ∧ fieldNat t.params 1 4 ≤ 255))) := by
      rw [← clampNat_same (by decide), ← clamp]; rfl
    rw [setConfig_accepted head hc right whole item (.inl rfl) judged, configure_epochInterval]
    have after := timer_after_interval s.cfg w s.epc.timer
    rw [← after]
    by_cases inside : 1 ≤ fieldNat t.params 1 4 ∧ fieldNat t.params 1 4 ≤ 255
    · simp only [inside]; rfl
    · simp only [inside, not_false_iff, decide_true]; rfl
  case cross =>
    have item : itemOfCode (t.params.getD 0 0).toNat = some .crossNotice := by rw [is]; rfl
    obtain ⟨known, value⟩ : crossNoticeOfCode (fieldNat t.params 1 4) = some m ∧
        crossNoticeCode m = fieldNat t.params 1 4 := by
      simp only [List.mem_cons, Prod.mk.injEq, List.not_mem_nil, or_false] at listed
      rcases listed with ⟨hv, rfl⟩ | ⟨hv, rfl⟩ | ⟨hv, rfl⟩ <;> rw [hv] <;> exact ⟨rfl, rfl⟩
    rw [setConfig_plain head hc right whole item (.inl rfl) (fun _ _ => rfl) (congrArg (Option.map _) known)]
    simp only [valueInForce, value]
    rfl
  case notice =>
    have item : itemOfCode (t.params.getD 0 0).toNat = some .noticePort := by rw [is]; rfl
    have known : portOfCode (fieldNat t.params 1 4) = some q := by rw [hq]; exact portOfCode_portIndex q
    rw [setConfig_plain head hc right whole item (.inl rfl) (fun _ _ => rfl) (congrArg (Option.map _) known)]
    rw [hq]; rfl
  case twoWay =>
    have item : itemOfCode (t.params.getD 0 0).toNat = some .twoWay := by rw [is]; rfl
    have judged : judgeItem s.cfg t.port .twoWay (fieldNat t.params 1 4) = some ({ s.cfg with twoWay := b }, false) := by
      rw [hb]; cases b <;> rfl
    have value : valueInForce { s.cfg with twoWay := b } .twoWay = fieldNat t.params 1 4 := hb.symm
    let v : State := { s.withIntake rest with cfg := { s.cfg with twoWay := b } }
    let rs := usabilityReports s.cfg.twoWay b s.tst.nodes s.tst.nodes
    refine ⟨v.touchReports rs, rs, ?_, rfl, twoWay_reports sound, usabilityReports_order _ _ _ sound, fun e => ?_⟩
    · rw [setConfig_accepted head hc right whole item (.inl rfl) judged,
        configure_twoWay (s.withIntake rest) _ sound, value]
      rfl
    · have marked := touchReports_marked v rs e
      cases e <;> exact marked

end Sys2Proof.Machine

/-!
LEMMAS. The entry into STANDBY and the warm restart (O14, O15).
-/
namespace Sys2Proof.Machine

/-! ## The results of the requests that were queued (R116) -/

theorem outcomeOf_failed {primary : Status} (h : primary ≠ .found) (protection : Status) :
    outcomeOf primary protection = .failed := by simp [outcomeOf, h]

/-- The record of a request that ran no phase, written out (R110). -/
theorem unrunResult_eq (s : State) (d : Descriptor) {st : Status} (h : st ≠ .found) : unrunResult s d st =
    { tag := d.tag, outcome := .failed, primary := st
      protection := if d.diversity = .none then .notRequested else .notAttempted
      truncated := false, provisional := s.stc.part == .settling, windowAdjusted := false
      holdRefused := false, watchId := none, primaryPhase := none, protectionPhase := none
      primaryPath := none, protectionPath := none } := by
  rw [unrunResult, buildResult, outcomeOf_failed h]
  rfl

section
variable {s : State} {a : Address} {p : Port} {r : ResultRecord}

theorem offerQueuedResult_enters (aborted : Bool) (on : s.enabled p = true)
    (room : (s.port p).localQueue.length + s.waiters p < 16) : s.offerQueuedResult a p r aborted =
      s.setPort p { s.port p with localQueue := (s.port p).localQueue ++ [outgoing p (resultFrame s a r)] } := by
  rw [State.offerQueuedResult, if_pos on, if_pos (hasPlace_iff.2 room)]
  rfl

/-- An aborted request's result without a place is counted by RQ and by the port (R116, log entry 6). -/
theorem offerQueuedResult_discarded
    (h : s.enabled p = false ∨ 16 ≤ (s.port p).localQueue.length + s.waiters p) :
    s.offerQueuedResult a p r true = s.countResultDiscard.countLocalDiscard p := by
  unfold State.offerQueuedResult
  by_cases on : s.enabled p = true
  · have full : ¬ s.hasPlace p = true := fun room =>
      h.elim (fun off => by simp [off] at on) (hasPlace_iff.1 room).not_ge
    rw [if_pos on, if_neg full, if_pos rfl]
  · rw [if_neg on]

end

theorem abortQueued_mgmt {s : State} {d : Descriptor} {a : Address} {p : Port} (h : d.requester = .mgmt a)
    (hp : d.ingress = some p) : s.abortQueued d = s.offerQueuedResult a p (unrunResult s d .aborted) true := by
  simp only [State.abortQueued, h, hp]

theorem abortQueued_internal {s : State} {d : Descriptor} {a : Address} (h : d.requester = .mgmt a)
    (hp : d.ingress = none) : s.abortQueued d = s := by
  simp only [State.abortQueued, h, hp]

theorem abortQueued_watchList {s : State} {d : Descriptor} (h : d.requester = .watchList) :
    s.abortQueued d = s.rerouteResult d.tag.toNat .aborted := by
  simp only [State.abortQueued, h]

/-- An aborted reroute leaves its entry owing the request again (R134). -/
theorem rerouteResult_aborted {s : State} (sound : WatchIdsSound s.pwl) (id : Nat) : s.rerouteResult id .aborted =
    s.withEntries (s.pwl.entries.map (fun w => if w.id = id then { w with submitPending := true } else w)) := by
  obtain ⟨absent, present⟩ := rerouteResult_takes s id .aborted
  have others {l : List WatchEntry} (h : ∀ x ∈ l, x.id ≠ id) :
      l.map (fun w => if w.id = id then { w with submitPending := true } else w) = l :=
    (List.map_congr_left fun x hx => if_neg (h x hx)).trans (List.map_id' l)
  by_cases found : ∃ w ∈ s.pwl.entries, w.id = id
  · obtain ⟨w, mem, rfl⟩ := found
    obtain ⟨pre, post, split⟩ := List.append_of_mem mem
    have apart : ∀ x ∈ pre ++ post, x.id ≠ w.id := by
      obtain ⟨ascending, -⟩ := sound
      rw [split] at ascending
      obtain ⟨-, after, before⟩ := List.pairwise_append.1 ascending
      intro x hx
      rcases List.mem_append.1 hx with hx | hx
      · exact (before x hx w (List.mem_cons_self ..)).ne
      · exact ((List.pairwise_cons.1 after).1 x hx).ne'
    rw [(present pre post w split rfl apart).2.1 rfl, split, List.map_append, List.map_cons, if_pos rfl,
      others fun x hx => apart x (List.mem_append_left _ hx), others fun x hx => apart x (List.mem_append_right _ hx)]
  · have none : ∀ w ∈ s.pwl.entries, w.id ≠ id := fun w hw e => found ⟨w, hw, e⟩
    rw [absent none, others none]
    rfl

theorem abortQueued_ends {s : State} (sound : WatchIdsSound s.pwl) (d : Descriptor) :
    EndsAborted s (s.abortQueued d) d := by
  refine ⟨fun watch => ?_, fun a mgmt => ⟨fun internal => abortQueued_internal mgmt internal,
    fun p port => ⟨fun on room => ?_, fun h => ?_⟩⟩⟩
  · rw [abortQueued_watchList watch, rerouteResult_aborted sound]
  · rw [abortQueued_mgmt mgmt port, offerQueuedResult_enters true on room, unrunResult_eq s d (by decide)]
    rfl
  · rw [abortQueued_mgmt mgmt port, offerQueuedResult_discarded h]
    rfl

/-- What the abort of a queued request leaves as it was. -/
theorem abortQueued_keeps (s : State) (d : Descriptor) : s.abortQueued d = { s with
    spu := { s.spu with ports := (s.abortQueued d).spu.ports }
    rq := { s.rq with counters := (s.abortQueued d).rq.counters }
    pwl := { s.pwl with entries := (s.abortQueued d).pwl.entries } } := by
  cases h : d.requester with
  | watchList =>
    rw [abortQueued_watchList h, State.rerouteResult]
    split <;> rfl
  | mgmt a =>
    cases hp : d.ingress with
    | none => rw [abortQueued_internal h hp]
    | some p =>
      rw [abortQueued_mgmt h hp, State.offerQueuedResult]
      split
      · split
        · rfl
        · rw [if_pos rfl]; rfl
      · rfl

/-- Serving adds a frame to no transit FIFO and takes none from it. -/
theorem Serves.transit {s t : State} (serves : Serves s t) (p : Port) : (t.port p).transit = (s.port p).transit := by
  induction serves with
  | trans _ _ first second => exact second.trans first
  | enter s q f =>
    by_cases here : p = q
    · subst here; simp
    · rw [State.enterLocal_port_ne _ _ here]
  | discard s q => exact (State.countPort_queues ..).1
  | engine s e x => cases e <;> rfl
  | _ => rfl

/-! ## SET STATE STANDBY (R169, R171) -/

/-- What the aborts of the queued requests leave as it was. -/
theorem abortQueue_keeps (l : List Descriptor) (s : State) :
    (l.foldl State.abortQueued s).rq.queue = s.rq.queue ∧
      (∀ e, (l.foldl State.abortQueued s).engine e = s.engine e) ∧
      (l.foldl State.abortQueued s).pwl.overlay = s.pwl.overlay := by
  induction l generalizing s with
  | nil => exact ⟨rfl, fun _ => rfl, rfl⟩
  | cons d l ih =>
    obtain ⟨queue, engines, overlay⟩ := ih (s.abortQueued d)
    rw [List.foldl_cons]
    have engine (e : EngineId) : (s.abortQueued d).engine e = s.engine e := by
      rw [abortQueued_keeps s d]
      cases e <;> rfl
    refine ⟨queue.trans ?_, fun e => (engines e).trans (engine e), overlay.trans ?_⟩ <;>
      rw [abortQueued_keeps s d]

theorem abortQueue_ends (l : List Descriptor) {s : State} (sound : WatchIdsSound s.pwl) :
    AllEndAborted l s (l.foldl State.abortQueued s) := by
  induction l generalizing s with
  | nil => rfl
  | cons d l ih => exact ⟨_, abortQueued_ends sound d, ih ((abortQueued_serves s d).watchIdsSound sound)⟩

theorem orderStandby_eq (x : Engine) : x.orderStandby =
    if (x.mode = .primary ∨ x.mode = .protection) ∧ x.endOrder = .none then { x with endOrder := .standby } else x := by
  simp [Engine.orderStandby, Engine.searching]

theorem intoStandby_engine (s : State) (e : EngineId) : s.intoStandby.engine e = (s.engine e).orderStandby := by
  cases e <;> rfl

theorem setState_enters {t : Taken} {u : State} {more : List Byte} (params : t.params = 0 :: more)
    (running : u.stc.part ≠ .standby) : (setState t u).run t =
      u.rq.queue.foldl State.abortQueued (u.respond t { code := .ok, data := [0] }).intoStandby := by
  have off : u.standby = false := by simp [State.standby, running]
  have answer : setState t u = { reply := stateReply .standby, state := u, later := State.enterStandby } := by
    simp [setState, params, off]
  rw [answer]
  change State.enterStandby (u.respond t _) = _
  rw [State.enterStandby, respond_rq]
  rfl

/-- Settles O14: the entry into STANDBY is the OK, the state of R171, and then the aborts of the queued
requests, each of which serves and keeps what R171 lists. -/
theorem setStateStandby : Obligations.SetStateStandby := by
  unfold Obligations.SetStateStandby
  refine ⟨fun s t rest more head code right params running => ?kept,
    fun s t rest more ordered head code right params running sound orderedEq => ?aborted⟩
  case kept =>
    have enters := setState_enters (u := s.withIntake rest) params running
    refine ⟨_, (exec_setState head code right).trans (congrArg _ enters), ?_⟩
    generalize hr : ((s.withIntake rest).respond t { code := .ok, data := [0] }) = r
    have serves := foldl_serves _ abortQueued_serves (s.withIntake rest).rq.queue r.intoStandby
    obtain ⟨queue, engines, overlay⟩ := abortQueue_keeps (s.withIntake rest).rq.queue r.intoStandby
    refine ⟨serves.stc.trans ?_, serves.atr.trans ?_, queue, serves.cfg.trans ?_, serves.prb.trans ?_,
      serves.epc.trans ?_, serves.tst.trans ?_, serves.intake.trans ?_, serves.sources.trans ?_,
      overlay.trans ?_, fun p => (serves.transit p).trans ?_, fun e => (engines e).trans ?_⟩
    case refine_10 =>
      subst hr
      exact respond_transit (s.withIntake rest) ..
    case refine_11 =>
      subst hr
      rw [intoStandby_engine, respond_engine, orderStandby_eq]
      simp [Engine.searching, State.withIntake]
      rfl
    all_goals subst hr; simp [State.intoStandby, State.withIntake]
  case aborted =>
    have enters := setState_enters (u := s.withIntake rest) params running
    refine ⟨_, _, rfl, (exec_setState head code right).trans (congrArg _ enters), ?_⟩
    have state : ((s.withIntake rest).respond t { code := .ok, data := [0] }).intoStandby =
        { (s.withIntake rest).respond t { code := .ok, data := [0] } with
          stc := { s.stc with part := .standby, offered := TickOffer.none }
          atr := { s.atr with queue := [] }
          rq := { s.rq with queue := [] }
          engA := ordered s.engA
          engB := ordered s.engB } := by
      subst orderedEq
      simp only [State.intoStandby, respond_stc, respond_atr, respond_rq, respond_engA, respond_engB, orderStandby_eq]
      rfl
    rw [← state]
    exact abortQueue_ends _ (by simpa [State.intoStandby] using sound)

/-! ## RESTART WARM (R173) -/

theorem restartWarm_run (t : Taken) (u : State) :
    (restartWarm t u).run t = (u.respond t { code := .ok, data := [] }).applyHanded.clearWarm := rfl

theorem clearWarm_port (s : State) (p : Port) :
    s.clearWarm.port p = { s.port p with counters := PortCounters.zero } := by
  exact Vector.getElem_map ..

theorem restarted_eq (w : WatchEntry) :
    w.restarted = { w with submitPending := w.submitPending || w.state == .rerouting } := by
  unfold WatchEntry.restarted
  split
  case isTrue owes => simp [owes]
  case isFalse stands =>
    have off : (w.state == .rerouting) = false := beq_eq_false_iff_ne.2 stands
    rw [off, Bool.or_false]

theorem restarted_entries (l : List WatchEntry) : l.map WatchEntry.restarted =
    l.map (fun w => { w with submitPending := w.submitPending || w.state == .rerouting }) :=
  List.map_congr_left fun w _ => restarted_eq w

theorem applyHanded_none {s : State} (h : s.atr.handed = none) : s.applyHanded = s := by
  rw [State.applyHanded, h]

/-- The application of a waiting record changes no timer and no epoch item (R28). -/
theorem applyHanded_clocks (s : State) : s.applyHanded.stc = s.stc ∧ s.applyHanded.epc = s.epc := by
  unfold State.applyHanded
  split
  case h_1 => exact ⟨rfl, rfl⟩
  case h_2 =>
    have serves := storeEvent_serves { s with atr := { s.atr with handed := none } } (applyRecord s.cfg s.tst ‹_›)
    exact ⟨serves.stc, serves.epc⟩

/-- Settles O15: the restart applies a waiting record and then clears what R173 lists; with no record waiting
it clears the answered part itself. -/
theorem restartWarmClearsAndKeeps : Obligations.RestartWarmClearsAndKeeps := by
  unfold Obligations.RestartWarmClearsAndKeeps
  refine ⟨fun s t rest head code right none => ?idle, fun s t rest x head code right some => ?waiting⟩
  case idle =>
    have run := (exec_restartWarm head code right).trans (congrArg _ (restartWarm_run ..))
    rw [applyHanded_none (s := (s.withIntake rest).respond t _) ((congrArg (·.handed) (respond_atr (s.withIntake rest) ..)).trans none)] at run
    refine ⟨_, _, rfl, run, ?_, rfl, rfl, rfl, rfl, rfl, rfl, ?_, ?_, rfl, fun p => clearWarm_port .., ?_, ?_, ?_, ?_, ?_⟩
    case refine_8 => exact (congrArg (·.entries.map WatchEntry.restarted) (respond_pwl (s.withIntake rest) ..)).trans (restarted_entries _)
    all_goals simp [State.clearWarm, State.withIntake]
  case waiting =>
    have run := (exec_restartWarm head code right).trans (congrArg _ (restartWarm_run ..))
    refine ⟨_, _, exec_recordApplication _, run, fun p => clearWarm_port .., ?_⟩
    obtain ⟨stc, epc⟩ := applyHanded_clocks ((s.withIntake rest).respond t { code := .ok, data := [] })
    rw [respond_stc] at stc
    rw [respond_epc] at epc
    generalize ((s.withIntake rest).respond t { code := .ok, data := [] }).applyHanded = v at stc epc
    simp only [State.clearWarm, stc, epc, restarted_entries]
    rfl

end Sys2Proof.Machine

/-!
LEMMAS. Submissions: the descriptor's place, its dispatch and its cancellation (O21, O22, O23).
-/
namespace Sys2Proof.Machine

/-! ## Dispatch (R105, R106) -/

@[simp] theorem rerouteResult_rq (s : State) (id : Nat) (st : Status) : (s.rerouteResult id st).rq = s.rq := by
  unfold State.rerouteResult
  split
  case h_1 => rfl
  case h_2 w _ =>
    have failed : (s.rerouteFailed w).rq = s.rq := by
      unfold State.rerouteFailed State.leaveReserved
      split_ifs <;> rfl
    cases st <;> first | rfl | exact failed

/-- A delivery leaves the request queue to the arbiter. -/
@[simp] theorem deliver_queue (s : State) (e : EngineId) (d : Descriptor) (r : ResultRecord) :
    (s.deliver e d r).rq.queue = s.rq.queue := by
  unfold State.deliver
  split
  case h_1 => exact (congrArg (·.queue) (rerouteResult_rq (s.setEngine e Engine.idle) ..)).trans (by cases e <;> rfl)
  case h_2 => split_ifs <;> cases e <;> rfl
  case h_3 => cases e <;> rfl

section
variable (s : State) (e : EngineId) (d : Descriptor)

/-- What a dispatch copies into its engine before the primary phase starts, with the pool empty (R106). -/
theorem loadEngine_eq (cfg : Settings) (c : ClassEntry) : loadEngine cfg d c =
    { mode := .idle, request := some d, budget := noiseTerm (min 400 (c.qReq + c.margin))
      regenCost := c.regenCost, windowStart := (adjustWindow d.window).start
      windowEnd := (adjustWindow d.window).stop, windowAdjusted := (adjustWindow d.window).adjusted
      starts := windowStarts (adjustWindow d.window) d.width
      limit := if d.limit = 0 then cfg.expansionLimit else d.limit
      counts := PhaseCounts.zero, nextNumber := 0, pool := [], touched := [], overflow := false
      primary := none, endOrder := .none, result := none } := rfl

variable {s e d}

theorem dispatch_badClass (invalid : (s.prb.active.classEntry d.cls).valid = false) :
    s.dispatch e d = s.deliver e d (unrunResult s d .badClass) := by
  simp [State.dispatch, invalid]

theorem dispatch_unknownEndpoint (valid : (s.prb.active.classEntry d.cls).valid = true)
    (dead : ¬ (liveNode s.tst.nodes d.source = true ∧ liveNode s.tst.nodes d.dest = true)) :
    s.dispatch e d = s.deliver e d (unrunResult s d .unknownEndpoint) := by
  rw [← Bool.and_eq_true, Bool.not_eq_true] at dead
  simp [State.dispatch, valid, dead]

/-- The engine of a dispatch that finds no window start (R78, R106). -/
def refusedEngine (cfg : Settings) (d : Descriptor) (c : ClassEntry) : Engine :=
  { loadEngine cfg d c with
    mode := .primary, starts := 0, counts := { PhaseCounts.zero with spectrum := 1 } }

/-- The engine of a dispatch whose primary phase starts (R78, R106). -/
def startedEngine (cfg : Settings) (d : Descriptor) (c : ClassEntry) : Engine :=
  { loadEngine cfg d c with
    mode := .primary, nextNumber := 1
    pool := [rootLabel d.source (windowStarts (adjustWindow d.window) d.width)] }

section
variable (valid : (s.prb.active.classEntry d.cls).valid = true)
  (live : liveNode s.tst.nodes d.source = true ∧ liveNode s.tst.nodes d.dest = true)
include valid live

theorem dispatch_noStart (noStart : windowStarts (adjustWindow d.window) d.width = 0#320) :
    s.dispatch e d = (s.setEngine e (refusedEngine s.cfg d (s.prb.active.classEntry d.cls))).deliver e d
      (buildResult s d (adjustWindow d.window).adjusted .noPath (protectionUnrun d)
        (some { PhaseCounts.zero with spectrum := 1 }) none none none) := by
  have phase : (loadEngine s.cfg d (s.prb.active.classEntry d.cls)).startPhase .primary d.source =
      refusedEngine s.cfg d (s.prb.active.classEntry d.cls) := by
    refine (if_pos noStart).trans ?_
    rw [refusedEngine, loadEngine_eq, noStart]
    rfl
  obtain ⟨source, dest⟩ := live
  have none : (refusedEngine s.cfg d (s.prb.active.classEntry d.cls)).starts = 0#320 := rfl
  simp only [State.dispatch, valid, source, dest, phase, Bool.and_self, Bool.not_true, Bool.false_eq_true, if_false,
    if_pos none]
  rfl

theorem dispatch_starts (start : windowStarts (adjustWindow d.window) d.width ≠ 0#320) :
    s.dispatch e d = s.setEngine e (startedEngine s.cfg d (s.prb.active.classEntry d.cls)) := by
  have phase : (loadEngine s.cfg d (s.prb.active.classEntry d.cls)).startPhase .primary d.source =
      startedEngine s.cfg d (s.prb.active.classEntry d.cls) := if_neg start
  obtain ⟨source, dest⟩ := live
  simp only [State.dispatch, valid, source, dest, phase]
  exact if_neg start

end

/-- A dispatch leaves the rest of the queue as it was. -/
theorem dispatch_queue (s : State) (e : EngineId) (d : Descriptor) : (s.dispatch e d).rq.queue = s.rq.queue := by
  by_cases valid : (s.prb.active.classEntry d.cls).valid = true
  · by_cases live : liveNode s.tst.nodes d.source = true ∧ liveNode s.tst.nodes d.dest = true
    · by_cases none : windowStarts (adjustWindow d.window) d.width = 0#320
      · rw [dispatch_noStart valid live none, deliver_queue]
        cases e <;> rfl
      · rw [dispatch_starts valid live none]
        cases e <;> rfl
    · rw [dispatch_unknownEndpoint valid live, deliver_queue]
  · rw [dispatch_badClass (Bool.not_eq_true _ ▸ valid), deliver_queue]

section
variable (running : s.stc.part ≠ .standby) (idle : (s.engine e).mode = .idle)
  (first : e = .b → s.engA.mode ≠ .idle)
include running idle first

theorem runArbiter_head {rest : List Descriptor} (queue : s.rq.queue = d :: rest) :
    s.runArbiter = ((s.setQueue rest).dispatch e d).runArbiter :=
  runArbiter_dispatch running idle first queue (dispatch_queue ..)

theorem runArbiter_only (queue : s.rq.queue = [d]) : s.runArbiter = (s.setQueue []).dispatch e d :=
  (runArbiter_head running idle first queue).trans (runArbiter_empty (dispatch_queue ..))

/-- A descriptor accepted with nothing waiting is dispatched at once, and the queue is empty again. -/
theorem accept_alone (empty : s.rq.queue = []) : s.accept d = State.dispatch { s with rq :=
    { queue := [], counters := { s.rq.counters with accepted := min (s.rq.counters.accepted + 1) 4294967295 } } }
      e d := by
  have placed : s.accept d = State.runArbiter { s with rq := { queue := [d], counters :=
      { s.rq.counters with accepted := min (s.rq.counters.accepted + 1) 4294967295 } } } := by
    rw [State.accept, empty]
    rfl
  refine placed.trans (runArbiter_only (e := e) running ?_ first rfl)
  cases e <;> exact idle

end
end

/-- A descriptor is accepted behind those of its own or higher priority (R103). -/
theorem accept_split (s : State) (d : Descriptor) : ∃ before after, s.rq.queue = before ++ after ∧
    (∀ x ∈ before, d.priority ≤ x.priority) ∧ (∀ x, after.head? = some x → x.priority < d.priority) ∧
    s.accept d = State.runArbiter { s with rq :=
      { queue := before ++ d :: after
        counters := { s.rq.counters with accepted := min (s.rq.counters.accepted + 1) 4294967295 } } } := by
  obtain ⟨before, after, split, placed, higher, lower⟩ := placeNew_split d s.rq.queue
  refine ⟨before, after, split, higher, lower, ?_⟩
  rw [← placed]
  rfl

theorem runArbiter_still {s : State}
    (h : s.stc.part = .standby ∨ s.rq.queue = [] ∨ (s.engA.mode ≠ .idle ∧ s.engB.mode ≠ .idle)) :
    s.runArbiter = s := by
  rcases h with standby | empty | ⟨busyA, busyB⟩
  · exact arbitrate_standby (by simp [State.standby, standby]) _
  · exact runArbiter_empty empty
  · exact arbitrate_busy busyA busyB _

theorem accept_busy {s : State} {d : Descriptor} (busyA : s.engA.mode ≠ .idle) (busyB : s.engB.mode ≠ .idle) :
    s.accept d = { s with rq :=
      { queue := placeNew d s.rq.queue
        counters := { s.rq.counters with accepted := min (s.rq.counters.accepted + 1) 4294967295 } } } :=
  runArbiter_still (.inr (.inr ⟨busyA, busyB⟩))

/-! ## The window (R68, R69) -/

theorem adjustWindow_some (v : Window) {start width : Nat} (hs : start = 2 * (v.start / 2))
    (hw : width = 4 * (v.width / 4)) :
    (adjustWindow (some v)).start = start ∧ (adjustWindow (some v)).stop = min (start + width) 320 ∧
      ((adjustWindow (some v)).adjusted = true ↔ v.start ≠ start ∨ v.width ≠ width ∨ 320 < start + width) := by
  have startEq : v.start - v.start % 2 = start := by omega
  have widthEq : v.width - v.width % 4 = width := by omega
  have slots : slotCount = 320 := rfl
  simp only [adjustWindow, startEq, widthEq, slots, Bool.or_eq_true, bne_iff_ne]
  refine ⟨trivial, trivial, ?_⟩
  omega

theorem windowStarts_getLsbD {w : AdjustedWindow} {width k : Nat} :
    (windowStarts w width).getLsbD k = true ↔ k < 320 ∧ w.start ≤ k ∧ k + width ≤ w.stop := by
  unfold windowStarts
  split
  case isTrue fits => rw [slotRange_getLsbD]; omega
  case isFalse narrow =>
    rw [BitVec.getLsbD_zero]
    simp only [Bool.false_eq_true, false_iff]
    omega

/-! ## SUBMIT (R100, R101) -/

section
variable {t : Taken} {s : State} {c : SubmitCodes}

theorem submit_accepted (hp : s.stc.part ≠ .standby) (hf : submitFixed ≤ t.params.length)
    (hl : submitLength t.params ≤ t.params.length) (hc : submitCodes t.params = some c)
    (good : submitValuesGood s (submitDescriptor t c) = true)
    (unused : s.standing (.mgmt t.source) t.tag = .notLive) (room : s.rq.queue.length < Config.requestQueue) :
    (submit t s).run t = (s.respond t
      { code := if submitClamped t.params then .clamped else .ok
        data := encByte (s.accept (submitDescriptor t c)).rq.queue.length }).accept (submitDescriptor t c) := by
  have unused' : s.hasLive (submitDescriptor t c).requester (submitDescriptor t c).tag = false :=
    Bool.eq_false_iff.2 fun h => hasLive_iff.1 h unused
  rw [Config.requestQueue_eq] at room
  simp [submit, State.standby, hp, hf.not_gt, hl.not_gt, hc, good, unused', room.not_ge]
  rfl

theorem submitClamped_iff (ps : List Byte) : submitClamped ps = true ↔
    7 < param1 ps 0 ∨ param1 ps 6 = 0 ∨ 32 < param1 ps 6 ∨ 3 < param1 ps 7 ∨ 3 < param1 ps 9 ∨
      3 < param1 ps 11 := by
  simp only [submitClamped, clampHops, Bool.or_eq_true, decide_eq_true_eq, bne_iff_ne]
  split <;> omega

end

/-! ### The codes and the descriptor (section 9.1.5, R101) -/

theorem orderOfCode_iff {n : Nat} {o : Order} :
    orderOfCode n = some o ↔ (n, o) ∈ [(0, Order.cost), (1, .hops)] := by
  unfold orderOfCode
  split <;> cases o <;> simp_all

theorem policyOfCode_iff {n : Nat} {o : Policy} :
    policyOfCode n = some o ↔ (n, o) ∈ [(0, Policy.avoid), (1, .allow), (2, .penalize)] := by
  unfold policyOfCode
  split <;> cases o <;> simp_all

theorem diversityOfCode_iff {n : Nat} {o : Diversity} :
    diversityOfCode n = some o ↔ (n, o) ∈ [(0, Diversity.none), (1, .link), (2, .node), (3, .srlg)] := by
  unfold diversityOfCode
  split <;> cases o <;> simp_all

theorem actionOfCode_iff {n : Nat} {o : RerouteAction} :
    actionOfCode n = some o ↔ (n, o) ∈ [(0, RerouteAction.notice), (1, .recompute)] := by
  unfold actionOfCode
  split <;> cases o <;> simp_all

theorem submitCodes_some_iff {ps : List Byte} {c : SubmitCodes} : submitCodes ps = some c ↔
    orderOfCode (param1 ps 3) = some c.order ∧ policyOfCode (param1 ps 4) = some c.policy ∧
      diversityOfCode (param1 ps 5) = some c.diversity ∧ actionOfCode (param1 ps 10) = some c.action := by
  obtain ⟨order, policy, diversity, action⟩ := c
  unfold submitCodes
  split
  case h_1 first second third fourth => simp [first, second, third, fourth]
  case h_2 unknown =>
    simp only [reduceCtorEq, false_iff]
    rintro ⟨first, second, third, fourth⟩
    exact unknown _ _ _ _ first second third fourth

theorem min_left_eq_ite (a b : Nat) : min a b = if a < b then a else b := by
  split <;> omega

theorem submitExLinks_eq (ps : List Byte) : submitExLinks ps = (List.range (param1 ps 27)).map (fun k =>
    ⟨field32 ps (28 + 4 * param1 ps 26 + 6 * k), field16 ps (32 + 4 * param1 ps 26 + 6 * k)⟩) := by
  refine List.map_congr_left fun k _ => ?_
  have lid : 28 + 4 * param1 ps 26 + 6 * k + 4 = 32 + 4 * param1 ps 26 + 6 * k := by omega
  rw [← lid]
  rfl

/-- Settles O21: with both engines busy the arbiter stands still after the place is taken; with nothing waiting
and an engine IDLE the descriptor is dispatched at once, so the depth answered is 0. -/
theorem acceptedSubmitTakesItsPlace : Obligations.AcceptedSubmitTakesItsPlace := by
  unfold Obligations.AcceptedSubmitTakesItsPlace
  refine ⟨fun s t rest c head code right running fixed whole codes good unused room busyA busyB => ?busy,
    fun s t rest c head code right running fixed whole codes good unused empty idle => ?idle,
    submitClamped_iff, fun ps c => ?codes, fun t c d retries hd hr => ?fields⟩
  case busy =>
    have unused' := (standing_withIntake s rest _ _).trans unused
    have run := submit_accepted (s := s.withIntake rest) running fixed whole codes good unused' room
    have still (u : State) (hA : u.engA = s.engA) (hB : u.engB = s.engB) : u.runArbiter = u :=
      runArbiter_still (.inr (.inr ⟨hA ▸ busyA, hB ▸ busyB⟩))
    have depth : ((s.withIntake rest).accept (submitDescriptor t c)).rq.queue.length = s.rq.queue.length + 1 := by
      rw [accept_busy (s := s.withIntake rest) busyA busyB]
      exact placeNew_length ..
    rw [depth] at run
    generalize hr : (s.withIntake rest).respond t _ = r at run
    have rq : r.rq = s.rq := hr ▸ respond_rq ..
    have engA : r.engA = s.engA := hr ▸ respond_engA ..
    have engB : r.engB = s.engB := hr ▸ respond_engB ..
    obtain ⟨before, after, split, higher, lower, placed⟩ := accept_split r (submitDescriptor t c)
    rw [rq] at split placed
    refine ⟨_, r, before, after, rfl, (exec_submit head code right).trans (congrArg _ run), split, higher, lower,
      placed.trans (still _ engA engB)⟩
  case idle =>
    have unused' := (standing_withIntake s rest _ _).trans unused
    have room : s.rq.queue.length < Config.requestQueue := by rw [empty]; decide
    have run := submit_accepted (s := s.withIntake rest) running fixed whole codes good unused' room
    have depth : ((s.withIntake rest).accept (submitDescriptor t c)).rq.queue = [] := by
      by_cases a : s.engA.mode = .idle
      · rw [accept_alone (s := s.withIntake rest) (e := .a) running a (fun h => nomatch h) empty, dispatch_queue]
      · rw [accept_alone (s := s.withIntake rest) (e := .b) running (idle.resolve_left a) (fun _ => a) empty,
          dispatch_queue]
    rw [depth] at run
    exact ⟨_, rfl, (exec_submit head code right).trans (congrArg _ run)⟩
  case codes =>
    rw [submitCodes_some_iff, orderOfCode_iff, policyOfCode_iff, diversityOfCode_iff, actionOfCode_iff]
  case fields =>
    subst hd hr
    refine ⟨rfl, rfl, rfl, min_left_eq_ite .., rfl, rfl, rfl, rfl, rfl, rfl, rfl, min_left_eq_ite .., rfl, rfl,
      min_left_eq_ite .., min_left_eq_ite .., min_left_eq_ite .., rfl, rfl, rfl, rfl, submitExLinks_eq _⟩

/-! ## Dispatch in the words of O22 -/

/-- A dispatch of this request to this engine completes it at once with this status, and the engine it is
delivered from is `x` (R78, R106). -/
def EndsAtDispatch (s : State) (d : Descriptor) (e : EngineId) (st : Status) (adjusted : Bool)
    (counts : Option PhaseCounts) (x : Engine) : Prop :=
  (s.prb.active.classEntry d.cls).valid = false ∧ st = .badClass ∧ adjusted = false ∧ counts = none ∧
      x = s.engine e ∨
    (s.prb.active.classEntry d.cls).valid = true ∧
      ¬ (liveNode s.tst.nodes d.source = true ∧ liveNode s.tst.nodes d.dest = true) ∧ st = .unknownEndpoint ∧
      adjusted = false ∧ counts = none ∧ x = s.engine e ∨
    (s.prb.active.classEntry d.cls).valid = true ∧
      (liveNode s.tst.nodes d.source = true ∧ liveNode s.tst.nodes d.dest = true) ∧
      windowStarts (adjustWindow d.window) d.width = 0#320 ∧ st = .noPath ∧
      adjusted = (adjustWindow d.window).adjusted ∧ counts = some { PhaseCounts.zero with spectrum := 1 } ∧
      x = refusedEngine s.cfg d (s.prb.active.classEntry d.cls)

/-- The result of a request that ends at its dispatch (R106, R110). -/
def dispatchResult (s : State) (d : Descriptor) (st : Status) (adjusted : Bool) (counts : Option PhaseCounts) :
    ResultRecord where
  tag := d.tag
  outcome := .failed
  primary := st
  protection := if d.diversity = .none then .notRequested else .notAttempted
  truncated := false
  provisional := s.stc.part == .settling
  windowAdjusted := adjusted
  holdRefused := false
  watchId := none
  primaryPhase := counts
  protectionPhase := none
  primaryPath := none
  protectionPath := none

theorem dispatch_ends {s : State} {d : Descriptor} {e : EngineId} {st : Status} {adjusted : Bool}
    {counts : Option PhaseCounts} {x : Engine} (h : EndsAtDispatch s d e st adjusted counts x) :
    s.dispatch e d = (s.setEngine e x).deliver e d (dispatchResult s d st adjusted counts) := by
  rcases h with ⟨invalid, rfl, rfl, rfl, rfl⟩ | ⟨valid, dead, rfl, rfl, rfl, rfl⟩ |
    ⟨valid, live, noStart, rfl, rfl, rfl, rfl⟩
  · rw [dispatch_badClass invalid, State.setEngine_self, unrunResult_eq s d (by decide)]
    rfl
  · rw [dispatch_unknownEndpoint valid dead, State.setEngine_self, unrunResult_eq s d (by decide)]
    rfl
  · rw [dispatch_noStart valid live noStart, buildResult, outcomeOf_failed (by decide)]
    rfl

theorem engine_waitsFor {x : Engine} (h : x.mode ≠ .completing) : x.waitsFor = none := by
  unfold Engine.waitsFor
  split
  case h_1 completing _ => exact absurd completing h
  case h_2 => rfl

/-- The engine of a request that ends at its dispatch waits for no port, as it did IDLE. -/
theorem EndsAtDispatch.waiters {s : State} {d : Descriptor} {e : EngineId} {st : Status} {adjusted : Bool}
    {counts : Option PhaseCounts} {x : Engine} (h : EndsAtDispatch s d e st adjusted counts x)
    (idle : (s.engine e).mode = .idle) (p : Port) : (s.setEngine e x).waiters p = s.waiters p := by
  have before : (s.engine e).waitsFor = none := engine_waitsFor (by simp [idle])
  have after : x.waitsFor = none := by
    rcases h with ⟨-, -, -, -, rfl⟩ | ⟨-, -, -, -, -, rfl⟩ | ⟨-, -, -, -, -, -, rfl⟩
    · exact before
    · exact before
    · exact engine_waitsFor (fun h => nomatch h)
  cases e with
  | a =>
    change s.engA.waitsFor = none at before
    simp only [State.waiters, State.setEngine, before, after]
    rfl
  | b =>
    change s.engB.waitsFor = none at before
    simp only [State.waiters, State.setEngine, before, after]
    rfl

/-- An accepted request whose dispatch finds a window start runs its primary phase (R78, R106). -/
theorem accept_starts {s : State} {d : Descriptor} {e : EngineId} (running : s.stc.part ≠ .standby)
    (idle : (s.engine e).mode = .idle) (first : e = .b → s.engA.mode ≠ .idle) (empty : s.rq.queue = [])
    (valid : (s.prb.active.classEntry d.cls).valid = true)
    (live : liveNode s.tst.nodes d.source = true ∧ liveNode s.tst.nodes d.dest = true)
    (start : windowStarts (adjustWindow d.window) d.width ≠ 0#320) : s.accept d = State.setEngine { s with rq :=
      { queue := [], counters := { s.rq.counters with accepted := min (s.rq.counters.accepted + 1) 4294967295 } } }
        e (startedEngine s.cfg d (s.prb.active.classEntry d.cls)) :=
  (accept_alone running idle first empty).trans (dispatch_starts valid live start)

/-- Settles O22: the arbiter stands still, or takes the head to an IDLE engine and goes on; an accepted request
with nothing waiting is such a head. -/
theorem submissionIsDispatchedAtOnce : Obligations.SubmissionIsDispatchedAtOnce := by
  unfold Obligations.SubmissionIsDispatchedAtOnce
  refine ⟨fun s d running empty idle valid source dest start => ?engineA,
    fun s d e c w starts x running idle first hc valid source dest hw hs start hx => ?started,
    fun s => runArbiter_still, accept_split, fun b k => ?entry, rfl, fun v start width => adjustWindow_some v,
    fun w width k _ => windowStarts_getLsbD,
    fun s d e a p c live st adjusted counts running empty idle first mgmt port on room free hc hl ends => ?entered,
    fun s d rest e c w x live st adjusted tallies counts running queue idle first hc hw hl ht ends => ?handed⟩
  case engineA =>
    rw [accept_starts (e := .a) running idle (fun h => nomatch h) empty valid ⟨source, dest⟩ start]
    exact ⟨rfl, rfl, rfl, rfl, rfl, rfl, rfl, rfl, rfl⟩
  case started =>
    subst hc hw hs hx
    refine ⟨fun empty => ?_, fun rest queue => ?_⟩
    · exact accept_starts running idle first empty valid ⟨source, dest⟩ start
    · rw [runArbiter_head running idle first queue]
      have starts : (s.setQueue rest).dispatch e d =
          (s.setQueue rest).setEngine e (startedEngine s.cfg d (s.prb.active.classEntry d.cls)) :=
        dispatch_starts valid ⟨source, dest⟩ start
      rw [starts]
      rfl
  case entry => simp [Bank.classEntry]
  case entered =>
    subst hc hl
    obtain ⟨x, ends⟩ : ∃ x, EndsAtDispatch s d e st adjusted counts x := by
      rcases ends with ⟨invalid, rfl, rfl, rfl⟩ | ⟨valid, dead, rfl, rfl, rfl⟩ |
        ⟨valid, live, noStart, rfl, rfl, rfl⟩
      · exact ⟨_, .inl ⟨invalid, rfl, rfl, rfl, rfl⟩⟩
      · exact ⟨_, .inr (.inl ⟨valid, dead, rfl, rfl, rfl, rfl⟩)⟩
      · exact ⟨_, .inr (.inr ⟨valid, live, noStart, rfl, rfl, rfl, rfl⟩)⟩
    refine (accept_alone running idle first empty).trans ?_
    have dispatched := dispatch_ends (s := { s with rq := { queue := [], counters := { s.rq.counters with
      accepted := min (s.rq.counters.accepted + 1) 4294967295 } } }) ends
    refine dispatched.trans ?_
    refine (deliver_mgmt _ mgmt port ?_ ?_ ?_).trans ?_
    case refine_1 => cases e <;> exact on
    case refine_2 => cases e <;> exact room
    case refine_3 => cases e <;> exact (ends.waiters idle p).trans free
    case refine_4 => cases e <;> rfl
  case handed =>
    subst hc hw hl ht
    refine ⟨_, deliver_delivers _ e d _, ?_⟩
    have dispatched := dispatch_ends (s := s.setQueue rest) ends
    rw [runArbiter_head running idle first queue, dispatched]
    rfl

/-! ## CANCEL (R112, R113) -/

section
variable {s : State} {a : Address} {p : Port} {r : ResultRecord}

theorem offerQueuedResult_off (aborted : Bool) (off : s.enabled p = false) :
    s.offerQueuedResult a p r aborted = s.countResultDiscard.countLocalDiscard p := by
  rw [State.offerQueuedResult, if_neg (by simp [off])]

/-- A cancelled request's result without a place is counted by the port alone (R116). -/
theorem offerQueuedResult_full (on : s.enabled p = true)
    (full : 16 ≤ (s.port p).localQueue.length + s.waiters p) :
    s.offerQueuedResult a p r false = s.countLocalDiscard p := by
  have noPlace : ¬ s.hasPlace p = true := fun room => (hasPlace_iff.1 room).not_ge full
  rw [State.offerQueuedResult, if_pos on, if_neg noPlace, if_neg Bool.false_ne_true]

end

theorem named_iff {d : Descriptor} {r : Requester} {tag : Word16} :
    d.named r tag = true ↔ d.requester = r ∧ d.tag = tag := by
  simp [Descriptor.named]

section
variable {s : State} {a : Address} {tag : Word16} {d : Descriptor}
  (found : s.rq.queue.find? (fun d => d.named (.mgmt a) tag) = some d)
include found

theorem named_of_find : d.requester = .mgmt a ∧ d.tag = tag := by
  have named : d.named (.mgmt a) tag = true := List.find?_some (p := fun d : Descriptor => d.named (.mgmt a) tag) found
  exact named_iff.1 named

theorem cancelQueued_internal (port : d.ingress = none) :
    s.cancelQueued (.mgmt a) tag = s.unqueueRequest (.mgmt a) tag := by
  obtain ⟨mgmt, -⟩ := named_of_find found
  simp only [State.cancelQueued, found, mgmt, port]

theorem cancelQueued_offers {p : Port} (port : d.ingress = some p) : s.cancelQueued (.mgmt a) tag =
    (s.unqueueRequest (.mgmt a) tag).offerQueuedResult a p (unrunResult s d .cancelled) false := by
  obtain ⟨mgmt, -⟩ := named_of_find found
  simp only [State.cancelQueued, found, mgmt, port]

theorem standing_of_find : s.standing (.mgmt a) tag = .queued :=
  (standing_spec s _ _ _ _ rfl rfl).1.2 ⟨d, List.mem_of_find?_eq_some found, named_of_find found⟩

end

theorem find_of_standing {s : State} {a : Address} {tag : Word16} (h : s.standing (.mgmt a) tag = .queued) :
    ∃ d, s.rq.queue.find? (fun d => d.named (.mgmt a) tag) = some d := by
  obtain ⟨d, mem, named⟩ := (standing_spec s _ _ _ _ rfl rfl).1.1 h
  exact Option.isSome_iff_exists.1 (List.find?_isSome.2 ⟨d, mem, named_iff.2 named⟩)

theorem cancelSearch_eq (s : State) (e : EngineId) : s.cancelSearch e = s.setEngine e { s.engine e with
    endOrder := if (s.engine e).endOrder = .none then .cancel else (s.engine e).endOrder } := by
  unfold State.cancelSearch
  split
  case isTrue free => rfl
  case isFalse ordered => exact (State.setEngine_self ..).symm

section
variable {t : Taken} {s : State} (whole : 5 ≤ t.params.length)
include whole

theorem cancel_denied (other : cancelAddress t ≠ t.source) (lacks : s.senderHas t.port t.source .configure = false) :
    cancel t s = Answer.refuse .denied s := by
  rw [cancel, if_neg whole.not_gt, if_pos ⟨other, lacks⟩]

theorem cancel_named (may : cancelAddress t = t.source ∨ s.senderHas t.port t.source .configure = true) :
    cancel t s = cancelNamed s (.mgmt (cancelAddress t)) t.tag := by
  rw [cancel, if_neg whole.not_gt, if_neg]
  rintro ⟨other, lacks⟩
  rcases may with own | has
  · exact other own
  · simp [has] at lacks

end

theorem cancelAddress_eq (t : Taken) :
    cancelAddress t = if t.params.getD 0 0 = 0 then t.source else field32 t.params 1 := by
  unfold cancelAddress paramMark fieldByte
  by_cases absent : t.params.getD 0 0 = 0
  · rw [absent]; rfl
  · rw [if_neg absent, if_pos (bne_iff_ne.2 absent)]

/-- Settles O23: where the request stands is `standing_spec`; the answer follows the standing, and a queued
request's result is offered to its ingress port after the response. -/
theorem cancelActsByStanding : Obligations.CancelActsByStanding := by
  unfold Obligations.CancelActsByStanding
  refine ⟨standing_spec, fun s t rest a head code right whole address => ⟨fun other lacks => ?denied,
    fun may => ⟨fun e stands => ?tooLate, fun stands => ?notFound,
      fun r hr => ⟨fun e stands => ?searching, find_of_standing, fun d v found hv => ?queued⟩⟩⟩⟩
  all_goals rw [← cancelAddress_eq] at address; subst address
  case denied =>
    rw [exec_cancel head code right, cancel_denied (s := s.withIntake rest) whole other (Bool.eq_false_iff.2 lacks), Answer.run_refuse]
  all_goals
    have named := cancel_named (s := s.withIntake rest) whole may
    have run := exec_cancel head code right
    rw [named, cancelNamed, standing_withIntake] at run
  case tooLate => rw [run, stands, Answer.run_refuse]
  case notFound => rw [run, stands, Answer.run_refuse]
  case searching =>
    rw [stands] at run
    refine run.trans (congrArg _ ((cancelSearch_eq ..).trans ?_))
    subst hr
    rw [respond_engine]
    rfl
  case queued =>
    have stands := standing_of_find found
    rw [stands] at run
    have rq : r.rq = s.rq := hr ▸ respond_rq ..
    have cfg : r.cfg = s.cfg := hr ▸ respond_cfg ..
    have stc : r.stc = s.stc := hr ▸ respond_stc ..
    have enabled (p : Port) : v.enabled p = s.enabled p := by subst hv; simp [State.enabled, cfg]
    have found' : r.rq.queue.find? (fun d => d.named (.mgmt (cancelAddress t)) t.tag) = some d := rq ▸ found
    have unqueued : r.unqueueRequest (.mgmt (cancelAddress t)) t.tag = v := by
      rw [hv, ← rq]
      rfl
    have ends : exec .cancel s = .next (r.cancelQueued (.mgmt (cancelAddress t)) t.tag) := by rw [hr]; exact run
    refine ⟨stands, fun internal => ?_, fun p port => ?_⟩
    · rw [ends, cancelQueued_internal found' internal, unqueued]
    · rw [ends, cancelQueued_offers found' port, unqueued]
      refine ⟨fun off => ?_, fun on full => ?_, fun on room => ?_⟩
      · rw [offerQueuedResult_off false ((enabled p).trans off)]
        rfl
      · rw [offerQueuedResult_full ((enabled p).trans on) full]
        rfl
      · obtain ⟨-, tag⟩ := named_of_find found
        rw [offerQueuedResult_enters false ((enabled p).trans on) room, unrunResult_eq r d (by decide), resultFrame]
        subst hv
        rw [cfg, stc, tag]
        rfl

end Sys2Proof.Machine

/-!
LEMMAS. The watch list's commands and the store's queries (O24, O18).
-/
namespace Sys2Proof.Machine

/-! ## What an entry claims (R119) -/

/-- The two paths of an entry as one list of segments. -/
theorem paths_segments {α : Type} (w : WatchEntry) (f : HeldSegment → List α) :
    w.paths.flatMap (fun p => p.flatMap f) = (w.primary ++ w.protection.getD []).flatMap f := by
  cases h : w.protection <;> simp [WatchEntry.paths, h]

theorem pathHops_segments (w : WatchEntry) :
    w.paths.flatMap pathHops = (w.primary ++ w.protection.getD []).flatMap (·.hops) := paths_segments w _

theorem slotClaims_segments (w : WatchEntry) : w.slotClaims =
    (w.primary ++ w.protection.getD []).flatMap (fun g => g.hops.map (fun h =>
      { ref := h.ref, owner := w.id, slots := slotRange g.start g.width })) := paths_segments w _

/-- The hops of an entry's paths, each with its segment. -/
def segmentHops (w : WatchEntry) : List (HeldSegment × Hop) :=
  (w.primary ++ w.protection.getD []).flatMap (fun g => g.hops.map (fun h => (g, h)))

theorem slotClaims_hops (w : WatchEntry) : w.slotClaims = (segmentHops w).map (fun x =>
    { ref := x.2.ref, owner := w.id, slots := slotRange x.1.start x.1.width }) := by
  rw [slotClaims_segments, segmentHops, List.map_flatMap]
  simp only [List.map_map]
  rfl

/-! ## Sets of slots (R70, R120) -/

theorem and_eq_left_iff {x y : SlotSet} : x &&& y = x ↔ ∀ k, x.getLsbD k = true → y.getLsbD k = true := by
  refine ⟨fun h k hk => ?_, fun h => BitVec.eq_of_getLsbD_eq fun k _ => ?_⟩
  · rw [← h, BitVec.getLsbD_and, Bool.and_eq_true] at hk
    exact hk.2
  · rw [BitVec.getLsbD_and]
    cases hx : x.getLsbD k with
    | true => rw [h k hx]; rfl
    | false => rfl

theorem occupies_iff {nodes : List NodeEntry} {c : SlotClaim} : occupies nodes c = true ↔
    ∃ l, findLink nodes c.ref = some l ∧ c.slots &&& l.occupied = c.slots := by
  unfold occupies slotsWithin
  split
  case h_1 l found => simp [found]
  case h_2 found => simp [found]

theorem foldl_or_getLsbD (l : List SlotSet) (x : SlotSet) (k : Nat) :
    (l.foldl (· ||| ·) x).getLsbD k = true ↔ x.getLsbD k = true ∨ ∃ y ∈ l, y.getLsbD k = true := by
  induction l generalizing x with
  | nil => simp
  | cons y l ih => simp [ih, or_assoc]

theorem reservedSlots_getLsbD (o : Overlay) (ref : LinkRef) (k : Nat) :
    (o.reservedSlots ref).getLsbD k = true ↔ ∃ c ∈ o.slots, c.ref = ref ∧ c.slots.getLsbD k = true := by
  rw [Overlay.reservedSlots, foldl_or_getLsbD]
  simp [and_assoc]

theorem reservedRegens_eq (o : Overlay) (id : NodeId) : o.reservedRegens id = (o.regens.map (·.node)).count id := by
  rw [List.count_eq_countP, List.countP_map, List.countP_eq_length_filter]
  rfl

/-! ## RELEASE WATCH (R135, R113) -/

section
variable {t : Taken} {s : State} {id : Byte} {more : List Byte} {w : WatchEntry}

theorem senderHas_np (s : State) (a : Address) (r : Right) : s.senderHas .np a r = true := rfl

section
variable (params : t.params = id :: more)
include params

theorem releaseWatch_badIndex (high : 128 ≤ id.toNat) : releaseWatch t s = Answer.refuse .badIndex s := by
  simp only [releaseWatch, params, Config.watchEntries]
  exact if_pos high

theorem releaseWatch_notFound (low : id.toNat < 128) (free : findWatch s.pwl.entries id.toNat = none) :
    releaseWatch t s = Answer.refuse .notFound s := by
  simp only [releaseWatch, params, Config.watchEntries, if_neg low.not_ge, free]

theorem releaseWatch_denied (low : id.toNat < 128) (used : findWatch s.pwl.entries id.toNat = some w)
    (other : w.requester ≠ t.source) (lacks : s.senderHas t.port t.source .configure = false) :
    releaseWatch t s = Answer.refuse .denied s := by
  have line : t.port ≠ .np := fun np => by rw [np, senderHas_np] at lacks; cases lacks
  have refused : t.port ≠ .np ∧ t.source ≠ w.requester ∧ s.senderHas t.port t.source .configure = false :=
    ⟨line, other.symm, lacks⟩
  simp only [releaseWatch, params, Config.watchEntries, if_neg low.not_ge, used, if_pos refused]

theorem releaseWatch_done (low : id.toNat < 128) (used : findWatch s.pwl.entries id.toNat = some w)
    (may : w.requester = t.source ∨ s.senderHas t.port t.source .configure = true) :
    releaseWatch t s = Answer.done (Reply.bare .ok) (s.releaseWatch w) := by
  have allowed : ¬ (t.port ≠ .np ∧ t.source ≠ w.requester ∧ s.senderHas t.port t.source .configure = false) := by
    rintro ⟨-, other, lacks⟩
    rcases may with own | has
    · exact other own.symm
    · simp [has] at lacks
  simp only [releaseWatch, params, Config.watchEntries, if_neg low.not_ge, used, if_neg allowed]

end

/-- The entry goes with its claims (R135). -/
theorem removeWatch_eq {s : State} {id : Nat} {left : WatchList}
    (entries : left.entries = s.pwl.entries.filter (fun x => x.id != id))
    (slots : left.overlay.slots = s.pwl.overlay.slots.filter (fun c => c.owner != id))
    (regens : left.overlay.regens = s.pwl.overlay.regens.filter (fun c => c.owner != id)) :
    s.removeWatch id = { s with pwl := left } := by
  obtain ⟨_, ⟨_, _⟩⟩ := left
  subst entries slots regens
  rfl

theorem removeWatch_setEngine (s : State) (e : EngineId) (x : Engine) (id : Nat) :
    (s.setEngine e x).removeWatch id = (s.removeWatch id).setEngine e x := by
  cases e <;> rfl

theorem releaseWatch_plain (state : w.state ≠ .rerouting) : s.releaseWatch w = s.removeWatch w.id := by
  rw [State.releaseWatch, if_neg state]

theorem releaseWatch_rerouting (state : w.state = .rerouting) :
    s.releaseWatch w = (s.cancelReroute w.id).removeWatch w.id := by
  rw [State.releaseWatch, if_pos state]

end

section
variable {s : State} {id : Nat}

theorem cancelReroute_queued (h : s.standing .watchList (BitVec.ofNat 16 id) = .queued) :
    s.cancelReroute id = s.unqueueRequest .watchList (BitVec.ofNat 16 id) := by
  rw [State.cancelReroute, h]

theorem cancelReroute_searching {e : EngineId} (h : s.standing .watchList (BitVec.ofNat 16 id) = .searching e) :
    s.cancelReroute id = s.setEngine e { s.engine e with endOrder := .release } := by
  rw [State.cancelReroute, h]
  rfl

theorem cancelReroute_notLive (h : s.standing .watchList (BitVec.ofNat 16 id) = .notLive) :
    s.cancelReroute id = s := by
  rw [State.cancelReroute, h]

end

/-! ## QUERY WATCH (R137) -/

/-- The confirmations of a RESERVED entry, hop by hop (R137). -/
theorem confirmations_reserved (nodes : List NodeEntry) {w : WatchEntry} (state : w.state = .reserved) :
    confirmations nodes w = (segmentHops w).map (fun x => ((segmentHops w).filter (fun y => y.2.ref == x.2.ref)).all
      (fun y => occupies nodes { ref := y.2.ref, owner := w.id, slots := slotRange y.1.start y.1.width })) := by
  rw [confirmations, if_pos state, slotClaims_hops]
  simp only [List.filter_map, List.all_map, List.map_map]
  rfl

/-- A hop is confirmed when its link's occupancy holds every slot the entry claims on that link. -/
theorem confirmation_iff {nodes : List NodeEntry} {w : WatchEntry} {x : HeldSegment × Hop}
    (mem : x ∈ segmentHops w) :
    ((segmentHops w).filter (fun y => y.2.ref == x.2.ref)).all
      (fun y => occupies nodes { ref := y.2.ref, owner := w.id, slots := slotRange y.1.start y.1.width }) = true ↔
    ∃ l, findLink nodes x.2.ref = some l ∧ ∀ y ∈ segmentHops w, y.2.ref = x.2.ref →
      ∀ j, y.1.start ≤ j → j < y.1.start + y.1.width → j < 320 → l.occupied.getLsbD j = true := by
  simp only [List.all_eq_true, List.mem_filter, beq_iff_eq, occupies_iff, and_eq_left_iff, slotRange_getLsbD]
  constructor
  · intro all
    obtain ⟨l, found, -⟩ := all x ⟨mem, rfl⟩
    refine ⟨l, found, fun y hy same j lower upper inside => ?_⟩
    obtain ⟨k, found', within⟩ := all y ⟨hy, same⟩
    rw [same, found, Option.some.injEq] at found'
    exact found' ▸ within j ⟨inside, lower, upper⟩
  · rintro ⟨l, found, within⟩ y ⟨hy, same⟩
    exact ⟨l, same ▸ found, fun j ⟨inside, lower, upper⟩ => within y hy same j lower upper inside⟩

theorem queryWatch_cases (t : Taken) (s : State) {id : Byte} {more : List Byte} (params : t.params = id :: more) :
    (128 ≤ id.toNat → queryWatch t s = Answer.refuse .badIndex s) ∧
    (id.toNat < 128 → findWatch s.pwl.entries id.toNat = none → queryWatch t s = Answer.refuse .notFound s) ∧
    (∀ w, id.toNat < 128 → findWatch s.pwl.entries id.toNat = some w →
      queryWatch t s = Answer.done { code := .ok, data := watchData s w } s) := by
  refine ⟨fun high => ?_, fun low free => ?_, fun w low used => ?_⟩
  · simp only [queryWatch, params, Config.watchEntries]
    exact if_pos high
  · simp only [queryWatch, params, Config.watchEntries, if_neg low.not_ge, free]
  · simp only [queryWatch, params, Config.watchEntries, if_neg low.not_ge, used]

/-- A held path byte by byte (R137). -/
theorem encHeldPath_eq (p : HeldPath) : encHeldPath p = encByte (p.flatMap (·.hops)).length
    ++ (p.flatMap (·.hops)).flatMap (fun h => enc4 h.ref.origin.toNat ++ enc2 h.ref.lid.toNat
        ++ enc4 h.reached.toNat ++ encMark h.regen)
    ++ encByte p.length ++ p.flatMap (fun g => enc2 g.start ++ encByte g.width) := by
  rw [encHeldPath, encList, encList, ← List.append_assoc]
  rfl

theorem orderCode_eq (o : Order) : orderCode o = if o = .cost then 0 else 1 := by cases o <;> rfl

theorem actionCode_eq (a : RerouteAction) : actionCode a = if a = .notice then 0 else 1 := by cases a <;> rfl

theorem encOptional_timer (w : WatchEntry) :
    encOptional 1 encByte (if w.state = .reserved then some w.timer else none) =
      if w.state = .reserved then 1 :: encByte w.timer else [0, 0] := by
  split <;> rfl

theorem encOptional_reason (r : Option ViolationReason) :
    encOptional 1 (fun r => encByte (violationCode r)) r =
      match r with
      | none => [0, 0]
      | some r => 1 :: encByte (violationCode r) := by
  cases r <;> rfl

theorem append_congr {a b c d : List Byte} (h : a = b) (k : c = d) : a ++ c = b ++ d := by rw [h, k]

/-- QUERY WATCH's data field by field (R137). -/
theorem watchData_eq (s : State) (w : WatchEntry) : watchData s w = encByte w.id
    ++ encByte (watchStateCode w.state) ++ encByte 0 ++ enc4 w.requester.toNat ++ enc2 w.tag.toNat
    ++ enc4 w.desc.source.toNat ++ enc4 w.desc.dest.toNat ++ encByte w.desc.width ++ encByte w.desc.cls
    ++ encByte (if w.desc.order = .cost then 0 else 1) ++ encByte (policyCode w.desc.policy)
    ++ encByte (diversityCode w.desc.diversity)
    ++ encByte (if w.desc.action = .notice then 0 else 1) ++ encByte w.desc.rerouteLimit
    ++ enc4 w.budget ++ enc2 w.regenCost ++ encHeldPath w.primary
    ++ (match w.protection with
        | some p => 1 :: encHeldPath p
        | none => [0, 0, 0])
    ++ (match w.reason with
        | none => [0, 0]
        | some r => 1 :: encByte (violationCode r))
    ++ (if w.state = .reserved then 1 :: encByte w.timer else [0, 0])
    ++ encByte w.rerouteLeft ++ encMark w.submitPending
    ++ encByte (confirmations s.tst.nodes w).length ++ (confirmations s.tst.nodes w).flatMap encMark := by
  refine (List.append_assoc _ (encByte _) _).symm.trans ?_
  refine append_congr (append_congr (append_congr (append_congr ?_ rfl) rfl) rfl) rfl
  refine append_congr (append_congr (append_congr ?_ (by cases w.protection <;> rfl)) (encOptional_reason _))
    (encOptional_timer w)
  refine append_congr (append_congr (append_congr (append_congr ?_ rfl) rfl) rfl) rfl
  refine append_congr (append_congr (append_congr ?_ rfl) rfl) (congrArg encByte (actionCode_eq _))
  refine append_congr (append_congr (append_congr ?_ rfl) rfl) (congrArg encByte (orderCode_eq _))
  refine append_congr (append_congr (append_congr ?_ rfl) rfl) rfl
  exact (List.append_assoc _ (encByte 0) _).symm

/-- Settles O24: RELEASE WATCH by its tests, the entry's reroute request by where it stands, and QUERY WATCH's
data by its confirmations. -/
theorem watchCommandsActOnTheEntry : Obligations.WatchCommandsActOnTheEntry := by
  unfold Obligations.WatchCommandsActOnTheEntry
  refine ⟨fun s t rest id more head code right params => ?release,
    fun s t rest id more head code right params => ?query, fun s w path hops hpath hhops => ?data⟩
  case release =>
    have run := exec_releaseWatch head code right
    refine ⟨fun high => ?badIndex, fun low free => ?notFound, fun w low used => ⟨fun other lacks => ?denied,
      fun may state left entries slots regens => ?plain,
      fun may state left raised live entries slots regens hraised hlive => ?rerouting⟩⟩
    case badIndex => rw [run, releaseWatch_badIndex params high, Answer.run_refuse]
    case notFound => rw [run, releaseWatch_notFound (s := s.withIntake rest) params low free, Answer.run_refuse]
    case denied =>
      rw [run, releaseWatch_denied (s := s.withIntake rest) params low used other (Bool.eq_false_iff.2 lacks),
        Answer.run_refuse]
    case plain =>
      rw [run, releaseWatch_done (s := s.withIntake rest) params low used may, Answer.run_done, releaseWatch_plain state,
        findWatch_id used, removeWatch_eq (s := s.withIntake rest) entries slots regens]
      rfl
    case rerouting =>
      rw [releaseWatch_done (s := s.withIntake rest) params low used may, Answer.run_done,
        releaseWatch_rerouting state, findWatch_id used] at run
      have same := standing_withIntake s rest .watchList (BitVec.ofNat 16 id.toNat)
      obtain ⟨queuedIff, searchingIff, -, notLiveIff⟩ :=
        standing_spec s .watchList (BitVec.ofNat 16 id.toNat) _ _ rfl rfl
      have raised_iff (d : Descriptor) : raised d = true ↔
          d.requester = .watchList ∧ d.tag = BitVec.ofNat 16 id.toNat := by simp [hraised]
      simp only [raised_iff] at hlive
      subst hlive
      refine ⟨fun queued => ?_, fun none => ⟨fun e runs searching only => ?_, fun idle => ?_⟩⟩
      · obtain ⟨d, mem, is⟩ := queued
        have stands := same.trans (queuedIff.2 ⟨d, mem, (raised_iff d).1 is⟩)
        rw [run, cancelReroute_queued stands]
        have removed := removeWatch_eq (s := (s.withIntake rest).unqueueRequest .watchList (BitVec.ofNat 16 id.toNat))
          entries slots regens
        rw [removed, hraised]
        rfl
      · have unqueued : ¬ ∃ d ∈ s.rq.queue, d.requester = .watchList ∧ d.tag = BitVec.ofNat 16 id.toNat := by
          rintro ⟨d, mem, is⟩
          exact Bool.false_ne_true ((none d mem).symm.trans ((raised_iff d).2 is))
        have stands := same.trans ((searchingIff e).2 ⟨unqueued, runs, fun b a => ?_, searching⟩)
        · rw [run, cancelReroute_searching stands, removeWatch_setEngine,
            removeWatch_eq (s := s.withIntake rest) entries slots regens]
          cases e <;> rfl
        · exact absurd (only _ a) (by rw [b]; decide)
      · have unqueued : ¬ ∃ d ∈ s.rq.queue, d.requester = .watchList ∧ d.tag = BitVec.ofNat 16 id.toNat := by
          rintro ⟨d, mem, is⟩
          exact Bool.false_ne_true ((none d mem).symm.trans ((raised_iff d).2 is))
        rw [run, cancelReroute_notLive (same.trans (notLiveIff.2 ⟨unqueued, idle⟩)),
          removeWatch_eq (s := s.withIntake rest) entries slots regens]
        rfl
  case query =>
    obtain ⟨badIndex, notFound, done⟩ := queryWatch_cases t (s.withIntake rest) params
    have run := exec_queryWatch head code right
    refine ⟨fun high => ?_, fun low free => ?_, fun w low used => ?_⟩
    · rw [run, badIndex high, Answer.run_refuse]
    · rw [run, notFound low free, Answer.run_refuse]
    · rw [run, done w low used, Answer.run_done]
      rfl
  case data =>
    obtain rfl : path = encHeldPath := hpath.trans (funext encHeldPath_eq).symm
    subst hhops
    refine ⟨confirmations s.tst.nodes w, fun state => ?_, fun state => ?_, ?_⟩
    · rw [confirmations, if_neg state]
    · rw [confirmations_reserved _ state]
      refine ⟨List.length_map .., fun k g h at' => ?_⟩
      have mem : (g, h) ∈ segmentHops w := List.mem_of_getElem? at'
      rw [List.getElem?_map, show (segmentHops w)[k]? = some (g, h) from at']
      exact Option.some_inj.trans (confirmation_iff mem)
    · exact watchData_eq s w

/-! ## The bytes of the fields (section 9.1.2) -/

theorem encodeNat_getD (n v k : Nat) (h : k < n) :
    (encodeNat n v).getD k 0 = BitVec.ofNat 8 (v / 256 ^ (n - 1 - k)) := by
  induction n generalizing k with
  | zero => omega
  | succ n ih =>
    cases k with
    | zero => rfl
    | succ k =>
      have exponent : n - 1 - k = n + 1 - 1 - (k + 1) := by omega
      rw [← exponent]
      exact ih k (by omega)

theorem encByte_bytes (n : Nat) : encByte n = [BitVec.ofNat 8 n] := by simp [encByte, encodeNat]

theorem enc2_bytes (n : Nat) : enc2 n = [BitVec.ofNat 8 (n / 256), BitVec.ofNat 8 n] := by simp [enc2, encodeNat]

theorem enc4_bytes (n : Nat) : enc4 n = [BitVec.ofNat 8 (n / 16777216), BitVec.ofNat 8 (n / 65536),
    BitVec.ofNat 8 (n / 256), BitVec.ofNat 8 n] := by simp [enc4, encodeNat]

/-- A slot set's bytes: slot 8k + j in bit 7 − j of byte k (section 9.1.2). -/
theorem encodeSlots_getLsbD (x : SlotSet) {k j : Nat} (hk : k < 40) (hj : j < 8) :
    ((encodeSlots x).getD k 0).getLsbD (7 - j) = x.getLsbD (8 * k + j) := by
  have byte : 256 ^ (40 - 1 - k) = 2 ^ (8 * (40 - 1 - k)) := by rw [Nat.pow_mul]
  have place : 320 - 1 - (8 * (40 - 1 - k) + (7 - j)) = 8 * k + j := by omega
  rw [encodeSlots, encodeNat_getD _ _ _ hk, BitVec.getLsbD_ofNat, byte, Nat.testBit_div_two_pow,
    BitVec.testBit_toNat, BitVec.getLsbD_reverse, BitVec.getMsbD_eq_getLsbD]
  have low : 7 - j < 8 := by omega
  have inside : 7 - j + 8 * (40 - 1 - k) < 320 := by omega
  have place : 320 - 1 - (7 - j + 8 * (40 - 1 - k)) = 8 * k + j := by omega
  rw [place, decide_eq_true low, decide_eq_true inside, Bool.true_and, Bool.true_and]

/-! ## The store's queries (R25 to R27) -/

section
variable {t : Taken} {s : State}

theorem queryNode_notFound (whole : 4 ≤ t.params.length)
    (h : findNode s.tst.nodes (field32 t.params 0) = none ∨ reservedId (field32 t.params 0) = true) :
    queryNode t s = Answer.refuse .notFound s := by
  rw [queryNode, if_neg whole.not_gt]
  rcases h with absent | reserved
  · rw [absent]
    split <;> rfl
  · rw [if_pos reserved]

theorem queryNode_found {n : NodeEntry} (whole : 4 ≤ t.params.length)
    (found : findNode s.tst.nodes (field32 t.params 0) = some n) (valid : reservedId (field32 t.params 0) = false) :
    queryNode t s = Answer.done { code := .ok, data := nodeData s.pwl.overlay n } s := by
  rw [queryNode, if_neg whole.not_gt, found, valid]
  rfl

theorem queryLink_notFound (whole : 6 ≤ t.params.length)
    (absent : findLink s.tst.nodes ⟨field32 t.params 0, field16 t.params 4⟩ = none) :
    queryLink t s = Answer.refuse .notFound s := by
  rw [queryLink, if_neg whole.not_gt]
  unfold findLink at absent
  cases node : findNode s.tst.nodes (field32 t.params 0) with
  | none => rfl
  | some n =>
    have link : findLid n.links (field16 t.params 4) = none := by simpa [node] using absent
    simp only [link]

theorem queryLink_found {n : NodeEntry} {l : Link} (whole : 6 ≤ t.params.length)
    (node : findNode s.tst.nodes (field32 t.params 0) = some n)
    (link : findLid n.links (field16 t.params 4) = some l) :
    queryLink t s = Answer.done { code := .ok, data := linkData s n l } s := by
  rw [queryLink, if_neg whole.not_gt, node]
  simp only [link]

theorem listNodes_badIndex (whole : 2 ≤ t.params.length) (high : 256 ≤ fieldNat t.params 0 2) :
    listNodes t s = Answer.refuse .badIndex s := by
  rw [listNodes, if_neg whole.not_gt, if_pos (Nat.lt_of_succ_le high)]

theorem listNodes_page (whole : 2 ≤ t.params.length) (low : fieldNat t.params 0 2 < 256) : listNodes t s =
    Answer.done { code := .ok, data := listData (listPage s.tst.nodes (fieldNat t.params 0 2)) } s := by
  rw [listNodes, if_neg whole.not_gt, if_neg (by omega)]

end

theorem nodeStateCode_eq (n : NodeEntry) : nodeStateCode n.life = if n.isLive then 1 else 2 := by
  unfold NodeEntry.isLive
  cases n.life <;> rfl

theorem nextIndex_short {page : List NodeEntry} (short : page.length ≠ 16) : nextIndex page = none :=
  if_neg short

theorem nextIndex_full {page : List NodeEntry} {n : NodeEntry} (last : page.getLast? = some n)
    (full : page.length = 16) : nextIndex page = if n.index + 1 < 256 then some (n.index + 1) else none := by
  refine (if_pos full).trans ?_
  rw [last]
  rfl

/-- The next index of a page: after 16 entries, where one below 256 is left (R27). -/
theorem nextIndex_bytes {page : List NodeEntry} {next : List Byte}
    (h : (∃ n, page.getLast? = some n ∧ page.length = 16 ∧ n.index < 255 ∧ next = 1 :: encByte (n.index + 1)) ∨
      ((page.length ≠ 16 ∨ ∃ n, page.getLast? = some n ∧ 255 ≤ n.index) ∧ next = [0, 0])) :
    encOptional 1 encByte (nextIndex page) = next := by
  rcases h with ⟨n, last, full, low, rfl⟩ | ⟨short | ⟨n, last, high⟩, rfl⟩
  · rw [nextIndex_full last full, if_pos (Nat.succ_lt_succ low)]
    rfl
  · rw [nextIndex_short short]
    rfl
  · by_cases full : page.length = 16
    · rw [nextIndex_full last full, if_neg (by omega)]
      rfl
    · rw [nextIndex_short full]
      rfl

theorem listData_eq (page : List NodeEntry) : listData page = encByte page.length
    ++ page.flatMap (fun n => encByte n.index ++ enc4 n.id.toNat ++ encByte (if n.isLive then 1 else 2))
    ++ encOptional 1 encByte (nextIndex page) := by
  rw [listData, encList]
  simp only [nodeStateCode_eq]

theorem nodeData_eq (o : Overlay) (n : NodeEntry) : nodeData o n =
    encByte n.index ++ encByte (if n.isLive then 1 else 2) ++ enc4 n.id.toNat ++ encByte n.dialect
      ++ enc4 n.seq.toNat ++ encByte (lifeCounter n.life)
      ++ encByte n.regens ++ encByte (o.reservedRegens n.id)
      ++ (match n.transitQ with
          | some q => 1 :: enc2 q
          | none => [0, 0, 0])
      ++ encMark n.incomplete ++ encByte n.links.length
      ++ encByte n.links.length ++ n.links.flatMap (fun l => enc2 l.lid.toNat) := by
  refine (List.append_assoc _ (encByte _) _).symm.trans ?_
  refine append_congr (append_congr (append_congr (append_congr ?_ rfl) rfl) rfl) rfl
  refine append_congr (append_congr (append_congr ?_ rfl) rfl) (by cases n.transitQ <;> rfl)
  refine append_congr (append_congr (append_congr (append_congr ?_ rfl) rfl) rfl) rfl
  rw [nodeStateCode_eq]

/-- The first test of R19 that fails. -/
theorem unusableReason_eq (twoWay : Bool) (nodes : List NodeEntry) (n : NodeEntry) (l : Link) :
    unusableReason twoWay nodes n l = if n.isLive = false then some .origin
      else if liveNode nodes l.remote = false then some .remote else if l.admin = .down then some .admin
      else if usable twoWay nodes n l = false then some .twoWay else none := by
  unfold usable
  cases origin : n.isLive with
  | false => simp [unusableReason, origin]
  | true =>
    cases found : findNode nodes l.remote with
    | none => simp [unusableReason, liveNode, origin, found]
    | some r =>
      cases remote : r.isLive with
      | false => simp [unusableReason, liveNode, origin, found, remote]
      | true =>
        cases admin : l.admin with
        | down => simp [unusableReason, liveNode, origin, found, remote, admin]
        | up =>
          cases reverse : twoWay && !hasReverse r n.id l <;>
            simp [unusableReason, liveNode, origin, found, remote, admin, reverse]

theorem unusableReason_code {twoWay : Bool} {nodes : List NodeEntry} {n : NodeEntry} {l : Link} {reason : Nat}
    (h : reason = (if n.isLive = false then 1 else if liveNode nodes l.remote = false then 2
      else if l.admin = .down then 3 else if usable twoWay nodes n l = false then 4 else 0)) :
    unusableCode (unusableReason twoWay nodes n l) = reason := by
  subst h
  rw [unusableReason_eq]
  split_ifs <;> rfl

/-- A link is usable exactly when the code of its unusable reason is 0. -/
theorem usable_mark (twoWay : Bool) (nodes : List NodeEntry) (n : NodeEntry) (l : Link) :
    encMark (usable twoWay nodes n l) =
      encByte (if unusableCode (unusableReason twoWay nodes n l) = 0 then 1 else 0) := by
  unfold usable
  cases unusableReason twoWay nodes n l with
  | none => rfl
  | some r => cases r <;> rfl

theorem linkData_eq (s : State) (n : NodeEntry) (l : Link) : linkData s n l =
    enc4 n.id.toNat ++ enc2 l.lid.toNat ++ enc4 l.remote.toNat
      ++ (match l.remoteLid with
          | some lid => 1 :: enc2 lid.toNat
          | none => [0, 0, 0])
      ++ enc4 l.cost ++ encQ l.q
      ++ encodeSlots l.occupied ++ encByte l.srlg.length ++ l.srlg.flatMap (fun g => enc4 g.toNat)
      ++ encByte (if l.admin = .up then 0 else 1)
      ++ encByte (if l.cond.condition = .normal then 0 else 1) ++ encByte l.cond.count ++ encMark l.cond.below
      ++ encMark l.cond.crossed ++ encMark (usable s.cfg.twoWay s.tst.nodes n l)
      ++ encByte (unusableCode (unusableReason s.cfg.twoWay s.tst.nodes n l))
      ++ encodeSlots (s.pwl.overlay.reservedSlots ⟨n.id, l.lid⟩) := by
  have admin : adminCode l.admin = if l.admin = .up then 0 else 1 := by cases l.admin <;> rfl
  have condition : conditionCode l.cond.condition = if l.cond.condition = .normal then 0 else 1 := by
    cases l.cond.condition <;> rfl
  rw [← admin, ← condition]
  refine append_congr (append_congr (append_congr ?_ rfl) rfl) rfl
  refine (List.append_assoc _ _ (encMark _)).symm.trans (append_congr ?_ rfl)
  refine (List.append_assoc _ _ (encMark _)).symm.trans (append_congr ?_ rfl)
  refine (List.append_assoc _ (encByte _) (encByte _)).symm.trans ?_
  refine append_congr (append_congr (append_congr ?_ rfl) rfl) rfl
  refine (List.append_assoc _ (encByte _) _).symm.trans ?_
  refine append_congr (append_congr (append_congr (append_congr (append_congr ?_ rfl) rfl) rfl) rfl) rfl
  exact append_congr rfl (by cases l.remoteLid <;> rfl)

/-- Settles O18: each query by its tests, and its data field by field. -/
theorem storeQueriesReadTheTables : Obligations.StoreQueriesReadTheTables := by
  unfold Obligations.StoreQueriesReadTheTables
  refine ⟨fun s t rest head code right whole => ⟨fun h => ?_, fun n found valid => ?_⟩,
    fun s t rest head code right whole => ⟨fun absent => ?_, fun n l node link => ?_⟩,
    fun s t rest head code right whole => ⟨fun high => ?_, fun low page next hpage hnext => ?_⟩,
    fun o n => ?node, fun s n l reason h => ?link,
    fun o ref id k => ⟨reservedSlots_getLsbD .., reservedRegens_eq ..⟩,
    fun n b x k j => ⟨encByte_bytes n, enc2_bytes n, enc4_bytes n, rfl, encodeNat_length .., encodeSlots_getLsbD x⟩⟩
  · rw [exec_queryNode head code right, queryNode_notFound (s := s.withIntake rest) whole h, Answer.run_refuse]
  · rw [exec_queryNode head code right, queryNode_found (s := s.withIntake rest) whole found valid, Answer.run_done]
    rfl
  · rw [exec_queryLink head code right, queryLink_notFound (s := s.withIntake rest) whole absent, Answer.run_refuse]
  · rw [exec_queryLink head code right, queryLink_found (s := s.withIntake rest) whole node link, Answer.run_done]
    rfl
  · rw [exec_listNodes head code right, listNodes_badIndex whole high, Answer.run_refuse]
  · rw [exec_listNodes head code right, listNodes_page whole low, Answer.run_done, listData_eq]
    obtain rfl : page = listPage s.tst.nodes (fieldNat t.params 0 2) := hpage
    rw [← nextIndex_bytes hnext]
    rfl
  case node => exact nodeData_eq o n
  case link =>
    have data := linkData_eq s n l
    rw [usable_mark, unusableReason_code h] at data
    exact data

end Sys2Proof.Machine

/-!
LEMMAS. A store event whole, for every outcome, and the store's action on an age tick (O39, O43).
-/
namespace Sys2Proof.Machine

/-! ## A node table's lists -/

/-- No id stands twice in the node table, and every link list stands in ascending local id (R1, R4). -/
def TableListed (nodes : List NodeEntry) : Prop :=
  (nodes.map (·.id)).Nodup ∧ ∀ n ∈ nodes, n.links.Pairwise (fun k l => k.lid.toNat < l.lid.toNat)

theorem TableSound.listed {nodes : List NodeEntry} (sound : TableSound nodes) : TableListed nodes := by
  obtain ⟨-, ids, each⟩ := sound
  refine ⟨ids, fun n mem => ?_⟩
  obtain ⟨-, -, -, links⟩ := each n mem
  exact links

/-! ## USABILITY reports (R20, R23) -/

/-- The USABILITY report of one link of the table after an event (R20). -/
def usabilityReport (b b' : Bool) (nodes nodes' : List NodeEntry) (n' : NodeEntry) (l' : Link) : Option Report :=
  match findNode nodes n'.id with
  | none => none
  | some n =>
    match findLid n.links l'.lid with
    | none => none
    | some l =>
      if usable b nodes n l = usable b' nodes' n' l' then none
      else some { element := .link ⟨n'.id, l'.lid⟩, kind := .usability }

theorem usabilityReports_eq (b b' : Bool) (nodes nodes' : List NodeEntry) : usabilityReports b b' nodes nodes' =
    (sortById nodes').flatMap (fun n' => n'.links.filterMap (usabilityReport b b' nodes nodes' n')) := rfl

theorem usabilityReport_eq_some {b b' : Bool} {nodes nodes' : List NodeEntry} {n' : NodeEntry} {l' : Link}
    {r : Report} : usabilityReport b b' nodes nodes' n' l' = some r ↔
      r = { element := .link ⟨n'.id, l'.lid⟩, kind := .usability } ∧
      ∃ n l, findNode nodes n'.id = some n ∧ findLid n.links l'.lid = some l ∧
        usable b nodes n l ≠ usable b' nodes' n' l' := by
  unfold usabilityReport
  split
  case h_1 absent => simp [absent]
  case h_2 n found =>
    split
    case h_1 absent => simp [found, absent]
    case h_2 l held =>
      split
      case isTrue same => simp [found, held, same]
      case isFalse differ => simpa [found, held, differ] using eq_comm

section
variable {b b' : Bool} {nodes nodes' : List NodeEntry} (listed : TableListed nodes')
include listed

/-- The USABILITY reports of an event are R20's changes. -/
theorem mem_usabilityReports_iff {r : Report} :
    r ∈ usabilityReports b b' nodes nodes' ↔ r.kind = .usability ∧ Changed b b' nodes nodes' r := by
  rw [usabilityReports_eq, List.mem_flatMap]
  constructor
  · rintro ⟨n', mem, report⟩
    obtain ⟨l', link, report⟩ := List.mem_filterMap.1 report
    obtain ⟨rfl, n, l, before, held, differ⟩ := usabilityReport_eq_some.1 report
    have table := (sortById_perm nodes').mem_iff.1 mem
    exact ⟨rfl, n, n', l, l', before, findNode_of_mem listed.1 table, held, findLid_of_mem (listed.2 n' table) link, differ⟩
  · obtain ⟨el, kind⟩ := r
    rintro ⟨rfl, changed⟩
    cases el with
    | node id => exact changed.elim
    | link ref =>
      obtain ⟨n, n', l, l', before, after, held, link, differ⟩ := changed
      obtain ⟨origin, lid⟩ := ref
      obtain ⟨table, rfl⟩ := findNode_some after
      obtain ⟨inList, rfl⟩ := findLid_some link
      refine ⟨n', (sortById_perm nodes').mem_iff.2 table, List.mem_filterMap.2 ⟨l', inList, ?_⟩⟩
      exact usabilityReport_eq_some.2 ⟨rfl, n, l, before, held, differ⟩

/-- They stand in ascending origin and local id (item 4 of R23). -/
theorem usabilityReports_inOrder : UsabilityOrder (usabilityReports b b' nodes nodes') := by
  refine ⟨fun r mem => ((mem_usabilityReports_iff listed).1 mem).1, ?_⟩
  rw [usabilityReports_eq]
  refine List.pairwise_flatMap.2 ⟨fun n' mem => ?_, (sortById_sorted listed.1).imp fun {m n} origins x hx y hy => ?_⟩
  · have ascending := listed.2 n' ((sortById_perm nodes').mem_iff.1 mem)
    refine List.pairwise_filterMap.2 (ascending.imp fun {k l} lids x hx y hy => ?_)
    obtain ⟨rfl, -⟩ := usabilityReport_eq_some.1 hx
    obtain ⟨rfl, -⟩ := usabilityReport_eq_some.1 hy
    exact ⟨_, _, rfl, rfl, .inr ⟨rfl, lids⟩⟩
  · obtain ⟨k, -, hx⟩ := List.mem_filterMap.1 hx
    obtain ⟨l, -, hy⟩ := List.mem_filterMap.1 hy
    obtain ⟨rfl, -⟩ := usabilityReport_eq_some.1 hx
    obtain ⟨rfl, -⟩ := usabilityReport_eq_some.1 hy
    exact ⟨_, _, rfl, rfl, .inl origins⟩

end

/-! ## A store event (R5, R20 to R23, R127) -/

theorem raiseAll_eq (s : State) (l : List Raise) : s.raiseAll l = { s with evu := (s.raiseAll l).evu } := by
  induction l generalizing s with
  | nil => rfl
  | cons r l ih => exact (ih (s.raise r.cls r.subject r.reason)).trans rfl

/-- The raises do not see the tables. -/
theorem raiseAll_tst (s : State) (t : Store) (l : List Raise) :
    ({ s with tst := t } : State).raiseAll l = { s.raiseAll l with tst := t } := by
  induction l generalizing s with
  | nil => rfl
  | cons r l ih => exact ih (s.raise r.cls r.subject r.reason)

/-- What raises make depends on the Event Unit and the configuration alone. -/
theorem raiseAll_evu {s t : State} (cfg : s.cfg = t.cfg) (evu : s.evu = t.evu) (l : List Raise) :
    (s.raiseAll l).evu = (t.raiseAll l).evu := by
  induction l generalizing s t with
  | nil => exact evu
  | cons r l ih =>
    refine ih (s := s.raise r.cls r.subject r.reason) (t := t.raise r.cls r.subject r.reason) cfg ?_
    rw [State.raise, State.raise, cfg, evu]

/-- The reports of a store event, USABILITY last (R23). -/
def eventReports (s : State) (o : StoreOutcome) : List Report :=
  o.reports ++ usabilityReports s.cfg.twoWay s.cfg.twoWay s.tst.nodes o.nodes

/-- The part after a store event, up to the watch list's batch. -/
def eventState (s : State) (o : StoreOutcome) : State :=
  (({ s with tst := { nodes := o.nodes, counters := o.counters } }).raiseAll o.raises).touchReports (eventReports s o)

theorem storeEvent_eq (s : State) (o : StoreOutcome) :
    s.storeEvent o = (eventState s o).batch (eventReports s o) := rfl

theorem batch_serves (s : State) (rs : List Report) : Serves s (s.batch rs) :=
  foldl_serves _ (batchEntry_serves rs) _ _

theorem eventState_tst (s : State) (o : StoreOutcome) :
    (eventState s o).tst = { nodes := o.nodes, counters := o.counters } := by
  rw [eventState, raiseAll_tst]
  rfl

theorem eventState_evu (s : State) (o : StoreOutcome) : (eventState s o).evu = (s.raiseAll o.raises).evu := by
  rw [eventState, raiseAll_tst]
  rfl

/-- A store event's reports, raises and marks, when its own reports are the changes of R21 but USABILITY. -/
theorem eventState_event {s : State} {o : StoreOutcome} {steps : Report → Prop} (listed : TableListed o.nodes)
    (usability : ∀ r, steps r → r.kind ≠ .usability)
    (own : ∀ r, r ∈ o.reports ↔
      r.kind ≠ .usability ∧ (Changed s.cfg.twoWay s.cfg.twoWay s.tst.nodes o.nodes r ∨ steps r)) :
    StoreEventBy steps s (eventState s o) (eventReports s o) := by
  have raised : eventState s o = ({ s.raiseAll o.raises with
      tst := { nodes := o.nodes, counters := o.counters } } : State).touchReports (eventReports s o) := by
    rw [eventState, raiseAll_tst]
  refine ⟨?_, fun r => ?_, fun e => ?_⟩
  · rw [raised, raiseAll_eq]
    rfl
  · rw [eventState_tst, eventReports, List.mem_append, own, mem_usabilityReports_iff listed]
    have := usability r
    tauto
  · have engine : (({ s.raiseAll o.raises with tst := { nodes := o.nodes, counters := o.counters } } : State)).engine e =
        s.engine e := by
      rw [raiseAll_eq]
      cases e <;> rfl
    rw [raised, ← engine]
    exact touchReports_marked _ _ _

/-! ## The store's action on an age tick (R16, R17) -/

theorem bump_eq (c : Nat) : bump c = min (c + 1) 4294967295 := rfl

theorem addSat_eq (c n : Nat) : addSat c n = min (c + n) 4294967295 := rfl

/-- Several additions to a counter are one, which saturates once. -/
theorem foldl_addSat {α : Type} (f : α → Nat) (l : List α) (c : Nat) :
    l.foldl (fun c x => addSat c (f x)) c = if l = [] then c else min (c + (l.map f).sum) 4294967295 := by
  induction l generalizing c with
  | nil => rfl
  | cons x l ih =>
    rw [List.foldl_cons, ih, addSat_eq, List.map_cons, List.sum_cons, if_neg (List.cons_ne_nil x l)]
    split
    case isTrue last => subst last; rfl
    case isFalse => omega

theorem foldl_bump {α : Type} (l : List α) (c : Nat) :
    l.foldl (fun c _ => bump c) c = if l = [] then c else min (c + l.length) 4294967295 := by
  have counted := foldl_addSat (fun _ : α => 1) l c
  rw [List.map_const', List.sum_replicate, smul_eq_mul, mul_one] at counted
  exact counted

/-- The raises and counters of the nodes up to one place of the table (R16, R17, R24). -/
theorem foldl_tickNode (cfg : Settings) (l : List NodeEntry) (o : StoreOutcome) :
    (l.foldl (tickNode cfg) o).raises =
      o.raises ++ (l.filter agingOut).map (fun n => ⟨.nodeExpired, .node n.id, .aged⟩) ∧
    (l.foldl (tickNode cfg) o).counters = { o.counters with
      nodesAged := (l.filter agingOut).foldl (fun c _ => bump c) o.counters.nodesAged
      nodesFreed := (l.filter holdDownEnding).foldl (fun c _ => bump c) o.counters.nodesFreed
      linksFreed := (l.filter holdDownEnding).foldl (fun c n => addSat c n.links.length) o.counters.linksFreed } := by
  induction l generalizing o with
  | nil => simp
  | cons n l ih =>
    obtain ⟨raises, counters⟩ := ih (tickNode cfg o n)
    rw [List.foldl_cons, raises, counters]
    cases life : n.life with
    | live a => by_cases last : a ≤ 1 <;> simp [tickNode, agingOut, holdDownEnding, life, last]
    | withdrawn h => by_cases last : h ≤ 1 <;> simp [tickNode, agingOut, holdDownEnding, life, last]

theorem tickStore_raises (cfg : Settings) (t : Store) : (tickStore cfg t).raises =
    (t.nodes.filter agingOut).map (fun n => ⟨.nodeExpired, .node n.id, .aged⟩) := (foldl_tickNode cfg t.nodes _).1

theorem tickStore_counters (cfg : Settings) (t : Store) : (tickStore cfg t).counters = { t.counters with
    nodesAged := if t.nodes.filter agingOut = [] then t.counters.nodesAged
      else min (t.counters.nodesAged + (t.nodes.filter agingOut).length) 4294967295
    nodesFreed := if t.nodes.filter holdDownEnding = [] then t.counters.nodesFreed
      else min (t.counters.nodesFreed + (t.nodes.filter holdDownEnding).length) 4294967295
    linksFreed := if t.nodes.filter holdDownEnding = [] then t.counters.linksFreed
      else min (t.counters.linksFreed + ((t.nodes.filter holdDownEnding).map (fun n => n.links.length)).sum)
        4294967295 } := by
  rw [tickStore, (foldl_tickNode cfg t.nodes _).2, foldl_bump, foldl_bump, foldl_addSat]

/-! ### The changes of a tick (R21) -/

/-- What a tick keeps of a node that stays. -/
theorem tickedNode_keeps {cfg : Settings} {n m : NodeEntry} (h : tickedNode cfg n = some m) :
    m = { n with life := m.life } := by
  unfold tickedNode at h
  split at h
  · cases h; rfl
  · split at h
    · cases h
    · cases h; rfl

theorem findNode_filterMap {f : NodeEntry → Option NodeEntry} (keeps : ∀ n m, f n = some m → m.id = n.id)
    {nodes : List NodeEntry} (ids : (nodes.map (·.id)).Nodup) (id : NodeId) :
    findNode (nodes.filterMap f) id = (findNode nodes id).bind f := by
  have absent {l : List NodeEntry} (h : ∀ n ∈ l, n.id ≠ id) : findNode (l.filterMap f) id = none := by
    rw [findNode, List.find?_eq_none]
    intro m mem
    obtain ⟨n, hn, hm⟩ := List.mem_filterMap.1 mem
    simpa [keeps n m hm] using h n hn
  induction nodes with
  | nil => rfl
  | cons n l ih =>
    rw [List.map_cons, List.nodup_cons] at ids
    obtain ⟨fresh, rest⟩ := ids
    by_cases here : n.id = id
    · have others : ∀ k ∈ l, k.id ≠ id := fun k hk e => fresh (List.mem_map.2 ⟨k, hk, e.trans here.symm⟩)
      have found : findNode (n :: l) id = some n := by simp [findNode, here]
      rw [found, Option.bind_some, List.filterMap_cons]
      cases ticked : f n with
      | none => exact absent others
      | some m => simp [findNode, keeps n m ticked, here]
    · have skip : findNode (n :: l) id = findNode l id := by simp [findNode, here]
      rw [skip, ← ih rest, List.filterMap_cons]
      cases ticked : f n with
      | none => rfl
      | some m => simp [findNode, keeps n m ticked, here]

theorem tickStore_listed (cfg : Settings) {t : Store} (listed : TableListed t.nodes) :
    TableListed (tickStore cfg t).nodes := by
  obtain ⟨ids, links⟩ := listed
  rw [tickStore_nodes]
  refine ⟨List.pairwise_map.2 (List.pairwise_filterMap.2 ((List.pairwise_map.1 ids).imp ?_)), fun m mem => ?_⟩
  · intro n k differ x hx y hy
    rwa [tickedNode_keeps hx, tickedNode_keeps hy]
  · obtain ⟨n, hn, ticked⟩ := List.mem_filterMap.1 mem
    rw [tickedNode_keeps ticked]
    exact links n hn

/-- At a tick a node stays, is withdrawn, or is freed (R16, R17). -/
theorem tickedNode_cases (cfg : Settings) (n : NodeEntry) :
    (∃ m, tickedNode cfg n = some m ∧ m.isLive = n.isLive ∧ tickReports n = []) ∨
    (n.isLive = true ∧ (∃ m, tickedNode cfg n = some m ∧ m.isLive = false) ∧
      tickReports n = [⟨.node n.id, .withdrawn⟩]) ∨
    (n.isLive = false ∧ tickedNode cfg n = none ∧
      tickReports n = ⟨.node n.id, .freed⟩ :: n.links.map (fun l => ⟨.link ⟨n.id, l.lid⟩, .freed⟩)) := by
  cases life : n.life with
  | live a =>
    by_cases last : a ≤ 1
    · exact .inr (.inl (by simp [tickedNode, tickReports, NodeEntry.isLive, life, last]))
    · exact .inl (by simp [tickedNode, tickReports, NodeEntry.isLive, life, last])
  | withdrawn h =>
    by_cases last : h ≤ 1
    · exact .inr (.inr (by simp [tickedNode, tickReports, NodeEntry.isLive, life, last]))
    · exact .inl (by simp [tickedNode, tickReports, NodeEntry.isLive, life, last])

/-- The node whose entry a report is about: the element's own, or its link's origin. -/
def Report.owner (r : Report) : NodeId :=
  match r.element with
  | .node id => id
  | .link ref => ref.origin

theorem tickReports_owner {n : NodeEntry} {r : Report} (h : r ∈ tickReports n) : r.owner = n.id := by
  rcases tickedNode_cases State.reset.cfg n with ⟨-, -, -, none⟩ | ⟨-, -, one⟩ | ⟨-, -, all⟩
  · rw [none] at h; cases h
  · rw [one, List.mem_singleton] at h
    rw [h]; rfl
  · rw [all, List.mem_cons, List.mem_map] at h
    rcases h with rfl | ⟨l, -, rfl⟩ <;> rfl

theorem mem_tickReports {nodes : List NodeEntry} (ids : (nodes.map (·.id)).Nodup) {r : Report} :
    r ∈ nodes.flatMap tickReports ↔ ∃ n, findNode nodes r.owner = some n ∧ r ∈ tickReports n := by
  rw [List.mem_flatMap]
  constructor
  · rintro ⟨n, mem, report⟩
    exact ⟨n, by rw [tickReports_owner report]; exact findNode_of_mem ids mem, report⟩
  · rintro ⟨n, found, report⟩
    exact ⟨n, (findNode_some found).1, report⟩

/-! ### R21's changes of one element -/

section
variable {b b' : Bool} {nodes nodes' : List NodeEntry} {id : NodeId} {kind : ReportKind}

theorem changed_node_none (before : findNode nodes id = none) (after : findNode nodes' id = none) :
    ¬ Changed b b' nodes nodes' { element := .node id, kind := kind } := by
  cases kind <;> simp [Changed, liveNode, before, after]

theorem changed_node_freed {n : NodeEntry} (before : findNode nodes id = some n) (after : findNode nodes' id = none) :
    Changed b b' nodes nodes' { element := .node id, kind := kind } ↔ kind = .freed := by
  cases kind <;> simp [Changed, liveNode, before, after]

theorem changed_node_added {m : NodeEntry} (before : findNode nodes id = none) (after : findNode nodes' id = some m) :
    Changed b b' nodes nodes' { element := .node id, kind := kind } ↔ kind = .live ∧ m.isLive = true := by
  cases kind <;> simp [Changed, liveNode, before, after]

theorem changed_node_kept {n m : NodeEntry} (before : findNode nodes id = some n) (after : findNode nodes' id = some m) :
    Changed b b' nodes nodes' { element := .node id, kind := kind } ↔
      kind = .live ∧ n.isLive = false ∧ m.isLive = true ∨ kind = .withdrawn ∧ n.isLive = true ∧ m.isLive = false ∨
      kind = .transitQ ∧ n.transitQ ≠ m.transitQ ∨ kind = .regens ∧ n.regens ≠ m.regens := by
  cases kind <;> simp [Changed, liveNode, before, after]

end

/-- Where a link is as it was, R21 names no change of it but USABILITY. -/
theorem usability_of_same_link {b b' : Bool} {nodes nodes' : List NodeEntry} {ref : LinkRef} {kind : ReportKind}
    (same : findLink nodes' ref = findLink nodes ref)
    (changed : Changed b b' nodes nodes' { element := .link ref, kind := kind }) : kind = .usability := by
  cases kind with
  | usability => rfl
  | created => exact absurd (same.trans changed.1) changed.2
  | freed => exact absurd (same.symm.trans changed.2) changed.1
  | condition =>
    obtain ⟨l, held, differ⟩ := changed
    rw [← same, held] at differ
    exact absurd rfl differ
  | live | withdrawn | transitQ | regens => exact changed.elim
  | _ =>
    obtain ⟨k, l, before, after, differ⟩ := changed
    obtain rfl : k = l := Option.some.inj (before.symm.trans (same.symm.trans after))
    simp at differ

theorem changed_link_freed {b b' : Bool} {nodes nodes' : List NodeEntry} {ref : LinkRef} {kind : ReportKind}
    (after : findLink nodes' ref = none) (usability : kind ≠ .usability) :
    Changed b b' nodes nodes' { element := .link ref, kind := kind } ↔
      kind = .freed ∧ findLink nodes ref ≠ none := by
  cases kind <;> simp [Changed, after] at usability ⊢

theorem findLid_ne_none {ls : List Link} {lid : Word16} : findLid ls lid ≠ none ↔ ∃ l ∈ ls, l.lid = lid := by
  simp [findLid]

section
variable {cfg : Settings} {nodes : List NodeEntry} (ids : (nodes.map (·.id)).Nodup)
include ids

theorem findNode_ticked (id : NodeId) :
    findNode (nodes.filterMap (tickedNode cfg)) id = (findNode nodes id).bind (tickedNode cfg) :=
  findNode_filterMap (fun n m h => by rw [tickedNode_keeps h]) ids id

/-- The changes of a tick but USABILITY are the reports of its nodes (R21). -/
theorem changed_tick {b : Bool} {r : Report} (kind : r.kind ≠ .usability) :
    Changed b b nodes (nodes.filterMap (tickedNode cfg)) r ↔ r ∈ nodes.flatMap tickReports := by
  rw [mem_tickReports ids]
  obtain ⟨el, k⟩ := r
  change k ≠ .usability at kind
  cases el with
  | node id =>
    change _ ↔ ∃ n, findNode nodes id = some n ∧ _
    have after := findNode_ticked (cfg := cfg) ids id
    cases before : findNode nodes id with
    | none =>
      rw [before] at after
      simpa using changed_node_none before after
    | some n =>
      obtain ⟨-, rfl⟩ := findNode_some before
      rw [before, Option.bind_some] at after
      simp only [Option.some.injEq, exists_eq_left']
      rcases tickedNode_cases cfg n with ⟨m, stays, alive, none⟩ | ⟨live, ⟨m, goes, down⟩, one⟩ | ⟨down, gone, all⟩
      · rw [none, changed_node_kept before (after.trans stays), alive, tickedNode_keeps stays]
        simp
      · rw [one, changed_node_kept before (after.trans goes), live, down, tickedNode_keeps goes]
        simp
      · rw [all, changed_node_freed before (after.trans gone)]
        simp
  | link ref =>
    change _ ↔ ∃ n, findNode nodes ref.origin = some n ∧ _
    have after := findNode_ticked (cfg := cfg) ids ref.origin
    cases before : findNode nodes ref.origin with
    | none =>
      have same : findLink (nodes.filterMap (tickedNode cfg)) ref = findLink nodes ref := by
        rw [findLink, findLink, after, before]
        rfl
      simpa using fun changed => kind (usability_of_same_link same changed)
    | some n =>
      obtain ⟨-, origin⟩ := findNode_some before
      rw [before, Option.bind_some] at after
      simp only [Option.some.injEq, exists_eq_left']
      have kept {m : NodeEntry} (stays : tickedNode cfg n = some m) :
          ¬ Changed b b nodes (nodes.filterMap (tickedNode cfg)) { element := .link ref, kind := k } := by
        have same : findLink (nodes.filterMap (tickedNode cfg)) ref = findLink nodes ref := by
          rw [findLink, findLink, after, before, stays, tickedNode_keeps stays]
          rfl
        exact fun changed => kind (usability_of_same_link same changed)
      rcases tickedNode_cases cfg n with ⟨m, stays, -, none⟩ | ⟨-, ⟨m, goes, -⟩, one⟩ | ⟨-, gone, all⟩
      · simpa [none] using kept stays
      · simpa [one] using kept goes
      · have freed : findLink (nodes.filterMap (tickedNode cfg)) ref = none := by
          rw [findLink, after, gone]
          rfl
        have held : findLink nodes ref ≠ none ↔ ∃ l ∈ n.links, l.lid = ref.lid := by
          rw [← findLid_ne_none, findLink, before]
          rfl
        rw [all, changed_link_freed freed kind, held]
        obtain ⟨o, lid⟩ := ref
        subst origin
        constructor
        · rintro ⟨rfl, l, mem, rfl⟩
          exact List.mem_cons_of_mem _ (List.mem_map.2 ⟨l, mem, rfl⟩)
        · intro mem
          obtain ⟨l, inList, same⟩ : ∃ l ∈ n.links, _ := by simpa using mem
          obtain ⟨rfl, rfl⟩ := same
          exact ⟨rfl, l, inList, rfl⟩

end

theorem tickReports_kind {n : NodeEntry} {r : Report} (h : r ∈ tickReports n) : r.kind ≠ .usability := by
  rcases tickedNode_cases State.reset.cfg n with ⟨-, -, -, none⟩ | ⟨-, -, one⟩ | ⟨-, -, all⟩
  · rw [none] at h; cases h
  · rw [one, List.mem_singleton] at h
    subst h
    exact nofun
  · rw [all, List.mem_cons, List.mem_map] at h
    rcases h with rfl | ⟨l, -, rfl⟩ <;> simp

/-- The whole of a tick at the store (R16, R17, R20 to R23). -/
theorem tickStore_event {s : State} (listed : TableListed s.tst.nodes) :
    StoreEvent s (eventState s (tickStore s.cfg s.tst)) (eventReports s (tickStore s.cfg s.tst)) := by
  refine eventState_event (tickStore_listed _ listed) (fun _ h => h.elim) fun r => ?_
  rw [tickStore_nodes, tickStore_reports, or_false]
  refine ⟨fun mem => ?_, fun ⟨kind, changed⟩ => (changed_tick listed.1 kind).1 changed⟩
  obtain ⟨n, -, report⟩ := List.mem_flatMap.1 mem
  have kind := tickReports_kind report
  exact ⟨kind, (changed_tick listed.1 kind).2 mem⟩

theorem tickStore_order {s : State} (listed : TableListed s.tst.nodes) :
    ∃ us, eventReports s (tickStore s.cfg s.tst) = s.tst.nodes.flatMap tickReports ++ us ∧ UsabilityOrder us :=
  ⟨usabilityReports s.cfg.twoWay s.cfg.twoWay s.tst.nodes (tickStore s.cfg s.tst).nodes,
    by rw [eventReports, tickStore_reports], usabilityReports_inOrder (tickStore_listed _ listed)⟩

theorem usable_iff {twoWay : Bool} {nodes : List NodeEntry} {o : NodeEntry} {l : Link} :
    usable twoWay nodes o l = true ↔ o.isLive = true ∧
      ∃ r, findNode nodes l.remote = some r ∧ r.isLive = true ∧ l.admin = .up ∧
        (twoWay = true → ∃ k ∈ r.links, k.remote = o.id ∧ ∀ x, l.remoteLid = some x → k.lid = x) := by
  have reverse (r : NodeEntry) : hasReverse r o.id l = true ↔
      ∃ k ∈ r.links, k.remote = o.id ∧ ∀ x, l.remoteLid = some x → k.lid = x := by
    unfold hasReverse
    cases l.remoteLid <;> simp
  unfold usable unusableReason
  cases origin : o.isLive with
  | false => simp
  | true =>
    cases found : findNode nodes l.remote with
    | none => simp
    | some r =>
      cases remote : r.isLive with
      | false => simp [remote]
      | true =>
        cases l.admin with
        | down => simp [remote]
        | up => cases twoWay <;> simp [remote, ← reverse]

/-- A row of the store's tick, where its guard holds (log entry 3). -/
theorem exec_storeTick {s : State} {c : Instr} (running : s.stc.part ≠ .standby) (owed : s.stc.offered.store = true)
    (row : (c = .nodeAgeExpiry ∧ ∃ n ∈ s.tst.nodes, agingOut n = true) ∨
      (c = .holdDownExpiry ∧ ∃ n ∈ s.tst.nodes, holdDownEnding n = true)) :
    exec c s = .next ((s.setOffered { s.stc.offered with store := false }).storeEvent (tickStore s.cfg s.tst)) := by
  have act := actStore_owed owed (standby_eq_false.2 running)
  rcases row with ⟨rfl, guard⟩ | ⟨rfl, guard⟩
  · rw [exec_nodeAgeExpiry, State.nodeAgeExpiry, if_pos (List.any_eq_true.2 guard), act]
  · rw [exec_holdDownExpiry, State.holdDownExpiry, if_pos (List.any_eq_true.2 guard), act]

theorem agingOut_iff {n : NodeEntry} : agingOut n = true ↔ ∃ a, n.life = .live a ∧ a ≤ 1 := by
  unfold agingOut
  cases n.life <;> simp

theorem holdDownEnding_iff {n : NodeEntry} : holdDownEnding n = true ↔ ∃ h, n.life = .withdrawn h ∧ h ≤ 1 := by
  unfold holdDownEnding
  cases n.life <;> simp

/-- Settles O39: the rows are the store event of `tickStore`, whose nodes, raises, reports and counters are those
of the nodes at their last tick. -/
theorem storeAgesItsNodes : Obligations.StoreAgesItsNodes := by
  unfold Obligations.StoreAgesItsNodes
  refine ⟨fun s c running owed row => ?nodes, fun s c aged freed running owed sound haged hfreed row => ?event,
    fun twoWay nodes o l => usable_iff, fun s => ⟨rfl, fun r rs => rfl⟩⟩
  case nodes =>
    simp only [← agingOut_iff, ← holdDownEnding_iff] at row
    refine ⟨_, exec_storeTick running owed row, ?_⟩
    have serves := storeEvent_serves (s.setOffered { s.stc.offered with store := false }) (tickStore s.cfg s.tst)
    exact ⟨serves.cfg, serves.stc, (congrArg (·.nodes) serves.tst).trans (tickStore_nodes s.cfg s.tst)⟩
  case event =>
    obtain rfl : aged = s.tst.nodes.filter agingOut := haged
    obtain rfl : freed = s.tst.nodes.filter holdDownEnding := hfreed
    simp only [ne_eq, List.filter_eq_nil_iff, not_forall, exists_prop, Bool.not_eq_true, Bool.not_eq_false] at row
    refine ⟨_, _, _, exec_storeTick running owed row, storeEvent_eq .., ?_, ?_, ?_, ?_, ?_⟩
    · exact (batch_serves (eventState _ _) _).tst
    · exact tickStore_event (s := s.setOffered { s.stc.offered with store := false }) sound.listed
    · exact tickStore_order (s := s.setOffered { s.stc.offered with store := false }) sound.listed
    · rw [eventState_evu, tickStore_raises]
      exact raiseAll_evu (s := s.setOffered { s.stc.offered with store := false }) (t := s) rfl rfl _
    · rw [eventState_tst]
      exact tickStore_counters s.cfg s.tst

end Sys2Proof.Machine

/-!
LEMMAS. The watch list: its ticks, its batches, its hold offers and its reroutes (O40, O43).
-/
namespace Sys2Proof.Machine

/-! ## One entry among the others -/

theorem apart_of_ids {pre post : List WatchEntry} {w : WatchEntry}
    (ids : ((pre ++ w :: post).map (·.id)).Nodup) : ∀ x ∈ pre ++ post, x.id ≠ w.id := by
  rw [List.map_append, List.map_cons, List.nodup_middle, List.nodup_cons, ← List.map_append] at ids
  exact fun x mem same => ids.1 (List.mem_map.2 ⟨x, mem, same⟩)

theorem WatchIdsSound.nodup {w : WatchList} (sound : WatchIdsSound w) : (w.entries.map (·.id)).Nodup :=
  (List.pairwise_map.2 sound.1).imp Nat.ne_of_lt

/-- Submitting a reroute writes the entry back and, where the queue takes it, accepts the request (R102, R130,
R131). -/
theorem submitReroute_eq {s : State} {pre post : List WatchEntry} {v w : WatchEntry}
    (split : s.pwl.entries = pre ++ v :: post) (same : v.id = w.id) (apart : ∀ x ∈ pre ++ post, x.id ≠ w.id) :
    (s.stc.part = .standby ∨ 64 ≤ s.rq.queue.length →
      s.submitReroute w = s.withEntries (pre ++ { w with submitPending := true } :: post)) ∧
    (s.stc.part ≠ .standby → s.rq.queue.length < 64 →
      s.submitReroute w = (s.withEntries (pre ++ { w with submitPending := false } :: post)).accept w.request) := by
  obtain ⟨-, put⟩ := watch_alone same apart
  have written (mark : Bool) : s.setWatch { w with submitPending := mark } =
      s.withEntries (pre ++ { w with submitPending := mark } :: post) := by
    rw [State.setWatch, split, put { w with submitPending := mark } rfl]
    rfl
  refine ⟨fun refused => ?_, fun running room => ?_⟩
  · have guard : (s.standby || decide (s.rq.queue.length ≥ Config.requestQueue)) = true := by
      rw [Bool.or_eq_true, decide_eq_true_eq, standby_iff]
      exact refused
    rw [State.submitReroute, if_pos guard, written]
  · have guard : ¬ (s.standby || decide (s.rq.queue.length ≥ Config.requestQueue)) = true := by
      rw [Bool.or_eq_true, decide_eq_true_eq, standby_iff]
      rintro (standby | full)
      · exact running standby
      · exact room.not_ge full
    rw [State.submitReroute, if_neg guard, written]
    rfl

theorem submitReroute_submits {s : State} {pre post : List WatchEntry} {w : WatchEntry}
    (split : s.pwl.entries = pre ++ w :: post) (apart : ∀ x ∈ pre ++ post, x.id ≠ w.id) :
    Submits s (s.submitReroute w) w.id := by
  obtain ⟨refused, accepted⟩ := submitReroute_eq split rfl apart
  exact ⟨pre, post, w, split, rfl, apart, refused, accepted⟩

/-! ## The batch of one store event (R125, R127 to R130) -/

section
variable {rs : List Report} {s : State} {pre post : List WatchEntry} {w : WatchEntry}

/-- The batch passes an entry over (R127). -/
def PassedOver (rs : List Report) (w : WatchEntry) : Prop :=
  (w.state ≠ .reserved ∧ w.state ≠ .active) ∨ ¬ Concerned rs w

theorem batchEntry_passes {id : Nat} (h : ∀ x, findWatch s.pwl.entries id = some x → PassedOver rs x) :
    s.batchEntry rs id = s := by
  unfold State.batchEntry
  split
  case h_1 => rfl
  case h_2 w found =>
    rw [if_neg]
    rintro ⟨active, concerned⟩
    rcases h w found with ⟨notReserved, notActive⟩ | other
    · exact active.elim notReserved notActive
    · exact other ((concerns_iff rs w).1 concerned)

theorem occupancyReported_iff : occupancyReported rs w = true ↔
    ∃ r ∈ rs, r.kind = .occupancy ∧ ∃ h ∈ w.paths.flatMap pathHops, r.element = .link h.ref := by
  simp only [occupancyReported, List.any_eq_true, Bool.and_eq_true, beq_iff_eq]

theorem confirmed_iff : confirmed s w = true ↔
    ∀ c ∈ w.slotClaims, ∃ l, findLink s.tst.nodes c.ref = some l ∧ c.slots &&& l.occupied = c.slots := by
  simp only [confirmed, List.all_eq_true, occupies_iff]

/-- The overlay once an entry has left RESERVED (R120). -/
theorem leaveReserved_eq : s.leaveReserved w =
    s.withOverlay (if w.state = .reserved then s.pwl.overlay.without w.id else s.pwl.overlay) := by
  unfold State.leaveReserved
  split <;> rfl

variable (split : s.pwl.entries = pre ++ w :: post) (apart : ∀ x ∈ pre ++ post, x.id ≠ w.id)
include split apart

theorem batchEntry_passed (passed : PassedOver rs w) : s.batchEntry rs w.id = s :=
  batchEntry_passes fun x found => by
    rw [split, (watch_alone rfl apart).1] at found
    exact Option.some.inj found ▸ passed

section
variable (active : w.state = .reserved ∨ w.state = .active) (concerned : Concerned rs w)
include active concerned

theorem batchEntry_violates {r : ViolationReason} (violated : violationCheck s w = some r) :
    s.batchEntry rs w.id = s.violate w r := by
  have found : findWatch s.pwl.entries w.id = some w := by rw [split, (watch_alone rfl apart).1]
  rw [State.batchEntry, found]
  simp only [if_pos (And.intro active ((concerns_iff rs w).2 concerned)), violated]

theorem batchEntry_whole (whole : violationCheck s w = none) : s.batchEntry rs w.id =
    if w.state = .reserved ∧ occupancyReported rs w = true ∧ confirmed s w = true then s.confirm w else s := by
  have found : findWatch s.pwl.entries w.id = some w := by rw [split, (watch_alone rfl apart).1]
  rw [State.batchEntry, found]
  simp only [if_pos (And.intro active ((concerns_iff rs w).2 concerned)), whole]

theorem batchEntry_confirms (whole : violationCheck s w = none) (is : w.state = .reserved ∧
      (∃ r ∈ rs, r.kind = .occupancy ∧ ∃ h ∈ w.paths.flatMap pathHops, r.element = .link h.ref) ∧
      ∀ c ∈ w.slotClaims, ∃ l, findLink s.tst.nodes c.ref = some l ∧ c.slots &&& l.occupied = c.slots) :
    s.batchEntry rs w.id = (s.withEntries
      (pre ++ { w with state := .active, rerouteLeft := w.desc.rerouteLimit } :: post)).withOverlay
        (s.pwl.overlay.without w.id) := by
  rw [← occupancyReported_iff, ← confirmed_iff] at is
  rw [batchEntry_whole split apart active concerned whole, if_pos is]
  have written := (watch_alone rfl apart).2 { w with state := .active, rerouteLeft := w.desc.rerouteLimit } rfl
  rw [State.confirm, State.setWatch]
  change { s with pwl := { entries := replaceWatch _ s.pwl.entries, overlay := _ } } = _
  rw [split, written]
  rfl

theorem batchEntry_unconfirmed (whole : violationCheck s w = none) (is : ¬ (w.state = .reserved ∧
      (∃ r ∈ rs, r.kind = .occupancy ∧ ∃ h ∈ w.paths.flatMap pathHops, r.element = .link h.ref) ∧
      ∀ c ∈ w.slotClaims, ∃ l, findLink s.tst.nodes c.ref = some l ∧ c.slots &&& l.occupied = c.slots)) :
    s.batchEntry rs w.id = s := by
  rw [← occupancyReported_iff, ← confirmed_iff] at is
  rw [batchEntry_whole split apart active concerned whole, if_neg is]

end

/-- Under NOTICE a violated entry is raised (R129). -/
theorem violate_notice {r : ViolationReason} (notice : w.desc.action = .notice) : s.violate w r =
    ((s.withEntries (pre ++ { w with reason := some r, state := .violated } :: post)).withOverlay
      (if w.state = .reserved then s.pwl.overlay.without w.id else s.pwl.overlay)).raise .watchViolated
        (.watch w.id w.tag) .none := by
  have written := (watch_alone rfl apart).2 { w with reason := some r, state := .violated } rfl
  simp only [State.violate, notice]
  rw [leaveReserved_eq, State.setWatch]
  change State.raiseWatch { s with pwl := { entries := replaceWatch _ s.pwl.entries, overlay := _ } } _ _ = _
  rw [split, written]
  rfl

/-- Under RECOMPUTE a violated entry submits its request (R130). -/
theorem violate_recompute {r : ViolationReason} (recompute : w.desc.action = .recompute) : s.violate w r =
    ((s.withEntries (pre ++ { w with reason := some r, state := .rerouting } :: post)).withOverlay
      (if w.state = .reserved then s.pwl.overlay.without w.id else s.pwl.overlay)).submitReroute
        { w with reason := some r, state := .rerouting } := by
  simp only [State.violate, recompute]
  rw [leaveReserved_eq]
  generalize (if w.state = .reserved then s.pwl.overlay.without w.id else s.pwl.overlay) = left
  obtain ⟨refused, accepted⟩ := submitReroute_eq (s := s.withOverlay left) (v := w)
    (w := { w with reason := some r, state := .rerouting }) split rfl apart
  obtain ⟨refused', accepted'⟩ := submitReroute_eq (v := { w with reason := some r, state := .rerouting })
    (s := (s.withEntries (pre ++ { w with reason := some r, state := .rerouting } :: post)).withOverlay left)
    rfl rfl apart
  by_cases h : s.stc.part = .standby ∨ 64 ≤ s.rq.queue.length
  · exact (refused h).trans (refused' h).symm
  · rw [not_or, not_le] at h
    exact (accepted h.1 h.2).trans (accepted' h.1 h.2).symm

/-- What the batch does to the entry of one id (R127). -/
theorem batchEntry_batchActs : BatchActs rs s (s.batchEntry rs w.id) w.id := by
  refine ⟨pre, post, w, split, rfl, apart, batchEntry_passed split apart, fun active concerned left hleft => ?_⟩
  subst hleft
  refine ⟨fun r violated => ⟨fun notice => ?_, fun recompute => ?_⟩, fun whole is his => ?_⟩
  · rw [batchEntry_violates split apart active concerned violated, violate_notice split apart notice]
  · rw [batchEntry_violates split apart active concerned violated, violate_recompute split apart recompute]
    exact submitReroute_submits (w := { w with reason := some r, state := .rerouting }) rfl apart
  · subst his
    exact ⟨batchEntry_confirms split apart active concerned whole,
      batchEntry_unconfirmed split apart active concerned whole⟩

end

theorem submitReroute_watchIds (s : State) (w : WatchEntry) : (s.submitReroute w).watchIds = s.watchIds := by
  unfold State.submitReroute
  split
  · exact setWatch_watchIds ..
  · exact (accept_watchIds ..).trans (setWatch_watchIds ..)

theorem batchEntry_watchIds (rs : List Report) (s : State) (id : Nat) : (s.batchEntry rs id).watchIds = s.watchIds := by
  have violates (w : WatchEntry) (r : ViolationReason) : (s.violate w r).watchIds = s.watchIds := by
    unfold State.violate
    split
    · exact (setWatch_watchIds ..).trans (leaveReserved_watchIds ..)
    · exact (submitReroute_watchIds ..).trans (leaveReserved_watchIds ..)
  unfold State.batchEntry
  split
  · rfl
  · split
    · split
      · exact violates ..
      · split
        · exact setWatch_watchIds ..
        · rfl
    · rfl

theorem foldl_batchEntry_acts (rs : List Report) (ids : List Nat) {s : State} (nodup : s.watchIds.Nodup)
    (mem : ∀ id ∈ ids, id ∈ s.watchIds) : BatchActsAll rs ids s (ids.foldl (State.batchEntry rs) s) := by
  induction ids generalizing s with
  | nil => rfl
  | cons id ids ih =>
    obtain ⟨w, held, rfl⟩ := List.mem_map.1 (mem id (List.mem_cons_self ..))
    obtain ⟨pre, post, split⟩ := List.append_of_mem held
    have apart : ∀ x ∈ pre ++ post, x.id ≠ w.id := apart_of_ids (by rwa [← split])
    have kept := batchEntry_watchIds rs s w.id
    exact ⟨_, batchEntry_batchActs split apart,
      ih (kept ▸ nodup) fun k hk => kept ▸ mem k (List.mem_cons_of_mem _ hk)⟩

/-- A batch that concerns one entry alone is what it does to that entry. -/
theorem batch_one {rs : List Report} {s u : State} {pre post : List WatchEntry} {w v : WatchEntry}
    (split : s.pwl.entries = pre ++ w :: post) (ids : (s.pwl.entries.map (·.id)).Nodup)
    (others : ∀ x ∈ pre ++ post, PassedOver rs x) (acts : s.batchEntry rs w.id = u)
    (after : u.pwl.entries = pre ++ v :: post) (same : v.id = w.id) : s.batch rs = u := by
  have passes (t : State) (x : WatchEntry) (entries : t.pwl.entries = pre ++ x :: post) (id : Nat) (differ : id ≠ x.id) :
      t.batchEntry rs id = t := by
    refine batchEntry_passes fun y found => ?_
    have hid := findWatch_id found
    have mem := findWatch_mem found
    rw [entries, List.mem_append, List.mem_cons] at mem
    rcases mem with mem | rfl | mem
    · exact others y (List.mem_append_left _ mem)
    · exact absurd hid.symm differ
    · exact others y (List.mem_append_right _ mem)
  have passAll (t : State) (x : WatchEntry) (entries : t.pwl.entries = pre ++ x :: post) (l : List Nat)
      (differ : ∀ id ∈ l, id ≠ x.id) : l.foldl (State.batchEntry rs) t = t := by
    induction l with
    | nil => rfl
    | cons id l ih =>
      rw [List.foldl_cons, passes t x entries id (differ id (List.mem_cons_self ..))]
      exact ih fun k hk => differ k (List.mem_cons_of_mem _ hk)
  have apart : ∀ x ∈ pre ++ post, x.id ≠ w.id := apart_of_ids (by rwa [← split])
  rw [State.batch, split, List.map_append, List.map_cons, List.foldl_append, List.foldl_cons,
    passAll s w split _ fun id hid => ?_, acts, passAll u v after _ fun id hid => ?_]
  · obtain ⟨x, mem, rfl⟩ := List.mem_map.1 hid
    exact same ▸ apart x (List.mem_append_right _ mem)
  · obtain ⟨x, mem, rfl⟩ := List.mem_map.1 hid
    exact apart x (List.mem_append_left _ mem)

/-! ## The tick of the reservations (R126) -/

/-- A watch entry at an age tick: its timer runs in RESERVED, and ends the entry (R126). -/
def tickedWatch (w : WatchEntry) : Option WatchEntry :=
  if w.state ≠ .reserved then some w else if w.timer ≤ 1 then none else some { w with timer := w.timer - 1 }

/-- The overlay without the claims of these entries. -/
def Overlay.withoutAll (o : Overlay) (gone : List WatchEntry) : Overlay :=
  { slots := o.slots.filter (fun c => !gone.any (fun w => w.id == c.owner))
    regens := o.regens.filter (fun c => !gone.any (fun w => w.id == c.owner)) }

theorem withoutAll_nil (o : Overlay) : o.withoutAll [] = o := by simp [Overlay.withoutAll]

theorem withoutAll_cons (o : Overlay) (w : WatchEntry) (l : List WatchEntry) :
    o.withoutAll (w :: l) = (o.release w.id).withoutAll l := by
  have guard (k : Nat) : (!(w :: l).any (fun x => x.id == k)) = ((k != w.id) && !l.any (fun x => x.id == k)) := by
    rw [List.any_cons, Bool.not_or, bne, BEq.comm]
  simp only [Overlay.withoutAll, Overlay.release, List.filter_filter, guard, Bool.and_comm]

/-- The raises of the entries that a tick ends (R126). -/
def expiryRaises (gone : List WatchEntry) : List Raise :=
  gone.map (fun w => ⟨.reservationExpired, .watch w.id w.tag, .none⟩)

/-- The part after the timers of a tick, the entries in ascending watch id (R126). -/
def ticked (s : State) : State :=
  State.raiseAll { s with pwl :=
    { entries := s.pwl.entries.filterMap tickedWatch, overlay := s.pwl.overlay.withoutAll (s.pwl.entries.filter expiring) } }
    (expiryRaises (s.pwl.entries.filter expiring))

theorem foldl_tickReservation (todo : List WatchEntry) {s : State} {done : List WatchEntry}
    (entries : s.pwl.entries = done ++ todo) (ids : ((done ++ todo).map (·.id)).Nodup) :
    (todo.map (·.id)).foldl State.tickReservation s = State.raiseAll { s with pwl :=
      { entries := done ++ todo.filterMap tickedWatch, overlay := s.pwl.overlay.withoutAll (todo.filter expiring) } }
      (expiryRaises (todo.filter expiring)) := by
  induction todo generalizing s done with
  | nil =>
    rw [List.filter_nil, withoutAll_nil]
    simp only [List.filterMap_nil, ← entries]
    rfl
  | cons w todo ih =>
    have apart := apart_of_ids ids
    obtain ⟨found, put⟩ := watch_alone rfl apart
    rw [← entries] at found
    rw [List.map_cons, List.foldl_cons]
    have later (v : WatchEntry) (same : v.id = w.id) : ((done ++ [v] ++ todo).map (·.id)).Nodup := by
      simpa [same] using ids
    by_cases reserved : w.state = .reserved
    · by_cases last : w.timer ≤ 1
      · have step : s.tickReservation w.id = (s.removeWatch w.id).raise .reservationExpired (.watch w.id w.tag) .none := by
          rw [State.tickReservation, found]
          simp only [if_pos reserved, if_pos last]
          rfl
        have left : (s.tickReservation w.id).pwl.entries = done ++ todo := by
          rw [step]
          change s.pwl.entries.filter (fun x => x.id != w.id) = _
          rw [entries, List.filter_append, List.filter_cons_of_neg (by simp), ← List.filter_append, List.filter_eq_self]
          exact fun x mem => bne_iff_ne.2 (apart x mem)
        have rest : ((done ++ todo).map (·.id)).Nodup := by
          rw [List.map_append, List.map_cons, List.nodup_middle, List.nodup_cons, ← List.map_append] at ids
          exact ids.2
        have ends : tickedWatch w = none := by simp [tickedWatch, reserved, last]
        have expires : expiring w = true := by simp [expiring, reserved, last]
        rw [ih left rest, List.filterMap_cons_none ends, List.filter_cons_of_pos expires, withoutAll_cons, step]
        rfl
      · have step : s.tickReservation w.id = s.setWatch { w with timer := w.timer - 1 } := by
          rw [State.tickReservation, found]
          simp only [if_pos reserved, if_neg last]
        have written : (s.tickReservation w.id).pwl.entries = done ++ [{ w with timer := w.timer - 1 }] ++ todo := by
          rw [step, List.append_assoc]
          exact (congrArg _ entries).trans (put { w with timer := w.timer - 1 } rfl)
        have counts : tickedWatch w = some { w with timer := w.timer - 1 } := by simp [tickedWatch, reserved, last]
        have stays : ¬ expiring w = true := by simp [expiring, last]
        rw [ih written (later _ rfl), List.filterMap_cons_some counts, List.filter_cons_of_neg stays, step,
          List.append_assoc]
        rfl
    · have step : s.tickReservation w.id = s := by
        rw [State.tickReservation, found]
        simp only [if_neg reserved]
      have same : s.pwl.entries = done ++ [w] ++ todo := by rw [entries, List.append_assoc]; rfl
      have keeps : tickedWatch w = some w := by simp [tickedWatch, reserved]
      have stays : ¬ expiring w = true := by simp [expiring, reserved]
      rw [step, ih same (later w rfl), List.filterMap_cons_some keeps, List.filter_cons_of_neg stays, List.append_assoc]
      rfl

theorem tickReservations_eq {s : State} (ids : (s.pwl.entries.map (·.id)).Nodup) :
    (s.pwl.entries.map (·.id)).foldl State.tickReservation s = ticked s :=
  foldl_tickReservation (done := []) s.pwl.entries rfl ids

theorem ticked_entries (s : State) : (ticked s).pwl.entries = s.pwl.entries.filterMap tickedWatch := by
  rw [ticked, raiseAll_eq]

/-- An entry that owes its reroute request (R131). -/
def owesRequest (w : WatchEntry) : Bool := w.state == .rerouting && w.submitPending

theorem owedReroutes_eq (entries : List WatchEntry) :
    owedReroutes entries = (entries.filter owesRequest).map (·.id) := rfl

/-- The timers of a tick change no debt of the entries (R126, R131). -/
theorem owed_ticked (entries : List WatchEntry) :
    owedReroutes (entries.filterMap tickedWatch) = owedReroutes entries := by
  induction entries with
  | nil => rfl
  | cons w l ih =>
    rw [owedReroutes_eq, owedReroutes_eq] at ih ⊢
    by_cases reserved : w.state = .reserved
    · have settled (v : WatchEntry) (same : v.state = w.state) : ¬ owesRequest v = true := by
        simp [owesRequest, same, reserved]
      rw [List.filter_cons_of_neg (settled w rfl)]
      by_cases last : w.timer ≤ 1
      · rw [List.filterMap_cons_none (by simp [tickedWatch, reserved, last]), ih]
      · rw [List.filterMap_cons_some (b := { w with timer := w.timer - 1 }) (by simp [tickedWatch, reserved, last]),
          List.filter_cons_of_neg (settled { w with timer := w.timer - 1 } rfl), ih]
    · rw [List.filterMap_cons_some (b := w) (by simp [tickedWatch, reserved]), List.filter_cons, List.filter_cons]
      split <;> simp [ih]

theorem tickWatch_eq {s : State} (ids : (s.pwl.entries.map (·.id)).Nodup) :
    s.tickWatch = (owedReroutes s.pwl.entries).foldl State.submitOwed (ticked s) := by
  rw [State.tickWatch]
  simp only [tickReservations_eq ids, ticked_entries, owed_ticked]

/-! ### The requests owed (R131) -/

theorem submitOwed_submits {s : State} {pre post : List WatchEntry} {w : WatchEntry}
    (split : s.pwl.entries = pre ++ w :: post) (apart : ∀ x ∈ pre ++ post, x.id ≠ w.id) :
    s.submitOwed w.id = s.submitReroute w := by
  rw [State.submitOwed, split, (watch_alone rfl apart).1]

theorem submitOwed_watchIds (s : State) (id : Nat) : (s.submitOwed id).watchIds = s.watchIds := by
  unfold State.submitOwed
  split
  · rfl
  · exact submitReroute_watchIds ..

theorem foldl_submitOwed_submits (ids : List Nat) {s : State} (nodup : s.watchIds.Nodup)
    (mem : ∀ id ∈ ids, id ∈ s.watchIds) : SubmitsAll ids s (ids.foldl State.submitOwed s) := by
  induction ids generalizing s with
  | nil => rfl
  | cons id ids ih =>
    obtain ⟨w, held, rfl⟩ := List.mem_map.1 (mem id (List.mem_cons_self ..))
    obtain ⟨pre, post, split⟩ := List.append_of_mem held
    have apart : ∀ x ∈ pre ++ post, x.id ≠ w.id := apart_of_ids (by rwa [← split])
    have kept := submitOwed_watchIds s w.id
    refine ⟨_, ?_, ih (kept ▸ nodup) fun k hk => kept ▸ mem k (List.mem_cons_of_mem _ hk)⟩
    rw [submitOwed_submits split apart]
    exact submitReroute_submits split apart

theorem mem_watchIds_of_owed {s : State} : ∀ id ∈ owedReroutes s.pwl.entries, id ∈ (ticked s).watchIds := by
  intro id mem
  rw [← owed_ticked] at mem
  obtain ⟨w, held, rfl⟩ := List.mem_map.1 mem
  refine List.mem_map.2 ⟨w, ?_, rfl⟩
  rw [ticked_entries]
  exact (List.mem_filter.1 held).1

theorem ticked_watchIds_nodup {s : State} (ids : (s.pwl.entries.map (·.id)).Nodup) : (ticked s).watchIds.Nodup := by
  rw [State.watchIds, ticked_entries]
  refine List.pairwise_map.2 (List.pairwise_filterMap.2 ((List.pairwise_map.1 ids).imp fun {v w} differ x hx y hy => ?_))
  have same (v x : WatchEntry) (h : tickedWatch v = some x) : x.id = v.id := by
    unfold tickedWatch at h
    split_ifs at h
    · cases h; rfl
    · cases h; rfl
  rwa [same v x hx, same w y hy]

/-- The watch list's action on a tick: the timers, then the requests owed (R126, R131). -/
theorem tickWatch_submits {s : State} (ids : (s.pwl.entries.map (·.id)).Nodup) :
    SubmitsAll (owedReroutes s.pwl.entries) (ticked s) s.tickWatch := by
  rw [tickWatch_eq ids]
  exact foldl_submitOwed_submits _ (ticked_watchIds_nodup ids) mem_watchIds_of_owed

theorem exec_reservationExpiry_owed {s : State} (running : s.stc.part ≠ .standby) (owed : s.stc.offered.watch = true)
    (guard : s.pwl.entries.filter expiring ≠ []) : exec .reservationExpiry s =
      .next (s.setOffered { s.stc.offered with watch := false }).tickWatch := by
  have some : s.pwl.entries.any expiring = true := by
    obtain ⟨w, mem⟩ := List.exists_mem_of_ne_nil _ guard
    exact List.any_eq_true.2 ⟨w, List.mem_filter.1 mem⟩
  rw [exec_reservationExpiry, State.reservationExpiry, if_pos some, actWatch_owed owed (standby_eq_false.2 running)]

/-- An age tick that the watch list alone owes is its action. -/
theorem exec_ageTick_watch {s : State} (running : s.stc.part ≠ .standby)
    (only : s.stc.offered = { store := false, watch := true, epoch := false, settle := false }) :
    exec .ageTick s = .next (s.setOffered TickOffer.none).tickWatch := by
  have any : s.stc.offered.any = true := by rw [only]; rfl
  have serves := tickWatch_serves (s.setOffered TickOffer.none)
  have idle : (s.setOffered TickOffer.none).tickWatch.stc.offered = TickOffer.none := congrArg (·.offered) serves.stc
  rw [exec_ageTick, State.ageTick, if_pos any, State.finishTick, actStore_idle (by rw [only]),
    actWatch_owed (by rw [only]) (standby_eq_false.2 running), only]
  change Host.Outcome.next ((s.setOffered TickOffer.none).tickWatch.actEpoch.actSettle) = _
  rw [actEpoch_idle (by rw [idle]; rfl), actSettle_idle (by rw [idle]; rfl)]

theorem owedReroutes_nil {entries : List WatchEntry}
    (h : ∀ w ∈ entries, w.state = .rerouting → w.submitPending = false) : owedReroutes entries = [] := by
  rw [owedReroutes_eq, List.map_eq_nil_iff, List.filter_eq_nil_iff]
  intro w mem owes
  rw [owesRequest, Bool.and_eq_true, beq_iff_eq] at owes
  simp [h w mem owes.1] at owes

theorem tickWatch_settled {s : State} (ids : (s.pwl.entries.map (·.id)).Nodup)
    (none : ∀ w ∈ s.pwl.entries, w.state = .rerouting → w.submitPending = false) : s.tickWatch = ticked s := by
  rw [tickWatch_eq ids, owedReroutes_nil none]
  rfl

/-! ## The violation check (R128) and the noise (R62 to R64, R73) -/

theorem violationCheck_iff {s : State} {w : WatchEntry} {r : ViolationReason} {hops : List Hop}
    (hhops : hops = w.paths.flatMap pathHops) : violationCheck s w = some r ↔
      (∃ before h after, hops = before ++ h :: after ∧
        (∀ k ∈ before, hopViolation s w.desc k = none) ∧ hopViolation s w.desc h = some r) ∨
      ((∀ h ∈ hops, hopViolation s w.desc h = none) ∧
        (∃ p ∈ w.paths, ∃ g ∈ p, w.budget < segmentNoise s g.hops) ∧ r = .budget) := by
  subst hhops
  have beyond : (w.paths.any fun p => p.any fun g => decide (segmentNoise s g.hops > w.budget)) = true ↔
      ∃ p ∈ w.paths, ∃ g ∈ p, w.budget < segmentNoise s g.hops := by simp
  have failing : (∃ before h after, w.paths.flatMap pathHops = before ++ h :: after ∧
      (∀ k ∈ before, hopViolation s w.desc k = none) ∧ hopViolation s w.desc h = some r) ↔
      (w.paths.flatMap pathHops).findSome? (hopViolation s w.desc) = some r := by
    rw [List.findSome?_eq_some_iff]
    exact exists_congr fun _ => exists_congr fun _ => exists_congr fun _ => and_congr_right fun _ => and_comm
  rw [← beyond, failing, ← List.findSome?_eq_none_iff, violationCheck]
  cases (w.paths.flatMap pathHops).findSome? (hopViolation s w.desc) with
  | some v => simp
  | none =>
    by_cases any : (w.paths.any fun p => p.any fun g => decide (segmentNoise s g.hops > w.budget)) = true
    · simp [any, eq_comm]
    · simp [any]

theorem segmentNoise_cons (s : State) (h : Hop) (rest : List Hop) : segmentNoise s (h :: rest) =
    min (hopTerm s h + (rest.map (fun k => nodeTerm s.tst.nodes k.ref.origin + hopTerm s k)).sum) 1073741823 := by
  have sums (l : List Hop) (a b : Nat) (start : a = min b 1073741823) :
      l.foldl (fun acc k => addNoise (addNoise acc (nodeTerm s.tst.nodes k.ref.origin)) (hopTerm s k)) a =
        min (b + (l.map (fun k => nodeTerm s.tst.nodes k.ref.origin + hopTerm s k)).sum) 1073741823 := by
    induction l generalizing a b with
    | nil => exact start
    | cons k l ih =>
      rw [List.foldl_cons, ih _ (b + (nodeTerm s.tst.nodes k.ref.origin + hopTerm s k)) ?_, List.map_cons,
        List.sum_cons, Nat.add_assoc]
      simp only [addNoise, Config.noiseMax]
      omega
  refine sums rest _ (hopTerm s h) ?_
  simp only [addNoise, Config.noiseMax]
  omega

theorem hopTerm_found {s : State} {h : Hop} {l : Link} (found : findLink s.tst.nodes h.ref = some l) :
    hopTerm s h = noiseTerm (l.q.getD s.cfg.defaultLinkQ) := by
  rw [hopTerm, found]
  rfl

theorem hopViolation_found {s : State} {d : Descriptor} {h : Hop} {o : NodeEntry} {l : Link}
    (node : findNode s.tst.nodes h.ref.origin = some o) (link : findLid o.links h.ref.lid = some l) :
    (l.remote ≠ h.reached → hopViolation s d h = some .linkGone) ∧
    (l.remote = h.reached →
      (o.isLive = false ∨ liveNode s.tst.nodes l.remote = false → hopViolation s d h = some .nodeGone) ∧
      (o.isLive = true → liveNode s.tst.nodes l.remote = true →
        (l.admin = .down → hopViolation s d h = some .linkDown) ∧
        (l.admin = .up → usable s.cfg.twoWay s.tst.nodes o l = false → hopViolation s d h = some .linkGone) ∧
        (usable s.cfg.twoWay s.tst.nodes o l = true →
          hopViolation s d h =
            if l.cond.condition = .degraded ∧ d.policy = .avoid then some .linkDegraded else none))) := by
  have reason := unusableReason_eq s.cfg.twoWay s.tst.nodes o l
  have elsewhere (other : l.remote ≠ h.reached) : hopViolation s d h = some .linkGone := by
    simp only [hopViolation, node, link, if_pos other]
  have failing {u : UnusableReason} (here : l.remote = h.reached)
      (why : unusableReason s.cfg.twoWay s.tst.nodes o l = some u) : hopViolation s d h = some (violationOf u) := by
    simp only [hopViolation, node, link, if_neg (not_not.2 here), why]
  have good (here : l.remote = h.reached) (fine : unusableReason s.cfg.twoWay s.tst.nodes o l = none) :
      hopViolation s d h = if l.cond.condition = .degraded ∧ d.policy = .avoid then some .linkDegraded else none := by
    simp only [hopViolation, node, link, if_neg (not_not.2 here), fine]
  refine ⟨elsewhere, fun here => ⟨fun gone => ?_, fun origin remote => ⟨fun down => ?_, fun up off => ?_, fun on => ?_⟩⟩⟩
  · by_cases origin : o.isLive = false
    · rw [if_pos origin] at reason
      exact failing here reason
    · rw [if_neg origin, if_pos (gone.resolve_left origin)] at reason
      exact failing here reason
  · rw [origin, remote, down] at reason
    exact failing here reason
  · rw [origin, remote, up, off] at reason
    exact failing here reason
  · exact good here (by simpa [usable] using on)

/-! ## The reservation check (R122) -/

theorem reservationCheck_iff {s : State} {paths : List HeldPath} {claims : List SlotClaim} {marks : List NodeId}
    (hclaims : claims = paths.flatMap (pathClaims 0)) (hmarks : marks = paths.flatMap pathRegens) :
    reservationCheck s paths = true ↔
      (∀ c ∈ claims, ∃ l, findLink s.tst.nodes c.ref = some l ∧ c.slots &&& l.occupied = 0#320 ∧
        c.slots &&& s.pwl.overlay.reservedSlots c.ref = 0#320) ∧
      claims.Pairwise (fun b c => b.ref = c.ref → c.slots &&& b.slots = 0#320) ∧
      ∀ n ∈ marks, s.pwl.overlay.reservedRegens n + marks.count n ≤ storedRegens s.tst.nodes n := by
  subst hclaims hmarks
  rw [reservationCheck, Bool.and_eq_true, checkClaims_iff]
  simp only [checkRegens, List.all_eq_true, decide_eq_true_eq, List.count_eq_length_filter, List.not_mem_nil,
    false_imp_iff, implies_true, true_and, and_assoc]

/-! ## Hold offers (R121 to R124) -/

theorem reservedElements_iff {w : WatchEntry} {el : Element} : el ∈ reservedElements w ↔ ClaimedElement w el := by
  simp [reservedElements, ClaimedElement, eq_comm]

/-- An entry that becomes RESERVED: its claims enter the overlay and the other engine alone is marked (R123). -/
theorem reserve_holds (s : State) (e : EngineId) (w : WatchEntry) (entries : List WatchEntry) :
    s.reserve e w entries = { s with
      pwl := { entries := entries
               overlay := { slots := s.pwl.overlay.slots ++ w.slotClaims
                            regens := s.pwl.overlay.regens ++ w.regenClaims } }
      engA := (s.reserve e w entries).engA, engB := (s.reserve e w entries).engB } ∧
    (s.reserve e w entries).engine e = s.engine e ∧
    Marked (s.engine (otherEngine e)) ((s.reserve e w entries).engine (otherEngine e)) (ClaimedElement w) := by
  have marks := (touchAll_marked (s.engine (otherEngine e)) (reservedElements w)).congr
    fun el => reservedElements_iff
  cases e with
  | a => exact ⟨rfl, rfl, marks⟩
  | b => exact ⟨rfl, rfl, marks⟩

section
variable {s : State} {e : EngineId} {d : Descriptor} {primary : HeldPath} {protection : Option HeldPath}

theorem offerHold_mgmt {a : Address} (mgmt : d.requester = .mgmt a) :
    s.offerHold e d primary protection = s.offerNew e d a primary protection := by
  rw [State.offerHold, mgmt]

theorem offerNew_full {a : Address} (none : lowestFreeId s.pwl.entries = none) :
    s.offerNew e d a primary protection = (.full, s) := by
  rw [State.offerNew, none]

theorem offerNew_checked {a : Address} {id : Nat} (free : lowestFreeId s.pwl.entries = some id) :
    s.offerNew e d a primary protection =
      if reservationCheck s (primary :: protection.toList) = true then
        (.held id, s.reserve e (newWatch s (s.engine e) d a id primary protection)
          (insertWatch (newWatch s (s.engine e) d a id primary protection) s.pwl.entries))
      else (.conflict, s) := by
  rw [State.offerNew, free]

theorem offerHold_watchList (watch : d.requester = .watchList) :
    s.offerHold e d primary protection = s.offerReroute e d.tag.toNat primary protection := by
  rw [State.offerHold, watch]

theorem offerReroute_checked {id : Nat} {w : WatchEntry} (found : findWatch s.pwl.entries id = some w)
    (state : w.state = .rerouting) : s.offerReroute e id primary protection =
      if reservationCheck s (primary :: protection.toList) = true then
        (.held id, s.reserve e (rerouted s (s.engine e) w primary protection)
          (replaceWatch (rerouted s (s.engine e) w primary protection) s.pwl.entries))
      else (.conflict, s) := by
  rw [State.offerReroute, found]
  simp only [state, true_and]

end

/-! ## The watch list as a whole (O40) -/

theorem raiseAll_setOffered (s : State) (l : List Raise) (o : TickOffer) :
    (s.raiseAll l).setOffered o = (s.setOffered o).raiseAll l := by
  induction l generalizing s with
  | nil => rfl
  | cons r l ih => exact ih (s.raise r.cls r.subject r.reason)

theorem ticked_setOffered (s : State) (o : TickOffer) : ticked (s.setOffered o) = (ticked s).setOffered o := by
  rw [ticked, ticked, raiseAll_setOffered]
  rfl

/-- The timers' whole tick where no entry owes a request (R126, R131). -/
theorem setOffered_tickWatch {s : State} (ids : (s.pwl.entries.map (·.id)).Nodup)
    (none : ∀ w ∈ s.pwl.entries, w.state = .rerouting → w.submitPending = false) (o : TickOffer) :
    (s.setOffered o).tickWatch = (ticked s).setOffered o := by
  rw [tickWatch_settled (s := s.setOffered o) ids none, ticked_setOffered]

/-- An entry whose timer runs on at a tick (R126). -/
def runTimer (x : WatchEntry) : WatchEntry := if x.state = .reserved then { x with timer := x.timer - 1 } else x

theorem runTimer_id (x : WatchEntry) : (runTimer x).id = x.id := by
  unfold runTimer
  split <;> rfl

/-- A tick at which no reservation ends only runs the timers (R126). -/
theorem ticked_timers {s : State} (timers : ∀ x ∈ s.pwl.entries, x.state = .reserved → 2 ≤ x.timer) :
    ticked s = s.withEntries (s.pwl.entries.map runTimer) := by
  have none : s.pwl.entries.filter expiring = [] := by
    refine List.filter_eq_nil_iff.2 fun x mem expires => ?_
    rw [expiring, Bool.and_eq_true, beq_iff_eq, decide_eq_true_eq] at expires
    have := timers x mem expires.1
    omega
  have entries : s.pwl.entries.filterMap tickedWatch = s.pwl.entries.map runTimer := by
    rw [← List.filterMap_eq_map]
    refine List.filterMap_congr fun x mem => ?_
    by_cases reserved : x.state = .reserved
    · have := timers x mem reserved
      have more : ¬ x.timer ≤ 1 := by omega
      simp [tickedWatch, runTimer, reserved, more]
    · simp [tickedWatch, runTimer, reserved]
  rw [ticked, none, withoutAll_nil, entries]
  rfl

/-- An age tick that the watch list alone owes, where no reservation ends and one entry owes its request: the
timers run, and the request is submitted (R126, R131). -/
theorem ageTick_submits {s : State} {pre post : List WatchEntry} {w : WatchEntry} (running : s.stc.part ≠ .standby)
    (offered : s.stc.offered = { store := false, watch := true, epoch := false, settle := false })
    (ids : (s.pwl.entries.map (·.id)).Nodup) (timers : ∀ x ∈ s.pwl.entries, x.state = .reserved → 2 ≤ x.timer)
    (only : s.pwl.entries.filter owesRequest = [w]) (split : s.pwl.entries = pre ++ w :: post) :
    (s.rq.queue.length < 64 → exec .ageTick s = .next (((s.setOffered TickOffer.none).withEntries
      (pre.map runTimer ++ { w with submitPending := false } :: post.map runTimer)).accept w.request)) ∧
    (64 ≤ s.rq.queue.length → exec .ageTick s = .next ((s.setOffered TickOffer.none).withEntries
      (pre.map runTimer ++ { w with submitPending := true } :: post.map runTimer))) := by
  have rerouting : w.state = .rerouting := by
    have owes := (List.mem_filter.1 (only ▸ List.mem_singleton_self w)).2
    rw [owesRequest, Bool.and_eq_true, beq_iff_eq] at owes
    exact owes.1
  have still : runTimer w = w := if_neg (by rw [rerouting]; decide)
  have apart : ∀ x ∈ pre.map runTimer ++ post.map runTimer, x.id ≠ w.id := by
    rw [← List.map_append]
    intro x mem
    obtain ⟨y, hy, rfl⟩ := List.mem_map.1 mem
    rw [runTimer_id]
    exact apart_of_ids (by rwa [← split]) y hy
  have debts : owedReroutes s.pwl.entries = [w.id] := by rw [owedReroutes_eq, only]; rfl
  have timed : ticked (s.setOffered TickOffer.none) =
      (s.setOffered TickOffer.none).withEntries (pre.map runTimer ++ w :: post.map runTimer) := by
    rw [ticked_timers (s := s.setOffered TickOffer.none) timers]
    change State.withEntries _ (s.pwl.entries.map runTimer) = _
    rw [split, List.map_append, List.map_cons, still]
  have run : exec .ageTick s = .next (((s.setOffered TickOffer.none).withEntries
      (pre.map runTimer ++ w :: post.map runTimer)).submitReroute w) := by
    have owed : (s.setOffered TickOffer.none).tickWatch = [w.id].foldl State.submitOwed
        (ticked (s.setOffered TickOffer.none)) := debts ▸ tickWatch_eq (s := s.setOffered TickOffer.none) ids
    rw [exec_ageTick_watch running offered, owed, timed, ← submitOwed_submits rfl apart]
    rfl
  rw [run]
  obtain ⟨refused, accepted⟩ := submitReroute_eq (v := w)
    (s := (s.setOffered TickOffer.none).withEntries (pre.map runTimer ++ w :: post.map runTimer)) rfl rfl apart
  exact ⟨fun room => congrArg _ (accepted running room), fun full => congrArg _ (refused (.inr full))⟩

theorem regenClaims_segments (w : WatchEntry) : w.regenClaims =
    (((w.primary ++ w.protection.getD []).flatMap (·.hops)).filter (·.regen)).map (fun h =>
      { node := h.ref.origin, owner := w.id }) := by
  rw [← pathHops_segments, WatchEntry.regenClaims]
  simp only [pathRegens, List.filter_flatMap, List.map_flatMap, List.map_map]
  rfl

theorem deliver_watchList {s : State} {e : EngineId} {d : Descriptor} {r : ResultRecord}
    (watch : d.requester = .watchList) :
    s.deliver e d r = (s.setEngine e Engine.idle).rerouteResult d.tag.toNat r.primary := by
  simp only [State.deliver, watch]

theorem accept_busy_pwl {s : State} {d : Descriptor} (busyA : s.engA.mode ≠ .idle) (busyB : s.engB.mode ≠ .idle) :
    (s.accept d).pwl = s.pwl := by
  rw [accept_busy busyA busyB]

/-- Settles O40: each clause is the lemma of its operation. -/
theorem reservationExpires : Obligations.ReservationExpires := by
  unfold Obligations.ReservationExpires
  refine ⟨fun s w running owed entries reserved last => ?single,
    fun s expired running owed sound hexpired some none => ?expiry,
    fun s w ticked running owed sound timers only hticked => ?submits,
    fun s rs w pre post left sound split others hleft => ?batchOne, fun s rs sound => ?batch,
    fun s left expired owed running sound hexpired howed hleft => ?tick,
    fun s w r hops hhops => violationCheck_iff hhops,
    fun s d h => ⟨fun absent => ?hopGone, fun o l node link => hopViolation_found node link⟩,
    segmentNoise_cons, fun s h l found => hopTerm_found found, fun nodes id n found => ?nodeTerm,
    fun owner p => ⟨rfl, rfl⟩, slotRange_getLsbD,
    fun w segments hsegments => ?segments, fun nodes id => rfl,
    fun o ref id => ⟨reservedSlots_getLsbD o ref, reservedRegens_eq o id⟩,
    fun s paths claims marks hclaims hmarks => reservationCheck_iff hclaims hmarks,
    fun s e d primary protection held hheld => ⟨fun a mgmt => ?offerNew, fun w pre post watch sound split hid state =>
      ?offerReroute⟩,
    fun s v e d r w pre post sound split watch tag hv => ?deliver⟩
  case single =>
    have ids : (s.pwl.entries.map (·.id)).Nodup := by rw [entries]; exact List.nodup_singleton _
    have ends : expiring w = true := by simp [expiring, reserved, last]
    have expired : s.pwl.entries.filter expiring = [w] := by rw [entries, List.filter_cons_of_pos ends]; rfl
    have gone : s.pwl.entries.filterMap tickedWatch = [] := by rw [entries]; simp [tickedWatch, reserved, last]
    have still : ∀ x ∈ s.pwl.entries, x.state = .rerouting → x.submitPending = false := by
      rw [entries]
      intro x mem rerouting
      rw [List.mem_singleton.1 mem, reserved] at rerouting
      cases rerouting
    rw [exec_reservationExpiry_owed running owed (by rw [expired]; exact List.cons_ne_nil w []),
      setOffered_tickWatch ids still, ticked, expired, gone, withoutAll_cons, withoutAll_nil]
    rfl
  case expiry =>
    subst hexpired
    rw [exec_reservationExpiry_owed running owed some, setOffered_tickWatch sound.nodup none, ticked,
      raiseAll_setOffered]
    rfl
  case submits =>
    have mem : w ∈ s.pwl.entries.filter owesRequest := by
      have owing : s.pwl.entries.filter owesRequest = [w] := only
      rw [owing]
      exact List.mem_singleton_self w
    obtain ⟨pre, post, split⟩ := List.append_of_mem (List.mem_filter.1 mem).1
    have apart : ∀ x ∈ pre ++ post, x.id ≠ w.id := apart_of_ids (by rw [← split]; exact sound.nodup)
    have marked (mark : Bool) :
        ticked mark = pre.map runTimer ++ { w with submitPending := mark } :: post.map runTimer := by
      subst hticked
      simp only [split, List.map_append, List.map_cons, if_true]
      congr 1
      · exact List.map_congr_left fun x hx => if_neg (apart x (List.mem_append_left _ hx))
      · congr 1
        exact List.map_congr_left fun x hx => if_neg (apart x (List.mem_append_right _ hx))
    rw [marked, marked]
    exact ageTick_submits running owed sound.nodup timers only split
  case batchOne =>
    have apart : ∀ x ∈ pre ++ post, x.id ≠ w.id := apart_of_ids (by rw [← split]; exact sound.nodup)
    have one {u : State} {v : WatchEntry} (acts : s.batchEntry rs w.id = u) (after : u.pwl.entries = pre ++ v :: post)
        (same : v.id = w.id) : s.batch rs = u := batch_one split sound.nodup others acts after same
    refine ⟨fun passed => one (batchEntry_passed split apart passed) split rfl, fun active concerned =>
      ⟨fun r violated => ⟨fun notice => ?_, fun recompute refused => ?_, fun recompute run room busyA busyB => ?_⟩,
        fun whole is his => ⟨fun holds => ?_, fun fails => ?_⟩⟩⟩
    all_goals subst hleft
    · refine one (v := { w with reason := some r, state := .violated }) ?_ rfl rfl
      rw [batchEntry_violates split apart active concerned violated, violate_notice split apart notice]
    · refine one (v := { w with reason := some r, state := .rerouting, submitPending := true }) ?_ rfl rfl
      rw [batchEntry_violates split apart active concerned violated, violate_recompute split apart recompute]
      exact (submitReroute_eq (w := { w with reason := some r, state := .rerouting }) rfl rfl apart).1 refused
    · refine one (v := { w with reason := some r, state := .rerouting, submitPending := false }) ?_ ?_ rfl
      · rw [batchEntry_violates split apart active concerned violated, violate_recompute split apart recompute]
        exact (submitReroute_eq (w := { w with reason := some r, state := .rerouting }) rfl rfl apart).2 run room
      · rw [accept_busy_pwl]
        · rfl
        · exact busyA
        · exact busyB
    · subst his
      refine one (v := { w with state := .active, rerouteLeft := w.desc.rerouteLimit }) ?_ rfl rfl
      rw [batchEntry_confirms split apart active concerned whole holds, if_pos holds.1]
    · subst his
      exact one (batchEntry_unconfirmed split apart active concerned whole fails) split rfl
  case batch => exact foldl_batchEntry_acts rs _ sound.nodup fun _ mem => mem
  case tick =>
    obtain rfl : left = ticked s := by rw [hleft, hexpired]; rfl
    obtain rfl : owed = owedReroutes s.pwl.entries := howed
    refine ⟨fun offered some => ⟨_, exec_reservationExpiry_owed running offered (hexpired ▸ some), ?_⟩,
      fun only => ⟨_, exec_ageTick_watch running only, ?_⟩⟩
    · rw [← ticked_setOffered]
      exact tickWatch_submits (s := s.setOffered { s.stc.offered with watch := false }) sound.nodup
    · rw [← ticked_setOffered]
      exact tickWatch_submits (s := s.setOffered TickOffer.none) sound.nodup
  case hopGone =>
    unfold hopViolation
    cases node : findNode s.tst.nodes h.ref.origin with
    | none => rfl
    | some o =>
      have link : findLid o.links h.ref.lid = none := by simpa [findLink, node] using absent
      simp only [link]
  case nodeTerm => rw [nodeTerm, found]; rfl
  case segments =>
    subst hsegments
    exact ⟨pathHops_segments w, slotClaims_segments w, regenClaims_segments w⟩
  case offerNew =>
    obtain ⟨full, free⟩ := lowestFreeId_spec s.pwl.entries
    rw [offerHold_mgmt mgmt]
    refine ⟨fun all => offerNew_full (full all), fun id low unused lowest => ?_⟩
    rw [offerNew_checked (free id low unused lowest)]
    refine ⟨fun fails => if_neg (by simp [fails]), fun passes => ?_⟩
    obtain ⟨pre, post, split, inserted⟩ :=
      insertWatch_split (newWatch s (s.engine e) d a id primary protection) s.pwl.entries
    rw [if_pos passes, inserted, hheld]
    exact ⟨pre, post, _, split, rfl, reserve_holds ..⟩
  case offerReroute =>
    have apart : ∀ x ∈ pre ++ post, x.id ≠ w.id := apart_of_ids (by rw [← split]; exact sound.nodup)
    obtain ⟨found, put⟩ := watch_alone rfl apart
    rw [← split] at found
    rw [offerHold_watchList watch, ← hid, offerReroute_checked found state]
    refine ⟨fun fails => if_neg (by simp [fails]), fun passes => ?_⟩
    have replaced := put (rerouted s (s.engine e) w primary protection) rfl
    rw [if_pos passes, split, replaced, hheld]
    exact ⟨_, rfl, reserve_holds ..⟩
  case deliver =>
    have apart : ∀ x ∈ pre ++ post, x.id ≠ w.id := apart_of_ids (by rw [← split]; exact sound.nodup)
    have engine : (s.setEngine e Engine.idle).pwl = s.pwl := State.setEngine_pwl ..
    obtain ⟨-, takes⟩ := rerouteResult_takes (s.setEngine e Engine.idle) w.id r.primary
    obtain ⟨isFound, isAborted, failed⟩ := takes pre post w (by rw [engine, split]) rfl apart
    rw [deliver_watchList watch, tag, hv]
    rw [engine] at failed
    exact ⟨isFound, isAborted, failed⟩

end Sys2Proof.Machine

/-!
LEMMAS. An age tick that all four blocks owe, and a tick of the store that ends no node's state (O43).
-/
namespace Sys2Proof.Machine

/-! ## A tick at which no node's counter ends (R16, R17) -/

section
variable {cfg : Settings} {b : Bool} {nodes : List NodeEntry}
  (quiet : ∀ n ∈ nodes, ∃ k, 2 ≤ k ∧ (n.life = .live k ∨ n.life = .withdrawn k))
include quiet

/-- Every node stays, LIVE or WITHDRAWN as it was. -/
theorem tickedNode_quiet {n : NodeEntry} (mem : n ∈ nodes) :
    ∃ m, tickedNode cfg n = some m ∧ m.isLive = n.isLive ∧ tickReports n = [] := by
  obtain ⟨k, more, live | withdrawn⟩ := quiet n mem
  · have more : ¬ k ≤ 1 := by omega
    simp [tickedNode, tickReports, NodeEntry.isLive, live, more]
  · have more : ¬ k ≤ 1 := by omega
    simp [tickedNode, tickReports, NodeEntry.isLive, withdrawn, more]

theorem tickReports_quiet : nodes.flatMap tickReports = [] :=
  List.flatMap_eq_nil_iff.2 fun _ mem => (tickedNode_quiet (cfg := State.reset.cfg) quiet mem).elim fun _ h => h.2.2

theorem ticked_kept {n m : NodeEntry} (mem : n ∈ nodes) (stays : tickedNode cfg n = some m) :
    m.isLive = n.isLive ∧ m.id = n.id ∧ m.links = n.links := by
  obtain ⟨m', stays', live, -⟩ := tickedNode_quiet (cfg := cfg) quiet mem
  obtain rfl : m = m' := Option.some.inj (stays.symm.trans stays')
  have keeps := tickedNode_keeps stays
  exact ⟨live, (congrArg (·.id) keeps).trans rfl, (congrArg (·.links) keeps).trans rfl⟩

/-- No link's usability changes. -/
theorem usable_quiet (ids : (nodes.map (·.id)).Nodup) {n m : NodeEntry} (mem : n ∈ nodes)
    (stays : tickedNode cfg n = some m) (l : Link) :
    usable b (nodes.filterMap (tickedNode cfg)) m l = usable b nodes n l := by
  obtain ⟨live, id, -⟩ := ticked_kept quiet mem stays
  rw [Bool.eq_iff_iff, usable_iff, usable_iff, live, id, findNode_ticked ids]
  cases found : findNode nodes l.remote with
  | none => simp
  | some r =>
    have inTable := List.mem_of_find?_eq_some found
    obtain ⟨r', rStays, -, -⟩ := tickedNode_quiet (cfg := cfg) quiet inTable
    obtain ⟨rLive, -, rLinks⟩ := ticked_kept quiet inTable rStays
    simp [rStays, rLive, rLinks]

theorem usabilityReports_quiet {t : Store} (same : t.nodes = nodes) (listed : TableListed nodes) :
    usabilityReports b b nodes (tickStore cfg t).nodes = [] := by
  subst same
  refine List.eq_nil_iff_forall_not_mem.2 fun r mem => ?_
  obtain ⟨kind, changed⟩ := (mem_usabilityReports_iff (tickStore_listed cfg listed)).1 mem
  obtain ⟨el, k⟩ := r
  obtain rfl : k = .usability := kind
  cases el with
  | node id => exact changed
  | link ref =>
    obtain ⟨n, m, l, l', before, after, held, link, differ⟩ := changed
    rw [tickStore_nodes] at after differ
    obtain ⟨table, -⟩ := findNode_some before
    rw [findNode_ticked listed.1, before, Option.bind_some] at after
    obtain ⟨-, -, links⟩ := ticked_kept quiet table after
    rw [links, held] at link
    obtain rfl := Option.some.inj link
    exact differ (usable_quiet quiet listed.1 table after l).symm

end

/-- The store's tick that ends no node's state leaves the watch list alone (R127). -/
theorem storeEvent_quiet {s : State} (listed : TableListed s.tst.nodes)
    (quiet : ∀ n ∈ s.tst.nodes, ∃ k, 2 ≤ k ∧ (n.life = .live k ∨ n.life = .withdrawn k)) :
    (s.storeEvent (tickStore s.cfg s.tst)).pwl = s.pwl := by
  have none : eventReports s (tickStore s.cfg s.tst) = [] := by
    rw [eventReports, tickStore_reports, tickReports_quiet quiet, usabilityReports_quiet quiet rfl listed]
    rfl
  rw [storeEvent_eq, none, batch_nil, eventState, State.touchReports_pwl, raiseAll_eq]

/-! ## The four blocks in turn (R167) -/

section
variable (s : State)

/-- The part after the store's action. -/
@[irreducible] def storeTicked : State :=
  (s.setOffered { store := false, watch := true, epoch := true, settle := true }).storeEvent (tickStore s.cfg s.tst)

/-- The part after the watch list's. -/
@[irreducible] def watchTicked : State :=
  ((storeTicked s).setOffered { store := false, watch := false, epoch := true, settle := true }).tickWatch

/-- The part after Epoch Control's. -/
@[irreducible] def epochTicked : State :=
  ((watchTicked s).setOffered { store := false, watch := false, epoch := false, settle := true }).tickEpoch

/-- The part after State Control's, the whole tick. -/
@[irreducible] def allTicked : State := ((epochTicked s).setOffered TickOffer.none).tickSettle

theorem storeTicked_serves : Serves { s with
    tst := { nodes := (tickStore s.cfg s.tst).nodes, counters := (tickStore s.cfg s.tst).counters }
    stc := { s.stc with offered := { store := false, watch := true, epoch := true, settle := true } } }
    (storeTicked s) := by
  rw [storeTicked]
  exact storeEvent_serves (s.setOffered { store := false, watch := true, epoch := true, settle := true }) _

theorem watchTicked_serves : Serves
    ((storeTicked s).setOffered { store := false, watch := false, epoch := true, settle := true }) (watchTicked s) := by
  rw [watchTicked]
  exact tickWatch_serves _

theorem storeTicked_stc : (storeTicked s).stc =
    { s.stc with offered := { store := false, watch := true, epoch := true, settle := true } } :=
  (storeTicked_serves s).stc

theorem watchTicked_stc : (watchTicked s).stc =
    { s.stc with offered := { store := false, watch := false, epoch := true, settle := true } } :=
  (watchTicked_serves s).stc.trans
    (congrArg (fun x => { x with offered := { store := false, watch := false, epoch := true, settle := true } })
      (storeTicked_stc s))

/-- What Epoch Control's action changes in the part (R149). -/
theorem tickEpoch_keeps : s.tickEpoch = { s with
    spu := s.tickEpoch.spu, prb := s.tickEpoch.prb, epc := s.tickEpoch.epc, evu := s.tickEpoch.evu } := by
  unfold State.tickEpoch
  split
  · rfl
  · split
    · rw [epochEvent_keeps]
    · rfl

@[simp] theorem tickEpoch_stc : s.tickEpoch.stc = s.stc := by rw [tickEpoch_keeps]

@[simp] theorem tickEpoch_tst : s.tickEpoch.tst = s.tst := by rw [tickEpoch_keeps]

@[simp] theorem tickEpoch_pwl : s.tickEpoch.pwl = s.pwl := by rw [tickEpoch_keeps]

theorem epochTicked_stc : (epochTicked s).stc =
    { s.stc with offered := { store := false, watch := false, epoch := false, settle := true } } := by
  rw [epochTicked, tickEpoch_stc, State.setOffered, watchTicked_stc]

/-- What State Control's action changes in the part (R170). -/
theorem tickSettle_keeps : s.tickSettle = { s with stc := s.tickSettle.stc, evu := s.tickSettle.evu } := by
  unfold State.tickSettle
  split
  · split <;> rfl
  · rfl

@[simp] theorem tickSettle_tst : s.tickSettle.tst = s.tst := by rw [tickSettle_keeps]

@[simp] theorem tickSettle_pwl : s.tickSettle.pwl = s.pwl := by rw [tickSettle_keeps]

@[simp] theorem tickSettle_epc : s.tickSettle.epc = s.epc := by rw [tickSettle_keeps]

@[simp] theorem tickSettle_prb : s.tickSettle.prb = s.prb := by rw [tickSettle_keeps]

theorem tickSettle_stc : s.tickSettle.stc = { s.stc with
    part := if s.stc.part = .settling ∧ s.stc.settleTimer ≤ 1 then .operate else s.stc.part
    settleTimer := if s.stc.part = .settling
      then (if s.stc.settleTimer ≤ 1 then 0 else s.stc.settleTimer - 1) else s.stc.settleTimer } := by
  by_cases part : s.stc.part = .settling
  · by_cases last : s.stc.settleTimer ≤ 1 <;> simp [State.tickSettle, part, last]
  · simp [State.tickSettle, part]

end

/-- A tick that all four blocks owe is their actions in turn (R167). -/
theorem finishTick_owed {s : State} (running : s.stc.part ≠ .standby)
    (owed : s.stc.offered = { store := true, watch := true, epoch := true, settle := true }) :
    s.finishTick = allTicked s := by
  have store : s.actStore = storeTicked s := by
    rw [actStore_owed (by rw [owed]) (standby_eq_false.2 running), owed, storeTicked]
  have watch : (storeTicked s).actWatch = watchTicked s := by
    rw [actWatch_owed (by rw [storeTicked_stc]) (standby_eq_false.2 (by rwa [storeTicked_stc])),
      storeTicked_stc, watchTicked]
  have epoch : (watchTicked s).actEpoch = epochTicked s := by
    rw [actEpoch_owed (by rw [watchTicked_stc]) (standby_eq_false.2 (by rwa [watchTicked_stc])),
      watchTicked_stc, epochTicked]
  have settle : (epochTicked s).actSettle = allTicked s := by
    rw [actSettle_owed (by rw [epochTicked_stc]) (standby_eq_false.2 (by rwa [epochTicked_stc])),
      epochTicked_stc, allTicked]; rfl
  rw [State.finishTick, store, watch, epoch, settle]

theorem exec_ageTick_any {s : State} (owed : s.stc.offered.any = true) :
    exec .ageTick s = .next s.finishTick := by
  rw [exec_ageTick, State.ageTick, if_pos owed]

/-- An age tick that all four blocks owe (log entry 3). -/
theorem exec_ageTick_owed {s : State} (running : s.stc.part ≠ .standby)
    (owed : s.stc.offered = { store := true, watch := true, epoch := true, settle := true }) :
    exec .ageTick s = .next (allTicked s) := by
  rw [exec_ageTick_any (by rw [owed]; rfl), finishTick_owed running owed]

section
variable (s : State)

theorem allTicked_stc : (allTicked s).stc = { s.stc with
    offered := TickOffer.none
    part := if s.stc.part = .settling ∧ s.stc.settleTimer ≤ 1 then .operate else s.stc.part
    settleTimer := if s.stc.part = .settling
      then (if s.stc.settleTimer ≤ 1 then 0 else s.stc.settleTimer - 1) else s.stc.settleTimer } := by
  rw [allTicked, tickSettle_stc, State.setOffered, epochTicked_stc]

theorem allTicked_nodes : (allTicked s).tst.nodes = s.tst.nodes.filterMap (tickedNode s.cfg) := by
  have tst : (allTicked s).tst = (watchTicked s).tst := by
    rw [allTicked, tickSettle_tst, State.setOffered_tst, epochTicked, tickEpoch_tst, State.setOffered_tst]
  calc (allTicked s).tst.nodes
      = (storeTicked s).tst.nodes := congrArg Store.nodes (tst.trans (watchTicked_serves s).tst)
    _ = (tickStore s.cfg s.tst).nodes := congrArg Store.nodes (storeTicked_serves s).tst
    _ = s.tst.nodes.filterMap (tickedNode s.cfg) := tickStore_nodes s.cfg s.tst

theorem allTicked_pwl : (allTicked s).pwl = (watchTicked s).pwl := by
  rw [allTicked, tickSettle_pwl, State.setOffered_pwl, epochTicked, tickEpoch_pwl,
    State.setOffered_pwl]

/-- Epoch Control acts on its own items as they stood. -/
theorem allTicked_epoch : ∃ u : State, u.cfg = s.cfg ∧ u.epc = s.epc ∧ u.prb = s.prb ∧
    (allTicked s).epc = u.tickEpoch.epc ∧ (allTicked s).prb = u.tickEpoch.prb := by
  exact ⟨(watchTicked s).setOffered { store := false, watch := false, epoch := false, settle := true },
    (watchTicked_serves s).cfg.trans (storeTicked_serves s).cfg,
    (watchTicked_serves s).epc.trans (storeTicked_serves s).epc,
    (watchTicked_serves s).prb.trans (storeTicked_serves s).prb,
    by rw [allTicked, tickSettle_epc, State.setOffered_epc, epochTicked],
    by rw [allTicked, tickSettle_prb, State.setOffered_prb, epochTicked]⟩

/-- Where the store's event changes no node's state and no request is owed, the reservations' timers run. -/
theorem allTicked_entries (listed : TableListed s.tst.nodes)
    (quiet : ∀ n ∈ s.tst.nodes, ∃ k, 2 ≤ k ∧ (n.life = .live k ∨ n.life = .withdrawn k))
    (ids : (s.pwl.entries.map (·.id)).Nodup)
    (none : ∀ w ∈ s.pwl.entries, w.state = .rerouting → w.submitPending = false) :
    (allTicked s).pwl.entries = s.pwl.entries.filterMap tickedWatch := by
  have same : (storeTicked s).pwl = s.pwl := by
    rw [storeTicked]
    exact storeEvent_quiet (s := s.setOffered { store := false, watch := true, epoch := true, settle := true })
      listed quiet
  rw [allTicked_pwl, watchTicked, setOffered_tickWatch (s := storeTicked s) (same ▸ ids) (same ▸ none)]
  exact (ticked_entries (storeTicked s)).trans (by rw [same])

end

/-- Settles O43: the four blocks' actions one after another, each on what it alone changes. -/
theorem ageTickReachesTheFourBlocks : Obligations.AgeTickReachesTheFourBlocks := by
  unfold Obligations.AgeTickReachesTheFourBlocks
  refine ⟨fun s running owed => ?owed, fun s running none => ⟨fun due => ?due, fun early => ?early⟩⟩
  case owed =>
    obtain ⟨u, cfg, epc, prb, epcAfter, prbAfter⟩ := allTicked_epoch s
    refine ⟨allTicked s, exec_ageTick_owed running owed, congrArg (·.offered) (allTicked_stc s),
      congrArg (·.timebase) (allTicked_stc s), (allTicked_nodes s).trans ?nodes, fun quiet sound ids none => ?timers,
      fun follow => ?follow, fun mode more => ?counts, fun mode last => ?last, congrArg (·.part) (allTicked_stc s),
      congrArg (·.settleTimer) (allTicked_stc s)⟩
    case nodes =>
      refine List.filterMap_congr fun n _ => ?_
      cases life : n.life <;> simp [tickedNode, life]
    case timers =>
      refine (allTicked_entries s sound.listed quiet ids.nodup none).trans (List.filterMap_congr fun w _ => ?_)
      by_cases reserved : w.state = .reserved <;> simp [tickedWatch, reserved]
    case follow =>
      rw [epcAfter, prbAfter, tickEpoch_follow (by rwa [cfg])]
      exact ⟨epc, prb⟩
    case counts =>
      rw [← epc] at more
      rw [epcAfter, prbAfter, tickEpoch_counts (by rwa [cfg]) more, ← epc, ← prb]
      exact ⟨rfl, rfl⟩
    case last =>
      rw [← epc] at last
      rw [epcAfter, prbAfter, tickEpoch_last (by rwa [cfg]) last, epochEvent_keeps, applyEpoch_eq,
        ← cfg, ← epc, ← prb]
      exact ⟨rfl, rfl, rfl⟩
  case due =>
    have any : s.stc.offered.any = false := by rw [none]; rfl
    have taken : s.takeTick = { s with stc := { s.stc with
        timebase := 0
        offered := { store := true, watch := true, epoch := true, settle := true } } } := by
      simp [State.takeTick, standby_eq_false.2 running]
    rw [exec_ageTick, State.ageTick, any, if_neg Bool.false_ne_true,
      if_pos (show s.tickDue = true from decide_eq_true due), taken]
    symm
    apply exec_ageTick_any
    rfl
  case early =>
    have any : s.stc.offered.any = false := by rw [none]; rfl
    rw [exec_ageTick, State.ageTick, any, if_neg Bool.false_ne_true, if_neg]
    exact fun due => by have := of_decide_eq_true due; omega

end Sys2Proof.Machine

/-!
LEMMAS. A search's expansions and its ends: what an expansion keeps of its engine, the records of a search's
ends, and the RESULT's payload (O49, and O48 after it).
-/
namespace Sys2Proof.Machine

/-! ## What an expansion keeps of its engine (R79) -/

/-- The engine's frontier, with the insertion number and the counts, is all that stands apart. -/
def SameSearch (e y : Engine) : Prop :=
  y = { e with pool := y.pool, nextNumber := y.nextNumber, counts := y.counts }

theorem SameSearch.refl (e : Engine) : SameSearch e e := rfl

theorem SameSearch.trans {e y z : Engine} (one : SameSearch e y) (two : SameSearch y z) : SameSearch e z := by
  unfold SameSearch at *
  rw [two, one]

theorem evictFor_same (o : Order) (e : Engine) (c : Label) : SameSearch e (e.evictFor o c) := by
  unfold Engine.evictFor
  split
  · rfl
  · split <;> rfl

theorem insertLabel_same (o : Order) (e : Engine) (c : Label) : SameSearch e (e.insertLabel o c) := by
  unfold Engine.insertLabel
  split
  · rfl
  · dsimp only
    split
    · rfl
    · exact SameSearch.trans (show SameSearch e { e with pool := _ } from rfl) (evictFor_same o _ _)

theorem examineLink_same (s : State) (d : Descriptor) (x : Label) (xn : NodeEntry) (visited : List NodeId) (e : Engine)
    (l : Link) : SameSearch e (e.examineLink s d x xn visited l) := by
  unfold Engine.examineLink Engine.extendOver
  split
  · rfl
  · split
    · rfl
    · split
      · rfl
      · dsimp only
        split
        · exact insertLabel_same ..
        · split
          · exact insertLabel_same ..
          · rfl

theorem examineLinks_same (s : State) (d : Descriptor) (x : Label) (e : Engine) :
    SameSearch e (e.examineLinks s d x) := by
  have all (xn : NodeEntry) (visited : List NodeId) (ls : List Link) :
      ∀ e : Engine, SameSearch e (ls.foldl (Engine.examineLink s d x xn visited) e) := by
    induction ls with
    | nil => exact fun e => .refl e
    | cons l ls ih => exact fun e => (examineLink_same ..).trans (ih _)
  unfold Engine.examineLinks
  split
  · exact .refl e
  · exact all ..

theorem SameSearch.mode {e y : Engine} (same : SameSearch e y) : y.mode = e.mode := by rw [same]

/-! ## One expansion by its first label (R79, R86) -/

theorem searching_iff {x : Engine} : x.searching = true ↔ x.mode = .primary ∨ x.mode = .protection := by
  simp [Engine.searching]

section
variable {s : State} {e : EngineId} {d : Descriptor} {x : Label} (request : (s.engine e).request = some d)
  (searching : (s.engine e).mode = .primary ∨ (s.engine e).mode = .protection)
  (order : (s.engine e).endOrder = .none) (first : firstOpen d.order (s.engine e).pool = some x)
include request searching

include order first

/-- An expansion that takes the destination's label ends its phase FOUND. -/
theorem exec_expansion_found (dest : x.node = d.dest) :
    exec (.expansion e) s = .next (s.phaseFound e ((s.engine e).takeLabel x) d x) := by
  rw [exec_expansion, State.expand, request]
  simp [searching_iff.2 searching, order, Engine.expand, first, dest]

/-- An expansion short of the destination ends by the frontier and the limit. -/
theorem exec_expansion_ends (short : x.node ≠ d.dest) {z : Engine}
    (examined : z = ((s.engine e).takeLabel x).examineLinks s d x) :
    (firstOpen d.order z.pool = none →
      exec (.expansion e) s = .next ((s.setEngine e z).complete e d (searchResult s z d .noPath none))) ∧
    (firstOpen d.order z.pool ≠ none → z.counts.expansions = z.limit →
      exec (.expansion e) s = .next ((s.setEngine e z).complete e d (searchResult s z d .exhausted none))) ∧
    (firstOpen d.order z.pool ≠ none → z.counts.expansions ≠ z.limit →
      exec (.expansion e) s = .next (s.setEngine e z)) := by
  have one : (s.engine e).expand s d = (z, z.endOf d.order) := by
    rw [Engine.expand, first, examined]
    exact if_neg short
  have run := searching_iff.2 searching
  refine ⟨fun empty => ?_, fun some limit => ?_, fun some limit => ?_⟩
  · have ended : z.endOf d.order = .noPath := by simp [Engine.endOf, empty]
    simp [exec_expansion, State.expand, request, run, order, one, ended]
  · have ended : z.endOf d.order = .exhausted := by simp [Engine.endOf, Option.isNone_iff_eq_none, some, limit]
    simp [exec_expansion, State.expand, request, run, order, one, ended]
  · have ended : z.endOf d.order = .goesOn := by simp [Engine.endOf, Option.isNone_iff_eq_none, some, limit]
    simp [exec_expansion, State.expand, request, run, order, one, ended]

end

/-! ## A phase that ends FOUND (R94, R107) -/

section
variable {s : State} {e : EngineId} {x : Engine} {d : Descriptor} {dest : Label} {path : FoundPath}
  (is : path = reconstruct x.pool d.width dest)
include is

/-- The last phase's path completes the request. -/
theorem phaseFound_last (last : ¬(x.mode = .primary ∧ d.diversity ≠ .none)) : s.phaseFound e x d dest =
    (s.setEngine e x).complete e d (searchResult s x d .found (some path)) := by
  rw [State.phaseFound, if_neg last, is]

variable (mode : x.mode = .primary) (apart : d.diversity ≠ .none)
include mode apart

/-- A protection phase without a window start has ended NO_PATH (R78, R94). -/
theorem phaseFound_noStart (noStart : x.starts = 0#320) {y : Engine}
    (hy : y = { x with
      mode := .protection, primary := some (primaryRecord s.tst.nodes path x.counts), pool := [], nextNumber := 0
      counts := { PhaseCounts.zero with spectrum := 1 } }) :
    s.phaseFound e x d dest = (s.setEngine e y).complete e d (searchResult s y d .noPath none) := by
  rw [State.phaseFound, if_pos ⟨mode, apart⟩, Engine.startPhase, if_pos noStart, hy, is]
  exact if_pos noStart

/-- The protection phase starts from its root label (R78, R93, R94). -/
theorem phaseFound_starts (start : x.starts ≠ 0#320) : s.phaseFound e x d dest = s.setEngine e { x with
    mode := .protection, primary := some (primaryRecord s.tst.nodes path x.counts)
    pool := [rootLabel d.source x.starts], nextNumber := 1, counts := PhaseCounts.zero } := by
  rw [State.phaseFound, if_pos ⟨mode, apart⟩, Engine.startPhase, if_neg start, is]
  exact if_neg start

end

/-! ## The records of a search's ends (R110, R115) -/

section
variable (s : State) {x : Engine} (d : Descriptor) {st : Status}

/-- A search that ends in its primary phase short of a path. -/
theorem searchResult_primary (mode : x.mode = .primary) (failed : st ≠ .found) : searchResult s x d st none =
    { tag := d.tag, outcome := .failed, primary := st
      protection := if d.diversity = .none then .notRequested else .notAttempted
      truncated := x.counts.truncated, provisional := s.stc.part == .settling, windowAdjusted := x.windowAdjusted
      holdRefused := false, watchId := none, primaryPhase := some x.counts, protectionPhase := none
      primaryPath := none, protectionPath := none } := by
  simp [searchResult, mode, buildResult, outcomeOf_failed failed, phaseTruncated, protectionUnrun]

/-- The primary phase found a path, and no protection is asked for. -/
theorem searchResult_found (mode : x.mode = .primary) (alone : d.diversity = .none) (path : FoundPath) :
    searchResult s x d .found (some path) =
    { tag := d.tag, outcome := .complete, primary := .found, protection := .notRequested
      truncated := x.counts.truncated, provisional := s.stc.part == .settling, windowAdjusted := x.windowAdjusted
      holdRefused := false, watchId := none, primaryPhase := some x.counts, protectionPhase := none
      primaryPath := some path, protectionPath := none } := by
  simp [searchResult, mode, buildResult, outcomeOf, phaseTruncated, protectionUnrun, alone]

/-- A search that ends in its protection phase. -/
theorem searchResult_protection {k : PrimaryRecord} (mode : x.mode = .protection) (record : x.primary = some k)
    (path : Option FoundPath) : searchResult s x d st path =
    { tag := d.tag, outcome := outcomeOf .found st, primary := .found, protection := st
      truncated := k.counts.truncated || x.counts.truncated, provisional := s.stc.part == .settling
      windowAdjusted := x.windowAdjusted, holdRefused := false, watchId := none, primaryPhase := some k.counts
      protectionPhase := some x.counts, primaryPath := some k.path, protectionPath := path } := by
  simp [searchResult, mode, record, buildResult, phaseTruncated]

theorem outcomeOf_partial (ended : st = .noPath ∨ st = .exhausted) : outcomeOf .found st = .partialPath := by
  rcases ended with rfl | rfl <;> rfl

/-- A search ended from outside in its primary phase (R112, R116). -/
theorem endedResult_primary (mode : x.mode = .primary) (failed : st ≠ .found) : endedResult s x d st =
    { tag := d.tag, outcome := .failed, primary := st
      protection := if d.diversity = .none then .notRequested else .notAttempted
      truncated := x.counts.truncated, provisional := s.stc.part == .settling, windowAdjusted := x.windowAdjusted
      holdRefused := false, watchId := none, primaryPhase := some x.counts, protectionPhase := none
      primaryPath := none, protectionPath := none } := by
  simp [endedResult, mode, buildResult, outcomeOf_failed failed, phaseTruncated, protectionUnrun]

/-- A search ended from outside in its protection phase (R112, R116). -/
theorem endedResult_protection {k : PrimaryRecord} (mode : x.mode = .protection) (record : x.primary = some k)
    (failed : st ≠ .found) : endedResult s x d st =
    { tag := d.tag, outcome := .failed, primary := st, protection := st
      truncated := k.counts.truncated || x.counts.truncated, provisional := s.stc.part == .settling
      windowAdjusted := x.windowAdjusted, holdRefused := false, watchId := none, primaryPhase := some k.counts
      protectionPhase := some x.counts, primaryPath := none, protectionPath := none } := by
  simp [endedResult, mode, record, buildResult, outcomeOf_failed failed, phaseTruncated]

end

section
variable {c : Instr} {s t : State} {e : EngineId} {d : Descriptor} {r record : ResultRecord}
  (run : exec c s = .next (t.complete e d r)) (is : r = record)
include run is

/-- A completion without a path is its delivery (R111). -/
theorem delivers_of_complete (none : record.primaryPath = none) :
    ∃ u, Delivers t u e d record ∧ exec c s = .next u.runArbiter := by
  subst is
  exact ⟨t.deliver e d r, deliver_delivers t e d r, by rw [run, State.complete, none]⟩

/-- A completion with a path goes through its stale check, hold and retries (R107 to R109). -/
theorem completes_of_complete {first : FoundPath} {second : Option FoundPath} (h1 : record.primaryPath = some first)
    (h2 : record.protectionPath = second) :
    ∃ u, Completes t u e d record first second ∧ exec c s = .next u.runArbiter := by
  subst is
  obtain ⟨u, completes, arbiter⟩ := complete_completes t e d r h1 h2
  exact ⟨u, completes, run.trans (congrArg _ arbiter)⟩

end

/-- An end order of CANCEL or STANDBY is taken by delivering its record (R87, R112, R116). -/
theorem takeOrder_ends {s : State} {e : EngineId} {d : Descriptor} {st : Status}
    (request : (s.engine e).request = some d)
    (searching : (s.engine e).mode = .primary ∨ (s.engine e).mode = .protection)
    (order : (s.engine e).endOrder = .cancel ∧ st = .cancelled ∨
      (s.engine e).endOrder = .standby ∧ st = .aborted) :
    exec (.engineEndOrder e) s = .next (s.deliver e d (endedResult s (s.engine e) d st)).runArbiter := by
  rw [exec_engineEndOrder, State.takeOrder, request]
  rcases order with ⟨order, rfl⟩ | ⟨order, rfl⟩ <;> simp [searching_iff.2 searching, order]

theorem ended_failed {o : EndOrder} {st : Status}
    (order : o = .cancel ∧ st = .cancelled ∨ o = .standby ∧ st = .aborted) :
    st ≠ .found := by
  rcases order with ⟨-, rfl⟩ | ⟨-, rfl⟩ <;> exact nofun

/-- An expansion that leaves no frontier, or reaches the limit, is the completion with that status (R86). -/
theorem expansion_ends {s : State} {e : EngineId} {d : Descriptor} {x : Label} {y z : Engine} {st : Status}
    (request : (s.engine e).request = some d)
    (searching : (s.engine e).mode = .primary ∨ (s.engine e).mode = .protection)
    (order : (s.engine e).endOrder = .none) (first : firstOpen d.order (s.engine e).pool = some x)
    (short : x.node ≠ d.dest) (taken : y = (s.engine e).takeLabel x) (examined : z = y.examineLinks s d x)
    (ends : firstOpen d.order z.pool = none ∧ st = .noPath ∨
      firstOpen d.order z.pool ≠ none ∧ z.counts.expansions = z.limit ∧ st = .exhausted) :
    exec (.expansion e) s = .next ((s.setEngine e z).complete e d (searchResult s z d st none)) ∧
      st ≠ .found ∧ (st = .noPath ∨ st = .exhausted) := by
  obtain ⟨noPath, exhausted, -⟩ :=
    exec_expansion_ends request searching order first short (examined.trans (by rw [taken]))
  rcases ends with ⟨none, rfl⟩ | ⟨some, limit, rfl⟩
  · exact ⟨noPath none, nofun, .inl rfl⟩
  · exact ⟨exhausted some limit, nofun, .inr rfl⟩

/-! ## The RESULT's payload (section 9.1.6) -/

theorem outcomeCode_eq {o : ResultOutcome} {n : Nat}
    (h : (n, o) ∈ [(1, ResultOutcome.complete), (2, .partialPath), (3, .failed)]) : outcomeCode o = n := by
  cases o <;> simp_all [outcomeCode]

theorem statusCode_eq {status : Status → Nat}
    (h : ∀ x, (status x, x) ∈ [(0, Status.notRequested), (1, .found), (2, .noPath), (3, .exhausted),
      (4, .unknownEndpoint), (5, .badClass), (6, .cancelled), (7, .aborted), (8, .stale), (9, .notAttempted)])
    (x : Status) : statusCode x = status x := by
  have := h x
  cases x <;> simp_all [statusCode]

theorem countPresent_eq {α : Type} [DecidableEq α] (x y : Option α) : countPresent x y =
    (if x = none then 0 else 1) + (if y = none then 0 else 1) := by
  cases x <;> cases y <;> rfl

/-- Settles O49: an order taken is its record's delivery; an expansion's end is the completion of its record. -/
theorem engineTakesItsEndOrder : Obligations.EngineTakesItsEndOrder := by
  unfold Obligations.EngineTakesItsEndOrder
  refine ⟨fun s e d request mode order => ?release, fun s e d st request order => ⟨fun mode => ?primary,
    fun k mode record => ?protection⟩,
    fun s e d x y z st request order first short hy hz ends => ⟨fun mode => ?failed,
      fun k mode record => ?partialEnd⟩,
    fun s e d x y path request order first dest hy hpath => ⟨fun mode alone => ?found,
    fun k mode record => ?both, fun k tallies mode apart noStart hk htallies => ?noStart⟩,
    fun r outcome flags phase path status houtcome hstatus hflags hnone hphase hpath => ?payload⟩
  case release =>
    rw [exec_engineEndOrder, State.takeOrder, request]
    simp [searching_iff.2 mode, order]
  case primary =>
    refine ⟨s.deliver e d (endedResult s (s.engine e) d st), ?_, takeOrder_ends request (.inl mode) order⟩
    rw [← endedResult_primary s d mode (ended_failed order)]
    exact deliver_delivers ..
  case protection =>
    refine ⟨s.deliver e d (endedResult s (s.engine e) d st), ?_, takeOrder_ends request (.inr mode) order⟩
    rw [← endedResult_protection s d mode record (ended_failed order)]
    exact deliver_delivers ..
  case failed =>
    have same : z.mode = .primary := (hz.symm ▸ (examineLinks_same s d x y).mode).trans (hy ▸ mode)
    obtain ⟨run, failed, -⟩ := expansion_ends request (.inl mode) order first short hy hz ends
    exact delivers_of_complete run (searchResult_primary s d same failed) rfl
  case partialEnd =>
    have same : z.mode = .protection := (hz.symm ▸ (examineLinks_same s d x y).mode).trans (hy ▸ mode)
    obtain ⟨run, -, which⟩ := expansion_ends request (.inr mode) order first short hy hz ends
    rw [← outcomeOf_partial which]
    exact completes_of_complete run (searchResult_protection s d same record none) rfl rfl
  case found =>
    have same : y.mode = .primary := hy ▸ mode
    have run := exec_expansion_found request (.inl mode) order first dest
    rw [← show y = (s.engine e).takeLabel x from hy, phaseFound_last hpath (by simp [alone])] at run
    exact completes_of_complete run (searchResult_found s d same alone path) rfl rfl
  case both =>
    have same : y.mode = .protection := hy ▸ mode
    have run := exec_expansion_found request (.inr mode) order first dest
    rw [← show y = (s.engine e).takeLabel x from hy, phaseFound_last hpath (by simp [same])] at run
    exact completes_of_complete run (searchResult_protection s d same record (some path)) rfl rfl
  case noStart =>
    have same : y.mode = .primary := hy ▸ mode
    have run := exec_expansion_found request (.inl mode) order first dest
    rw [← show y = (s.engine e).takeLabel x from hy, phaseFound_noStart hpath same apart (hy ▸ noStart) rfl] at run
    subst hk htallies
    refine completes_of_complete run ((searchResult_protection s d rfl rfl none).trans ?_) rfl rfl
    simp [outcomeOf, primaryRecord, PhaseCounts.zero]
  case payload =>
    have flagsEq : resultFlags r = flags := hflags.symm
    have phaseEq (k : Nat) (o : Option PhaseCounts) : encPresent (encPhase k) o = phase k o := by
      cases o with
      | none => exact (hnone k).1.symm
      | some c => exact (hphase k c).symm
    have pathEq (k : Nat) (o : Option FoundPath) : encPresent (encFoundPath k) o = path k o := by
      cases o with
      | none => exact (hnone k).2.symm
      | some p => exact (hpath k p).symm
    rw [encResult, outcomeCode_eq houtcome, statusCode_eq hstatus, statusCode_eq hstatus, flagsEq, countPresent_eq,
      countPresent_eq, phaseEq, phaseEq, pathEq, pathEq]
    cases r.watchId <;> rfl

end Sys2Proof.Machine

/-!
LEMMAS. The frontier's first label, the links examined, the candidates' insertion and the path read back (O48).
-/
namespace Sys2Proof.Machine

/-! ## The first label of the frontier (R77) -/

section
variable {o : Order}

theorem keyBefore_irrefl (x : Label) : ¬KeyBefore o x x := by
  cases o <;> simp [KeyBefore]

theorem keyBefore_trans {x y z : Label} (h : KeyBefore o x y) (k : KeyBefore o y z) : KeyBefore o x z := by
  cases o <;> simp only [KeyBefore] at * <;> omega

theorem keyBefore_total {x y : Label} (differ : x.number ≠ y.number) : KeyBefore o x y ∨ KeyBefore o y x := by
  cases o <;> simp only [KeyBefore] <;> omega

theorem firstOpen_closed {l : Label} (closed : l.closed = true) (pool : List Label) :
    firstOpen o (pool ++ [l]) = firstOpen o pool := by
  rw [firstOpen, List.foldl_concat, ← firstOpen, if_pos closed]

theorem firstOpen_only {l : Label} (opened : l.closed = false) {pool : List Label} (none : firstOpen o pool = none) :
    firstOpen o (pool ++ [l]) = some l := by
  rw [firstOpen, List.foldl_concat, ← firstOpen, none, opened]
  rfl

theorem firstOpen_before {l b : Label} (opened : l.closed = false) {pool : List Label}
    (best : firstOpen o pool = some b)
    (before : KeyBefore o l b) : firstOpen o (pool ++ [l]) = some l := by
  rw [firstOpen, List.foldl_concat, ← firstOpen, best, opened]
  exact if_pos ((keyLt_iff o l b).2 before)

theorem firstOpen_after {l b : Label} (opened : l.closed = false) {pool : List Label}
    (best : firstOpen o pool = some b)
    (after : ¬KeyBefore o l b) : firstOpen o (pool ++ [l]) = some b := by
  rw [firstOpen, List.foldl_concat, ← firstOpen, best, opened]
  exact if_neg (mt (keyLt_iff o l b).1 after)

/-- The first label is an OPEN one, and no OPEN one's key is smaller; there is none when all are CLOSED. -/
theorem firstOpen_spec (pool : List Label) :
    (∃ x, firstOpen o pool = some x ∧ x ∈ pool ∧ x.closed = false ∧
      ∀ y ∈ pool, y.closed = false → ¬KeyBefore o y x) ∨
    (firstOpen o pool = none ∧ ∀ y ∈ pool, y.closed = true) := by
  induction pool using List.reverseRecOn with
  | nil => exact .inr ⟨rfl, by simp⟩
  | append_singleton pool l ih =>
    cases closed : l.closed with
    | true =>
      rw [firstOpen_closed closed]
      refine ih.imp
        (fun ⟨x, best, mem, opened, smallest⟩ => ⟨x, best, by simp [mem], opened, fun y inPool yOpen => ?_⟩)
        (fun ⟨empty, all⟩ => ⟨empty, fun y inPool => ?_⟩)
      · rcases List.mem_append.1 inPool with inPool | last
        · exact smallest y inPool yOpen
        · rw [List.mem_singleton.1 last, closed] at yOpen
          cases yOpen
      · rcases List.mem_append.1 inPool with inPool | last
        · exact all y inPool
        · rw [List.mem_singleton.1 last, closed]
    | false =>
      left
      rcases ih with ⟨b, best, mem, opened, smallest⟩ | ⟨none, all⟩
      · by_cases before : KeyBefore o l b
        · refine ⟨l, firstOpen_before closed best before, by simp, closed, fun y inPool yOpen => ?_⟩
          rcases List.mem_append.1 inPool with inPool | last
          · exact fun yBefore => smallest y inPool yOpen (keyBefore_trans yBefore before)
          · rw [List.mem_singleton.1 last]
            exact keyBefore_irrefl l
        · refine ⟨b, firstOpen_after closed best before, by simp [mem], opened, fun y inPool yOpen => ?_⟩
          rcases List.mem_append.1 inPool with inPool | last
          · exact smallest y inPool yOpen
          · rwa [List.mem_singleton.1 last]
      · refine ⟨l, firstOpen_only closed none, by simp, closed, fun y inPool yOpen => ?_⟩
        rcases List.mem_append.1 inPool with inPool | last
        · rw [all y inPool] at yOpen
          cases yOpen
        · rw [List.mem_singleton.1 last]
          exact keyBefore_irrefl l

theorem firstOpen_eq_none {pool : List Label} : firstOpen o pool = none ↔ ∀ y ∈ pool, y.closed = true := by
  rcases firstOpen_spec (o := o) pool with ⟨x, best, mem, opened, -⟩ | ⟨none, all⟩
  · rw [best]
    exact iff_of_false nofun fun all => by simp [all x mem] at opened
  · exact iff_of_true none all

theorem firstOpen_some {pool : List Label} {x : Label} (first : firstOpen o pool = some x) :
    x ∈ pool ∧ x.closed = false ∧ ∀ y ∈ pool, y.closed = false → ¬KeyBefore o y x := by
  rcases firstOpen_spec (o := o) pool with ⟨z, best, spec⟩ | ⟨none, -⟩
  · obtain rfl := Option.some.inj (first.symm.trans best)
    exact spec
  · rw [none] at first
    cases first

theorem firstOpen_iff {pool : List Label} (numbers : (pool.map (·.number)).Nodup) {x : Label} :
    firstOpen o pool = some x ↔
      x ∈ pool ∧ x.closed = false ∧ ∀ y ∈ pool, y.closed = false → y = x ∨ KeyBefore o x y := by
  constructor
  · intro first
    obtain ⟨mem, opened, smallest⟩ := firstOpen_some first
    refine ⟨mem, opened, fun y inPool yOpen => ?_⟩
    by_cases same : y.number = x.number
    · exact .inl (List.inj_on_of_nodup_map numbers inPool mem same)
    · exact .inr ((keyBefore_total same).resolve_left (smallest y inPool yOpen))
  · rintro ⟨mem, opened, smallest⟩
    rcases firstOpen_spec (o := o) pool with ⟨z, best, inPool, zOpen, none⟩ | ⟨-, all⟩
    · rcases smallest z inPool zOpen with rfl | before
      · exact best
      · exact absurd before (none x mem opened)
    · simp [all x mem] at opened

end

/-! ## The links examined (R80 to R84) -/

theorem freeStarts_getLsbD {blocked : SlotSet} {width k : Nat} : (freeStarts blocked width).getLsbD k = true ↔
    k < 320 ∧ ∀ j, j < width → k + j < 320 ∧ blocked.getLsbD (k + j) = false := by
  unfold freeStarts
  induction width with
  | zero => rw [List.range_zero, List.foldl_nil, BitVec.getLsbD_allOnes]; simp
  | succ width ih =>
    rw [List.range_succ, List.foldl_concat, BitVec.getLsbD_and, Bool.and_eq_true, ih]
    have shifted : (~~~blocked >>> width).getLsbD k = true ↔
        k + width < 320 ∧ blocked.getLsbD (k + width) = false := by
      simp [Nat.add_comm]
    rw [shifted]
    constructor
    · rintro ⟨⟨bound, all⟩, last⟩
      refine ⟨bound, fun j below => ?_⟩
      rcases Nat.lt_succ_iff_lt_or_eq.1 below with below | rfl
      · exact all j below
      · exact last
    · rintro ⟨bound, all⟩
      exact ⟨⟨bound, fun j below => all j (by omega)⟩, all width (by omega)⟩

section
variable {s : State} {d : Descriptor} {x : Label} {xn : NodeEntry} {visited : List NodeId} {e : Engine} {l : Link}

theorem failureOf_none {budget noise : Nat} {starts : SlotSet} :
    failureOf budget starts noise = none ↔ starts ≠ 0#320 ∧ noise ≤ budget := by
  unfold failureOf
  split <;> simp_all

theorem failureOf_tally {budget noise : Nat} {starts : SlotSet} {f : Failure}
    (failed : failureOf budget starts noise = some f)
    (c : PhaseCounts) : tallyFailure c f = if starts = 0#320 then { c with spectrum := c.spectrum + 1 }
      else { c with noise := c.noise + 1 } := by
  unfold failureOf at failed
  split at failed
  case isTrue empty => cases failed; rw [if_pos empty]; rfl
  case isFalse some =>
    split at failed
    · cases failed
    · cases failed; rw [if_neg some]; rfl

theorem examineLink_skips (h : usable s.cfg.twoWay s.tst.nodes xn l = false ∨
    excludedLink e d ⟨xn.id, l.lid⟩ l = true ∨
    l.remote ∈ visited) : e.examineLink s d x xn visited l = e :=
  if_pos (by rcases h with h | h | h <;> simp [h])

variable (takes : usable s.cfg.twoWay s.tst.nodes xn l = true) (open' : excludedLink e d ⟨xn.id, l.lid⟩ l = false)
  (fresh : l.remote ∉ visited)
include takes open' fresh

/-- A link that no test of R80 skips. -/
theorem examineLink_open : e.examineLink s d x xn visited l =
    if l.cond.condition = .degraded ∧ d.policy = .avoid then
      { e with counts := { e.counts with excluded := e.counts.excluded + 1 } }
    else if x.hops + 1 > d.maxHops then { e with counts := { e.counts with hops := e.counts.hops + 1 } }
    else e.extendOver s d x xn l :=
  if_neg (by simp [takes, open', fresh])

theorem examineLink_degraded (h : l.cond.condition = .degraded ∧ d.policy = .avoid) :
    e.examineLink s d x xn visited l = { e with counts := { e.counts with excluded := e.counts.excluded + 1 } } :=
  (examineLink_open takes open' fresh).trans (if_pos h)

variable (apart : ¬(l.cond.condition = .degraded ∧ d.policy = .avoid))
include apart

theorem examineLink_far (far : d.maxHops < x.hops + 1) :
    e.examineLink s d x xn visited l = { e with counts := { e.counts with hops := e.counts.hops + 1 } } :=
  (examineLink_open takes open' fresh).trans ((if_neg apart).trans (if_pos far))

theorem examineLink_extends (near : x.hops + 1 ≤ d.maxHops) :
    e.examineLink s d x xn visited l = e.extendOver s d x xn l :=
  (examineLink_open takes open' fresh).trans ((if_neg apart).trans (if_neg near.not_gt))

end

section
variable {s : State} {d : Descriptor} {x : Label} {xn : NodeEntry} {e : Engine} {l : Link} {p q : Label}
  (hp : plainExtension s d x xn l = p) (hq : regenExtension s e d x xn l = q)
include hp

theorem extendOver_plain (feasible : p.starts ≠ 0#320 ∧ p.noise ≤ e.budget) :
    e.extendOver s d x xn l = e.insertLabel d.order p := by
  rw [Engine.extendOver, hp, failureOf_none.2 feasible]

include hq

/-- Where the plain candidate fails, the regenerated one is made, or the link is tallied (R83, R84). -/
theorem extendOver_fails (fails : ¬(p.starts ≠ 0#320 ∧ p.noise ≤ e.budget)) :
    e.extendOver s d x xn l = if (x.regens < d.maxRegens ∧ x.node ≠ d.source ∧
        s.pwl.overlay.reservedRegens xn.id < xn.regens) ∧ q.starts ≠ 0#320 ∧ q.noise ≤ e.budget
      then e.insertLabel d.order q
      else { e with counts := if p.starts = 0#320 then { e.counts with spectrum := e.counts.spectrum + 1 }
        else { e.counts with noise := e.counts.noise + 1 } } := by
  obtain ⟨f, failed⟩ := Option.ne_none_iff_exists'.1 (mt failureOf_none.1 fails)
  rw [Engine.extendOver, hp, hq, failed, ← failureOf_tally failed]
  have test : (regenAllowed s d x xn && (failureOf e.budget q.starts q.noise).isNone) = true ↔
      (x.regens < d.maxRegens ∧ x.node ≠ d.source ∧ s.pwl.overlay.reservedRegens xn.id < xn.regens) ∧
        q.starts ≠ 0#320 ∧ q.noise ≤ e.budget := by
    rw [Bool.and_eq_true, Option.isNone_iff_eq_none, failureOf_none, regenAllowed, Bool.and_eq_true, Bool.and_eq_true,
      decide_eq_true_eq, decide_eq_true_eq, bne_iff_ne, and_assoc (a := x.regens < d.maxRegens), Nat.add_one_le_iff]
  exact if_congr test rfl rfl

end

section
variable {s : State} {d : Descriptor} {x : Label} {xn : NodeEntry} {e : Engine} {l : Link} {p q : Label}
  {blocked : SlotSet} {cost through noise : Nat}
  (hblocked : blocked = l.occupied ||| s.pwl.overlay.reservedSlots ⟨xn.id, l.lid⟩)
  (hcost : cost = (if l.cond.condition = .degraded ∧ d.policy = .penalize
    then min (l.cost + s.cfg.degradePenalty) 16777215 else l.cost))
  (hthrough : through = (if x.node = d.source then 0 else (xn.transitQ.map noiseTerm).getD 0))
  (hnoise : noise = noiseTerm (l.q.getD s.cfg.defaultLinkQ))
  (hp : p = { node := l.remote, pred := some x.number, via := some ⟨xn.id, l.lid⟩
              cost := min (x.cost + cost) 16777215
              noise := min (min (x.noise + through) 1073741823 + noise) 1073741823
              hops := x.hops + 1, regens := x.regens, regenerated := false
              starts := x.starts &&& freeStarts blocked d.width, closed := false, number := 0 })
include hblocked hcost hnoise hp

include hthrough in
/-- The plain extension, its sums written out (R63, R64, R67, R82). -/
theorem plainExtension_eq : plainExtension s d x xn l = p := by
  have transit : transitTerm xn = (xn.transitQ.map noiseTerm).getD 0 := by
    cases has : xn.transitQ with
    | none => rw [transitTerm, has, Option.map_none, Option.getD_none]
    | some q => rw [transitTerm, has, Option.map_some, Option.getD_some]
  have cost' : addCost x.cost (linkCost s.cfg d.policy l) = min (x.cost + cost) 16777215 := by
    rw [addCost, linkCost, addCost, Config.costMax_eq, ← hcost]
  have noise' : addNoise (addNoise x.noise (if x.node = d.source then 0 else transitTerm xn)) (linkTerm s.cfg l) =
      min (min (x.noise + through) 1073741823 + noise) 1073741823 := by
    rw [addNoise, addNoise, transit, linkTerm, Config.noiseMax_eq, ← hthrough, ← hnoise]
  rw [plainExtension, cost', noise', blockedSlots, ← hblocked, hp]

/-- The regenerated extension, its sums written out (R63, R67, R83). -/
theorem regenExtension_eq (hq : q = { p with
    cost := min (p.cost + e.regenCost) 16777215, noise := noise, regens := x.regens + 1
    regenerated := true, starts := e.starts &&& freeStarts blocked d.width }) : regenExtension s e d x xn l = q := by
  rw [regenExtension, addCost, addCost, linkCost, addCost, blockedSlots, linkTerm, Config.costMax_eq, ← hblocked,
    ← hcost, ← hnoise, hq, hp]

end

/-! ## A candidate's insertion (R88 to R90) -/

section
variable {o : Order} {e : Engine} {c z : Label} {keep : Label → Bool} {pool : List Label}

theorem insertLabel_dominated (h : ∃ y ∈ e.pool, y.node = c.node ∧ Dominates o y c) :
    e.insertLabel o c = { e with counts := { e.counts with dominated := e.counts.dominated + 1 } } := by
  refine if_pos (List.any_eq_true.2 ?_)
  simpa [dominates_iff] using h

variable (number : z = { c with number := e.nextNumber })
  (kept : ∀ y, keep y = false ↔ y.closed = false ∧ y.node = c.node ∧ Dominates o c y)
  (hpool : pool = e.pool.filter keep)
  (apart : ∀ y ∈ e.pool, y.node = c.node → ¬Dominates o y c)
include number kept hpool apart

/-- A candidate that no label of its node dominates drops the OPEN ones it dominates. -/
theorem insertLabel_apart : e.insertLabel o c = if pool.length < 2048
    then { e with pool := pool ++ [z], nextNumber := e.nextNumber + 1 }
    else { e with pool := pool }.evictFor o z := by
  have none : (e.pool.any fun p => p.node == c.node && dominates o p c) = false := by
    simpa [List.any_eq_false, dominates_iff] using apart
  have same : (fun q : Label => q.closed || q.node != c.node || !dominates o c q) = keep := by
    funext y
    have := kept y
    rw [← dominates_iff] at this
    cases closed : y.closed <;> cases dom : dominates o c y <;> cases stays : keep y <;> simp_all
  rw [Engine.insertLabel, none, same, ← hpool, ← number]
  rfl

omit number kept hpool apart in
/-- A full pool without an OPEN label drops the candidate. -/
theorem evictFor_closed (closed : ∀ y ∈ e.pool, y.closed = true) :
    e.evictFor o z = { e with counts := { e.counts with truncated := true } } := by
  rw [Engine.evictFor, worstOpen_none o e.pool closed]

omit number kept hpool apart in
/-- A full pool's worst OPEN label gives way to a candidate whose key is smaller. -/
theorem evictFor_worst {w : Label} (mem : w ∈ e.pool) (opened : w.closed = false)
    (worst : ∀ y ∈ e.pool, y.closed = false → y = w ∨ KeyBefore o y w) :
    (KeyBefore o z w → e.evictFor o z = { e with
      pool := e.pool.filter (fun y => y.number != w.number) ++ [z], nextNumber := e.nextNumber + 1
      counts := { e.counts with truncated := true } }) ∧
    (¬KeyBefore o z w → e.evictFor o z = { e with counts := { e.counts with truncated := true } }) := by
  rw [Engine.evictFor, worstOpen_some o e.pool w mem opened worst]
  exact ⟨fun before => if_pos ((keyLt_iff o z w).2 before), fun after => if_neg (mt (keyLt_iff o z w).1 after)⟩

end

/-! ## The protection phase's exclusions (R80, R95 to R97) -/

section
variable {e : Engine} {d : Descriptor} {ref : LinkRef} {l : Link}

theorem excludedLink_iff : excludedLink e d ref l = true ↔
    (ref ∈ d.exLinks ∨ l.remote ∈ d.exNodes) ∨ derivedExcluded e d ref l = true := by
  simp [excludedLink]

theorem derivedExcluded_primary (mode : e.mode ≠ .protection) : derivedExcluded e d ref l = false := by
  unfold derivedExcluded
  split
  case h_1 protection _ => exact absurd protection mode
  case h_2 => rfl

theorem failsLinkTest_iff {facts : List LinkFact} : failsLinkTest facts ref l = true ↔
    ∃ f ∈ facts, f.ref = ref ∨ (ref.origin = f.remote ∧ l.remote = f.ref.origin ∧
      ∀ lid, f.remoteLid = some lid → l.lid = lid) := by
  have reverse (f : LinkFact) : reverseOf ref l f = true ↔ ref.origin = f.remote ∧ l.remote = f.ref.origin ∧
      ∀ lid, f.remoteLid = some lid → l.lid = lid := by
    unfold reverseOf
    cases f.remoteLid <;> simp [and_assoc]
  simp [failsLinkTest, reverse]

theorem sharesSrlg_iff {facts : List LinkFact} : sharesSrlg facts l = true ↔
    ∃ f ∈ facts, ∃ g ∈ l.srlg, g ∈ f.srlg := by
  simp [sharesSrlg]

variable {p : PrimaryRecord} (mode : e.mode = .protection) (record : e.primary = some p)
include mode record

/-- The derived exclusions of a protection phase, by its diversity. -/
theorem derivedExcluded_protection :
    (d.diversity = .link → derivedExcluded e d ref l = failsLinkTest p.facts ref l) ∧
    (d.diversity = .node → derivedExcluded e d ref l = decide (l.remote ∈ p.intermediates)) ∧
    (d.diversity = .srlg → derivedExcluded e d ref l = (failsLinkTest p.facts ref l || sharesSrlg p.facts l)) := by
  refine ⟨fun h => ?_, fun h => ?_, fun h => ?_⟩ <;> simp [derivedExcluded, mode, record, h]

end

/-! ## The links of the label's node (R79, R80) -/

theorem examineLinks_absent {s : State} {d : Descriptor} {x : Label} {e : Engine}
    (absent : findNode s.tst.nodes x.node = none) : e.examineLinks s d x = e := by
  rw [Engine.examineLinks, absent]

theorem examineLinks_chain {s : State} {d : Descriptor} {x : Label} {e : Engine} {xn : NodeEntry} {chain : List Label}
    (found : findNode s.tst.nodes x.node = some xn) (numbers : (e.pool.map (·.number)).Nodup)
    (hchain : ChainOf e.pool x chain) :
    e.examineLinks s d x = xn.links.foldl (Engine.examineLink s d x xn (chain.map (·.node))) e := by
  rw [Engine.examineLinks, found, labelChain_eq numbers hchain]

/-! ## The path (R66, R72, R91, R92) -/

theorem reportedQ_spec (noise : Nat) : ReportedQ noise (reportedQ noise) := by
  have descending : ((List.range 401).reverse).Pairwise (fun a b => b < a) :=
    List.pairwise_reverse.2 List.pairwise_lt_range
  unfold reportedQ
  cases found : (List.range 401).reverse.find? (fun q => decide (noiseTerm q ≥ noise)) with
  | none =>
    have below (r : Nat) (le : r ≤ 400) : noiseTerm r < noise := by
      simpa using List.find?_eq_none.1 found r (by simp; omega)
    exact ⟨by simp, .inr ⟨rfl, below 0 (by omega)⟩, fun r _ le => below r le⟩
  | some q =>
    rw [Option.getD_some]
    obtain ⟨fits, before, after, split, larger⟩ := List.find?_eq_some_iff_append.1 found
    have mem : q ∈ (List.range 401).reverse := List.mem_of_find?_eq_some found
    refine ⟨by simpa [Nat.lt_succ_iff] using mem, .inl (of_decide_eq_true fits), fun r greater le => ?_⟩
    have inList : r ∈ before ++ q :: after := split ▸ (by simp; omega)
    rw [split] at descending
    obtain ⟨-, tail, -⟩ := List.pairwise_append.1 descending
    have first : r ∈ before := by
      rcases List.mem_append.1 inList with first | rest
      · exact first
      · rcases List.mem_cons.1 rest with rfl | later
        · omega
        · have := (List.pairwise_cons.1 tail).1 r later
          exact absurd this (by omega)
    simpa using larger r first

theorem firstFit_spec {starts : SlotSet} (some : starts ≠ 0#320) : starts.getLsbD (firstFit starts) = true ∧
    ∀ k, k < firstFit starts → starts.getLsbD k = false := by
  unfold firstFit lowestSlot
  cases found : (List.range slotCount).find? (fun i => starts.getLsbD i) with
  | none =>
    refine absurd (BitVec.eq_of_getLsbD_eq fun i bound => ?_) some
    have := List.find?_eq_none.1 found i (List.mem_range.2 bound)
    simpa using this
  | some k =>
    obtain ⟨held, -, lower⟩ := List.find?_range_eq_some.1 found
    exact ⟨held, fun j below => by simpa using lower j below⟩

theorem labelHops_spec {group : List Label} (linked : ∀ l ∈ group, l.via ≠ none) :
    (group.filterMap labelHop).map (fun h => (some h.ref, h.reached, h.regen)) =
      group.map (fun l => (l.via, l.node, l.regenerated)) := by
  induction group with
  | nil => rfl
  | cons l group ih =>
    obtain ⟨ref, via⟩ := Option.ne_none_iff_exists'.1 (linked l (by simp))
    have hop : labelHop l = some { ref := ref, reached := l.node, regen := l.regenerated } := by rw [labelHop, via]; rfl
    rw [List.filterMap_cons_some hop, List.map_cons, List.map_cons, ih fun y mem => linked y (by simp [mem]), via]

theorem segmentOf_spec (width : Nat) {group : List Label} (some : group ≠ [])
    (linked : ∀ l ∈ group, l.via ≠ none) :
    ∃ g, segmentOf width group = .some g ∧ SegmentOf width group g := by
  have last := List.getLast?_eq_some_getLast some
  refine ⟨_, by rw [segmentOf, last]; rfl, labelHops_spec linked, rfl, fun z is => ?_⟩
  obtain rfl : group.getLast some = z := Option.some.inj (last.symm.trans is)
  exact ⟨firstFit_spec, reportedQ_spec _, by simp [qClamped, Config.qMax]⟩

theorem forall₂_filterMap {α β : Type} {R : α → β → Prop} {f : α → Option β} {xs : List α}
    (h : ∀ x ∈ xs, ∃ y, f x = some y ∧ R x y) : List.Forall₂ R xs (xs.filterMap f) := by
  induction xs with
  | nil => exact .nil
  | cons x xs ih =>
    obtain ⟨y, is, rel⟩ := h x (by simp)
    rw [List.filterMap_cons_some is]
    exact .cons rel (ih fun z mem => h z (by simp [mem]))

/-- The path of a destination label is read back from its chain. -/
theorem reconstruct_path {pool chain : List Label} {width : Nat} {dest : Label} (numbers : (pool.map (·.number)).Nodup)
    (hchain : ChainOf pool dest chain) (linked : ∀ l ∈ chain.dropLast, l.via ≠ none) :
    PathOf width dest chain.dropLast.reverse (reconstruct pool width dest) := by
  have labels : (labelChain pool dest).reverse.drop 1 = chain.dropLast.reverse := by
    rw [labelChain_eq numbers hchain, List.drop_one, List.tail_reverse]
  obtain ⟨flat, groups, marks, -⟩ := splitSegments_spec chain.dropLast.reverse
  refine ⟨rfl, rfl, splitSegments chain.dropLast.reverse, flat, groups, marks, ?_⟩
  rw [reconstruct, labels]
  refine forall₂_filterMap fun g mem => segmentOf_spec width (groups g mem).1 fun l inGroup => linked l ?_
  have : l ∈ (splitSegments chain.dropLast.reverse).flatten := List.mem_flatten.2 ⟨g, mem, inGroup⟩
  rw [flat] at this
  exact List.mem_reverse.1 this

theorem captureFact_spec (nodes : List NodeEntry) (h : Hop) :
    (captureFact nodes h).ref = h.ref ∧ (captureFact nodes h).remote = h.reached ∧
    (findLink nodes h.ref = none → (captureFact nodes h).remoteLid = none ∧ (captureFact nodes h).srlg = []) ∧
    (∀ l, findLink nodes h.ref = some l →
      (captureFact nodes h).remoteLid = l.remoteLid ∧ (captureFact nodes h).srlg = l.srlg) := by
  cases found : findLink nodes h.ref with
  | none => simp [captureFact, found]
  | some l => simp [captureFact, found]

/-! ## The destination reached with nothing to wait for (R107, R111) -/

/-- An engine that searches waits for no port, whatever its search has become. -/
theorem setEngine_waiters {s : State} {e : EngineId} {y : Engine} (before : (s.engine e).mode ≠ .completing)
    (after : y.mode ≠ .completing) (p : Port) : (s.setEngine e y).waiters p = s.waiters p := by
  have before := engine_waitsFor before
  have after := engine_waitsFor after
  cases e with
  | a =>
    change s.engA.waitsFor = none at before
    simp only [State.waiters, State.setEngine, before, after]
    rfl
  | b =>
    change s.engB.waitsFor = none at before
    simp only [State.waiters, State.setEngine, before, after]
    rfl

/-- A completion on an untouched map without a hold is its delivery (R107, R108). -/
theorem complete_untouched {s : State} {e : EngineId} {d : Descriptor} {r : ResultRecord} {first : FoundPath}
    (path : r.primaryPath = some first) (touched : (s.engine e).touched = []) (room : (s.engine e).overflow = false)
    (plain : d.hold = false) : s.complete e d r = (s.deliver e d r).runArbiter := by
  have fresh : staleResult (s.engine e) d r = false := by simp [staleResult, touched, room]
  rw [State.complete, path]
  simp [fresh, plain]

/-- Settles O48: the expansion by its first label, the examined links and the candidate's insertion each by their
cases, and the path by its chain. -/
theorem expansionTakesTheFirstLabel : Obligations.ExpansionTakesTheFirstLabel := by
  unfold Obligations.ExpansionTakesTheFirstLabel
  refine ⟨⟨fun s e d x y z request searching order first hy => ⟨fun short examined some more => ?goesOn,
      fun a p dest mode alone plain mgmt port touched room empty on place free => ?found⟩,
      fun s d x xn visited e l => ⟨examineLink_skips, fun takes clear fresh =>
        ⟨examineLink_degraded takes clear fresh, examineLink_far takes clear fresh⟩⟩⟩,
    fun s d x xn visited e l blocked cost through noise p q feasible regen takes clear fresh apart near hblocked hcost
      hthrough hnoise hp hq hfeasible hregen => ?extension,
    fun blocked width k => freeStarts_getLsbD, fun o e c z keep pool number kept hpool => ⟨insertLabel_dominated,
      fun apart => ⟨fun room => ?inserted, fun full => ⟨fun closed => ?dropped,
        fun w mem opened worst => ?evicts⟩⟩⟩,
    fun s e d x y path request mode order first dest apart hy hpath start => ?protection,
    fun e d ref l named hnamed => ⟨fun mode => ?primary, fun p shares mode record hshares => ?excluded⟩,
    fun o pool => ⟨firstOpen_eq_none, fun x => firstOpen_some, fun numbers x => firstOpen_iff numbers⟩,
    fun s d x e => ⟨examineLinks_absent, fun xn chain found numbers hchain => ⟨fun empty => ?noLinks,
      fun l more links => ?links⟩⟩,
    fun pool chain width dest => reconstruct_path, captureFact_spec⟩
  case goesOn =>
    obtain ⟨-, -, goesOn⟩ :=
      exec_expansion_ends request searching order first short (examined.trans (by rw [hy]; rfl))
    exact goesOn some more
  case found =>
    have same : y.mode = .primary := hy ▸ mode
    have run := exec_expansion_found request searching order first dest
    rw [← show y = (s.engine e).takeLabel x from hy, phaseFound_last rfl (by simp [alone]),
      searchResult_found s d same alone,
      complete_untouched rfl (by rw [State.setEngine_engine, hy]; exact touched)
        (by rw [State.setEngine_engine, hy]; exact room) plain] at run
    have waits : (s.setEngine e y).waiters p = 0 :=
      (setEngine_waiters (by simp [mode]) (by simp [same]) p).trans free
    rw [deliver_mgmt _ mgmt port (by cases e <;> exact on) (by cases e <;> exact place) waits] at run
    rw [run, State.delivered, State.setEngine_setEngine, runArbiter_empty (by cases e <;> exact empty)]
    cases e <;> rfl
  case extension =>
    have plain := plainExtension_eq hblocked hcost hthrough hnoise hp
    have regenerated := regenExtension_eq (e := e) hblocked hcost hnoise hp hq
    rw [examineLink_extends takes clear fresh apart near]
    subst hfeasible hregen
    refine ⟨fun fits => extendOver_plain plain fits, fun fails regen => ?_, fun fails regen => ?_⟩
    · rw [extendOver_fails plain regenerated fails, if_pos (by tauto)]
    · rw [extendOver_fails plain regenerated fails, if_neg (by tauto)]
  case inserted => rw [insertLabel_apart number kept hpool apart, if_pos room]
  case dropped => rw [insertLabel_apart number kept hpool apart, if_neg full.not_gt, evictFor_closed closed]
  case evicts =>
    rw [insertLabel_apart number kept hpool apart, if_neg full.not_gt]
    exact evictFor_worst (e := { e with pool := pool }) mem opened worst
  case protection =>
    have run := exec_expansion_found request (.inl mode) order first dest
    rw [← show y = (s.engine e).takeLabel x from hy] at run
    rw [run, phaseFound_starts hpath (hy ▸ mode) apart (hy ▸ start), hy]
    rfl
  case primary => rw [excludedLink_iff, derivedExcluded_primary mode, hnamed]; simp
  case excluded =>
    subst hnamed hshares
    obtain ⟨link, node, srlg⟩ := derivedExcluded_protection (d := d) (ref := ref) (l := l) mode record
    refine ⟨fun h => ?_, fun h => ?_, fun h => ?_⟩
    · rw [excludedLink_iff, link h, failsLinkTest_iff]
    · rw [excludedLink_iff, node h, decide_eq_true_eq]
    · rw [excludedLink_iff, srlg h, Bool.or_eq_true, failsLinkTest_iff, sharesSrlg_iff]
  case noLinks => rw [examineLinks_chain found numbers hchain, empty]; rfl
  case links => rw [examineLinks_chain found numbers hchain, links]; rfl

end Sys2Proof.Machine

/-!
LEMMAS. Link set replacement (R12 to R15): the links, counters, raises and reports that the items of a FULL record
make, one after another (O45, O46).
-/
namespace Sys2Proof.Machine

/-! ## The first places of a list -/

section
variable {α : Type} [DecidableEq α]

theorem mem_firsts {xs : List α} {a : α} : a ∈ firsts xs ↔ a ∈ xs := by
  induction xs using List.reverseRecOn generalizing a with
  | nil => rfl
  | append_singleton xs x ih =>
    rw [firsts_snoc]
    split
    case isTrue seen =>
      rw [ih, List.mem_append, List.mem_singleton]
      exact ⟨.inl, fun h => h.elim id fun is => is ▸ ih.1 seen⟩
    case isFalse => rw [List.mem_append, List.mem_append, ih]

theorem firsts_nodup (xs : List α) : (firsts xs).Nodup := by
  induction xs using List.reverseRecOn with
  | nil => exact .nil
  | append_singleton xs x ih =>
    rw [firsts_snoc]
    split
    case isTrue => exact ih
    case isFalse fresh => exact List.nodup_append'.2 ⟨ih, List.nodup_singleton x, by simpa using fresh⟩

theorem firsts_prefix (xs ys : List α) : firsts xs <+: firsts (xs ++ ys) := by
  induction ys using List.reverseRecOn with
  | nil => rw [List.append_nil]
  | append_singleton ys y ih =>
    rw [← List.append_assoc, firsts_snoc]
    split
    · exact ih
    · exact ih.trans (List.prefix_append ..)

omit [DecidableEq α] in
theorem not_mem_drop_of_prefix {p xs : List α} {k : Nat} (before : p <+: xs) (nodup : xs.Nodup) (short : p.length ≤ k)
    {a : α} (mem : a ∈ p) : a ∉ xs.drop k := by
  obtain ⟨rest, rfl⟩ := before
  intro later
  rw [List.drop_append, List.drop_eq_nil_of_le short, List.nil_append] at later
  exact List.disjoint_of_nodup_append nodup mem (List.mem_of_mem_drop later)

end

/-! ## The link that a local id's items make (R12, R13) -/

theorem validItem_eq (origin : NodeId) (i : LinkItem) : validItem origin i = goodItem origin i := by
  simp [validItem, goodItem, reservedId, bne, Bool.and_assoc]

section
variable {cfg : Settings} {stored : List Link} {done : List LinkItem} {lid : Word16} {i : LinkItem} {k : Link}

theorem condAfter_snoc (c : CondFields) (items : List LinkItem) :
    condAfter cfg c (items ++ [i]) = (evaluate cfg (condAfter cfg c items) i.q).1 := by
  rw [condAfter, List.foldl_concat]
  rfl

/-- The condition fields of a local id once these items were evaluated (R51). -/
def condOf (cfg : Settings) (stored : List Link) (done : List LinkItem) (lid : Word16) : CondFields :=
  condAfter cfg (condBefore stored lid) (done.filter (fun k => k.lid == lid))

/-- An item gives its own local id its fields and one evaluation more. -/
theorem linkAfter_own : linkAfter cfg stored (done ++ [i]) i.lid =
    some (linkOfItem i (evaluate cfg (condOf cfg stored done i.lid) i.q).1) := by
  have own : (done ++ [i]).filter (fun k => k.lid == i.lid) = done.filter (fun k => k.lid == i.lid) ++ [i] := by
    simp [List.filter_append]
  rw [linkAfter, own, List.getLast?_concat, condAfter_snoc]
  rfl

theorem linkAfter_other (other : lid ≠ i.lid) :
    linkAfter cfg stored (done ++ [i]) lid = linkAfter cfg stored done lid := by
  have same : (done ++ [i]).filter (fun k => k.lid == lid) = done.filter (fun k => k.lid == lid) := by
    simp [List.filter_append, Ne.symm other]
  rw [linkAfter, same]
  rfl

theorem linkAfter_unnamed (unnamed : ∀ j ∈ done, j.lid ≠ lid) : linkAfter cfg stored done lid = findLid stored lid := by
  have empty : done.filter (fun k => k.lid == lid) = [] := List.filter_eq_nil_iff.2 (by simpa using unnamed)
  rw [linkAfter, empty]
  rfl

theorem linkAfter_named (named : ∃ j ∈ done, j.lid = lid) :
    ∃ j, linkAfter cfg stored done lid = some (linkOfItem j (condOf cfg stored done lid)) ∧ j ∈ done ∧ j.lid = lid := by
  have some : done.filter (fun k => k.lid == lid) ≠ [] := by
    obtain ⟨j, mem, is⟩ := named
    exact List.ne_nil_of_mem (List.mem_filter.2 ⟨mem, by simpa using is⟩)
  have last := List.getLast?_eq_some_getLast some
  obtain ⟨mem, is⟩ := List.mem_filter.1 (List.getLast_mem some)
  exact ⟨_, by rw [linkAfter, last]; rfl, mem, by simpa using is⟩

theorem linkAfter_eq_none : linkAfter cfg stored done lid = none ↔
    findLid stored lid = none ∧ ∀ j ∈ done, j.lid ≠ lid := by
  by_cases named : ∃ j ∈ done, j.lid = lid
  · obtain ⟨j, is, mem, own⟩ := linkAfter_named (cfg := cfg) (stored := stored) named
    rw [is]
    exact iff_of_false nofun fun h => h.2 j mem own
  · simp only [not_exists, not_and] at named
    rw [linkAfter_unnamed named]
    exact ⟨fun h => ⟨h, named⟩, And.left⟩

/-- A link's condition fields are those of its evaluations. -/
theorem linkAfter_cond (is : linkAfter cfg stored done lid = some k) : k.cond = condOf cfg stored done lid := by
  by_cases named : ∃ j ∈ done, j.lid = lid
  · obtain ⟨j, is', -⟩ := linkAfter_named (cfg := cfg) (stored := stored) named
    rw [← Option.some.inj (is'.symm.trans is)]
    rfl
  · simp only [not_exists, not_and] at named
    rw [linkAfter_unnamed named] at is
    have empty : done.filter (fun k => k.lid == lid) = [] := List.filter_eq_nil_iff.2 (by simpa using named)
    rw [condOf, empty, condBefore, is]
    rfl

/-- A local id without a link starts from fresh condition fields (R50). -/
theorem condOf_fresh (none : linkAfter cfg stored done lid = none) : condOf cfg stored done lid = CondFields.fresh := by
  obtain ⟨absent, unnamed⟩ := linkAfter_eq_none.1 none
  have empty : done.filter (fun k => k.lid == lid) = [] := List.filter_eq_nil_iff.2 (by simpa using unnamed)
  rw [condOf, empty, condBefore, absent]
  rfl

end

/-! ## The monitor's evaluation of an applied item (R51, R56) -/

theorem evaluate_crossing (cfg : Settings) (f : CondFields) (q : Option Nat) :
    (evaluate cfg f q).2 = true ↔ f.condition ≠ (evaluate cfg f q).1.condition := by
  cases counts : countsTowards cfg f.condition q with
  | false => simp [evaluate_of_not_counts counts]
  | true =>
    by_cases full : f.count + 1 = cfg.filterDepth
    · rw [evaluate_of_counts_full counts full]
      cases f.condition <;> simp [otherCondition]
    · simp [evaluate_of_counts_short counts full]

theorem crossingRaises_eq (cfg : Settings) (origin : NodeId) (stored : List Link) (done : List LinkItem)
    (i : LinkItem) :
    crossingRaises cfg ⟨origin, i.lid⟩ (linkOfItem i (evaluate cfg (condOf cfg stored done i.lid) i.q).1)
      (evaluate cfg (condOf cfg stored done i.lid) i.q).2 = raisesOfItem cfg origin stored done i := by
  rw [crossingRaises, raisesOfItem, ← condOf]
  generalize evaluate cfg (condOf cfg stored done i.lid) i.q = r
  obtain ⟨c, crossed⟩ := r
  cases crossed <;> cases h : c.condition <;> cases k : cfg.crossNotice <;> simp [crossingRaise, linkOfItem, h, k]

theorem crossingsOfItems_snoc (cfg : Settings) (origin : NodeId) (stored : List Link) (done items : List LinkItem)
    (i : LinkItem) : crossingsOfItems cfg origin stored done (items ++ [i]) =
      crossingsOfItems cfg origin stored done items ++ raisesOfItem cfg origin stored (done ++ items) i := by
  induction items generalizing done with
  | nil => simp [crossingsOfItems]
  | cons j items ih => simp [crossingsOfItems, ih]

/-! ## The reports of an applied item (R13, R21, R23) -/

theorem mem_reportIf {b : Bool} {el : Element} {kind : ReportKind} {r : Report} :
    r ∈ reportIf b el kind ↔ b = true ∧ r.element = el ∧ r.kind = kind := by
  obtain ⟨el', kind'⟩ := r
  cases b <;> simp [reportIf]

theorem reportIf_sublist (b : Bool) (el : Element) (kind : ReportKind) :
    (reportIf b el kind).Sublist [⟨el, kind⟩] := by
  cases b <;> simp [reportIf]

/-- Reports of one element whose kinds are some of these, in R21's order. -/
theorem pairwise_kinds {el : Element} {kinds : List ReportKind} (ascending :
    kinds.Pairwise (fun a b => kindsInOrder.idxOf a < kindsInOrder.idxOf b)) {rs : List Report}
    (some : rs.Sublist (kinds.map (fun k => ⟨el, k⟩))) : rs.Pairwise KindBefore :=
  .sublist some (List.pairwise_map.2 (ascending.imp id))

section
variable {cfg : Settings} {origin : NodeId} {stored : List Link} {done : List LinkItem} {i : LinkItem}

/-- The reports of an item that updates its link (R13). -/
theorem updates_reports {k l : Link} (before : linkAfter cfg stored done i.lid = some k)
    (after : linkAfter cfg stored (done ++ [i]) i.lid = some l) {crossed : Bool}
    (crossing : crossed = true ↔ k.cond.condition ≠ l.cond.condition) :
    ItemReports cfg origin stored done i
      (fieldReports ⟨origin, i.lid⟩ k l ++ reportIf crossed (.link ⟨origin, i.lid⟩) .condition) := by
  constructor
  · refine pairwise_kinds (el := .link ⟨origin, i.lid⟩)
      (kinds := [.cost, .q, .occupancy, .admin, .endpoints, .srlg, .condition]) (by decide) ?_
    exact ((((((reportIf_sublist ..).append (reportIf_sublist ..)).append (reportIf_sublist ..)).append
      (reportIf_sublist ..)).append (reportIf_sublist ..)).append (reportIf_sublist ..)).append (reportIf_sublist ..)
  · intro r
    rw [before, after]
    obtain ⟨el, kind⟩ := r
    simp only [fieldReports, List.mem_append, mem_reportIf, bne_iff_ne, Bool.or_eq_true, crossing, Option.some.injEq,
      exists_eq_left']
    cases kind <;> simp [FieldChanged, and_comm]

/-- The reports of an item that creates its link (R12, R13). -/
theorem creates_reports {l : Link} (before : linkAfter cfg stored done i.lid = none)
    (after : linkAfter cfg stored (done ++ [i]) i.lid = some l) {crossed : Bool}
    (crossing : crossed = true ↔ l.cond.condition ≠ .normal) :
    ItemReports cfg origin stored done i
      (reportIf true (.link ⟨origin, i.lid⟩) .created ++ reportIf crossed (.link ⟨origin, i.lid⟩) .condition) := by
  constructor
  · exact pairwise_kinds (el := .link ⟨origin, i.lid⟩) (kinds := [.created, .condition]) (by decide)
      ((reportIf_sublist ..).append (reportIf_sublist ..))
  · intro r
    rw [before, after]
    obtain ⟨el, kind⟩ := r
    simp only [List.mem_append, mem_reportIf, crossing, Option.some.injEq, exists_eq_left', true_and]
    tauto

theorem itemsReports_snoc {items : List LinkItem} {rs ts : List Report}
    (all : ItemsReports cfg origin stored done items rs)
    (last : ItemReports cfg origin stored (done ++ items) i ts) :
    ItemsReports cfg origin stored done (items ++ [i]) (rs ++ ts) := by
  induction items generalizing done rs with
  | nil =>
    obtain rfl : rs = [] := all
    rw [List.append_nil] at last
    exact ⟨ts, [], by simp, last, rfl⟩
  | cons j items ih =>
    obtain ⟨a, b, rfl, one, rest⟩ := all
    exact ⟨a, b ++ ts, by simp, one, ih rest (by simpa using last)⟩

end

/-! ## Which items find room (R12, R15) -/

section
variable (x : FullRecord) (stored : List Link) (others : Nat)

/-- The local ids of these items that the node's list does not hold, in the order of their first items. -/
def newLidsOf (items : List LinkItem) : List Word16 :=
  firsts ((items.map (·.lid)).filter (fun lid => (findLid stored lid).isNone))

theorem newLids_eq : x.newLids stored = newLidsOf stored x.goodItems := rfl

/-- The new local ids that find no room (R15). -/
def FullRecord.fullLids : List Word16 := (x.newLids stored).drop (x.room stored others)

/-- Those of these items that are applied (R15). -/
def FullRecord.made (items : List LinkItem) : List LinkItem :=
  items.filter (fun i => !decide (i.lid ∈ x.fullLids stored others))

theorem madeItems_eq : x.madeItems stored others = x.made stored others x.goodItems := rfl

/-- How many links these items create. -/
def FullRecord.createdBy (items : List LinkItem) : Nat := min (newLidsOf stored items).length (x.room stored others)

/-- How many of these items are dropped. -/
def FullRecord.droppedBy (items : List LinkItem) : Nat :=
  (items.filter (fun i => decide (i.lid ∈ x.fullLids stored others))).length

end

section
variable {x : FullRecord} {stored : List Link} {others : Nat}

theorem mem_newLidsOf {items : List LinkItem} {lid : Word16} :
    lid ∈ newLidsOf stored items ↔ findLid stored lid = none ∧ ∃ i ∈ items, i.lid = lid := by
  simp only [newLidsOf, mem_firsts, List.mem_filter, List.mem_map, Option.isNone_iff_eq_none]
  tauto

theorem newLidsOf_prefix (items more : List LinkItem) :
    newLidsOf stored items <+: newLidsOf stored (items ++ more) := by
  rw [newLidsOf, newLidsOf, List.map_append, List.filter_append]
  exact firsts_prefix ..

theorem newLidsOf_snoc (items : List LinkItem) (i : LinkItem) : newLidsOf stored (items ++ [i]) =
    if (findLid stored i.lid).isNone then
      (if i.lid ∈ newLidsOf stored items then newLidsOf stored items else newLidsOf stored items ++ [i.lid])
    else newLidsOf stored items := by
  unfold newLidsOf
  cases held : findLid stored i.lid <;> simp [held, firsts_snoc]

theorem newLidsOf_old {items : List LinkItem} {i : LinkItem}
    (old : findLid stored i.lid ≠ none ∨ ∃ j ∈ items, j.lid = i.lid) :
    newLidsOf stored (items ++ [i]) = newLidsOf stored items := by
  rw [newLidsOf_snoc]
  split
  case isTrue absent =>
    rw [Option.isNone_iff_eq_none] at absent
    exact if_pos (mem_newLidsOf.2 ⟨absent, old.resolve_left (absurd absent)⟩)
  case isFalse => rfl

theorem newLidsOf_new {items : List LinkItem} {i : LinkItem} (absent : findLid stored i.lid = none)
    (fresh : ∀ j ∈ items, j.lid ≠ i.lid) : newLidsOf stored (items ++ [i]) = newLidsOf stored items ++ [i.lid] := by
  have unseen : i.lid ∉ newLidsOf stored items := fun seen => by
    obtain ⟨-, j, mem, is⟩ := mem_newLidsOf.1 seen
    exact fresh j mem is
  rw [newLidsOf_snoc, absent, Option.isNone_none, if_pos rfl, if_neg unseen]

theorem newLidsOf_first {first rest : List LinkItem} (split : x.goodItems = first ++ rest) :
    newLidsOf stored first <+: x.newLids stored := by
  rw [newLids_eq, split]
  exact newLidsOf_prefix ..

theorem mem_fullLids {lid : Word16} (full : lid ∈ x.fullLids stored others) :
    findLid stored lid = none ∧ ∃ i ∈ x.goodItems, i.lid = lid :=
  mem_newLidsOf.1 (List.mem_of_mem_drop full)

theorem made_snoc_kept {done : List LinkItem} {i : LinkItem} (room : i.lid ∉ x.fullLids stored others) :
    x.made stored others (done ++ [i]) = x.made stored others done ++ [i] := by
  simp [FullRecord.made, room]

theorem made_snoc_dropped {done : List LinkItem} {i : LinkItem} (full : i.lid ∈ x.fullLids stored others) :
    x.made stored others (done ++ [i]) = x.made stored others done := by
  simp [FullRecord.made, full]

theorem mem_made {done : List LinkItem} {i : LinkItem} :
    i ∈ x.made stored others done ↔ i ∈ done ∧ i.lid ∉ x.fullLids stored others := by
  simp [FullRecord.made]

section
variable {done rest : List LinkItem} {i : LinkItem}

/-- An item whose id has a link finds it, whatever the room. -/
theorem old_item {cfg : Settings} {k : Link} (has : linkAfter cfg stored (x.made stored others done) i.lid = some k) :
    i.lid ∉ x.fullLids stored others ∧ newLidsOf stored (done ++ [i]) = newLidsOf stored done := by
  have old : findLid stored i.lid ≠ none ∨ ∃ j ∈ x.made stored others done, j.lid = i.lid := by
    by_contra neither
    simp only [not_or, not_not, not_exists, not_and] at neither
    rw [linkAfter_eq_none.2 neither] at has
    cases has
  refine ⟨fun full => ?_, newLidsOf_old (old.imp_right fun ⟨j, mem, is⟩ => ⟨j, (mem_made.1 mem).1, is⟩)⟩
  rcases old with held | ⟨j, mem, is⟩
  · exact held (mem_fullLids full).1
  · exact (mem_made.1 mem).2 (is ▸ full)

/-- A new item finds room exactly while fewer new ids than the room came before it. -/
theorem new_item {cfg : Settings} (split : x.goodItems = done ++ i :: rest)
    (none : linkAfter cfg stored (x.made stored others done) i.lid = none) :
    if (newLidsOf stored done).length < x.room stored others
    then i.lid ∉ x.fullLids stored others ∧ newLidsOf stored (done ++ [i]) = newLidsOf stored done ++ [i.lid]
    else i.lid ∈ x.fullLids stored others := by
  obtain ⟨absent, unmade⟩ := linkAfter_eq_none.1 none
  have nodup : (x.newLids stored).Nodup := firsts_nodup _
  have before := newLidsOf_first (stored := stored) split
  split
  case isTrue room =>
    have fresh : ∀ j ∈ done, j.lid ≠ i.lid := fun j mem is => by
      have seen : i.lid ∈ newLidsOf stored done := mem_newLidsOf.2 ⟨absent, j, mem, is⟩
      have unfull := not_mem_drop_of_prefix before nodup room.le seen
      exact unmade j (mem_made.2 ⟨mem, is ▸ unfull⟩) is
    have grows := newLidsOf_new absent fresh
    have next : newLidsOf stored (done ++ [i]) <+: x.newLids stored :=
      newLidsOf_first (rest := rest) (by simp [split])
    refine ⟨not_mem_drop_of_prefix next nodup (by simp [grows]; omega) (by simp [grows]), grows⟩
  case isFalse full =>
    by_contra unfull
    have mem : i.lid ∈ x.newLids stored := mem_newLidsOf.2 ⟨absent, i, by simp [split], rfl⟩
    rw [← List.take_append_drop (x.room stored others) (x.newLids stored), List.mem_append] at mem
    have early := mem.resolve_right unfull
    obtain ⟨tail, whole⟩ := before
    rw [← whole, List.take_append_of_le_length (by omega)] at early
    obtain ⟨-, j, inDone, is⟩ := mem_newLidsOf.1 (List.mem_of_mem_take early)
    exact unmade j (mem_made.2 ⟨inDone, is ▸ unfull⟩) is

end

end

/-! ## One item after another (R12) -/

/-- A counter that was incremented `n` times. -/
def bumped (c n : Nat) : Nat := if n = 0 then c else min (c + n) 4294967295

theorem bump_bumped (c n : Nat) : bump (bumped c n) = bumped c (n + 1) := by
  unfold bumped
  rw [bump_eq]
  split
  case isTrue zero => simp [zero]
  case isFalse => rw [if_neg (by omega)]; omega

section
variable {cfg : Settings} {origin : NodeId} {others : Nat} {w : LinkWork} {i : LinkItem}

theorem applyItem_updates {k : Link} {r : CondFields × Bool} (held : findLid w.links i.lid = some k)
    (hr : r = evaluate cfg k.cond i.q) : applyItem cfg origin others w i = { w with
      links := replaceLink (linkOfItem i r.1) w.links
      raises := w.raises ++ crossingRaises cfg ⟨origin, i.lid⟩ (linkOfItem i r.1) r.2
      reports := w.reports ++ (fieldReports ⟨origin, i.lid⟩ k (linkOfItem i r.1) ++
        reportIf r.2 (.link ⟨origin, i.lid⟩) .condition) } := by
  rw [applyItem, held, hr, ← List.append_assoc]
  rfl

theorem applyItem_creates {r : CondFields × Bool} (absent : findLid w.links i.lid = none)
    (room : w.links.length < 32 ∧ others + w.links.length < 2048) (hr : r = evaluate cfg CondFields.fresh i.q) :
    applyItem cfg origin others w i = { w with
      links := insertLink (linkOfItem i r.1) w.links
      counters := { w.counters with linksCreated := bump w.counters.linksCreated }
      raises := w.raises ++ crossingRaises cfg ⟨origin, i.lid⟩ (linkOfItem i r.1) r.2
      reports := w.reports ++ (reportIf true (.link ⟨origin, i.lid⟩) .created ++
        reportIf r.2 (.link ⟨origin, i.lid⟩) .condition) } := by
  rw [applyItem, absent, hr, ← List.append_assoc]
  exact if_pos room

theorem applyItem_drops (absent : findLid w.links i.lid = none)
    (full : ¬(w.links.length < 32 ∧ others + w.links.length < 2048)) : applyItem cfg origin others w i = { w with
      counters := { w.counters with linksDropped := bump w.counters.linksDropped }
      dropped := true } := by
  rw [applyItem, absent]
  exact if_neg full

end

section
variable {l : Link} {ls : List Link} {lid : Word16}

theorem findLid_cons (x : Link) (ls : List Link) (lid : Word16) :
    findLid (x :: ls) lid = if x.lid = lid then some x else findLid ls lid := by
  by_cases h : x.lid = lid <;> simp [findLid, h]

theorem findLid_insertLink (fresh : findLid ls l.lid = none) :
    findLid (insertLink l ls) lid = if l.lid = lid then some l else findLid ls lid := by
  induction ls with
  | nil => exact findLid_cons ..
  | cons x ls ih =>
    have apart : x.lid ≠ l.lid := findLid_none fresh x (by simp)
    rw [findLid_cons, if_neg apart] at fresh
    unfold insertLink
    split
    · exact findLid_cons ..
    · rw [findLid_cons, findLid_cons, ih fresh]
      by_cases own : l.lid = lid
      · simp [own, own ▸ apart]
      · simp [own]

theorem findLid_replaceLink (held : findLid ls l.lid ≠ none) :
    findLid (replaceLink l ls) lid = if l.lid = lid then some l else findLid ls lid := by
  induction ls with
  | nil => exact absurd rfl held
  | cons x ls ih =>
    have other (ls : List Link) (apart : l.lid ≠ lid) : findLid (replaceLink l ls) lid = findLid ls lid := by
      induction ls with
      | nil => rfl
      | cons x ls ih =>
        rw [replaceLink, List.map_cons, ← replaceLink, findLid_cons, findLid_cons, ih]
        by_cases same : x.lid = l.lid <;> simp [same, apart]
    by_cases own : l.lid = lid
    · rw [replaceLink, List.map_cons, ← replaceLink, findLid_cons, if_pos own]
      by_cases same : x.lid = l.lid
      · simp [same, own]
      · rw [findLid_cons, if_neg same] at held
        simp [own ▸ same, ih held, own]
    · rw [if_neg own, other _ own]

theorem findLid_filter (p : Word16 → Bool) :
    findLid (ls.filter (fun l => p l.lid)) lid = if p lid then findLid ls lid else none := by
  induction ls with
  | nil => simp [findLid]
  | cons x ls ih =>
    rw [findLid_cons]
    by_cases keeps : p x.lid = true
    · rw [List.filter_cons_of_pos (by simpa using keeps), findLid_cons, ih]
      by_cases own : x.lid = lid
      · simp [own, own ▸ keeps]
      · simp [own]
    · rw [List.filter_cons_of_neg (by simpa using keeps), ih]
      by_cases own : x.lid = lid
      · simp [own ▸ keeps]
      · simp [own]

end

/-- A valid item of the record names the local id. -/
def FullRecord.names (x : FullRecord) (lid : Word16) : Bool := x.goodItems.any (fun i => i.lid == lid)

theorem names_iff {x : FullRecord} {lid : Word16} : x.names lid = true ↔ ∃ i ∈ x.goodItems, i.lid = lid := by
  simp [FullRecord.names]

/-- The work of link set replacement after these items of the record: each link is that of its applied items, and
the counters, raises and reports are theirs (R12 to R15). -/
structure Replaced (cfg : Settings) (x : FullRecord) (stored : List Link) (others : Nat) (c : StoreCounters)
    (done : List LinkItem) (w : LinkWork) : Prop where
  ascending : w.links.Pairwise (fun k l => k.lid.toNat < l.lid.toNat)
  found : ∀ lid, findLid w.links lid =
    if x.names lid then linkAfter cfg stored (x.made stored others done) lid else none
  length : w.links.length = x.kept stored + x.createdBy stored others done
  counters : w.counters = { c with
    linksFreed := addSat c.linksFreed (stored.length - x.kept stored)
    itemsInvalid := addSat c.itemsInvalid (x.items.length - x.goodItems.length)
    linksCreated := bumped c.linksCreated (x.createdBy stored others done)
    linksDropped := bumped c.linksDropped (x.droppedBy stored others done) }
  raises : w.raises = crossingsOfItems cfg x.origin stored [] (x.made stored others done)
  reports : ∃ items, w.reports = (stored.filter (fun l => !x.names l.lid)).map
    (fun l => { element := .link ⟨x.origin, l.lid⟩, kind := .freed }) ++ items ∧
    ItemsReports cfg x.origin stored [] (x.made stored others done) items
  dropped : w.dropped = true ↔ ∃ i ∈ done, i.lid ∈ x.fullLids stored others

section
variable {cfg : Settings} {x : FullRecord} {stored : List Link} {others : Nat} {c : StoreCounters}
  {done rest : List LinkItem} {i : LinkItem} {w : LinkWork}

theorem filter_not_length {α : Type} (p : α → Bool) (l : List α) :
    (l.filter (fun a => !p a)).length = l.length - (l.filter p).length := by
  have := List.length_eq_length_filter_add (l := l) p
  omega

/-- Step 1 of R12 leaves the named links of the node's list. -/
theorem freeUnnamed_replaced (ascending : stored.Pairwise (fun k l => k.lid.toNat < l.lid.toNat)) :
    Replaced cfg x stored others c [] (freeUnnamed x.origin stored x.items c) := by
  have good : x.items.filter (validItem x.origin) = x.goodItems :=
    List.filter_congr fun i _ => validItem_eq x.origin i
  have names (l : Link) : (x.goodItems.any fun i => i.lid == l.lid) = x.names l.lid := rfl
  have kept : x.kept stored = (stored.filter (fun l => x.names l.lid)).length := rfl
  have none : x.createdBy stored others [] = 0 := Nat.zero_min _
  rw [freeUnnamed]
  simp only [good, names]
  refine ⟨ascending.sublist List.filter_sublist, fun lid => findLid_filter x.names, ?length, ?counters, rfl,
    ⟨[], by simp, rfl⟩, by simp⟩
  case length => rw [none]; rfl
  case counters =>
    rw [none, filter_not_length, filter_not_length, good, kept]
    rfl

theorem createdBy_congr {items more : List LinkItem} (same : newLidsOf stored more = newLidsOf stored items) :
    x.createdBy stored others more = x.createdBy stored others items := by
  rw [FullRecord.createdBy, same, FullRecord.createdBy]

theorem droppedBy_snoc (done : List LinkItem) (i : LinkItem) : x.droppedBy stored others (done ++ [i]) =
    x.droppedBy stored others done + if i.lid ∈ x.fullLids stored others then 1 else 0 := by
  by_cases full : i.lid ∈ x.fullLids stored others <;> simp [FullRecord.droppedBy, full]

section
variable (split : x.goodItems = done ++ i :: rest) (so : Replaced cfg x stored others c done w)
include split so

theorem Replaced.found_item : findLid w.links i.lid = linkAfter cfg stored (x.made stored others done) i.lid := by
  rw [so.found, if_pos (names_iff.2 ⟨i, by simp [split], rfl⟩)]

/-- The links after an applied item, from those before it. -/
theorem Replaced.found_made {ls : List Link} (room : i.lid ∉ x.fullLids stored others)
    (own : ∀ lid, findLid ls lid = if i.lid = lid
      then some (linkOfItem i (evaluate cfg (condOf cfg stored (x.made stored others done) i.lid) i.q).1)
      else findLid w.links lid) (lid : Word16) :
    findLid ls lid = if x.names lid then linkAfter cfg stored (x.made stored others (done ++ [i])) lid else none := by
  rw [own, made_snoc_kept room]
  by_cases is : i.lid = lid
  · rw [if_pos is, if_pos (names_iff.2 ⟨i, by simp [split], is⟩), ← is, linkAfter_own]
  · rw [if_neg is, so.found, linkAfter_other (Ne.symm is)]

/-- The work after an item that updates its link. -/
theorem updates_replaced {k : Link} (has : linkAfter cfg stored (x.made stored others done) i.lid = some k) :
    Replaced cfg x stored others c (done ++ [i]) (applyItem cfg x.origin others w i) := by
  obtain ⟨room, same⟩ := old_item has
  have held := (so.found_item split).trans has
  have cond := linkAfter_cond has
  obtain ⟨items, reports, each⟩ := so.reports
  have created := createdBy_congr (x := x) (others := others) same
  have dropped := droppedBy_snoc (x := x) (stored := stored) (others := others) done i
  rw [if_neg room, Nat.add_zero] at dropped
  rw [applyItem_updates held rfl, cond]
  refine ⟨replaceLink_sorted so.ascending, so.found_made split room fun lid => ?found, ?length, ?counters, ?raises,
    ⟨_, by rw [reports, List.append_assoc], ?reports⟩, ?dropped⟩
  case found => exact findLid_replaceLink (by rw [show (linkOfItem i _).lid = i.lid from rfl, held]; exact nofun)
  case length => rw [created, ← so.length, replaceLink, List.length_map]
  case counters => rw [created, dropped]; exact so.counters
  case raises =>
    rw [so.raises, crossingRaises_eq, made_snoc_kept room, crossingsOfItems_snoc]
    rfl
  case reports =>
    rw [made_snoc_kept room]
    refine itemsReports_snoc each (updates_reports has linkAfter_own ?_)
    rw [evaluate_crossing, ← cond]
    rfl
  case dropped => rw [so.dropped]; simp [room]

/-- The work after an item that creates its link. -/
theorem creates_replaced (absent : linkAfter cfg stored (x.made stored others done) i.lid = none)
    (fewer : (newLidsOf stored done).length < x.room stored others) :
    Replaced cfg x stored others c (done ++ [i]) (applyItem cfg x.origin others w i) := by
  have new := new_item split absent
  rw [if_pos fewer] at new
  obtain ⟨room, grows⟩ := new
  have free := (so.found_item split).trans absent
  have fresh := condOf_fresh absent
  obtain ⟨items, reports, each⟩ := so.reports
  have created : x.createdBy stored others (done ++ [i]) = x.createdBy stored others done + 1 := by
    simp only [FullRecord.createdBy, grows, List.length_append, List.length_singleton]
    omega
  have dropped := droppedBy_snoc (x := x) (stored := stored) (others := others) done i
  rw [if_neg room, Nat.add_zero] at dropped
  have short : w.links.length < 32 ∧ others + w.links.length < 2048 := by
    have := so.length
    simp only [FullRecord.createdBy, FullRecord.room] at this fewer
    omega
  rw [applyItem_creates free short rfl, ← fresh]
  refine ⟨insertLink_sorted (findLid_none free) so.ascending, so.found_made split room fun lid => ?found, ?length,
    ?counters, ?raises, ⟨_, by rw [reports, List.append_assoc], ?reports⟩, ?dropped⟩
  case found => exact findLid_insertLink free
  case length => rw [created, insertLink_length, so.length]; rfl
  case counters =>
    rw [created, dropped, ← bump_bumped]
    exact congrArg (fun k : StoreCounters => { k with linksCreated := bump k.linksCreated }) so.counters
  case raises =>
    rw [so.raises, crossingRaises_eq, made_snoc_kept room, crossingsOfItems_snoc]
    rfl
  case reports =>
    rw [made_snoc_kept room]
    refine itemsReports_snoc each (creates_reports absent linkAfter_own ?_)
    rw [evaluate_crossing, fresh]
    exact ne_comm
  case dropped => rw [so.dropped]; simp [room]

/-- The work after an item that finds no room. -/
theorem drops_replaced (absent : linkAfter cfg stored (x.made stored others done) i.lid = none)
    (all : ¬(newLidsOf stored done).length < x.room stored others) :
    Replaced cfg x stored others c (done ++ [i]) (applyItem cfg x.origin others w i) := by
  have full := new_item split absent
  rw [if_neg all] at full
  have free := (so.found_item split).trans absent
  have longer := (newLidsOf_prefix (stored := stored) done [i]).length_le
  have created : x.createdBy stored others (done ++ [i]) = x.createdBy stored others done := by
    simp only [FullRecord.createdBy]
    omega
  have dropped := droppedBy_snoc (x := x) (stored := stored) (others := others) done i
  rw [if_pos full] at dropped
  have noRoom : ¬(w.links.length < 32 ∧ others + w.links.length < 2048) := by
    have := so.length
    simp only [FullRecord.createdBy, FullRecord.room] at this all
    omega
  have made := made_snoc_dropped (done := done) full
  rw [applyItem_drops free noRoom]
  refine ⟨so.ascending, made ▸ so.found, created ▸ so.length, ?counters, made ▸ so.raises, made ▸ so.reports,
    iff_of_true rfl ⟨i, by simp, full⟩⟩
  rw [created, dropped, ← bump_bumped]
  exact congrArg (fun k : StoreCounters => { k with linksDropped := bump k.linksDropped }) so.counters

theorem applyItem_replaced : Replaced cfg x stored others c (done ++ [i]) (applyItem cfg x.origin others w i) := by
  cases h : linkAfter cfg stored (x.made stored others done) i.lid with
  | some k => exact updates_replaced split so h
  | none =>
    by_cases fewer : (newLidsOf stored done).length < x.room stored others
    · exact creates_replaced split so h fewer
    · exact drops_replaced split so h fewer

end

/-- Link set replacement whole (R12 to R15). -/
theorem replaceLinks_replaced (ascending : stored.Pairwise (fun k l => k.lid.toNat < l.lid.toNat)) :
    Replaced cfg x stored others c x.goodItems (replaceLinks cfg x.origin others stored x.items c) := by
  have good : x.items.filter (validItem x.origin) = x.goodItems :=
    List.filter_congr fun i _ => validItem_eq x.origin i
  have all (rest done : List LinkItem) (w : LinkWork) (split : x.goodItems = done ++ rest)
      (so : Replaced cfg x stored others c done w) :
      Replaced cfg x stored others c x.goodItems (rest.foldl (applyItem cfg x.origin others) w) := by
    induction rest generalizing done w with
    | nil => rw [List.append_nil] at split; exact split ▸ so
    | cons i rest ih => exact ih (done ++ [i]) _ (by simp [split]) (applyItem_replaced split so)
  rw [replaceLinks, good]
  exact all x.goodItems [] _ rfl (freeUnnamed_replaced ascending)

end

end Sys2Proof.Machine

/-!
LEMMAS. The changes of R21 that a record's application makes are its reports, and their order (R21, R23; O45, O46).
-/
namespace Sys2Proof.Machine

/-! ## The reports of the items are the changes of their links -/

/-- R21's changes of a link, but USABILITY, by what stands under its ref before and after. -/
def LinkChanged (before after : Option Link) (kind : ReportKind) : Prop :=
  kind = .created ∧ before = none ∧ after ≠ none ∨ kind = .freed ∧ before ≠ none ∧ after = none ∨
  (∃ k l, before = some k ∧ after = some l ∧ FieldChanged kind k l) ∨
  kind = .condition ∧ before = none ∧ ∃ l, after = some l ∧ l.cond.condition ≠ .normal

theorem changed_link_iff {b b' : Bool} {nodes nodes' : List NodeEntry} {ref : LinkRef} {kind : ReportKind}
    (usability : kind ≠ .usability) : Changed b b' nodes nodes' ⟨.link ref, kind⟩ ↔
      LinkChanged (findLink nodes ref) (findLink nodes' ref) kind := by
  cases before : findLink nodes ref <;> cases after : findLink nodes' ref <;> cases kind <;>
    simp [Changed, LinkChanged, FieldChanged, before, after, eq_comm] at usability ⊢

theorem linkChanged_gone {before : Option Link} {kind : ReportKind} :
    LinkChanged before none kind ↔ kind = .freed ∧ before ≠ none := by simp [LinkChanged]

theorem fieldChanged_irrefl (kind : ReportKind) (k : Link) : ¬FieldChanged kind k k := by
  cases kind <;> simp [FieldChanged]

theorem linkChanged_self (o : Option Link) (kind : ReportKind) : ¬LinkChanged o o kind := by
  cases o <;> simp [LinkChanged, fieldChanged_irrefl]

/-- A change between two links shows between one of them and any third. -/
theorem fieldChanged_split {kind : ReportKind} {k l : Link} (m : Link) (changed : FieldChanged kind k l) :
    FieldChanged kind k m ∨ FieldChanged kind m l := by
  by_contra neither
  rw [not_or] at neither
  obtain ⟨left, right⟩ := neither
  cases kind <;> simp_all [FieldChanged]

section
variable {cfg : Settings} {origin : NodeId} {stored : List Link} {lid : Word16}

/-- What holds of a local id's link at first and no more at last ends at one of the id's items. -/
theorem linkAfter_step {P : Option Link → Prop} {p q : List LinkItem} (start : P (linkAfter cfg stored p lid))
    (ends : ¬P (linkAfter cfg stored (p ++ q) lid)) : ∃ before i after, q = before ++ i :: after ∧ i.lid = lid ∧
      P (linkAfter cfg stored (p ++ before) lid) ∧ ¬P (linkAfter cfg stored (p ++ before ++ [i]) lid) := by
  induction q generalizing p with
  | nil => rw [List.append_nil] at ends; exact absurd start ends
  | cons i q ih =>
    by_cases next : P (linkAfter cfg stored (p ++ [i]) lid)
    · obtain ⟨before, j, after, rfl, is, holds, fails⟩ := ih next (by simpa using ends)
      exact ⟨i :: before, j, after, rfl, is, by simpa using holds, by simpa using fails⟩
    · refine ⟨[], i, q, rfl, ?_, by simpa using start, by simpa using next⟩
      by_contra other
      rw [linkAfter_other (Ne.symm other)] at next
      exact next start

theorem linkAfter_unnamed_tail {p q : List LinkItem} (unnamed : ∀ j ∈ q, j.lid ≠ lid) :
    linkAfter cfg stored (p ++ q) lid = linkAfter cfg stored p lid := by
  induction q generalizing p with
  | nil => rw [List.append_nil]
  | cons i q ih =>
    rw [← List.singleton_append, ← List.append_assoc, ih fun j mem => unnamed j (by simp [mem]),
      linkAfter_other (Ne.symm (unnamed i (by simp)))]

/-- A report that an item of the record makes (item 3 of R23). -/
def ItemReport (cfg : Settings) (origin : NodeId) (stored : List Link) (done : List LinkItem) (i : LinkItem)
    (r : Report) : Prop :=
  r.element = .link ⟨origin, i.lid⟩ ∧ ∃ l, linkAfter cfg stored (done ++ [i]) i.lid = some l ∧
    (linkAfter cfg stored done i.lid = none ∧ (r.kind = .created ∨ r.kind = .condition ∧ l.cond.condition ≠ .normal) ∨
      ∃ k, linkAfter cfg stored done i.lid = some k ∧ FieldChanged r.kind k l)

theorem mem_itemReports {done : List LinkItem} {i : LinkItem} {rs : List Report}
    (h : ItemReports cfg origin stored done i rs) {r : Report} : r ∈ rs ↔ ItemReport cfg origin stored done i r := by
  rw [h.2, ItemReport]
  cases linkAfter cfg stored done i.lid <;> simp

theorem mem_itemsReports {done items : List LinkItem} {rs : List Report}
    (h : ItemsReports cfg origin stored done items rs) {r : Report} : r ∈ rs ↔
      ∃ before i after, items = before ++ i :: after ∧ ItemReport cfg origin stored (done ++ before) i r := by
  induction items generalizing done rs with
  | nil =>
    obtain rfl : rs = [] := h
    simp
  | cons i items ih =>
    obtain ⟨a, b, rfl, one, rest⟩ := h
    rw [List.mem_append, mem_itemReports one, ih rest]
    constructor
    · rintro (own | ⟨before, j, after, rfl, report⟩)
      · exact ⟨[], i, items, rfl, by simpa using own⟩
      · exact ⟨i :: before, j, after, rfl, by simpa using report⟩
    · rintro ⟨before, j, after, split, report⟩
      cases before with
      | nil =>
        obtain ⟨rfl, rfl⟩ := List.cons.inj split
        exact .inl (by simpa using report)
      | cons j' before =>
        obtain ⟨rfl, rfl⟩ := List.cons.inj split
        exact .inr ⟨before, j, after, rfl, by simpa using report⟩

variable {x : FullRecord} {others : Nat}

/-- A field that differs between two states of a link changed at one of its items. -/
theorem fieldChanged_step {p q : List LinkItem} {k l : Link} {kind : ReportKind}
    (had : linkAfter cfg stored p lid = some k) (has : linkAfter cfg stored (p ++ q) lid = some l)
    (changed : FieldChanged kind k l) : ∃ before i after k' l', q = before ++ i :: after ∧ i.lid = lid ∧
      linkAfter cfg stored (p ++ before) lid = some k' ∧ linkAfter cfg stored (p ++ before ++ [i]) lid = some l' ∧
      FieldChanged kind k' l' := by
  obtain ⟨before, i, after, rfl, is, ⟨k', holds, same⟩, ends⟩ :=
    linkAfter_step (cfg := cfg) (stored := stored) (lid := lid) (P := fun o => ∃ m, o = some m ∧ ¬FieldChanged kind k m)
      ⟨k, had, fieldChanged_irrefl kind k⟩ (fun ⟨m, is, same⟩ => same (Option.some.inj (has.symm.trans is) ▸ changed))
  obtain ⟨l', makes⟩ : ∃ l', linkAfter cfg stored (p ++ before ++ [i]) lid = some l' := ⟨_, is ▸ linkAfter_own⟩
  have differs : FieldChanged kind k l' := by
    by_contra unchanged
    exact ends ⟨l', makes, unchanged⟩
  exact ⟨before, i, after, k', l', rfl, is, holds, makes, (fieldChanged_split k' differs).resolve_left same⟩

section
variable {items : List Report} (h : ItemsReports cfg x.origin stored [] (x.madeItems stored others) items)
  {kind : ReportKind}
include h

/-- What an item reports is a change of the event, or one between two items of its id. -/
theorem changes_of_items (report : (⟨.link ⟨x.origin, lid⟩, kind⟩ : Report) ∈ items) :
    LinkChanged (findLid stored lid) (linkAfter cfg stored (x.madeItems stored others) lid) kind ∨
      ItemChanged cfg x stored others ⟨.link ⟨x.origin, lid⟩, kind⟩ := by
  obtain ⟨before, i, after, split, el, l, makes, how⟩ := (mem_itemsReports h).1 report
  obtain rfl : lid = i.lid := by simpa using el
  rw [List.nil_append] at makes how
  rcases how with ⟨none, how⟩ | ⟨k, had, changed⟩
  case inr => exact .inr ⟨before, i, after, k, l, split, rfl, had, makes, changed⟩
  case inl =>
    have absent := (linkAfter_eq_none.1 none).1
    obtain ⟨j, final, -⟩ := linkAfter_named (cfg := cfg) (stored := stored) (lid := i.lid)
      (done := x.madeItems stored others) ⟨i, by simp [split], rfl⟩
    rcases how with created | ⟨condition, degraded⟩
    · exact .inl (.inl ⟨created, absent, by rw [final]; exact nofun⟩)
    · obtain rfl : kind = .condition := condition
      by_cases stays : (condOf cfg stored (x.madeItems stored others) i.lid).condition = .normal
      · have whole : x.madeItems stored others = before ++ [i] ++ after := by simp [split]
        rw [whole] at final stays
        have differs : FieldChanged .condition l
            (linkOfItem j (condOf cfg stored (before ++ [i] ++ after) i.lid)) := fun same => degraded (same.trans stays)
        obtain ⟨more, m, rest, k', l', rfl, is, had, has, changed⟩ := fieldChanged_step makes final differs
        exact .inr ⟨before ++ i :: more, m, rest, k', l', by simp [split], by rw [is],
          by rw [is]; simpa using had, by rw [is]; simpa using has, changed⟩
      · exact .inl (.inr (.inr (.inr ⟨rfl, absent, _, final, stays⟩)))

/-- A change of a link over the event is the report of one of its items. -/
theorem items_of_changes
    (changed : LinkChanged (findLid stored lid) (linkAfter cfg stored (x.madeItems stored others) lid) kind) :
    (⟨.link ⟨x.origin, lid⟩, kind⟩ : Report) ∈ items := by
  have start : linkAfter cfg stored [] lid = findLid stored lid := linkAfter_unnamed (by simp)
  rw [mem_itemsReports h]
  rcases changed with ⟨created, absent, held⟩ | ⟨-, held, gone⟩ | ⟨k, l, had, has, changed⟩ |
    ⟨condition, absent, l, has, degraded⟩
  · obtain ⟨before, i, after, split, is, none, some⟩ :=
      linkAfter_step (cfg := cfg) (stored := stored) (lid := lid) (p := []) (P := fun o => o = none)
        (start.trans absent) held
    subst is
    exact ⟨before, i, after, split, rfl, _, linkAfter_own, .inl ⟨none, .inl created⟩⟩
  · exact absurd (linkAfter_eq_none.1 gone).1 held
  · obtain ⟨before, i, after, k', l', split, is, had, has, changed⟩ :=
      fieldChanged_step (p := []) (start.trans had) has changed
    subst is
    exact ⟨before, i, after, split, rfl, l', has, .inr ⟨k', had, changed⟩⟩
  · obtain ⟨before, i, after, split, is, normal, differs⟩ :=
      linkAfter_step (cfg := cfg) (stored := stored) (lid := lid) (p := [])
        (P := fun o => ∀ m, o = some m → m.cond.condition = .normal)
        (fun m held => by rw [start, absent] at held; cases held) (fun all => degraded (all l has))
    simp only [not_forall] at differs
    obtain ⟨l', makes, differs⟩ := differs
    subst is
    refine ⟨before, i, after, split, rfl, l', makes, ?_⟩
    cases had : linkAfter cfg stored ([] ++ before) i.lid with
    | none => exact .inl ⟨rfl, .inr ⟨condition, differs⟩⟩
    | some k =>
      have was := normal k had
      exact .inr ⟨k, rfl, by subst condition; exact fun same => differs (same.symm.trans was)⟩

/-- The reports of the items are the changes of their links over the event, with those between two items of one
id (R13, R21). -/
theorem items_changes : (⟨.link ⟨x.origin, lid⟩, kind⟩ : Report) ∈ items ↔
    LinkChanged (findLid stored lid) (linkAfter cfg stored (x.madeItems stored others) lid) kind ∨
      ItemChanged cfg x stored others ⟨.link ⟨x.origin, lid⟩, kind⟩ := by
  refine ⟨changes_of_items h, fun how => how.elim (items_of_changes h) ?_⟩
  rintro ⟨before, i, after, k, l, split, el, had, makes, changed⟩
  rw [mem_itemsReports h]
  exact ⟨before, i, after, split, el, l, by simpa using makes, .inr ⟨k, by simpa using had, changed⟩⟩

end

end

/-! ## Events at one node -/

/-- A node table as another, but for one node's entry. -/
def OnlyAt (id : NodeId) (nodes nodes' : List NodeEntry) : Prop :=
  ∀ other, other ≠ id → findNode nodes' other = findNode nodes other

section
variable {id : NodeId} {nodes nodes' : List NodeEntry} (only : OnlyAt id nodes nodes') {b b' : Bool} {r : Report}
  (usability : r.kind ≠ .usability)
include only usability

/-- An event at one node changes, but for USABILITY, that node and its links alone. -/
theorem changed_owner (changed : Changed b b' nodes nodes' r) : r.owner = id := by
  obtain ⟨el, kind⟩ := r
  by_contra other
  cases el with
  | node k =>
    have same := only k other
    cases found : findNode nodes k with
    | none => exact changed_node_none found (same.trans found) changed
    | some n => simp [changed_node_kept found (same.trans found)] at changed
  | link ref =>
    refine usability (usability_of_same_link ?_ changed)
    rw [findLink, only ref.origin other]
    rfl

end

section
variable {cfg : Settings} {x : FullRecord} {others : Nat} {c : StoreCounters} {w : LinkWork} {stored : List Link}
  {nodes nodes' : List NodeEntry} {b b' : Bool} {node : List Report} {m : NodeEntry}
  (so : Replaced cfg x stored others c x.goodItems w) (only : OnlyAt x.origin nodes nodes')
  (before : ∀ lid, findLink nodes ⟨x.origin, lid⟩ = findLid stored lid)
  (after : findNode nodes' x.origin = some m) (links : m.links = w.links)
  (node_iff : ∀ r, r ∈ node ↔ r.element = .node x.origin ∧ Changed b b' nodes nodes' r)

include so in
/-- The reports of link set replacement on one of the node's links (R12, R13, R15). -/
theorem mem_replaced {lid : Word16} {kind : ReportKind} : (⟨.link ⟨x.origin, lid⟩, kind⟩ : Report) ∈ w.reports ↔
    LinkChanged (findLid stored lid) (findLid w.links lid) kind ∨
      ItemChanged cfg x stored others ⟨.link ⟨x.origin, lid⟩, kind⟩ := by
  obtain ⟨items, reports, each⟩ := so.reports
  have freed : (⟨.link ⟨x.origin, lid⟩, kind⟩ : Report) ∈ (stored.filter (fun l => !x.names l.lid)).map
      (fun l => { element := .link ⟨x.origin, l.lid⟩, kind := .freed }) ↔
        kind = .freed ∧ findLid stored lid ≠ none ∧ x.names lid = false := by
    rw [findLid_ne_none]
    simp only [List.mem_map, List.mem_filter, Report.mk.injEq, Element.link.injEq, LinkRef.mk.injEq, true_and]
    constructor
    · rintro ⟨l, ⟨mem, unnamed⟩, rfl, rfl⟩
      exact ⟨rfl, ⟨l, mem, rfl⟩, by simpa using unnamed⟩
    · rintro ⟨rfl, ⟨l, mem, rfl⟩, unnamed⟩
      exact ⟨l, ⟨mem, by simpa using unnamed⟩, rfl, rfl⟩
  rw [reports, List.mem_append, freed, items_changes (others := others) each, so.found, ← or_assoc]
  refine or_congr_left ?_
  cases named : x.names lid with
  | true =>
    rw [if_pos rfl, or_iff_right fun h => nomatch h.2.2]
    rfl
  | false =>
    have unnamed : ∀ i ∈ x.madeItems stored others, i.lid ≠ lid := fun i mem is => by
      have : x.names lid = true := names_iff.2 ⟨i, (mem_made.1 mem).1, is⟩
      rw [named] at this
      cases this
    rw [linkAfter_unnamed unnamed, or_iff_left (linkChanged_self _ _), if_neg Bool.false_ne_true, linkChanged_gone]
    simp

include so only before after links node_iff in
/-- The reports of a FULL record's application, but USABILITY, are its changes (R21). -/
theorem record_changes {r : Report} : r ∈ node ++ w.reports ↔
    r.kind ≠ .usability ∧ (Changed b b' nodes nodes' r ∨ ItemChanged cfg x stored others r) := by
  have linkReport {r : Report} (mem : r ∈ w.reports) : ∃ lid, r.element = .link ⟨x.origin, lid⟩ := by
    obtain ⟨items, reports, each⟩ := so.reports
    rw [reports, List.mem_append, List.mem_map, mem_itemsReports each] at mem
    rcases mem with ⟨l, -, rfl⟩ | ⟨-, i, -, -, el, -⟩
    · exact ⟨l.lid, rfl⟩
    · exact ⟨i.lid, el⟩
  have itemKind {r : Report} (item : ItemChanged cfg x stored others r) : r.kind ≠ .usability := by
    obtain ⟨_, _, _, _, _, _, _, _, _, changed⟩ := item
    intro kind
    rw [kind] at changed
    exact changed
  rw [List.mem_append, node_iff]
  obtain ⟨el, kind⟩ := r
  cases el with
  | node id =>
    have notItem : ¬ItemChanged cfg x stored others ⟨.node id, kind⟩ := fun ⟨_, _, _, _, _, _, el, _⟩ => nomatch el
    have notReplaced : (⟨.node id, kind⟩ : Report) ∉ w.reports := fun mem => by
      obtain ⟨lid, el⟩ := linkReport mem
      cases el
    rw [or_iff_left notReplaced, or_iff_left notItem]
    constructor
    · rintro ⟨-, changed⟩
      exact ⟨by rintro rfl; exact changed, changed⟩
    · rintro ⟨usability, changed⟩
      have owner : id = x.origin := changed_owner only usability changed
      exact ⟨by rw [owner], changed⟩
  | link ref =>
    have notNode : ¬(Element.link ref = .node x.origin ∧ Changed b b' nodes nodes' ⟨.link ref, kind⟩) :=
      fun ⟨el, _⟩ => nomatch el
    rw [or_iff_right notNode]
    by_cases own : ref.origin = x.origin
    · obtain ⟨origin, lid⟩ := ref
      obtain rfl : origin = x.origin := own
      have ends : findLink nodes' ⟨x.origin, lid⟩ = findLid w.links lid := by rw [findLink, after, ← links]; rfl
      rw [mem_replaced so]
      by_cases usability : kind = .usability
      · subst usability
        refine iff_of_false (not_or.2 ⟨?_, fun item => itemKind item rfl⟩) (fun h => h.1 rfl)
        simp [LinkChanged, FieldChanged]
      · rw [changed_link_iff usability, before, ends]
        exact ⟨fun h => ⟨usability, h⟩, And.right⟩
    · refine iff_of_false (fun mem => ?_) (fun ⟨usability, changed⟩ => ?_)
      · obtain ⟨lid, el⟩ := linkReport mem
        exact own (by cases el; rfl)
      · rcases changed with changed | ⟨_, _, _, _, _, _, el, _⟩
        · exact own (changed_owner only usability changed)
        · exact own (by cases el; rfl)

/-- Where no local id stands twice among the valid items, a change at an item is the event's (R13). -/
theorem changed_of_item (once : (x.goodItems.map (·.lid)).Nodup)
    (before : ∀ lid, findLink nodes ⟨x.origin, lid⟩ = findLid stored lid)
    (made : ∀ i ∈ x.madeItems stored others, findLink nodes' ⟨x.origin, i.lid⟩ =
      linkAfter cfg stored (x.madeItems stored others) i.lid) {r : Report}
    (item : ItemChanged cfg x stored others r) : Changed b b' nodes nodes' r := by
  obtain ⟨first, i, rest, k, l, split, el, had, has, changed⟩ := item
  have usability : r.kind ≠ .usability := by
    intro kind
    rw [kind] at changed
    exact changed
  have nodup : ((first ++ i :: rest).map (·.lid)).Nodup := by
    rw [← split]
    exact once.sublist (List.filter_sublist.map _)
  rw [List.map_append, List.map_cons] at nodup
  obtain ⟨-, tail, apart⟩ := List.nodup_append.1 nodup
  have alone : ∀ j ∈ first, j.lid ≠ i.lid := fun j mem => apart j.lid (List.mem_map_of_mem mem) i.lid (by simp)
  have last : ∀ j ∈ rest, j.lid ≠ i.lid := fun j mem same =>
    (List.nodup_cons.1 tail).1 (List.mem_map.2 ⟨j, mem, same⟩)
  have ends : findLink nodes' ⟨x.origin, i.lid⟩ = some l := by
    rw [made i (by simp [split]), split, ← List.singleton_append, ← List.append_assoc, linkAfter_unnamed_tail last, has]
  rw [linkAfter_unnamed alone, ← before] at had
  obtain ⟨el', kind⟩ := r
  obtain rfl : el' = _ := el
  exact (changed_link_iff usability).2 (.inr (.inr (.inl ⟨k, l, had, ends, changed⟩)))

end

end Sys2Proof.Machine

/-!
LEMMAS. The application of an update record as one store event: what a FULL record makes (R6, R8, R9, R12 to R15),
and the events that change no link (R7, R10, R11) (O45, O46).
-/
namespace Sys2Proof.Machine

/-! ## The record made (R6, R8, R9, R12 to R15) -/

section
variable {cfg : Settings} {x : FullRecord} {stored : List Link} {others : Nat} {c : StoreCounters} {w : LinkWork}
  (so : Replaced cfg x stored others c x.goodItems w)

theorem createdLids_length : (x.createdLids stored others).length = x.createdBy stored others x.goodItems := by
  rw [FullRecord.createdLids, List.length_take, Nat.min_comm]
  rfl

theorem droppedItems_length : (x.droppedItems stored others).length = x.droppedBy stored others x.goodItems := rfl

theorem bumped_length {α : Type} (c : Nat) (l : List α) : bumped c l.length =
    if l = [] then c else min (c + l.length) 4294967295 := by
  cases l <;> simp [bumped]

include so

theorem incompleteAfter_iff : incompleteAfter x w = true ↔
    x.incomplete = true ∨ x.goodItems ≠ x.items ∨ x.droppedItems stored others ≠ [] := by
  have invalid : (x.items.any fun i => !validItem x.origin i) = true ↔ x.goodItems ≠ x.items := by
    rw [FullRecord.goodItems, ne_eq, List.filter_eq_self]
    simp [validItem_eq]
  have dropped : w.dropped = true ↔ x.droppedItems stored others ≠ [] := by
    rw [so.dropped, FullRecord.droppedItems, ne_eq, List.filter_eq_nil_iff]
    simp [FullRecord.fullLids]
  rw [incompleteAfter, Bool.or_eq_true, Bool.or_eq_true, invalid, dropped, or_assoc]

/-- A valid item of a link of the node was applied. -/
theorem made_of_link {l : Link} (mem : l ∈ w.links) : ∃ i ∈ x.madeItems stored others, i.lid = l.lid := by
  have found := so.found l.lid
  rw [findLid_of_mem so.ascending mem] at found
  split at found
  case isFalse => cases found
  case isTrue named =>
    obtain ⟨i, good, is⟩ := names_iff.1 named
    refine ⟨i, mem_made.2 ⟨good, fun full => ?_⟩, is⟩
    have none : linkAfter cfg stored (x.madeItems stored others) l.lid = none := by
      refine linkAfter_eq_none.2 ⟨is ▸ (mem_fullLids full).1, fun j made same => ?_⟩
      exact (mem_made.1 made).2 (by rw [same, ← is]; exact full)
    exact nomatch found.trans none

theorem found_of_made {i : LinkItem} (made : i ∈ x.madeItems stored others) :
    findLid w.links i.lid = linkAfter cfg stored (x.madeItems stored others) i.lid := by
  rw [so.found, if_pos (names_iff.2 ⟨i, (mem_made.1 made).1, rfl⟩)]
  rfl

/-- The node and the link counters that a FULL record makes. -/
theorem recordMade {index : Nat} {c' : StoreCounters} (created : c'.linksCreated = w.counters.linksCreated)
    (freed : c'.linksFreed = w.counters.linksFreed) (dropped : c'.linksDropped = w.counters.linksDropped)
    (invalid : c'.itemsInvalid = w.counters.itemsInvalid) :
    RecordMade cfg x stored others index (recordNode index x w) c c' := by
  refine ⟨⟨rfl, rfl, rfl, rfl, rfl, rfl, rfl⟩, incompleteAfter_iff so, so.ascending, fun l => made_of_link so,
    fun i => found_of_made so, ?_, ?_, ?_, ?_, ?_⟩
  · rw [createdLids_length]; exact so.length
  · rw [created, so.counters, ← bumped_length, createdLids_length]
  · rw [freed, so.counters]; exact addSat_eq ..
  · rw [dropped, so.counters, ← bumped_length]; rfl
  · rw [invalid, so.counters]; exact addSat_eq ..

omit so in
theorem freedReports_inOrder (origin : NodeId) {ls : List Link}
    (ascending : ls.Pairwise (fun k l => k.lid.toNat < l.lid.toNat)) :
    (ls.map (fun l => (⟨.link ⟨origin, l.lid⟩, .freed⟩ : Report))).Pairwise RefBefore :=
  List.pairwise_map.2 (ascending.imp fun lids => ⟨_, _, rfl, rfl, .inr ⟨rfl, lids⟩⟩)

end

/-! ## The table with one entry more, or changed -/

section
variable {nodes : List NodeEntry} {n m : NodeEntry}

theorem insertNode_listed (listed : TableListed nodes) (absent : findNode nodes n.id = none)
    (links : n.links.Pairwise (fun k l => k.lid.toNat < l.lid.toNat)) : TableListed (insertNode n nodes) := by
  refine ⟨(((insertNode_perm n nodes).map (·.id)).nodup_iff).2 ?_, fun k mem => ?_⟩
  · rw [List.map_cons, List.nodup_cons]
    refine ⟨fun mem => ?_, listed.1⟩
    obtain ⟨k, inTable, same⟩ := List.mem_map.1 mem
    have := List.find?_eq_none.1 absent k inTable
    simp [same] at this
  · rcases mem_insertNode.1 mem with rfl | mem
    · exact links
    · exact listed.2 k mem

theorem replaceNode_ids (n : NodeEntry) (nodes : List NodeEntry) :
    (replaceNode n nodes).map (·.id) = nodes.map (·.id) := by
  rw [replaceNode, List.map_map]
  refine List.map_congr_left fun k _ => ?_
  by_cases same : k.id = n.id <;> simp [same]

theorem replaceNode_listed (listed : TableListed nodes)
    (links : n.links.Pairwise (fun k l => k.lid.toNat < l.lid.toNat)) : TableListed (replaceNode n nodes) := by
  refine ⟨by rw [replaceNode_ids]; exact listed.1, fun k mem => ?_⟩
  obtain ⟨k', inTable, rfl⟩ := List.mem_map.1 mem
  split
  · exact links
  · exact listed.2 k' inTable

theorem findNode_absent (absent : findNode nodes n.id = none) (lid : Word16) :
    findLink nodes ⟨n.id, lid⟩ = findLid [] lid := by
  rw [findLink, absent]
  rfl

theorem findLink_found {id : NodeId} (found : findNode nodes id = some n) (lid : Word16) :
    findLink nodes ⟨id, lid⟩ = findLid n.links lid := by
  rw [findLink, found]
  rfl

end

/-! ## A FULL record's event -/

/-- What the store makes of a FULL record with a lifetime: the origin's entry alone is made or made again, with the
links of `w`, after these reports of the node itself. -/
structure RecordOutcome (s : State) (x : FullRecord) (stored : List Link) (others index : Nat) (w : LinkWork)
    (node : List Report) (o : StoreOutcome) : Prop where
  so : Replaced s.cfg x stored others s.tst.counters x.goodItems w
  ascending : stored.Pairwise (fun k l => k.lid.toNat < l.lid.toNat)
  held : ∀ lid, findLink s.tst.nodes ⟨x.origin, lid⟩ = findLid stored lid
  listed : TableListed o.nodes
  only : OnlyAt x.origin s.tst.nodes o.nodes
  after : findNode o.nodes x.origin = some (recordNode index x w)
  node_iff : ∀ r, r ∈ node ↔
    r.element = .node x.origin ∧ Changed s.cfg.twoWay s.cfg.twoWay s.tst.nodes o.nodes r
  ordered : node.Pairwise KindBefore
  reports : o.reports = node ++ w.reports
  created : o.counters.linksCreated = w.counters.linksCreated
  freed : o.counters.linksFreed = w.counters.linksFreed
  dropped : o.counters.linksDropped = w.counters.linksDropped
  invalid : o.counters.itemsInvalid = w.counters.itemsInvalid

section
variable {s : State} {x : FullRecord} {stored : List Link} {others index : Nat} {w : LinkWork} {o : StoreOutcome}
  {node : List Report} (makes : RecordOutcome s x stored others index w node o)
include makes

theorem RecordOutcome.event :
    StoreEventBy (ItemChanged s.cfg x stored others) s (eventState s o) (eventReports s o) := by
  refine eventState_event makes.listed (fun r item kind => ?_) fun r => ?_
  · obtain ⟨_, _, _, _, _, _, _, _, _, changed⟩ := item
    rw [kind] at changed
    exact changed
  · rw [makes.reports]
    exact record_changes makes.so makes.only makes.held makes.after rfl makes.node_iff

/-- Where no local id stands twice among the valid items, the reports are the changes of R21 and no other. -/
theorem RecordOutcome.event_once (once : (x.goodItems.map (·.lid)).Nodup) :
    StoreEvent s (eventState s o) (eventReports s o) := by
  obtain ⟨part, reports, marks⟩ := makes.event
  refine ⟨part, fun r => (reports r).trans ?_, marks⟩
  rw [or_false]
  refine or_iff_left_of_imp fun item => changed_of_item once makes.held (fun i made => ?_) item
  rw [eventState_tst, findLink, makes.after]
  exact found_of_made makes.so made

theorem RecordOutcome.order : RecordOrder s.cfg x stored others (eventReports s o) := by
  obtain ⟨items, linkReports, each⟩ := makes.so.reports
  refine ⟨node, (stored.filter (fun l => !x.names l.lid)).map (fun l => ⟨.link ⟨x.origin, l.lid⟩, .freed⟩), items,
    usabilityReports s.cfg.twoWay s.cfg.twoWay s.tst.nodes o.nodes, ?_,
    ⟨fun r mem => ((makes.node_iff r).1 mem).1, makes.ordered⟩,
    ⟨fun r mem => ?_, freedReports_inOrder x.origin (makes.ascending.sublist List.filter_sublist)⟩, each,
    usabilityReports_inOrder makes.listed⟩
  · rw [eventReports, makes.reports, linkReports]
    simp only [List.append_assoc]
  · obtain ⟨l, -, rfl⟩ := List.mem_map.1 mem
    rfl

theorem RecordOutcome.made :
    RecordMade s.cfg x stored others index (recordNode index x w) s.tst.counters o.counters :=
  recordMade makes.so makes.created makes.freed makes.dropped makes.invalid

/-- The raises of link set replacement (R15, R56). -/
theorem RecordOutcome.raises : w.raises ++ linksFullRaise x.origin w.dropped =
    raisesOfItems s.cfg x stored others := by
  have dropped : w.dropped = true ↔ x.droppedItems stored others ≠ [] := by
    rw [makes.so.dropped, FullRecord.droppedItems, ne_eq, List.filter_eq_nil_iff]
    simp [FullRecord.fullLids]
  rw [raisesOfItems, makes.so.raises, linksFullRaise]
  by_cases none : x.droppedItems stored others = []
  · rw [if_pos none, if_neg (by rw [dropped]; exact not_not.2 none)]
    rfl
  · rw [if_neg none, if_pos (dropped.2 none)]
    rfl

end

/-! ### A node added (R6) -/

theorem lowestFree_eq {nodes : List NodeEntry} {k : Nat} (bound : k < 256) (free : ∀ n ∈ nodes, n.index ≠ k)
    (below : ∀ j, j < k → ∃ n ∈ nodes, n.index = j) : lowestFree nodes = some k := by
  rw [lowestFree, List.find?_range_eq_some]
  refine ⟨by simpa using free, by simpa [Config.nodeEntries_eq] using bound, fun j less => ?_⟩
  simpa using below j less

theorem lowestFree_none {nodes : List NodeEntry} (full : ∀ k, k < 256 → ∃ n ∈ nodes, n.index = k) :
    lowestFree nodes = none := by
  rw [lowestFree, List.find?_eq_none]
  intro k mem
  simpa using full k (by simpa [Config.nodeEntries_eq] using mem)

section
variable {cfg : Settings} {t : Store} {x : FullRecord} {index : Nat} {w : LinkWork}
  (work : w = replaceLinks cfg x.origin (linksInUse t.nodes) [] x.items t.counters)
include work

theorem addNode_made (free : lowestFree t.nodes = some index) : addNode cfg t x =
    { nodes := insertNode (recordNode index x w) t.nodes
      counters := { w.counters with nodesAdded := bump w.counters.nodesAdded }
      raises := ⟨.nodeAdded, .node x.origin, .none⟩ :: (w.raises ++ linksFullRaise x.origin w.dropped)
      reports := ⟨.node x.origin, .live⟩ :: w.reports } := by
  rw [addNode, free, work]
  rfl

end

theorem addNode_outcome {s : State} {x : FullRecord} {index : Nat} {w : LinkWork}
    (work : w = replaceLinks s.cfg x.origin (linksInUse s.tst.nodes) [] x.items s.tst.counters)
    (listed : TableListed s.tst.nodes) (absent : findNode s.tst.nodes x.origin = none)
    (free : lowestFree s.tst.nodes = some index) :
    RecordOutcome s x [] (linksInUse s.tst.nodes) index w [⟨.node x.origin, .live⟩] (addNode s.cfg s.tst x) := by
  have so : Replaced s.cfg x [] (linksInUse s.tst.nodes) s.tst.counters x.goodItems w :=
    work ▸ replaceLinks_replaced .nil
  obtain ⟨after, only⟩ := findNode_insertNode (n := recordNode index x w) absent
  rw [addNode_made work free]
  refine ⟨so, .nil, findNode_absent (n := recordNode index x w) absent, insertNode_listed listed absent so.ascending,
    only, after, fun r => ?_, List.pairwise_singleton .., rfl, rfl, rfl, rfl, rfl⟩
  obtain ⟨el, kind⟩ := r
  rw [List.mem_singleton, Report.mk.injEq]
  refine and_congr_right fun is => ?_
  rw [is, changed_node_added absent after]
  simp [recordNode, NodeEntry.isLive]

/-! ### A node updated (R8, R9) -/

section
variable {s : State} {n : NodeEntry} {x : FullRecord} {others : Nat} {w : LinkWork}
  (work : w = replaceLinks s.cfg x.origin others n.links x.items s.tst.counters)
  (found : findNode s.tst.nodes x.origin = some n) (room : others + n.links.length = linksInUse s.tst.nodes)
include work found room

theorem updateNode_made : updateNode s.cfg s.tst n x =
    { nodes := replaceNode (recordNode n.index x w) s.tst.nodes
      counters := { w.counters with
        recordsApplied := bump w.counters.recordsApplied
        nodesAdded := if n.isLive then w.counters.nodesAdded else bump w.counters.nodesAdded }
      raises := (if n.isLive then [] else [⟨.nodeAdded, .node x.origin, .none⟩]) ++
        (w.raises ++ linksFullRaise x.origin w.dropped)
      reports := nodeReports n x ++ w.reports } := by
  obtain ⟨-, id⟩ := findNode_some found
  have rest : linksInUse s.tst.nodes - n.links.length = others := by omega
  rw [updateNode, rest, id, work, List.append_assoc]

omit work room in
/-- The node's reports of an update are its changes (R8, R9, R21). -/
theorem mem_nodeReports {nodes' : List NodeEntry} {b b' : Bool} {m : NodeEntry}
    (after : findNode nodes' x.origin = some m) (live : m.isLive = true) (transitQ : m.transitQ = x.transitQ)
    (regens : m.regens = x.regens.getD 0) (r : Report) :
    r ∈ nodeReports n x ↔ r.element = .node x.origin ∧ Changed b b' s.tst.nodes nodes' r := by
  obtain ⟨-, id⟩ := findNode_some found
  obtain ⟨el, kind⟩ := r
  by_cases is : el = .node x.origin
  · rw [is, changed_node_kept found after, live, transitQ, regens, id.symm]
    simp only [nodeReports, List.mem_append, mem_reportIf, bne_iff_ne, Bool.not_eq_true', true_and]
    tauto
  · refine iff_of_false (fun mem => ?_) fun h => is h.1
    simp only [nodeReports, List.mem_append, mem_reportIf, id] at mem
    tauto

theorem updateNode_outcome (listed : TableListed s.tst.nodes) :
    RecordOutcome s x n.links others n.index w (nodeReports n x) (updateNode s.cfg s.tst n x) := by
  obtain ⟨table, id⟩ := findNode_some found
  have ascending := listed.2 n table
  have so : Replaced s.cfg x n.links others s.tst.counters x.goodItems w := work ▸ replaceLinks_replaced ascending
  obtain ⟨after, only⟩ := findNode_replaceNode (n := recordNode n.index x w) found
  rw [updateNode_made work found room]
  refine ⟨so, ascending, findLink_found found, replaceNode_listed listed so.ascending, only, after,
    mem_nodeReports found after rfl rfl rfl, ?_, rfl, rfl, rfl, rfl, rfl⟩
  exact pairwise_kinds (el := .node n.id) (kinds := [.live, .transitQ, .regens]) (by decide)
    (((reportIf_sublist ..).append (reportIf_sublist ..)).append (reportIf_sublist ..))

end

/-! ## Events that no engine and no watch entry notices -/

/-- The entry shows the map what it showed. -/
structure SameView (n m : NodeEntry) : Prop where
  id : m.id = n.id
  live : m.isLive = n.isLive
  transitQ : m.transitQ = n.transitQ
  regens : m.regens = n.regens
  links : m.links = n.links

section
variable {nodes nodes' : List NodeEntry} (view : ∀ id, (findNode nodes id = none ∧ findNode nodes' id = none) ∨
  ∃ n m, findNode nodes id = some n ∧ findNode nodes' id = some m ∧ SameView n m)
include view

theorem usable_of_view {b : Bool} {n m : NodeEntry} (same : SameView n m) (l : Link) :
    usable b nodes' m l = usable b nodes n l := by
  obtain ⟨id, live, -⟩ := same
  rw [Bool.eq_iff_iff, usable_iff, usable_iff, id, live]
  rcases view l.remote with ⟨before, after⟩ | ⟨r, r', before, after, -, rLive, -, -, rLinks⟩
  · simp [before, after]
  · simp [before, after, rLive, rLinks]

/-- Such an event changes nothing that R21 names. -/
theorem changed_of_view {b : Bool} (r : Report) : ¬Changed b b nodes nodes' r := by
  obtain ⟨el, kind⟩ := r
  cases el with
  | node id =>
    rcases view id with ⟨before, after⟩ | ⟨n, m, before, after, -, live, transitQ, regens, -⟩
    · exact changed_node_none before after
    · rw [changed_node_kept before after, live, transitQ, regens]
      cases n.isLive <;> simp
  | link ref =>
    intro changed
    have same : findLink nodes' ref = findLink nodes ref := by
      rcases view ref.origin with ⟨before, after⟩ | ⟨n, m, before, after, -, -, -, -, links⟩
      · rw [findLink, findLink, before, after]
      · rw [findLink, findLink, before, after, Option.bind_some, Option.bind_some, links]
    obtain rfl : kind = .usability := usability_of_same_link same changed
    obtain ⟨n, m, k, l, before, after, had, has, differ⟩ := changed
    rcases view ref.origin with ⟨none, -⟩ | ⟨n', m', before', after', sameView⟩
    · rw [before] at none
      cases none
    · obtain rfl := Option.some.inj (before.symm.trans before')
      obtain rfl := Option.some.inj (after.symm.trans after')
      rw [sameView.links, had] at has
      obtain rfl := Option.some.inj has
      exact differ (usable_of_view view sameView k).symm

end

theorem view_refl (nodes : List NodeEntry) (id : NodeId) : (findNode nodes id = none ∧ findNode nodes id = none) ∨
    ∃ n m, findNode nodes id = some n ∧ findNode nodes id = some m ∧ SameView n m := by
  cases found : findNode nodes id with
  | none => exact .inl ⟨rfl, rfl⟩
  | some n => exact .inr ⟨n, n, rfl, rfl, rfl, rfl, rfl, rfl, rfl⟩

/-- A store event without reports of its own, of which the map shows nothing. -/
structure StillOutcome (s : State) (o : StoreOutcome) : Prop where
  listed : TableListed o.nodes
  view : ∀ id, (findNode s.tst.nodes id = none ∧ findNode o.nodes id = none) ∨
    ∃ n m, findNode s.tst.nodes id = some n ∧ findNode o.nodes id = some m ∧ SameView n m
  reports : o.reports = []

section
variable {s : State} {o : StoreOutcome} (still : StillOutcome s o)
include still

theorem StillOutcome.event : StoreEvent s (eventState s o) (eventReports s o) := by
  refine eventState_event still.listed (fun _ h => h.elim) fun r => ?_
  rw [still.reports, or_false]
  exact iff_of_false List.not_mem_nil fun h => changed_of_view still.view r h.2

theorem StillOutcome.eventReports_nil : eventReports s o = [] := by
  rw [eventReports, still.reports, List.nil_append, List.eq_nil_iff_forall_not_mem]
  exact fun r mem => changed_of_view still.view r ((mem_usabilityReports_iff still.listed).1 mem).2

/-- The event changes the tables, and raises. -/
theorem StillOutcome.storeEvent : s.storeEvent o =
    ({ s with tst := { nodes := o.nodes, counters := o.counters } } : State).raiseAll o.raises := by
  rw [storeEvent_eq, eventState, still.eventReports_nil, batch_nil]
  rfl

end

section
variable {s : State} {nodes : List NodeEntry} {c : StoreCounters} {raises : List Raise}

/-- An event that leaves the tables (R7, R11). -/
theorem still_same (listed : TableListed s.tst.nodes) (same : nodes = s.tst.nodes) :
    StillOutcome s { nodes := nodes, counters := c, raises := raises, reports := [] } :=
  ⟨by rwa [same], by rw [same]; exact view_refl _, rfl⟩

variable {id : NodeId} {n m : NodeEntry} (found : findNode s.tst.nodes id = some n) (own : m.id = id)
include found own

/-- An event that changes one entry in what the map does not show. -/
theorem still_replaced (listed : TableListed s.tst.nodes) (view : SameView n m)
    (is : nodes = replaceNode m s.tst.nodes) :
    StillOutcome s { nodes := nodes, counters := c, raises := raises, reports := [] } := by
  obtain ⟨table, -⟩ := findNode_some found
  subst is own
  obtain ⟨after, only⟩ := findNode_replaceNode found
  refine ⟨replaceNode_listed listed (by rw [view.links]; exact listed.2 n table), fun other => ?_, rfl⟩
  by_cases is : other = m.id
  · exact .inr ⟨n, m, is ▸ found, is ▸ after, view⟩
  · dsimp only
    rw [only other is]
    exact view_refl s.tst.nodes other

end

/-- An entry is found by its id: replacing it changes each entry of that id. -/
theorem replaceNode_eq_map {nodes : List NodeEntry} {id : NodeId} {n : NodeEntry} (ids : (nodes.map (·.id)).Nodup)
    (found : findNode nodes id = some n) {f : NodeEntry → NodeEntry} (own : (f n).id = id) :
    replaceNode (f n) nodes = nodes.map (fun y => if y.id = id then f y else y) := by
  refine List.map_congr_left fun y mem => ?_
  rw [own]
  by_cases is : y.id = id
  · have : findNode nodes y.id = some y := findNode_of_mem ids mem
    rw [is, found] at this
    rw [if_pos is, if_pos is, Option.some.inj this]
  · rw [if_neg is, if_neg is]

/-- A flush of a LIVE node: the entry is WITHDRAWN, with the record's dialect and sequence (R10). -/
def flushed (cfg : Settings) (x : FullRecord) (n : NodeEntry) : NodeEntry :=
  { n with life := .withdrawn cfg.holdDown, dialect := x.dialect, seq := x.seq }

/-- A flush of a WITHDRAWN node stores dialect and sequence (R10). -/
def restamped (x : FullRecord) (n : NodeEntry) : NodeEntry := { n with dialect := x.dialect, seq := x.seq }

section
variable {cfg : Settings} {t : Store} {x : FullRecord} {n : NodeEntry}

theorem flushNode_live (live : n.isLive = true) : flushNode cfg t n x =
    { nodes := replaceNode (flushed cfg x n) t.nodes
      counters := { t.counters with
        recordsApplied := bump t.counters.recordsApplied, nodesFlushed := bump t.counters.nodesFlushed }
      raises := [⟨.nodeExpired, .node n.id, .flushed⟩], reports := [⟨.node n.id, .withdrawn⟩] } := by
  unfold flushNode
  cases life : n.life with
  | live a => rfl
  | withdrawn h => simp [NodeEntry.isLive, life] at live

theorem flushNode_withdrawn (dead : n.isLive = false) : flushNode cfg t n x =
    { nodes := replaceNode (restamped x n) t.nodes
      counters := { t.counters with recordsApplied := bump t.counters.recordsApplied }
      raises := [], reports := [] } := by
  unfold flushNode
  cases life : n.life with
  | live a => simp [NodeEntry.isLive, life] at dead
  | withdrawn h =>
    have : restamped x n = { n with life := .withdrawn h, dialect := x.dialect, seq := x.seq } := by
      rw [restamped, ← life]
    rw [this]

end

/-- The event of a flushed LIVE node: the node's report, then USABILITY (R10, R21, R23). -/
theorem flush_event {s : State} {x : FullRecord} {n : NodeEntry} (listed : TableListed s.tst.nodes)
    (found : findNode s.tst.nodes x.origin = some n) (live : n.isLive = true) {o : StoreOutcome}
    (is : o = flushNode s.cfg s.tst n x) : StoreEvent s (eventState s o) (eventReports s o) ∧
      ∃ us, eventReports s o = ⟨.node x.origin, .withdrawn⟩ :: us ∧ UsabilityOrder us := by
  obtain ⟨table, id⟩ := findNode_some found
  rw [flushNode_live live, id] at is
  have found' : findNode s.tst.nodes (flushed s.cfg x n).id = some n := by rw [flushed, id]; exact found
  obtain ⟨after, only⟩ := findNode_replaceNode found'
  rw [show (flushed s.cfg x n).id = x.origin from id] at after only
  have listed' : TableListed o.nodes := by rw [is]; exact replaceNode_listed listed (listed.2 n table)
  have same (lid : Word16) : findLink o.nodes ⟨x.origin, lid⟩ = findLink s.tst.nodes ⟨x.origin, lid⟩ := by
    rw [is, findLink_found after, findLink_found found]
    rfl
  have only' : OnlyAt x.origin s.tst.nodes o.nodes := by rw [is]; exact only
  refine ⟨eventState_event listed' (fun _ h => h.elim) fun r => ?_,
    usabilityReports s.cfg.twoWay s.cfg.twoWay s.tst.nodes o.nodes, ?_, usabilityReports_inOrder listed'⟩
  · have reports : o.reports = [⟨.node x.origin, .withdrawn⟩] := by rw [is]
    rw [reports, List.mem_singleton, or_false]
    constructor
    · rintro rfl
      refine ⟨nofun, (changed_node_kept found (by rw [is]; exact after)).2 (.inr (.inl ⟨rfl, live, rfl⟩))⟩
    · rintro ⟨usability, changed⟩
      have owner := changed_owner only' usability changed
      obtain ⟨el, kind⟩ := r
      cases el with
      | node k =>
        obtain rfl : k = x.origin := owner
        rw [changed_node_kept found (m := flushed s.cfg x n) (by rw [is]; exact after), live] at changed
        simpa [flushed, NodeEntry.isLive] using changed
      | link ref =>
        obtain ⟨origin, lid⟩ := ref
        obtain rfl : origin = x.origin := owner
        exact absurd (usability_of_same_link (same lid) changed) usability
  · rw [eventReports, is]
    rfl

end Sys2Proof.Machine

/-!
LEMMAS. RECORD_APPLICATION: update records of unknown and of known nodes (O45, O46).
-/
namespace Sys2Proof.Machine

/-! ## Which outcome a record has (R5 to R11) -/

theorem exec_record {s : State} {r : UpdateRecord} (handed : s.atr.handed = some r) {o : StoreOutcome}
    (is : applyRecord s.cfg s.tst r = o) : exec .recordApplication s = .next (s.withoutRecord.storeEvent o) := by
  rw [exec_recordApplication, State.applyHanded, handed, ← is]
  rfl

section
variable {cfg : Settings} {t : Store} {x : FullRecord} {n : NodeEntry}

theorem applyRecord_reserved (reserved : reservedId x.origin = true) :
    applyRecord cfg t (.full x) = discardRecord t := if_pos reserved

theorem applyRecord_absent (fine : reservedId x.origin = false) (absent : findNode t.nodes x.origin = none) :
    applyRecord cfg t (.full x) = if x.lifetime = 0 then discardRecord t else addNode cfg t x := by
  rw [applyRecord, applyFull, fine, absent]
  rfl

theorem applyRecord_known (fine : reservedId x.origin = false) (found : findNode t.nodes x.origin = some n) :
    applyRecord cfg t (.full x) = if x.lifetime = 0 then flushNode cfg t n x else updateNode cfg t n x := by
  rw [applyRecord, applyFull, fine, found]
  rfl

variable {id : NodeId} {q : Word32} {lifetime : Nat}

theorem applyRecord_refresh_absent (absent : findNode t.nodes id = none) :
    applyRecord cfg t (.refresh id q lifetime) = discardRecord t := by
  rw [applyRecord, applyRefresh, absent]

theorem applyRecord_refresh_discards (found : findNode t.nodes id = some n)
    (useless : reservedId id = true ∨ n.isLive = false ∨ lifetime = 0) :
    applyRecord cfg t (.refresh id q lifetime) = discardRecord t := by
  rw [applyRecord, applyRefresh, found]
  exact if_pos (by rcases useless with h | h | h <;> simp [h])

theorem applyRecord_refresh_known (fine : reservedId id = false) (found : findNode t.nodes id = some n)
    (live : n.isLive = true) (lasts : 1 ≤ lifetime) : applyRecord cfg t (.refresh id q lifetime) =
      { nodes := replaceNode { n with life := .live lifetime } t.nodes
        counters := { t.counters with refreshesApplied := bump t.counters.refreshesApplied }
        raises := [], reports := [] } := by
  rw [applyRecord, applyRefresh, found]
  exact if_neg (by simp [fine, live]; omega)

end

theorem exec_record_still {s : State} {r : UpdateRecord} (handed : s.atr.handed = some r) {o : StoreOutcome}
    (is : applyRecord s.cfg s.tst r = o) (still : StillOutcome s.withoutRecord o) :
    exec .recordApplication s = .next (({ s with
      atr := { s.atr with handed := none }
      tst := { nodes := o.nodes, counters := o.counters } } : State).raiseAll o.raises) := by
  rw [exec_record handed is, still.storeEvent]
  rfl

/-- A discarded record is counted, and that is all (R7, R11). -/
theorem exec_record_discards {s : State} {r : UpdateRecord} (handed : s.atr.handed = some r)
    (listed : TableListed s.tst.nodes) (is : applyRecord s.cfg s.tst r = discardRecord s.tst) :
    exec .recordApplication s = .next { s with
      atr := { s.atr with handed := none }
      tst := { s.tst with counters := { s.tst.counters with
        recordsDiscarded := min (s.tst.counters.recordsDiscarded + 1) 4294967295 } } } :=
  exec_record_still handed is (still_same listed rfl)

section
variable {s : State} {x : FullRecord} {index : Nat} {w : LinkWork}
  (work : w = replaceLinks s.cfg x.origin (linksInUse s.tst.nodes) [] x.items s.tst.counters)
  (listed : TableListed s.tst.nodes) (absent : findNode s.tst.nodes x.origin = none)
  (free : lowestFree s.tst.nodes = some index)
include work listed absent free

/-- The counters of a node added (R28). -/
theorem addNode_counters : (addNode s.cfg s.tst x).counters = { (addNode s.cfg s.tst x).counters with
    recordsApplied := s.tst.counters.recordsApplied
    refreshesApplied := s.tst.counters.refreshesApplied
    recordsDiscarded := s.tst.counters.recordsDiscarded
    recordsDropped := s.tst.counters.recordsDropped
    nodesAdded := min (s.tst.counters.nodesAdded + 1) 4294967295
    nodesAged := s.tst.counters.nodesAged
    nodesFlushed := s.tst.counters.nodesFlushed
    nodesFreed := s.tst.counters.nodesFreed } := by
  rw [addNode_made work free, (addNode_outcome work listed absent free).so.counters]
  rfl

end

/-- Settles O45: the record's outcome is a node added, one dropped, or a discard, as one store event. -/
theorem recordOfAnUnknownOrigin : Obligations.RecordOfAnUnknownOrigin := by
  unfold Obligations.RecordOfAnUnknownOrigin
  refine ⟨fun s r handed sound => ⟨fun x is fine absent lasts empty k bound free below => ?added, fun id how absent =>
    ?discarded⟩, fun s x handed sound fine absent lasts => ⟨fun k others bound free below hothers => ?event,
    fun full => ?dropped⟩⟩
  case added =>
    subst is
    obtain ⟨w, work⟩ : ∃ w, w = replaceLinks s.cfg x.origin (linksInUse s.tst.nodes) [] x.items s.tst.counters :=
      ⟨_, rfl⟩
    have lowest := lowestFree_eq bound free below
    have outcome := addNode_outcome (s := s.withoutRecord) work sound.listed absent lowest
    have applied : applyRecord s.cfg s.tst (.full x) = addNode s.cfg s.tst x := by
      rw [applyRecord_absent fine absent, if_neg (by omega)]
    have serves := batch_serves (eventState s.withoutRecord (addNode s.cfg s.tst x))
      (eventReports s.withoutRecord (addNode s.cfg s.tst x))
    obtain ⟨part, -⟩ := outcome.event
    have bare : recordNode k x w =
        { index := k, id := x.origin, life := .live x.lifetime, dialect := x.dialect, seq := x.seq
          regens := x.regens.getD 0, transitQ := x.transitQ, incomplete := x.incomplete, links := [] } := by
      rw [work, empty]
      simp [recordNode, incompleteAfter, empty, replaceLinks, freeUnnamed]
    refine ⟨_, exec_record handed applied, ?_, ?_, ?_, ?_, ?_⟩
    · exact serves.atr.trans ((congrArg State.atr part).trans rfl)
    · exact serves.cfg.trans ((congrArg State.cfg part).trans rfl)
    · rw [storeEvent_eq, serves.tst, eventState_tst, ← bare]; exact outcome.after
    · rw [storeEvent_eq, serves.tst, eventState_tst, addNode_counters work sound.listed absent lowest]
    · rw [storeEvent_eq, serves.tst, eventState_tst]; exact outcome.only
  case discarded =>
    refine exec_record_discards handed sound.listed ?_
    rcases how with ⟨x, rfl, rfl, zero | reserved⟩ | ⟨q, l, rfl⟩
    · cases fine : reservedId x.origin with
      | true => exact applyRecord_reserved fine
      | false => rw [applyRecord_absent fine absent, if_pos zero]
    · exact applyRecord_reserved reserved
    · exact applyRecord_refresh_absent absent
  case event =>
    subst hothers
    obtain ⟨w, work⟩ : ∃ w, w = replaceLinks s.cfg x.origin (linksInUse s.tst.nodes) [] x.items s.tst.counters :=
      ⟨_, rfl⟩
    have lowest := lowestFree_eq bound free below
    have outcome := addNode_outcome (s := s.withoutRecord) work sound.listed absent lowest
    have applied : applyRecord s.cfg s.tst (.full x) = addNode s.cfg s.tst x := by
      rw [applyRecord_absent fine absent, if_neg (by omega)]
    refine ⟨eventState s.withoutRecord (addNode s.cfg s.tst x), _, eventReports s.withoutRecord (addNode s.cfg s.tst x),
      recordNode k x w, exec_record handed applied, rfl, (batch_serves (eventState _ _) _).tst, outcome.event,
      outcome.order, outcome.event_once, ?_⟩
    rw [eventState_tst, eventState_evu]
    refine ⟨outcome.after, outcome.only, outcome.made, addNode_counters work sound.listed absent lowest, ?_⟩
    rw [addNode_made work lowest, outcome.raises]
    exact raiseAll_evu (s := s.withoutRecord) (t := s) rfl rfl _
  case dropped =>
    have dropped : applyRecord s.cfg s.tst (.full x) =
        { nodes := s.tst.nodes
          counters := { s.tst.counters with recordsDropped := bump s.tst.counters.recordsDropped }
          raises := [⟨.tableFull, .node x.origin, .nodes⟩], reports := [] } := by
      rw [applyRecord_absent fine absent, if_neg (by omega), addNode, lowestFree_none full]
    exact exec_record_still handed dropped (still_same sound.listed rfl)

/-! ## Known nodes (R8 to R11) -/

section
variable {s : State} {n : NodeEntry} {x : FullRecord} {others : Nat} {w : LinkWork}
  (work : w = replaceLinks s.cfg x.origin others n.links x.items s.tst.counters) (listed : TableListed s.tst.nodes)
  (found : findNode s.tst.nodes x.origin = some n) (room : others + n.links.length = linksInUse s.tst.nodes)
include work listed found room

/-- The counters of a node updated (R28). -/
theorem updateNode_counters : (updateNode s.cfg s.tst n x).counters = { (updateNode s.cfg s.tst n x).counters with
    recordsApplied := min (s.tst.counters.recordsApplied + 1) 4294967295
    refreshesApplied := s.tst.counters.refreshesApplied
    recordsDiscarded := s.tst.counters.recordsDiscarded
    recordsDropped := s.tst.counters.recordsDropped
    nodesAdded := if n.isLive then s.tst.counters.nodesAdded else min (s.tst.counters.nodesAdded + 1) 4294967295
    nodesAged := s.tst.counters.nodesAged
    nodesFlushed := s.tst.counters.nodesFlushed
    nodesFreed := s.tst.counters.nodesFreed } := by
  rw [updateNode_made work found room, (updateNode_outcome work found room listed).so.counters]
  rfl

end

theorem StillOutcome.of_eq {s : State} {o o' : StoreOutcome} (still : StillOutcome s o') (is : o = o') :
    StoreEvent s (eventState s o) (eventReports s o) := is ▸ still.event

/-- Whatever a record does, it is one store event: of R21's changes alone, or a FULL record's (R5). -/
theorem applyRecord_outcome {s : State} (listed : TableListed s.tst.nodes) (r : UpdateRecord) {o : StoreOutcome}
    (is : o = applyRecord s.cfg s.tst r) : StoreEvent s (eventState s o) (eventReports s o) ∨
      ∃ x stored others index w node, r = .full x ∧ 1 ≤ x.lifetime ∧
        stored = ((findNode s.tst.nodes x.origin).map (·.links)).getD [] ∧
        others + stored.length = linksInUse s.tst.nodes ∧ RecordOutcome s x stored others index w node o := by
  have discards (h : applyRecord s.cfg s.tst r = discardRecord s.tst) :
      StoreEvent s (eventState s o) (eventReports s o) := (still_same listed rfl).of_eq (is.trans h)
  cases r with
  | refresh id q lifetime =>
    left
    cases found : findNode s.tst.nodes id with
    | none => exact discards (applyRecord_refresh_absent found)
    | some n =>
      by_cases useless : reservedId id = true ∨ n.isLive = false ∨ lifetime = 0
      · exact discards (applyRecord_refresh_discards found useless)
      · obtain ⟨fine, live, lasts⟩ : reservedId id = false ∧ n.isLive = true ∧ lifetime ≠ 0 := by simpa using useless
        have still := still_replaced (m := { n with life := .live lifetime }) (raises := [])
          (c := { s.tst.counters with refreshesApplied := bump s.tst.counters.refreshesApplied }) found
          (findNode_some found).2 listed ⟨rfl, live.symm, rfl, rfl, rfl⟩ rfl
        exact still.of_eq (is.trans (applyRecord_refresh_known fine found live (by omega)))
  | full x =>
    cases fine : reservedId x.origin with
    | true => exact .inl (discards (applyRecord_reserved fine))
    | false =>
      cases found : findNode s.tst.nodes x.origin with
      | none =>
        have applied := applyRecord_absent (cfg := s.cfg) fine found
        by_cases zero : x.lifetime = 0
        · exact .inl (discards (applied.trans (if_pos zero)))
        · rw [if_neg zero] at applied
          cases free : lowestFree s.tst.nodes with
          | none =>
            rw [addNode, free] at applied
            exact .inl ((still_same listed rfl).of_eq (is.trans applied))
          | some k =>
            have outcome := addNode_outcome rfl listed found free
            rw [← applied, ← is] at outcome
            exact .inr ⟨x, [], _, k, _, _, rfl, by omega, by simp [found], rfl, outcome⟩
      | some n =>
        have applied := applyRecord_known (cfg := s.cfg) fine found
        by_cases zero : x.lifetime = 0
        · rw [if_pos zero] at applied
          cases live : n.isLive with
          | true => exact .inl (flush_event listed found live (is.trans applied)).1
          | false =>
            rw [flushNode_withdrawn live] at applied
            have still := still_replaced (m := restamped x n) (raises := [])
              (c := { s.tst.counters with recordsApplied := bump s.tst.counters.recordsApplied }) found
              (findNode_some found).2 listed ⟨rfl, rfl, rfl, rfl, rfl⟩ rfl
            exact .inl (still.of_eq (is.trans applied))
        · rw [if_neg zero] at applied
          obtain ⟨fits, -⟩ := linksInUse_replaceNode (n := { n with id := x.origin }) listed.1 found
          have room : linksInUse s.tst.nodes - n.links.length + n.links.length = linksInUse s.tst.nodes := by omega
          have outcome := updateNode_outcome rfl found room listed
          rw [← applied, ← is] at outcome
          exact .inr ⟨x, n.links, _, n.index, _, _, rfl, by omega, by simp [found], room, outcome⟩

/-- Settles O46: the record's outcome is a refresh, a flush, an update or a discard, as one store event. -/
theorem refreshAndFlushOfAKnownNode : Obligations.RefreshAndFlushOfAKnownNode := by
  unfold Obligations.RefreshAndFlushOfAKnownNode
  refine ⟨⟨fun s id q lifetime n handed fine found sound => ⟨fun live lasts => ?refreshed, fun useless => ?useless⟩,
      fun s x n a handed fine zero found live => ?flushed⟩,
    fun s x n others handed sound fine found lasts room => ?updated,
    fun s x n handed sound fine found zero => ⟨fun live => ?flushEvent, fun dead => ?restamped⟩,
    fun s r handed sound => ?any⟩
  case refreshed =>
    have still : StillOutcome s.withoutRecord _ := still_replaced (s := s.withoutRecord)
      (c := { s.tst.counters with refreshesApplied := bump s.tst.counters.refreshesApplied }) (raises := []) found
      (m := { n with life := .live lifetime }) (findNode_some found).2 sound.listed ⟨rfl, live.symm, rfl, rfl, rfl⟩ rfl
    refine ⟨_, exec_record_still handed (applyRecord_refresh_known fine found live lasts) still, rfl, ?_, rfl, rfl, rfl,
      rfl, rfl⟩
    exact replaceNode_eq_map (f := fun y => { y with life := .live lifetime }) sound.listed.1 found
      (findNode_some found).2
  case useless => exact exec_record_discards handed sound.listed (applyRecord_refresh_discards found (.inr useless))
  case flushed =>
    have isLive : n.isLive = true := by simp [NodeEntry.isLive, live]
    have applied := (applyRecord_known (cfg := s.cfg) fine found).trans (if_pos zero)
    rw [flushNode_live isLive] at applied
    have id : (flushed s.cfg x n).id = x.origin := (findNode_some found).2
    obtain ⟨after, only⟩ := findNode_replaceNode (n := flushed s.cfg x n) (by rw [id]; exact found)
    rw [id] at after only
    refine ⟨_, exec_record handed applied, ?_, ?_, ?_, ?_⟩
    · exact (storeEvent_serves s.withoutRecord _).cfg
    · rw [(storeEvent_serves s.withoutRecord _).tst]; exact after
    · rw [(storeEvent_serves s.withoutRecord _).tst]; rfl
    · rw [(storeEvent_serves s.withoutRecord _).tst]; exact only
  case updated =>
    obtain ⟨w, work⟩ : ∃ w, w = replaceLinks s.cfg x.origin others n.links x.items s.tst.counters := ⟨_, rfl⟩
    have outcome := updateNode_outcome (s := s.withoutRecord) work found room sound.listed
    have applied : applyRecord s.cfg s.tst (.full x) = updateNode s.cfg s.tst n x := by
      rw [applyRecord_known fine found, if_neg (by omega)]
    refine ⟨eventState s.withoutRecord (updateNode s.cfg s.tst n x), _,
      eventReports s.withoutRecord (updateNode s.cfg s.tst n x), recordNode n.index x w, exec_record handed applied,
      rfl, (batch_serves (eventState _ _) _).tst, outcome.event, outcome.order, outcome.event_once, ?_⟩
    rw [eventState_tst, eventState_evu]
    refine ⟨outcome.after, outcome.only, outcome.made, updateNode_counters work sound.listed found room, ?_⟩
    rw [updateNode_made work found room, outcome.raises]
    exact raiseAll_evu (s := s.withoutRecord) (t := s) rfl rfl _
  case flushEvent =>
    have applied : applyRecord s.cfg s.tst (.full x) = flushNode s.cfg s.tst n x := by
      rw [applyRecord_known fine found, if_pos zero]
    obtain ⟨event, order⟩ := flush_event (s := s.withoutRecord) sound.listed found live rfl
    refine ⟨eventState s.withoutRecord (flushNode s.cfg s.tst n x), _, exec_record handed applied, event, order, ?_⟩
    rw [eventState_evu, flushNode_live live, (findNode_some found).2]
    exact raiseAll_evu (s := s.withoutRecord) (t := s) rfl rfl [⟨.nodeExpired, .node x.origin, .flushed⟩]
  case restamped =>
    have applied := (applyRecord_known (cfg := s.cfg) fine found).trans (if_pos zero)
    rw [flushNode_withdrawn dead] at applied
    have still : StillOutcome s.withoutRecord _ := still_replaced (s := s.withoutRecord)
      (c := { s.tst.counters with recordsApplied := bump s.tst.counters.recordsApplied }) (raises := []) found
      (m := restamped x n) (findNode_some found).2 sound.listed ⟨rfl, rfl, rfl, rfl, rfl⟩ rfl
    rw [exec_record_still handed applied still,
      replaceNode_eq_map (f := restamped x) sound.listed.1 found (findNode_some found).2]
    rfl
  case any =>
    have run := exec_record handed rfl
    refine ⟨eventState s.withoutRecord (applyRecord s.cfg s.tst r),
      eventReports s.withoutRecord (applyRecord s.cfg s.tst r), ?_⟩
    rcases applyRecord_outcome (s := s.withoutRecord) sound.listed r rfl with
      event | ⟨x, stored, others, index, w, node, is, lasts, hstored, room, outcome⟩
    · exact ⟨fun _ => False, run, event, fun _ => event, fun p h => h.elim⟩
    · exact ⟨ItemChanged s.cfg x stored others, run, outcome.event, fun once => outcome.event_once (once x is),
        fun p item => ⟨x, stored, others, is, lasts, hstored, room, item⟩⟩

end Sys2Proof.Machine

/-!
LEMMAS. The structural walk of an advertisement (R34, section 9.1.3): a copy is walked exactly when it begins with the
bytes of an advertisement (O44).
-/
namespace Sys2Proof.Machine

/-! ## Numbers and their bytes -/

theorem encodeNat_mul_add (n v k : Nat) : encodeNat n (k * 256 ^ n + v) = encodeNat n v := by
  induction n generalizing k with
  | zero => rfl
  | succ n ih =>
    have shifted : k * 256 ^ (n + 1) + v = k * 256 * 256 ^ n + v := by ring
    have top : BitVec.ofNat 8 (k * 256 + v / 256 ^ n) = BitVec.ofNat 8 (v / 256 ^ n) :=
      BitVec.eq_of_toNat_eq (by simp only [BitVec.toNat_ofNat]; omega)
    rw [encodeNat, encodeNat, shifted, ih, add_comm, Nat.add_mul_div_right _ _ (by positivity), add_comm, top]

theorem encodeNat_decodeNat (bs : List Byte) : encodeNat bs.length (decodeNat bs) = bs := by
  induction bs with
  | nil => rfl
  | cons b bs ih =>
    have top : (b.toNat * 256 ^ bs.length + decodeNat bs) / 256 ^ bs.length = b.toNat := by
      rw [add_comm, Nat.add_mul_div_right _ _ (by positivity), Nat.div_eq_of_lt (decodeNat_lt bs), zero_add]
    rw [List.length_cons, encodeNat, decodeNat_cons, encodeNat_mul_add, ih, top, BitVec.ofNat_toNat, BitVec.setWidth_eq]

section
variable (bs : List Byte) (off n : Nat)

/-- The bytes from an offset on begin with the field that stands there. -/
theorem drop_eq_field (inside : off + n ≤ bs.length) :
    bs.drop off = encodeNat n (fieldNat bs off n) ++ bs.drop (off + n) := by
  have size : ((bs.drop off).take n).length = n := by rw [List.length_take, List.length_drop]; omega
  have field : encodeNat n (fieldNat bs off n) = (bs.drop off).take n :=
    (congrArg (encodeNat · (fieldNat bs off n)) size.symm).trans (encodeNat_decodeNat _)
  rw [field, ← List.drop_drop, List.take_append_drop]

theorem field16_toNat : (field16 bs off).toNat = fieldNat bs off 2 :=
  (BitVec.toNat_ofNat ..).trans (Nat.mod_eq_of_lt (fieldNat_lt ..))

theorem field32_toNat : (field32 bs off).toNat = fieldNat bs off 4 :=
  (BitVec.toNat_ofNat ..).trans (Nat.mod_eq_of_lt (fieldNat_lt ..))

theorem fieldByte_toNat : (fieldByte bs off).toNat = fieldNat bs off 1 := by
  rw [fieldByte, fieldNat, List.getD_eq_getElem?_getD, ← List.head?_drop]
  cases bs.drop off with
  | nil => rfl
  | cons b rest => simp [decodeNat]

theorem fieldNat_add (n m : Nat) (inside : off + n + m ≤ bs.length) :
    fieldNat bs off (n + m) = fieldNat bs off n * 256 ^ m + fieldNat bs (off + n) m := by
  have size : ((bs.drop (off + n)).take m).length = m := by rw [List.length_take, List.length_drop]; omega
  rw [fieldNat, fieldNat, fieldNat, List.take_add, decodeNat_append, List.drop_drop, size]

theorem fieldNat_one : fieldNat bs off 1 = (bs.getD off 0).toNat := (fieldByte_toNat bs off).symm

theorem fieldNat_two (inside : off + 2 ≤ bs.length) :
    fieldNat bs off 2 = (bs.getD off 0).toNat * 256 + (bs.getD (off + 1) 0).toNat := by
  rw [fieldNat_add bs off 1 1 inside, fieldNat_one, fieldNat_one, pow_one]

theorem field32_two (inside : off + 4 ≤ bs.length) :
    (field32 bs off).toNat = fieldNat bs off 2 * 65536 + fieldNat bs (off + 2) 2 :=
  (field32_toNat bs off).trans (fieldNat_add bs off 2 2 inside)

end

section
variable {bs xs zs : List Byte} {off : Nat}

theorem field16_of_split {w : Word16} (h : bs = xs ++ (enc2 w.toNat ++ zs)) (hx : xs.length = off) :
    field16 bs off = w := by
  have := w.isLt
  rw [field16, fieldNat_of_split h hx (encodeNat_length ..), enc2, decodeNat_encodeNat]
  exact BitVec.eq_of_toNat_eq (by rw [BitVec.toNat_ofNat]; omega)

theorem fieldByte_of_split {n : Nat} (small : n < 256) (h : bs = xs ++ (encByte n ++ zs)) (hx : xs.length = off) :
    (fieldByte bs off).toNat = n := by
  rw [fieldByte_toNat, fieldNat_of_split h hx (encodeNat_length ..), encByte, decodeNat_encodeNat]
  omega

end

/-! ## Attributes -/

theorem attribute_bytes_append (code len : Byte) (value rest : List Byte) (size : value.length = len.toNat) :
    Attribute.bytes ⟨code, value⟩ ++ rest = code :: len :: (value ++ rest) := by
  simp [Attribute.bytes, size]

theorem walkAttrs_bytes (attrs : List Attribute) (fit : ∀ x ∈ attrs, x.value.length < 256) (rest : List Byte) :
    walkAttrs attrs.length (attrs.flatMap Attribute.bytes ++ rest) = some (attrs, rest) := by
  induction attrs with
  | nil => rfl
  | cons a attrs ih =>
    have size : (BitVec.ofNat 8 a.value.length).toNat = a.value.length :=
      (BitVec.toNat_ofNat ..).trans (Nat.mod_eq_of_lt (fit a (List.mem_cons_self ..)))
    have others := ih fun x hx => fit x (List.mem_cons_of_mem _ hx)
    rw [List.flatMap_cons, List.append_assoc, attribute_bytes_append _ _ _ _ size.symm, List.length_cons, walkAttrs,
      size, if_neg (by simp), List.drop_left, others, List.take_left]

theorem walkAttrs_sound {k : Nat} {bs rest : List Byte} {attrs : List Attribute}
    (walked : walkAttrs k bs = some (attrs, rest)) : attrs.length = k ∧ (∀ x ∈ attrs, x.value.length < 256) ∧
      bs = attrs.flatMap Attribute.bytes ++ rest := by
  induction k generalizing bs attrs with
  | zero =>
    obtain ⟨rfl, rfl⟩ := Prod.mk.inj (Option.some.inj walked)
    exact ⟨rfl, fun _ => nofun, rfl⟩
  | succ k ih =>
    match bs, walked with
    | code :: len :: bs, walked =>
      rw [walkAttrs] at walked
      split at walked
      case isTrue => cases walked
      case isFalse whole =>
        split at walked
        case h_1 => cases walked
        case h_2 others _ walkedOthers =>
          obtain ⟨rfl, rfl⟩ := Prod.mk.inj (Option.some.inj walked)
          obtain ⟨count, fit, bytes⟩ := ih walkedOthers
          have size : (bs.take len.toNat).length = len.toNat := by rw [List.length_take]; omega
          refine ⟨congrArg (· + 1) count, List.forall_mem_cons.2 ⟨size.trans_lt len.isLt, fit⟩, ?_⟩
          rw [List.flatMap_cons, List.append_assoc, attribute_bytes_append _ _ _ _ size, ← bytes,
            List.take_append_drop]

/-! ## Links and the copy -/

theorem link_bytes_append (l : AdvLink) (rest : List Byte) :
    l.bytes ++ rest = enc2 l.lid.toNat ++ (enc4 l.remote.toNat ++ (encByte l.attrs.length ++
      (l.attrs.flatMap Attribute.bytes ++ rest))) := by
  simp only [AdvLink.bytes, List.append_assoc]

theorem advertisement_bytes_append (a : Advertisement) (rest : List Byte) :
    a.bytes ++ rest = encByte a.dialect ++ (enc4 a.origin.toNat ++ (enc4 a.seq.toNat ++
      (encByte a.nodeAttrs.length ++ (a.nodeAttrs.flatMap Attribute.bytes ++
        (encByte a.links.length ++ (a.links.flatMap AdvLink.bytes ++ rest)))))) := by
  simp only [Advertisement.bytes, List.append_assoc]

/-- A link's attribute count and every value length fit their byte. -/
def AdvLink.Fits (l : AdvLink) : Prop := l.attrs.length < 256 ∧ ∀ x ∈ l.attrs, x.value.length < 256

theorem walkLinks_bytes (links : List AdvLink) (fit : ∀ l ∈ links, l.Fits) (unread : List Byte) :
    walkLinks links.length (links.flatMap AdvLink.bytes ++ unread) = some links := by
  induction links with
  | nil => rfl
  | cons l links ih =>
    obtain ⟨few, short⟩ := fit l (List.mem_cons_self ..)
    have others := ih fun x hx => fit x (List.mem_cons_of_mem _ hx)
    set rest := links.flatMap AdvLink.bytes ++ unread with hrest
    have bytes := link_bytes_append l rest
    have lid : field16 (l.bytes ++ rest) 0 = l.lid := field16_of_split (xs := []) bytes rfl
    have remote : field32 (l.bytes ++ rest) 2 = l.remote := field32_of_split bytes rfl
    have count : (fieldByte (l.bytes ++ rest) 6).toNat = l.attrs.length :=
      fieldByte_of_split (xs := enc2 l.lid.toNat ++ enc4 l.remote.toNat) few
        (bytes.trans (List.append_assoc ..).symm) rfl
    have attrs : (l.bytes ++ rest).drop 7 = l.attrs.flatMap Attribute.bytes ++ rest := by
      rw [bytes, ← List.append_assoc, ← List.append_assoc]; exact List.drop_left' rfl
    have long : ¬ (l.bytes ++ rest).length < 7 := by
      rw [bytes]; simp only [List.length_append, enc2, enc4, encByte, encodeNat_length]; omega
    rw [List.flatMap_cons, List.append_assoc, ← hrest, List.length_cons, walkLinks, if_neg long, count, attrs,
      walkAttrs_bytes _ short]
    simp only [others, lid, remote]

theorem walkLinks_sound {k : Nat} {bs : List Byte} {links : List AdvLink} (walked : walkLinks k bs = some links) :
    links.length = k ∧ (∀ l ∈ links, l.Fits) ∧ ∃ unread, bs = links.flatMap AdvLink.bytes ++ unread := by
  induction k generalizing bs links with
  | zero =>
    obtain rfl := Option.some.inj walked
    exact ⟨rfl, fun _ => nofun, bs, rfl⟩
  | succ k ih =>
    rw [walkLinks] at walked
    split at walked
    case isTrue => cases walked
    case isFalse long =>
      split at walked
      case h_1 => cases walked
      case h_2 attrs rest walkedAttrs =>
        split at walked
        case h_1 => cases walked
        case h_2 others walkedOthers =>
          obtain rfl := Option.some.inj walked
          obtain ⟨count, short, bytes⟩ := walkAttrs_sound walkedAttrs
          obtain ⟨countOthers, fit, unread, bytesOthers⟩ := ih walkedOthers
          refine ⟨congrArg (· + 1) countOthers,
            List.forall_mem_cons.2 ⟨⟨count.trans_lt (fieldByte bs 6).isLt, short⟩, fit⟩, unread, ?_⟩
          rw [List.flatMap_cons, List.append_assoc, link_bytes_append, ← bytesOthers, ← bytes, count, field16_toNat,
            field32_toNat, fieldByte_toNat, enc2, enc4, encByte, ← drop_eq_field bs 6 1 (by omega),
            ← drop_eq_field bs 2 4 (by omega)]
          exact drop_eq_field bs 0 2 (by omega)

/-- R34: what a walked copy holds, by its four parts. -/
theorem walkCopy_eq_some {bs rest rest' : List Byte} {nodeAttrs : List Attribute} {count : Byte} {links : List AdvLink}
    (long : 10 ≤ bs.length) (attrs : walkAttrs (fieldByte bs 9).toNat (bs.drop 10) = some (nodeAttrs, rest))
    (more : rest = count :: rest') (walked : walkLinks count.toNat rest' = some links) :
    walkCopy bs = some ⟨(fieldByte bs 0).toNat, field32 bs 1, field32 bs 5, nodeAttrs, links⟩ := by
  subst more
  rw [walkCopy, if_neg (by omega), attrs]
  simp only [walked]

theorem walkCopy_bytes {a : Advertisement} (fit : a.Fits) (unread : List Byte) :
    walkCopy (a.bytes ++ unread) = some a := by
  obtain ⟨tag, fewAttrs, short, fewLinks, fitLinks⟩ := fit
  have bytes := advertisement_bytes_append a unread
  set rest := a.links.flatMap AdvLink.bytes ++ unread with hrest
  set bs := a.bytes ++ unread
  have dialect : (fieldByte bs 0).toNat = a.dialect := fieldByte_of_split (xs := []) tag bytes rfl
  have origin : field32 bs 1 = a.origin := field32_of_split bytes rfl
  have seq : field32 bs 5 = a.seq :=
    field32_of_split (xs := encByte a.dialect ++ enc4 a.origin.toNat) (bytes.trans (List.append_assoc ..).symm) rfl
  have count : (fieldByte bs 9).toNat = a.nodeAttrs.length :=
    fieldByte_of_split (xs := encByte a.dialect ++ (enc4 a.origin.toNat ++ enc4 a.seq.toNat)) fewAttrs
      (bytes.trans (by rw [List.append_assoc, List.append_assoc])) rfl
  have attrs : bs.drop 10 = a.nodeAttrs.flatMap Attribute.bytes ++ (encByte a.links.length ++ rest) := by
    rw [bytes, ← List.append_assoc, ← List.append_assoc, ← List.append_assoc]; exact List.drop_left' rfl
  have long : 10 ≤ bs.length := by
    rw [bytes]; simp only [List.length_append, enc4, encByte, encodeNat_length]; omega
  have countLinks : (BitVec.ofNat 8 a.links.length).toNat = a.links.length :=
    (BitVec.toNat_ofNat ..).trans (Nat.mod_eq_of_lt fewLinks)
  rw [walkCopy_eq_some (count := BitVec.ofNat 8 a.links.length) (rest' := rest) long
    (by rw [count, attrs]; exact walkAttrs_bytes _ short _) (by rw [encByte_bytes]; rfl)
    (by rw [countLinks]; exact walkLinks_bytes _ fitLinks unread), dialect, origin, seq]

theorem walkCopy_sound {bs : List Byte} {a : Advertisement} (walked : walkCopy bs = some a) :
    a.Fits ∧ ∃ unread, bs = a.bytes ++ unread := by
  rw [walkCopy] at walked
  split at walked
  case isTrue => cases walked
  case isFalse long =>
    split at walked
    case h_1 => cases walked
    case h_2 attrs rest walkedAttrs =>
      split at walked
      case h_1 => cases walked
      case h_2 count rest' =>
        split at walked
        case h_1 => cases walked
        case h_2 links walkedLinks =>
          obtain rfl := Option.some.inj walked
          obtain ⟨countAttrs, short, bytes⟩ := walkAttrs_sound walkedAttrs
          obtain ⟨countLinks, fit, unread, bytesLinks⟩ := walkLinks_sound walkedLinks
          refine ⟨⟨(fieldByte bs 0).isLt, countAttrs.trans_lt (fieldByte bs 9).isLt, short,
            countLinks.trans_lt count.isLt, fit⟩, unread, ?_⟩
          have more : encByte links.length ++ rest' = count :: rest' := by
            rw [encByte_bytes, countLinks, BitVec.ofNat_toNat, BitVec.setWidth_eq]; rfl
          rw [advertisement_bytes_append, ← bytesLinks, more, ← bytes, countAttrs, field32_toNat, field32_toNat,
            fieldByte_toNat, fieldByte_toNat, enc4, enc4, encByte, encByte, ← drop_eq_field bs 9 1 (by omega),
            ← drop_eq_field bs 5 4 (by omega), ← drop_eq_field bs 1 4 (by omega)]
          exact drop_eq_field bs 0 1 (by omega)

/-- R34: a copy is walked exactly when it begins with the bytes of an advertisement. -/
theorem walkCopy_iff (copy : List Byte) (a : Advertisement) :
    walkCopy copy = some a ↔ a.Fits ∧ ∃ unread, copy = a.bytes ++ unread := by
  constructor
  case mp => exact walkCopy_sound
  case mpr =>
    rintro ⟨fit, unread, rfl⟩
    exact walkCopy_bytes fit unread

end Sys2Proof.Machine

/-!
LEMMAS. The conversion of values and the mapping of attributes (R37 to R43, R46): what a section's attributes set and
what a translation event counts (O44).
-/
namespace Sys2Proof.Machine

/-! ## Targets (R32, R38) -/

theorem isNodeTarget_eq (t : Target) : isNodeTarget t = t.ofNode := by cases t <;> rfl

theorem lengthSuits_eq (t : Target) (n : Nat) : lengthSuits t n = t.suits n := by
  cases t <;> simp [lengthSuits, Target.suits, Bool.beq_eq_decide_eq, Bool.or_assoc]

/-! ## Scalars and marks (R39, R40, R43) -/

theorem clampInt_eq {lo hi : Nat} (ordered : lo ≤ hi) (v : Int) :
    clampInt lo hi v = ((max (lo : Int) (min (hi : Int) v)).toNat, decide (v < lo ∨ hi < v)) := by
  unfold clampInt
  split_ifs with below above
  · simp only [below, true_or, decide_true, Prod.mk.injEq, and_true]; omega
  · simp only [above, or_true, decide_true, Prod.mk.injEq, and_true]; omega
  · simp only [Prod.mk.injEq, below, above, or_self, decide_false, and_true]; omega

theorem convertScalar_eq (e : DialectEntry) (value : List Byte) :
    convertScalar e (decodeNat value) = e.converted value := by
  unfold convertScalar DialectEntry.converted
  push_cast
  rfl

/-- The targets whose value is a converted scalar. -/
def Target.isScalar (t : Target) : Bool := decide (t ∉ [Target.linkOccupancy, .linkSrlg, .linkAdmin])

theorem scalarRange_eq {t : Target} (scalar : t.isScalar = true) : scalarRange t = (t.low, t.high) := by
  revert scalar
  cases t <;> decide

theorem low_le_high (t : Target) : t.low ≤ t.high := by cases t <;> decide

theorem scalarValue_eq {e : DialectEntry} (scalar : e.target.isScalar = true) (value : List Byte) :
    scalarValue e value = (e.scalar value, e.outside value) := by
  rw [scalarValue, scalarRange_eq scalar, convertScalar_eq, clampInt_eq (low_le_high _)]
  rfl

theorem adminValue_eq (e : DialectEntry) (value : List Byte) :
    adminValue e value = if decodeNat value ≠ 0 ↔ e.offset = 0 then Admin.up else Admin.down := by
  have senses : (decide (decodeNat value ≠ 0) == (e.offset == 0)) = true ↔ (decodeNat value ≠ 0 ↔ e.offset = 0) := by
    rw [beq_iff_eq, Bool.eq_iff_iff, decide_eq_true_iff, beq_iff_eq]
  exact if_congr senses rfl rfl

/-! ## Lists of 4-byte items (R41, R42) -/

theorem quads_eq (value : List Byte) :
    quads value = (List.range (value.length / 4)).map (fun j => (value.drop (4 * j)).take 4) := by
  induction value using quads.induct with
  | case1 a b c d rest ih =>
    have count : (a :: b :: c :: d :: rest).length / 4 = rest.length / 4 + 1 := by simp only [List.length_cons]; omega
    rw [quads, ih, count, List.range_succ_eq_map, List.map_cons, List.map_map]
    rfl
  | case2 value short =>
    have few : value.length < 4 := by
      match value, short with
      | [], _ => decide
      | [_], _ => simp
      | [_, _], _ => simp
      | [_, _, _], _ => simp
      | a :: b :: c :: d :: rest, short => exact absurd rfl (short a b c d rest)
    rw [quads, Nat.div_eq_of_lt few]
    · rfl
    · exact short

theorem fieldNat_item (value : List Byte) (off k n : Nat) (within : k + n ≤ 4) :
    fieldNat ((value.drop off).take 4) k n = fieldNat value (off + k) n := by
  rw [fieldNat, fieldNat, List.drop_take, List.take_take, List.drop_drop, Nat.min_eq_left (by omega)]

theorem field32_item (value : List Byte) (off : Nat) : field32 ((value.drop off).take 4) 0 = field32 value off := by
  rw [field32, field32, fieldNat_item _ _ _ _ (by omega), Nat.add_zero]

/-! ## Occupancy (R41) -/

/-- A quotient rounded up, as the division of whole numbers that gives it. -/
theorem neg_neg_ediv (x p : Nat) (pos : 0 < p) : -(-(x : Int) / p) = ((x + (p - 1)) / p : Nat) := by
  have parts := Nat.div_add_mod (x + (p - 1)) p
  have small := Nat.mod_lt (x + (p - 1)) pos
  set c := (x + (p - 1)) / p
  set r := (x + (p - 1)) % p
  have whole : (p : Int) * c + r + 1 = x + p := by exact_mod_cast (by omega : p * c + r + 1 = x + p)
  have below : (r : Int) < p := by exact_mod_cast small
  have down : -(x : Int) / p = -(c : Int) := by
    rw [Int.ediv_eq_iff_of_pos (by omega)]
    constructor <;> linarith [Int.natCast_nonneg r]
  rw [down, neg_neg]

section
variable (e : DialectEntry) (value : List Byte) (j : Nat)

theorem occupancyPair_start :
    (((fieldNat value (4 * j) 2 * e.mul) / 2 ^ e.shift : Nat) : Int) + e.offset = e.pairStart value j := by
  unfold DialectEntry.pairStart
  push_cast
  rfl

theorem occupancyPair_end :
    ((((fieldNat value (4 * j) 2 + fieldNat value (4 * j + 2) 2) * e.mul + (2 ^ e.shift - 1)) / 2 ^ e.shift :
      Nat) : Int) + e.offset = e.pairEnd value j := by
  rw [← neg_neg_ediv _ _ (by positivity), DialectEntry.pairEnd]
  push_cast
  rfl

/-- One pair of an occupancy list, by its first slot and the one after its last (R41). -/
theorem occupancyPair_eq (wide : fieldNat value (4 * j + 2) 2 ≠ 0) :
    occupancyPair e (fieldNat value (4 * j) 2) (fieldNat value (4 * j + 2) 2) =
      (if (max (e.pairStart value j) 0).toNat < (min (max (e.pairEnd value j) 0) 320).toNat then
        slotRange (max (e.pairStart value j) 0).toNat
          ((min (max (e.pairEnd value j) 0) 320).toNat - (max (e.pairStart value j) 0).toNat) else 0#320,
      decide (e.pairStart value j < 0) || decide (320 < e.pairEnd value j)) := by
  rw [occupancyPair, if_neg wide, occupancyPair_start, occupancyPair_end]
  rfl

theorem occupancyPair_slot (k : Nat) :
    (occupancyPair e (fieldNat value (4 * j) 2) (fieldNat value (4 * j + 2) 2)).1.getLsbD k = true ↔
      fieldNat value (4 * j + 2) 2 ≠ 0 ∧ k < 320 ∧ e.pairStart value j ≤ k ∧ (k : Int) < e.pairEnd value j := by
  by_cases wide : fieldNat value (4 * j + 2) 2 = 0
  case pos => simp [occupancyPair, wide]
  case neg =>
    rw [occupancyPair_eq e value j wide]
    split
    case isTrue => rw [slotRange_getLsbD]; omega
    case isFalse =>
      rw [BitVec.getLsbD_zero]
      simp only [Bool.false_eq_true, false_iff]
      omega

theorem occupancyPair_spills : (occupancyPair e (fieldNat value (4 * j) 2) (fieldNat value (4 * j + 2) 2)).2 =
    (fieldNat value (4 * j + 2) 2 != 0 && (decide (e.pairStart value j < 0) || decide (320 < e.pairEnd value j))) := by
  by_cases wide : fieldNat value (4 * j + 2) 2 = 0
  case pos => simp [occupancyPair, wide]
  case neg => rw [occupancyPair_eq e value j wide, bne_iff_ne.2 wide, Bool.true_and]

end

theorem foldl_union {α : Type} (f : α → SlotSet × Bool) (xs : List α) (k : Nat) :
    ((xs.foldl (fun acc p => (acc.1 ||| (f p).1, acc.2 || (f p).2)) (0#320, false)).1.getLsbD k = true ↔
      ∃ p ∈ xs, (f p).1.getLsbD k = true) ∧
    (xs.foldl (fun acc p => (acc.1 ||| (f p).1, acc.2 || (f p).2)) (0#320, false)).2 = xs.any (fun p => (f p).2) := by
  induction xs using List.reverseRecOn with
  | nil => simp
  | append_singleton xs x ih =>
    obtain ⟨slots, spilt⟩ := ih
    simp only [List.foldl_append, List.foldl_cons, List.foldl_nil, BitVec.getLsbD_or, Bool.or_eq_true, slots, spilt,
      List.any_append, List.any_cons, List.any_nil, Bool.or_false, List.mem_append, List.mem_singleton, or_and_right,
      exists_or, exists_eq_left, and_self]

section
variable (e : DialectEntry) (value : List Byte)

theorem occupancyValue_eq : occupancyValue e value = (List.range (value.length / 4)).foldl (fun acc j =>
    (acc.1 ||| (occupancyPair e (fieldNat value (4 * j) 2) (fieldNat value (4 * j + 2) 2)).1,
      acc.2 || (occupancyPair e (fieldNat value (4 * j) 2) (fieldNat value (4 * j + 2) 2)).2)) (0#320, false) := by
  simp only [occupancyValue, quads_eq, List.foldl_map, fieldNat_item _ _ 0 2 (by omega),
    fieldNat_item _ _ 2 2 (by omega), Nat.add_zero]

theorem occupancyValue_slot (whole : value.length % 4 = 0) (k : Nat) : (occupancyValue e value).1.getLsbD k = true ↔
    k < 320 ∧ ∃ j, isPair value j ∧ e.pairStart value j ≤ k ∧ (k : Int) < e.pairEnd value j := by
  rw [occupancyValue_eq, (foldl_union _ _ k).1]
  constructor
  case mp =>
    rintro ⟨j, mem, slot⟩
    obtain ⟨wide, low, after, before⟩ := (occupancyPair_slot e value j k).1 slot
    exact ⟨low, j, ⟨by have := List.mem_range.1 mem; omega, wide⟩, after, before⟩
  case mpr =>
    rintro ⟨low, j, ⟨inside, wide⟩, after, before⟩
    exact ⟨j, List.mem_range.2 (by omega), (occupancyPair_slot e value j k).2 ⟨wide, low, after, before⟩⟩

theorem occupancyValue_spills : (occupancyValue e value).2 = e.spills value := by
  rw [occupancyValue_eq, (foldl_union _ _ 0).2]
  simp only [occupancyPair_spills]
  rfl

end

/-! ## SRLG ids (R42) -/

/-- The ids of an SRLG list, each as often as it stands there. -/
def srlgRead (value : List Byte) : List Word32 :=
  (List.range (value.length / 4)).map (fun j => field32 value (4 * j))

theorem foldl_firstFour (ids : List Word32) :
    ids.foldl (fun acc id => if id ∈ acc.1 then acc
      else if acc.1.length < Config.srlgPerLink then (acc.1 ++ [id], acc.2) else (acc.1, true)) ([], false) =
    ((firsts ids).take 4, decide (4 < (firsts ids).length)) := by
  induction ids using List.reverseRecOn with
  | nil => rfl
  | append_singleton ids id ih =>
    have four : Config.srlgPerLink = 4 := rfl
    rw [List.foldl_append, ih, List.foldl_cons, List.foldl_nil, firsts_snoc, four, List.length_take]
    by_cases room : (firsts ids).length < 4
    case pos =>
      have all : (firsts ids).take 4 = firsts ids := List.take_of_length_le (by omega)
      have grown : (firsts ids ++ [id]).take 4 = firsts ids ++ [id] := List.take_of_length_le (by simp; omega)
      by_cases seen : id ∈ firsts ids
      case pos => simp only [all, seen, if_true]
      case neg =>
        simp only [all, seen, if_false, grown, List.length_append, List.length_singleton]
        rw [if_pos (by omega)]
        simp only [Prod.mk.injEq, true_and, decide_eq_decide]
        omega
    case neg =>
      rw [if_neg (by omega : ¬ min 4 (firsts ids).length < 4)]
      by_cases seen : id ∈ (firsts ids).take 4
      case pos => simp only [seen, List.mem_of_mem_take seen, if_true]
      case neg =>
        rw [if_neg seen]
        by_cases later : id ∈ firsts ids
        case pos =>
          have more : 4 < (firsts ids).length := by
            by_contra few
            rw [List.take_of_length_le (by omega)] at seen
            exact seen later
          simp only [later, if_true, more, decide_true]
        case neg =>
          have kept : (firsts ids ++ [id]).take 4 = (firsts ids).take 4 := List.take_append_of_le_length (by omega)
          simp only [later, if_false, kept, List.length_append, List.length_singleton, Prod.mk.injEq, true_and]
          exact (decide_eq_true (by omega)).symm

theorem srlgValue_eq (value : List Byte) :
    srlgValue value = ((srlgIds value).take 4, decide (4 < (srlgIds value).length)) := by
  have ids : srlgValue value = (srlgRead value).foldl (fun acc id => if id ∈ acc.1 then acc
      else if acc.1.length < Config.srlgPerLink then (acc.1 ++ [id], acc.2) else (acc.1, true)) ([], false) := by
    simp only [srlgValue, srlgRead, quads_eq, List.foldl_map, field32_item]
  rw [ids, foldl_firstFour]
  rfl

end Sys2Proof.Machine

/-!
LEMMAS. The mapping of a copy's attributes into the values of its record, and what a translation event counts (R37 to
R46, O44).
-/
namespace Sys2Proof.Machine

/-! ## What the attributes of a section count (R37, R38, R40) -/

/-- What a translation event has counted after the attributes of a section. -/
def MapTally.after (entries : List DialectEntry) (node : Bool) (t : MapTally) (attrs : List Attribute) : MapTally where
  unmapped := t.unmapped + (attrs.filter (Attribute.isUnmapped entries node)).length
  badLength := t.badLength + (attrs.filter (Attribute.isBadLength entries node)).length
  clamped := t.clamped || attrs.any (Attribute.isClamped entries node)

/-- The entry and value by which an attribute sets a target; none when it does not. -/
def Attribute.sets (entries : List DialectEntry) (t : Target) (a : Attribute) : Option (DialectEntry × List Byte) :=
  (a.mapped entries).bind (fun e => if e.target = t ∧ t.suits a.value.length = true then some (e, a.value) else none)

section
variable (entries : List DialectEntry) (node : Bool)

theorem MapTally.after_nil (t : MapTally) : t.after entries node [] = t := by simp [MapTally.after]

theorem MapTally.after_append (t : MapTally) (xs ys : List Attribute) :
    t.after entries node (xs ++ ys) = (t.after entries node xs).after entries node ys := by
  simp [MapTally.after, Nat.add_assoc, Bool.or_assoc]

theorem lastSet_snoc (attrs : List Attribute) (a : Attribute) (t : Target) :
    lastSet entries (attrs ++ [a]) t = (a.sets entries t).or (lastSet entries attrs t) := by
  have parts : lastSet entries (attrs ++ [a]) t =
      (attrs.filterMap (Attribute.sets entries t) ++ [a].filterMap (Attribute.sets entries t)).getLast? :=
    congrArg List.getLast? (List.filterMap_append ..)
  rw [parts, List.getLast?_append, List.filterMap_cons]
  cases a.sets entries t <;> rfl

theorem lastSet_suits {attrs : List Attribute} {t : Target} {e : DialectEntry} {value : List Byte}
    (last : lastSet entries attrs t = some (e, value)) : e.target = t ∧ t.suits value.length = true := by
  obtain ⟨a, -, sets⟩ := List.mem_filterMap.1 (List.mem_of_getLast? last)
  obtain ⟨e', -, holds⟩ := Option.bind_eq_some_iff.1 sets
  split at holds
  case isFalse => cases holds
  case isTrue fits =>
    obtain ⟨rfl, rfl⟩ := Prod.mk.inj (Option.some.inj holds)
    exact fits

end

/-! ## One attribute -/

section
variable {entries : List DialectEntry} {node : Bool} {a : Attribute} {e : DialectEntry}

theorem mapEntry_unmapped (none : a.mapped entries = none) (t : MapTally) :
    mapEntry entries node a t = .error (t.after entries node [a]) ∧ ∀ target, a.sets entries target = .none := by
  have found : findCode entries a.code = .none := none
  constructor
  case left =>
    rw [mapEntry, found]
    simp [MapTally.after, Attribute.isUnmapped, Attribute.isBadLength, Attribute.isClamped, none]
  case right => intro target; rw [Attribute.sets, none]; rfl

theorem mapEntry_otherSection (is : a.mapped entries = some e) (other : e.target.ofNode ≠ node) (t : MapTally) :
    mapEntry entries node a t = .error (t.after entries node [a]) ∧
      ∀ target, target.ofNode = node → a.sets entries target = none := by
  have found : findCode entries a.code = some e := is
  constructor
  case left =>
    rw [mapEntry, found]
    simp [MapTally.after, Attribute.isUnmapped, Attribute.isBadLength, Attribute.isClamped, is, isNodeTarget_eq, other]
  case right =>
    intro target ofNode
    rw [Attribute.sets, is, Option.bind_some, if_neg]
    rintro ⟨rfl, -⟩
    exact other ofNode

theorem mapEntry_badLength (is : a.mapped entries = some e) (same : e.target.ofNode = node)
    (bad : e.target.suits a.value.length = false) (t : MapTally) :
    mapEntry entries node a t = .error (t.after entries node [a]) ∧ ∀ target, a.sets entries target = none := by
  have found : findCode entries a.code = some e := is
  constructor
  case left =>
    rw [mapEntry, found]
    simp [MapTally.after, Attribute.isUnmapped, Attribute.isBadLength, Attribute.isClamped, is, isNodeTarget_eq, same,
      lengthSuits_eq, bad]
  case right =>
    intro target
    rw [Attribute.sets, is, Option.bind_some, if_neg]
    rintro ⟨rfl, suits⟩
    exact absurd (bad.symm.trans suits) (by decide)

theorem mapEntry_ok (is : a.mapped entries = some e) (same : e.target.ofNode = node)
    (suits : e.target.suits a.value.length = true) (t : MapTally) :
    mapEntry entries node a t = .ok e ∧ t.after entries node [a] = t.mark (a.isClamped entries node) ∧
      ∀ target, a.sets entries target = if e.target = target then some (e, a.value) else none := by
  have found : findCode entries a.code = some e := is
  refine ⟨?_, ?_, fun target => ?_⟩
  · rw [mapEntry, found]
    simp [isNodeTarget_eq, same, lengthSuits_eq, suits]
  · simp [MapTally.after, MapTally.mark, Attribute.isUnmapped, Attribute.isBadLength, is, same, suits]
  · rw [Attribute.sets, is, Option.bind_some]
    refine if_congr ⟨And.left, ?_⟩ rfl rfl
    rintro rfl
    exact ⟨rfl, suits⟩

variable (entries node a) in
/-- An attribute is skipped, or mapped by an entry of its section (R37, R38). -/
theorem mapEntry_cases (t : MapTally) :
    (mapEntry entries node a t = .error (t.after entries node [a]) ∧
      ∀ target, target.ofNode = node → a.sets entries target = none) ∨
    ∃ e, mapEntry entries node a t = .ok e ∧ a.mapped entries = some e ∧ e.target.ofNode = node ∧
      e.target.suits a.value.length = true ∧ t.after entries node [a] = t.mark (a.isClamped entries node) ∧
      ∀ target, a.sets entries target = if e.target = target then some (e, a.value) else none := by
  cases is : a.mapped entries with
  | none =>
    obtain ⟨skipped, unset⟩ := mapEntry_unmapped is t (node := node)
    exact .inl ⟨skipped, fun target _ => unset target⟩
  | some e =>
    by_cases same : e.target.ofNode = node
    case neg => exact .inl (mapEntry_otherSection is same t)
    case pos =>
      cases suits : e.target.suits a.value.length
      case false =>
        obtain ⟨skipped, unset⟩ := mapEntry_badLength is same suits t
        exact .inl ⟨skipped, fun target _ => unset target⟩
      case true =>
        obtain ⟨mapped, counted, sets⟩ := mapEntry_ok is same suits t
        exact .inr ⟨e, mapped, rfl, same, suits, counted, sets⟩

section
variable (is : a.mapped entries = some e) (same : e.target.ofNode = node)
  (suits : e.target.suits a.value.length = true)
include is same suits

theorem isClamped_scalar (scalar : e.target.isScalar = true) :
    a.isClamped entries node = e.outside a.value := by
  simp only [Attribute.isClamped, is, same, suits, beq_self_eq_true, Bool.true_and]
  cases target : e.target <;> simp_all [Target.isScalar]

theorem isClamped_occupancy (target : e.target = .linkOccupancy) :
    a.isClamped entries node = e.spills a.value := by
  rw [target] at same suits
  simp [Attribute.isClamped, is, same, suits, target]

theorem isClamped_srlg (target : e.target = .linkSrlg) :
    a.isClamped entries node = decide (4 < (srlgIds a.value).length) := by
  rw [target] at same suits
  simp [Attribute.isClamped, is, same, suits, target]

theorem isClamped_admin (target : e.target = .linkAdmin) : a.isClamped entries node = false := by
  rw [target] at same suits
  simp [Attribute.isClamped, is, same, suits, target]

end
end

/-! ## A section (R37) -/

section
variable (entries : List DialectEntry)

/-- The values that a node section sets. -/
def nodeSet (attrs : List Attribute) : NodeValues where
  lifetime := scalarSet entries attrs .nodeLifetime
  regens := scalarSet entries attrs .nodeRegens
  transitQ := scalarSet entries attrs .nodeTransitQ

/-- The values that a link's section sets. -/
def linkSet (attrs : List Attribute) : LinkValues where
  cost := scalarSet entries attrs .linkCost
  q := scalarSet entries attrs .linkQ
  remoteId := scalarSet entries attrs .linkRemoteId
  occupied := (lastSet entries attrs .linkOccupancy).map (fun x => (occupancyValue x.1 x.2).1)
  srlg := (lastSet entries attrs .linkSrlg).map (fun x => (srlgIds x.2).take 4)
  admin := (lastSet entries attrs .linkAdmin).map (fun x => adminValue x.1 x.2)

theorem scalarSet_snoc (attrs : List Attribute) (a : Attribute) (t : Target) : scalarSet entries (attrs ++ [a]) t =
    ((a.sets entries t).map (fun x => x.1.scalar x.2)).or (scalarSet entries attrs t) := by
  rw [scalarSet, lastSet_snoc, Option.map_or]
  rfl

theorem mapNodeAttr_eq (attrs : List Attribute) (a : Attribute) (t : MapTally) :
    mapNodeAttr entries (nodeSet entries attrs, t) a = (nodeSet entries (attrs ++ [a]), t.after entries true [a]) := by
  obtain ⟨skipped, unset⟩ | ⟨e, mapped, is, same, suits, counted, sets⟩ := mapEntry_cases entries true a t
  case inl =>
    rw [mapNodeAttr, skipped]
    simp [nodeSet, scalarSet_snoc, unset, Target.ofNode]
  case inr =>
    have value : e.target.isScalar = true → scalarValue e a.value = (e.scalar a.value, a.isClamped entries true) :=
      fun scalar => (scalarValue_eq scalar _).trans (by rw [isClamped_scalar is same suits scalar])
    rw [mapNodeAttr, mapped, counted]
    cases target : e.target with
    | nodeLifetime | nodeRegens | nodeTransitQ =>
      simp [nodeSet, scalarSet_snoc, sets, target, value, Target.isScalar]
    | linkCost | linkQ | linkRemoteId | linkOccupancy | linkSrlg | linkAdmin =>
      exact absurd (target ▸ same) (by decide)

theorem mapNode_eq (attrs : List Attribute) (t : MapTally) :
    mapNode entries attrs t = (nodeSet entries attrs, t.after entries true attrs) := by
  induction attrs using List.reverseRecOn with
  | nil => rw [MapTally.after_nil]; rfl
  | append_singleton attrs a ih =>
    rw [mapNode] at ih ⊢
    rw [List.foldl_append, ih, List.foldl_cons, List.foldl_nil, mapNodeAttr_eq, MapTally.after_append]

theorem mapLinkAttr_eq (attrs : List Attribute) (a : Attribute) (t : MapTally) :
    mapLinkAttr entries (linkSet entries attrs, t) a = (linkSet entries (attrs ++ [a]), t.after entries false [a]) := by
  obtain ⟨skipped, unset⟩ | ⟨e, mapped, is, same, suits, counted, sets⟩ := mapEntry_cases entries false a t
  case inl =>
    rw [mapLinkAttr, skipped]
    simp [linkSet, scalarSet_snoc, lastSet_snoc, unset, Target.ofNode]
  case inr =>
    have value : e.target.isScalar = true → scalarValue e a.value = (e.scalar a.value, a.isClamped entries false) :=
      fun scalar => (scalarValue_eq scalar _).trans (by rw [isClamped_scalar is same suits scalar])
    have unmarked : t.mark false = t := by simp [MapTally.mark]
    rw [mapLinkAttr, mapped, counted]
    cases target : e.target with
    | nodeLifetime | nodeRegens | nodeTransitQ => exact absurd (target ▸ same) (by decide)
    | linkCost | linkQ | linkRemoteId =>
      simp [linkSet, scalarSet_snoc, lastSet_snoc, sets, target, value, Target.isScalar]
    | linkOccupancy =>
      simp [linkSet, scalarSet_snoc, lastSet_snoc, sets, target, occupancyValue_spills,
        isClamped_occupancy is same suits target]
    | linkSrlg =>
      simp [linkSet, scalarSet_snoc, lastSet_snoc, sets, target, srlgValue_eq, isClamped_srlg is same suits target]
    | linkAdmin =>
      simp [linkSet, scalarSet_snoc, lastSet_snoc, sets, target, isClamped_admin is same suits target, unmarked]

theorem mapLinkAttrs_eq (attrs : List Attribute) (t : MapTally) :
    attrs.foldl (mapLinkAttr entries) (⟨none, none, none, none, none, none⟩, t) =
      (linkSet entries attrs, t.after entries false attrs) := by
  induction attrs using List.reverseRecOn with
  | nil => rw [MapTally.after_nil]; rfl
  | append_singleton attrs a ih =>
    rw [List.foldl_append, ih, List.foldl_cons, List.foldl_nil, mapLinkAttr_eq, MapTally.after_append]

/-! ## Links (R45, R46) -/

/-- The item of a link of a copy. -/
def linkItem (l : AdvLink) : LinkItem where
  lid := l.lid
  remote := l.remote
  remoteLid := remoteLink (linkSet entries l.attrs).remoteId
  cost := (linkSet entries l.attrs).cost
  q := (linkSet entries l.attrs).q
  occupied := (linkSet entries l.attrs).occupied
  srlg := (linkSet entries l.attrs).srlg
  admin := (linkSet entries l.attrs).admin

theorem mapLink_eq (l : AdvLink) (t : MapTally) :
    mapLink entries l t = (linkItem entries l, t.after entries false l.attrs) := by
  rw [mapLink, mapLinkAttrs_eq]
  rfl

theorem mapLinks_eq (links : List AdvLink) (t : MapTally) :
    mapLinks entries links t =
      (links.map (linkItem entries), t.after entries false (links.flatMap (·.attrs))) := by
  induction links using List.reverseRecOn with
  | nil => rw [List.flatMap_nil, MapTally.after_nil]; rfl
  | append_singleton links l ih =>
    rw [mapLinks] at ih ⊢
    rw [List.foldl_append, ih, List.foldl_cons, List.foldl_nil, mapLink_eq, List.map_append, List.flatMap_append,
      List.flatMap_singleton, MapTally.after_append]
    rfl

theorem remoteLink_eq (v : Option Nat) : remoteLink v = (v.filter (fun v => v != 0)).map (BitVec.ofNat 16) := by
  cases v with
  | none => rfl
  | some v => by_cases zero : v = 0 <;> simp [remoteLink, zero]

/-- R41 to R43, R46: the item of a link is as its attributes set it. -/
theorem linkItem_itemOf (l : AdvLink) : ItemOf entries l (linkItem entries l) := by
  refine ⟨rfl, rfl, remoteLink_eq _, rfl, rfl, fun unset => ?_, fun e value last => ?_, rfl, ?_⟩
  case refine_1 => simp only [linkItem, linkSet, unset, Option.map_none]
  case refine_2 =>
    obtain ⟨-, suits⟩ := lastSet_suits entries last
    have whole : value.length % 4 = 0 := of_decide_eq_true suits
    refine ⟨(occupancyValue e value).1, ?_, occupancyValue_slot e value whole⟩
    simp only [linkItem, linkSet, last, Option.map_some]
  case refine_3 => simp only [linkItem, linkSet, adminValue_eq]

end

end Sys2Proof.Machine

/-!
LEMMAS. TRANSLATION_EVENT: a translation event by what its copy becomes (O44).
-/
namespace Sys2Proof.Machine

/-! ## The dialect (R33) -/

theorem dialect_of_known {b : Bank} {tag : Nat} {entries : List DialectEntry} (known : KnownDialect b tag entries) :
    b.dialect tag = some entries ∧ entries.any (·.valid) = true := by
  obtain ⟨k, rfl, rfl, e, mem, valid⟩ := known
  refine ⟨?_, List.any_eq_true.2 ⟨e, mem, valid⟩⟩
  simp [Bank.dialect]

section
variable {s : State} {copy : List Byte}

theorem translate_noDialect {tag : Byte} {bytes : List Byte} (absent : s.prb.active.dialect tag.toNat = none) :
    translate s (tag :: bytes) = .unknownDialect := by
  rw [translate, absent]

theorem translate_noEntry {tag : Byte} {bytes : List Byte} {entries : List DialectEntry}
    (is : s.prb.active.dialect tag.toNat = some entries) (invalid : entries.any (·.valid) = false) :
    translate s (tag :: bytes) = .unknownDialect := by
  rw [translate, is]
  simp only [invalid, Bool.not_false, if_true]

theorem translate_unwalked {tag : Byte} {bytes : List Byte} {entries : List DialectEntry}
    (is : s.prb.active.dialect tag.toNat = some entries) (valid : entries.any (·.valid) = true)
    (unwalked : walkCopy (tag :: bytes) = none) : translate s (tag :: bytes) = .malformed := by
  rw [translate, is]
  simp only [valid, unwalked, Bool.not_true, Bool.false_eq_true, if_false]

theorem walkCopy_tag {a : Advertisement} (walked : walkCopy copy = some a) :
    ∃ tag bytes, copy = tag :: bytes ∧ tag.toNat = a.dialect := by
  obtain ⟨⟨small, -⟩, unread, rfl⟩ := walkCopy_sound walked
  refine ⟨BitVec.ofNat 8 a.dialect, (a.bytes ++ unread).tail, ?_, ?_⟩
  · rw [advertisement_bytes_append, encByte_bytes]; rfl
  · exact (BitVec.toNat_ofNat ..).trans (Nat.mod_eq_of_lt small)

theorem dialect_cases (tag : Byte) : (tag = 0 ∨ 9 ≤ tag.toNat ∨ ∃ k : Fin 8,
    tag.toNat = k.val + 1 ∧ ∀ i : Fin 32, s.prb.active.dialects[k][i].valid = false) → ∀ bytes,
    translate s (tag :: bytes) = .unknownDialect := by
  rintro (rfl | high | ⟨k, is, invalid⟩) bytes
  case inl => exact translate_noDialect rfl
  case inr.inl => exact translate_noDialect (by simp [Bank.dialect]; omega)
  case inr.inr =>
    refine translate_noEntry (entries := s.prb.active.dialects[k].toList) (by rw [is]; simp [Bank.dialect]) ?_
    rw [List.any_eq_false]
    intro e mem
    obtain ⟨i, small, rfl⟩ := Vector.mem_iff_getElem.1 (Vector.mem_toList_iff.1 mem)
    simpa using invalid ⟨i, small⟩

/-! ## The sequence (R35, R36) -/

section
variable {nodes : List NodeEntry} {a : Advertisement} {n : NodeEntry} {d : Nat}

theorem compareSeq_distance (x y : Word32) : (x - y).toNat = (x.toNat + 4294967296 - y.toNat) % 4294967296 := by
  rw [BitVec.toNat_sub]; omega

theorem copyFate_absent (absent : findNode nodes a.origin = none) : copyFate nodes a.origin a.seq = .full := by
  rw [copyFate, absent]

variable (found : findNode nodes a.origin = some n)
  (is : d = (a.seq.toNat + 4294967296 - n.seq.toNat) % 4294967296)
include found is

theorem copyFate_newer (newer : 1 ≤ d ∧ d ≤ 2147483647) : copyFate nodes a.origin a.seq = .full := by
  have order : compareSeq a.seq n.seq = .newer := by
    rw [compareSeq, compareSeq_distance, ← is]
    exact (if_neg (by omega)).trans (if_pos (by omega))
  rw [copyFate, found]
  simp only [order]

theorem copyFate_older (older : 2147483648 ≤ d) : copyFate nodes a.origin a.seq = .stale := by
  have order : compareSeq a.seq n.seq = .older := by
    rw [compareSeq, compareSeq_distance, ← is]
    exact (if_neg (by omega)).trans (if_neg (by omega))
  rw [copyFate, found]
  simp only [order]

theorem copyFate_equal (equal : d = 0) :
    copyFate nodes a.origin a.seq = if n.isLive then .refresh else .stale := by
  have order : compareSeq a.seq n.seq = .equal := by
    rw [compareSeq, compareSeq_distance, ← is]
    exact if_pos equal
  rw [copyFate, found]
  simp only [order]

end

/-! ## The record (R44 to R47) -/

section
variable (lifetime : Nat) (entries : List DialectEntry) (a : Advertisement)

/-- What the node section of a copy counts. -/
def nodeTally : MapTally := (MapTally.mk 0 0 false).after entries true a.nodeAttrs

/-- The FULL record of a copy. -/
def fullOf : FullRecord where
  origin := a.origin
  dialect := a.dialect
  seq := a.seq
  lifetime := lifetimeOf lifetime entries a
  regens := scalarSet entries a.nodeAttrs .nodeRegens
  transitQ := scalarSet entries a.nodeAttrs .nodeTransitQ
  incomplete := decide (32 < a.links.length)
  items := (a.links.take 32).map (linkItem entries)

theorem fullRecord_eq : fullRecord lifetime entries a = .record (.full (fullOf lifetime entries a))
    ((nodeTally entries a).after entries false ((a.links.take 32).flatMap (·.attrs))) := by
  rw [fullRecord, mapNode_eq, mapLinks_eq]
  rfl

theorem refreshRecord_eq : refreshRecord lifetime entries a =
    .record (.refresh a.origin a.seq (lifetimeOf lifetime entries a)) (nodeTally entries a) := by
  rw [refreshRecord, mapNode_eq]
  rfl

theorem fullOf_fullOf : FullOf lifetime entries a (fullOf lifetime entries a) := by
  refine ⟨rfl, rfl, rfl, rfl, rfl, rfl, decide_eq_true_iff, ?_, ?_⟩
  case refine_1 => rw [fullOf, List.length_map, List.length_take]
  case refine_2 =>
    intro k l i link item
    obtain ⟨l', taken, rfl⟩ := Option.map_eq_some_iff.1 ((List.getElem?_map ..).symm.trans item)
    have stands : a.links[k]? = some l' := by
      rw [List.getElem?_take] at taken
      split at taken
      case isTrue => exact taken
      case isFalse => cases taken
    obtain rfl : l = l' := Option.some.inj (link.symm.trans stands)
    exact linkItem_itemOf entries l

end

/-! ## What a walked copy becomes (R36) -/

section
variable {a : Advertisement} {entries : List DialectEntry} (is : s.prb.active.dialect a.dialect = some entries)
  (valid : entries.any (·.valid) = true) (walked : walkCopy copy = some a)
include is valid walked

theorem translate_full (fate : copyFate s.tst.nodes a.origin a.seq = .full) :
    translate s copy = fullRecord s.cfg.defaultLifetime entries a := by
  obtain ⟨tag, bytes, rfl, tagged⟩ := walkCopy_tag walked
  rw [translate, tagged, is]
  simp only [valid, walked, fate, Bool.not_true, Bool.false_eq_true, if_false]

theorem translate_refresh (fate : copyFate s.tst.nodes a.origin a.seq = .refresh) :
    translate s copy = refreshRecord s.cfg.defaultLifetime entries a := by
  obtain ⟨tag, bytes, rfl, tagged⟩ := walkCopy_tag walked
  rw [translate, tagged, is]
  simp only [valid, walked, fate, Bool.not_true, Bool.false_eq_true, if_false]

theorem translate_stale (fate : copyFate s.tst.nodes a.origin a.seq = .stale) : translate s copy = .stale := by
  obtain ⟨tag, bytes, rfl, tagged⟩ := walkCopy_tag walked
  rw [translate, tagged, is]
  simp only [valid, walked, fate, Bool.not_true, Bool.false_eq_true, if_false]

end

section
variable {a : Advertisement} {entries : List DialectEntry} {r : UpdateRecord} {m : MapTally}

/-- A record is handed over of a copy with a valid entry of its dialect. -/
theorem valid_of_record (is : s.prb.active.dialect a.dialect = some entries) (walked : walkCopy copy = some a)
    (made : translate s copy = .record r m) : entries.any (·.valid) = true := by
  obtain ⟨tag, bytes, rfl, tagged⟩ := walkCopy_tag walked
  by_contra invalid
  rw [translate_noEntry (tagged ▸ is) (Bool.eq_false_of_not_eq_true invalid)] at made
  cases made

/-- R37, R38, R40: a record counts the attributes of the sections that were mapped. -/
theorem record_tally (is : s.prb.active.dialect a.dialect = some entries) (walked : walkCopy copy = some a)
    (made : translate s copy = .record r m) :
    ((∃ x, r = .full x) ∧ m = (nodeTally entries a).after entries false ((a.links.take 32).flatMap (·.attrs))) ∨
      (∃ i q l, r = .refresh i q l) ∧ m = (nodeTally entries a).after entries false [] := by
  have valid := valid_of_record is walked made
  cases fate : copyFate s.tst.nodes a.origin a.seq with
  | full =>
    rw [translate_full is valid walked fate, fullRecord_eq] at made
    obtain ⟨rfl, rfl⟩ := Translated.record.inj made
    exact .inl ⟨⟨_, rfl⟩, rfl⟩
  | refresh =>
    rw [translate_refresh is valid walked fate, refreshRecord_eq] at made
    obtain ⟨rfl, rfl⟩ := Translated.record.inj made
    exact .inr ⟨⟨_, _, _, rfl⟩, (MapTally.after_nil ..).symm⟩
  | stale => rw [translate_stale is valid walked fate] at made; cases made

end

/-- The numbers of a tally over a copy's node section and its mapped links. -/
theorem tally_counts (entries : List DialectEntry) (a : Advertisement) (links : List AdvLink) {m : MapTally}
    (is : m = (nodeTally entries a).after entries false (links.flatMap (·.attrs))) :
    m.unmapped = (a.nodeAttrs.filter (Attribute.isUnmapped entries true)).length +
      ((links.flatMap (·.attrs)).filter (Attribute.isUnmapped entries false)).length ∧
    m.badLength = (a.nodeAttrs.filter (Attribute.isBadLength entries true)).length +
      ((links.flatMap (·.attrs)).filter (Attribute.isBadLength entries false)).length ∧
    (m.clamped = true ↔ (∃ x ∈ a.nodeAttrs, x.isClamped entries true = true) ∨
      ∃ l ∈ links, ∃ x ∈ l.attrs, x.isClamped entries false = true) := by
  subst is
  refine ⟨?_, ?_, ?_⟩
  · simp only [nodeTally, MapTally.after, Nat.zero_add]
  · simp only [nodeTally, MapTally.after, Nat.zero_add]
  · simp only [nodeTally, MapTally.after, Bool.false_or, Bool.or_eq_true, List.any_flatMap, List.any_eq_true]

/-! ## The translation event (R30) -/

section
variable {more : List (List Byte)} (queue : s.atr.queue = copy :: more) (awake : s.stc.part ≠ .standby)
  (free : s.atr.handed = none)
include queue awake free

theorem translationEvent_taken : s.translationEvent =
    ({ s with atr := { s.atr with queue := more } } : State).finishTranslation (translate s copy) := by
  rw [State.translationEvent, queue]
  simp only [standby_eq_false.2 awake, free, Option.isSome_none, Bool.or_self, Bool.false_eq_true, if_false]

end

theorem finishTranslation_queue (s : State) (t : Translated) :
    (s.finishTranslation t).atr.queue = s.atr.queue ∧ (s.finishTranslation t).tst = s.tst := by
  cases t <;> exact ⟨rfl, rfl⟩

end

/-- Settles O44: the copy taken ends by `translate`'s result, which the walk of `walkCopy_iff`, the distance of the
sequences and the tallies and values of `mapNode_eq` and `mapLinks_eq` decide. -/
theorem translationTakesTheHeadCopy : Obligations.TranslationTakesTheHeadCopy := by
  unfold Obligations.TranslationTakesTheHeadCopy
  refine ⟨?event, ?tally, walkCopy_iff, fun b tag entries known => (dialect_of_known known).1, ?malformed, ?fate,
    fun b bs => ⟨rfl, decodeNat_cons b bs⟩, fun bs off => ⟨fieldNat_two bs off, field32_two bs off⟩⟩
  case event =>
    intro s copy more queue awake free
    refine ⟨s.translationEvent, exec_translationEvent s, ?_⟩
    rw [translationEvent_taken queue awake free]
    obtain ⟨left, store⟩ := finishTranslation_queue { s with atr := { s.atr with queue := more } } (translate s copy)
    refine ⟨left, store, ?_, fun is => ?_, fun is => ?_, fun r m is => ?_⟩
    case refine_1 =>
      rintro tag bytes rfl unknown
      rw [dialect_cases tag unknown bytes]
      exact ⟨free, rfl, rfl⟩
    case refine_2 => rw [is]; exact ⟨free, rfl, rfl⟩
    case refine_3 => rw [is]; exact ⟨free, rfl, rfl⟩
    case refine_4 => rw [is]; exact ⟨rfl, rfl, rfl⟩
  case tally =>
    intro s copy r m a entries links made walked is hlinks
    obtain ⟨⟨x, rfl⟩, counted⟩ | ⟨⟨i, q, l, rfl⟩, counted⟩ := record_tally is walked made
    case inl => exact tally_counts entries a links (hlinks ▸ counted)
    case inr => exact tally_counts entries a links (hlinks ▸ counted)
  case malformed =>
    rintro s copy tagged foreign
    have unwalked : walkCopy copy = none := Option.eq_none_iff_forall_ne_some.2 fun a walked =>
      have ⟨fit, unread, is⟩ := (walkCopy_iff copy a).1 walked
      foreign a unread fit is
    obtain rfl | ⟨tag, bytes, entries, rfl, known⟩ := tagged
    case inl => rfl
    case inr =>
      obtain ⟨is, valid⟩ := dialect_of_known known
      exact translate_unwalked is valid unwalked
  case fate =>
    rintro s a unread entries copy full refresh stale fit hcopy known rfl rfl rfl
    obtain ⟨is, valid⟩ := dialect_of_known known
    have walked : walkCopy copy = some a := (walkCopy_iff copy a).2 ⟨fit, unread, hcopy⟩
    have full (fate : copyFate s.tst.nodes a.origin a.seq = .full) :
        ∃ r m, translate s copy = .record (.full r) m ∧ FullOf s.cfg.defaultLifetime entries a r :=
      ⟨_, _, (translate_full is valid walked fate).trans (fullRecord_eq ..), fullOf_fullOf ..⟩
    refine ⟨fun absent => full (copyFate_absent absent), fun n d found hd => ⟨fun newer => full
      (copyFate_newer found hd newer), fun older => translate_stale is valid walked (copyFate_older found hd older),
      fun equal live => ?_, fun equal withdrawn => ?_⟩⟩
    case refine_1 =>
      have fate := (copyFate_equal found hd equal).trans (if_pos live)
      exact ⟨_, (translate_refresh is valid walked fate).trans (refreshRecord_eq ..)⟩
    case refine_2 =>
      have fate := (copyFate_equal found hd equal).trans (if_neg (by simp [withdrawn]))
      exact translate_stale is valid walked fate

end Sys2Proof.Machine
